-- ==== Sys2Proof/Word.lean ====
section
/-! DEFINITION. Word types of the Psibor machine and the plainest facts about their widths. -/

namespace Sys2Proof

/-- One byte of memory (R14). -/
abbrev Byte := BitVec 8

/-- A v register of one lane (R7). -/
abbrev Word32 := BitVec 32

/-- An s register, a PC or a special register (R7, R9). -/
abbrev Word64 := BitVec 64

/-- One slot of a fetch line: an instruction word (R70). -/
abbrev Slot := BitVec 96

/-- A set of lanes of one team, lane l at bit l; a team has at most 1,024 lanes (R132). -/
abbrev LaneSet := BitVec 1024

end Sys2Proof
end

