-- ==== Sys2Proof/Config.lean ====
section
/-! DEFINITION. What an implementation fixes and what the spec leaves open: constants with no body, so that no proof can
rest on a value of them. -/

namespace Sys2Proof.Config

/-! ### Free values -/

/-- A value that the spec leaves open, fresh for each number of a counter held in State (log 3). -/
opaque freeWord : Nat → BitVec 64

/-- The byte at an offset of the reconvergence block, whose layout the device alone reads (R348, log 4). -/
opaque reconvergenceByte : List (Bool × Word64 × LaneSet) → Nat → Byte

/-! ### The device as made (R386, R387) -/

/-- Silicon revision and serial (entry 0x0001). -/
opaque revision : Word64
opaque serial : Word64

/-- The channel map of a stack (entry 0x0003). -/
opaque channelMap : Nat → BitVec 32

/-- Identifier and version of each microprogram (entry 0x0004). -/
opaque microprograms : List (BitVec 16 × BitVec 16)

/-- Highest minor version known of the readable Fermasa major (entry 0x0005). -/
opaque fermasaMinor : BitVec 16

/-- MAC address of a port (entry 0x0006). -/
opaque portMac : Nat → BitVec 48

/-! ### Gwynfebel (R377, R381, R390) -/

/-- An ML-DSA-44 signature of the vendor key over a sequence of bytes verifies. -/
opaque vendorVerifies : List Byte → List Byte → Bool

/-- The device's own ML-DSA-44 signature over a sequence of bytes. -/
opaque deviceSign : List Byte → List Byte

/-- The watch-core firmware and each microprogram that bring-up finds, as bytes, for each number of what it may find (R390). -/
opaque firmware : Nat → List (List Byte)

/-- The vendor certificate chain (R390). -/
opaque vendorChain : List Byte

/-- The identifier of the key that signs a checkpoint container (R381). -/
opaque signerKey : Word64

/-- A fresh nonce, for each number of the counter (R377). -/
opaque freshNonce : Nat → BitVec 256

end Sys2Proof.Config
end

