-- ==== Sys2Proof/Syntax.lean ====
section
/-! DEFINITION. Abstract syntax: one constructor of Instr for every row of the opcode table. The first part
are the instruction words of R70 to R95, with the fields their format gives them; the second part are the device's
own moves (events), whose arguments name the objects that the move concerns. -/

namespace Sys2Proof

/-- Element types, in the order of their TY code (R71). -/
inductive Ty where
  | i32 | n32 | i64 | n64 | f32 | f64 | f16 | bf16 | i16 | n16 | i8 | n8 | tap8 | tap6 | e4m3 | e5m2
deriving DecidableEq, Repr

/-- Operand classes (R78): v, s, class 10 (m or special register or none) and class 11 (z, b). -/
inductive Cls where
  | v | s | m | x
deriving DecidableEq, Repr

/-- An operand field: a class and a number (R78). -/
structure Opd where
  cls : Cls
  num : BitVec 8
deriving DecidableEq, Repr

/-- A modifier field: a view and a selector (R79). -/
structure Modifier where
  view : BitVec 2
  sel : BitVec 3
deriving DecidableEq, Repr

/-- The rounding field (R72); 110 and 111 are reserved and never decode (R82). -/
inductive Rm where
  | dyn | rn | rz | rd | ru | rna
deriving DecidableEq, Repr

/-- The ordering field of format M (R75). -/
inductive Ord where
  | relaxed | acquire | release | acqRel
deriving DecidableEq, Repr

/-- The scope field (R75); 110 and 111 are reserved and never decode (R85). -/
inductive Scope where
  | team | group | cluster | die | package | system
deriving DecidableEq, Repr

/-- The address spaces (R75); the other codes are reserved and never decode. -/
inductive Space where
  | global | spad | cwin
deriving DecidableEq, Repr

/-- The predicate of an instruction: negation and mask register (R70, R32). -/
structure Pred where
  pn : Bool
  pm : BitVec 4
deriving DecidableEq, Repr

/-- Format R (R72). -/
structure RWord where
  d : Opd
  a : Opd
  b : Opd
  c : Opd
  ma : Modifier
  mb : Modifier
  mc : Modifier
  fea : Bool
  feb : Bool
  fec : Bool
  sat : Bool
  rm : Rm
  simm : BitVec 11
deriving DecidableEq, Repr

/-- Format I (R73). -/
structure IWord where
  d : Opd
  a : Opd
  imm : BitVec 32
  ma : Modifier
  fea : Bool
  sat : Bool
  rm : Rm
deriving DecidableEq, Repr

/-- The word of an opcode that admits format R and format I (R84, XOP bit 5). -/
inductive RI where
  | r (w : RWord)
  | i (w : IWord)
deriving DecidableEq, Repr

/-- Format L (R74): destination class (false v, true s), number and immediate. -/
structure LWord where
  dc : Bool
  dn : BitVec 8
  imm : BitVec 64
deriving DecidableEq, Repr

/-- Format M (R75). -/
structure MWord where
  d : Opd
  a : Opd
  b : Opd
  off : BitVec 20
  ord : Ord
  scope : Scope
  fea : Bool
  feb : Bool
  fed : Bool
  space : Space
deriving DecidableEq, Repr

/-- Format X (R76). -/
structure XWord where
  d : Opd
  a : Opd
  b : Opd
  c : Opd
  handle : BitVec 12
  be : Bool
  bn : BitVec 4
  cimm : BitVec 16
deriving DecidableEq, Repr

/-- The REP word (R89): count minus 1 and the four steps. -/
structure RepWord where
  cnt : BitVec 6
  sd : BitVec 3
  sa : BitVec 3
  sb : BitVec 3
  sc : BitVec 3
deriving DecidableEq, Repr

/-- The conditions of CMP and PCMP (R84, R109). -/
inductive Cond where
  | eq | ne | lt | le | gt | ge
deriving DecidableEq, Repr

/-- The conditions of FCMP (R84, R116). -/
inductive FCond where
  | eq | ne | lt | le | gt | ge | un | ord
deriving DecidableEq, Repr

/-- What BRC and the first three forms of VOTE ask of the active lanes (R84). -/
inductive Quant where
  | any | all | none
deriving DecidableEq, Repr

/-- The four forms of VOTE (R167). -/
inductive VoteOp where
  | quant (q : Quant)
  | ballot
deriving DecidableEq, Repr

/-- The operations of REDL, SCANL and RED, in the order of their XOP value (R84). -/
inductive RedOp where
  | add | min | max | and | or | xor
deriving DecidableEq, Repr

/-- The operations of ATOM (R84). -/
inductive AtomOp where
  | red (op : RedOp)
  | exch
  | cas
deriving DecidableEq, Repr

/-- The operations of MSK (R170). -/
inductive MskOp where
  | and | or | xor | andn | not
deriving DecidableEq, Repr

/-- The semirings of MLOOP (R84, R67). -/
inductive Semiring where
  | plusTimes | minPlus | maxTimes | orAnd
deriving DecidableEq, Repr

/-- The paths of DRAIN, in the order of their XOP value (R84). -/
inductive Path where
  | rwin | spad | clus | acc | glob | host | flash
deriving DecidableEq, Repr

/-- A register page of the host link: that of a virtual function (R373) or of the physical function (R376). -/
inductive Page where
  | vf (n : Nat)
  | pf
deriving DecidableEq, Repr

/-- Where the watch core places one group of a unit: core, group slot, scratchpad base in 4 KiB units (R340), and the
image base of the group's team 0, in 64 KiB units (R184). -/
structure Placement where
  core : Nat
  slot : Nat
  spb : Nat
  image : Nat
deriving DecidableEq, Repr

/-- What the replay threshold may have run out for (R292, R334, R354). -/
inductive Waiter where
  | team (t : Nat)
  | copy (k : Nat)
  | command (k : Nat)
  | entry (vf q : Nat)
deriving DecidableEq, Repr

/-- How a put or a flash command ends, as seen at the module's edge (R380, R385). -/
inductive LinkEnd where
  | good
  | failed (cause : BitVec 8)
deriving DecidableEq, Repr

/-- What an invasive debugger asks of a team (R388). -/
inductive DebugAsk where
  | halt
  | singleStep
  | resume
  | writeV (reg lane : Nat) (value : Word32)
  | writeS (reg : Nat) (value : Word64)
  | writeM (reg : Nat) (value : LaneSet)
  | writePc (value : Word64)
deriving DecidableEq, Repr

/-- What one report of system software says about bring-up (R391): whether step 1 verified, which firmware and microprograms it
found, the stacks that trained, the enabled cores and ports. -/
structure BringUpReport where
  verified : Bool
  firmware : Nat
  stackSet : BitVec 12
  cores : LaneSet
  ports : BitVec 24
deriving DecidableEq, Repr

/-- One constructor per row of the opcode table. -/
inductive Instr where
  -- integer and address instructions (R101 to R113)
  | nop
  | add (p : Pred) (t : Ty) (w : RI)
  | sub (p : Pred) (t : Ty) (w : RI)
  | addc (p : Pred) (t : Ty) (w : RWord)
  | subb (p : Pred) (t : Ty) (w : RWord)
  | mul (p : Pred) (t : Ty) (w : RI)
  | mulh (p : Pred) (t : Ty) (w : RI)
  | mad (p : Pred) (t : Ty) (w : RWord)
  | div (p : Pred) (t : Ty) (w : RI)
  | rem (p : Pred) (t : Ty) (w : RI)
  | neg (p : Pred) (t : Ty) (w : RWord)
  | abs (p : Pred) (t : Ty) (w : RWord)
  | min (p : Pred) (t : Ty) (w : RI)
  | max (p : Pred) (t : Ty) (w : RI)
  | and (p : Pred) (t : Ty) (w : RI)
  | or (p : Pred) (t : Ty) (w : RI)
  | xor (p : Pred) (t : Ty) (w : RI)
  | andn (p : Pred) (t : Ty) (w : RI)
  | shl (p : Pred) (t : Ty) (w : RI)
  | shr (p : Pred) (t : Ty) (w : RI)
  | sra (p : Pred) (t : Ty) (w : RI)
  | rot (p : Pred) (t : Ty) (w : RI)
  | clz (p : Pred) (t : Ty) (w : RWord)
  | popc (p : Pred) (t : Ty) (w : RWord)
  | brev (p : Pred) (t : Ty) (w : RWord)
  | bfx (p : Pred) (t : Ty) (w : RI)
  | bfi (p : Pred) (t : Ty) (w : RWord)
  | ffcs (p : Pred) (t : Ty) (w : RWord)
  | plset (p : Pred) (t : Ty) (w : RWord)
  | sel (p : Pred) (t : Ty) (w : RWord)
  | cmp (p : Pred) (t : Ty) (cc : Cond) (w : RI)
  | mov (p : Pred) (t : Ty) (w : RI)
  | movi (p : Pred) (t : Ty) (w : LWord)
  | lea (p : Pred) (t : Ty) (w : RI)
  | movmTor (p : Pred) (w : RWord)
  | movmTom (p : Pred) (w : RWord)
  -- packed subwords (R156 to R161)
  | padd (p : Pred) (t : Ty) (w : RWord)
  | psub (p : Pred) (t : Ty) (w : RWord)
  | pmul (p : Pred) (t : Ty) (w : RWord)
  | pmac (p : Pred) (t : Ty) (w : RWord)
  | pmin (p : Pred) (t : Ty) (w : RWord)
  | pmax (p : Pred) (t : Ty) (w : RWord)
  | pcmp (p : Pred) (t : Ty) (cc : Cond) (w : RWord)
  | pshr (p : Pred) (t : Ty) (w : RI)
  | pnar (p : Pred) (t : Ty) (w : RWord)
  | pwid (p : Pred) (t : Ty) (w : RWord)
  -- floating point (R114 to R120)
  | fadd (p : Pred) (t : Ty) (w : RI)
  | fsub (p : Pred) (t : Ty) (w : RI)
  | fmul (p : Pred) (t : Ty) (w : RI)
  | fma (p : Pred) (t : Ty) (w : RWord)
  | fdiv (p : Pred) (t : Ty) (w : RI)
  | fsqrt (p : Pred) (t : Ty) (w : RWord)
  | frsq (p : Pred) (t : Ty) (w : RWord)
  | fmin (p : Pred) (t : Ty) (w : RI)
  | fmax (p : Pred) (t : Ty) (w : RI)
  | fcmp (p : Pred) (t : Ty) (cc : FCond) (sig : Bool) (w : RI)
  | fclass (p : Pred) (t : Ty) (w : RWord)
  | frnd (p : Pred) (t : Ty) (w : RWord)
  | fscale (p : Pred) (t : Ty) (w : RI)
  | fexp2 (p : Pred) (t : Ty) (w : RWord)
  | flog2 (p : Pred) (t : Ty) (w : RWord)
  | fupd (p : Pred) (adam : Bool) (w : RWord)
  -- conversions (R121 to R123); src is the source type
  | cvt (p : Pred) (t : Ty) (src : Ty) (w : RWord)
  | cvts (p : Pred) (t : Ty) (src : Ty) (w : RWord)
  | cvtb (p : Pred) (t : Ty) (src : Ty) (w : RWord)
  -- control (R124 to R127, R302)
  | bra (p : Pred) (target : BitVec 33)
  | brc (p : Pred) (q : Quant) (target : BitVec 33) (a : Opd)
  | brd (target : BitVec 33) (a : Opd) (rcv : BitVec 30)
  | join
  | jmp (p : Pred) (a : Opd)
  | call (p : Pred) (target : BitVec 33) (a : Opd)
  | ret (p : Pred) (a : Opd)
  | loop (p : Pred) (target : BitVec 33) (a : Opd)
  | exit (p : Pred)
  | pick (p : Pred) (target : BitVec 33)
  -- across the lanes of a team (R162 to R172)
  | slide (p : Pred) (down : Bool) (t : Ty) (w : RWord)
  | shfl (p : Pred) (byXor : Bool) (t : Ty) (w : RWord)
  | bcast (p : Pred) (t : Ty) (w : RWord)
  | redl (p : Pred) (op : RedOp) (t : Ty) (w : RWord)
  | scanl (p : Pred) (op : RedOp) (excl : Bool) (t : Ty) (w : RWord)
  | vote (p : Pred) (op : VoteOp) (w : RWord)
  | elect (p : Pred) (w : RWord)
  | widf (p : Pred) (t : Ty) (w : RWord)
  | msk (p : Pred) (op : MskOp) (w : RWord)
  | spawn (p : Pred) (w : XWord)
  -- barriers (R173 to R178)
  | bari (p : Pred) (w : RWord)
  | bara (p : Pred) (w : RWord)
  | barw (p : Pred) (w : RWord)
  | bars (p : Pred) (w : RWord)
  -- memory (R128, R240 to R251)
  | ld (p : Pred) (t : Ty) (w : MWord)
  | st (p : Pred) (t : Ty) (w : MWord)
  | ldg (p : Pred) (t : Ty) (w : MWord)
  | stg (p : Pred) (t : Ty) (w : MWord)
  | ldt (p : Pred) (t : Ty) (w : XWord)
  | stt (p : Pred) (t : Ty) (w : XWord)
  | pref (p : Pred) (t : Ty) (w : MWord)
  | atom (p : Pred) (op : AtomOp) (t : Ty) (w : MWord)
  | red (p : Pred) (op : RedOp) (t : Ty) (w : MWord)
  | bfaIns (p : Pred) (w : MWord)
  | bfaFfcs (p : Pred) (w : MWord)
  | bfaPlset (p : Pred) (w : MWord)
  | fence (p : Pred) (w : MWord)
  | fencesc (p : Pred) (w : MWord)
  -- soft regions and handles (R252 to R266)
  | sld (p : Pred) (w : XWord)
  | sst (p : Pred) (w : XWord)
  | sepoch (p : Pred) (w : XWord)
  | sepochBind (p : Pred) (w : XWord)
  | sepochUnbind (p : Pred) (w : XWord)
  | harden (p : Pred) (w : XWord)
  | slda (p : Pred) (w : XWord)
  | ssta (p : Pred) (w : XWord)
  | hatt (p : Pred) (w : XWord)
  | hdet (p : Pred) (w : XWord)
  | hset (p : Pred) (w : XWord)
  | hget (p : Pred) (w : XWord)
  -- engines (R303 to R326)
  | moor (p : Pred) (t : Ty) (w : XWord)
  | unmoor (p : Pred) (w : XWord)
  | mloop (p : Pred) (sr : Semiring) (unf : Bool) (t : Ty) (w : XWord)
  | mloopg (p : Pred) (sr : Semiring) (unf : Bool) (t : Ty) (w : XWord)
  | oprdy (p : Pred) (w : XWord)
  | mfence (p : Pred) (w : XWord)
  | mwait (p : Pred) (w : XWord)
  | accz (p : Pred) (w : XWord)
  | accrd (p : Pred) (t : Ty) (w : XWord)
  | accwr (p : Pred) (t : Ty) (w : XWord)
  | cpyPlain (p : Pred) (w : XWord)
  | cpyTile (p : Pred) (w : XWord)
  | cpyTr (p : Pred) (w : XWord)
  | cpyMcast (p : Pred) (w : XWord)
  | cpyFlash (p : Pred) (w : XWord)
  | cpys (p : Pred) (w : XWord)
  | cpyr (p : Pred) (t : Ty) (w : XWord)
  | drain (p : Pred) (path : Path)
  | fold (p : Pred) (w : XWord)
  | emb (p : Pred) (mean : Bool) (w : XWord)
  | upd (p : Pred) (adam : Bool) (w : XWord)
  -- system (R129 to R131, R345, R346, R366) and REP (R89)
  | trap (p : Pred) (w : IWord)
  | eret (w : RWord)
  | srd (p : Pred) (t : Ty) (w : RWord)
  | swr (p : Pred) (t : Ty) (w : RWord)
  | tmaskMask (w : RWord)
  | tmaskUnmask (w : RWord)
  | bkpt (p : Pred) (w : RWord)
  | eclw (p : Pred) (pkg : Bool) (w : RWord)
  | launch (p : Pred) (w : XWord)
  | yield (p : Pred) (w : RWord)
  | rep (w : RepWord)
  -- EVENTS. Pending work of the memory system (R11, R222 to R236, R202, R299)
  | errorInjection (site : BitVec 3) (addr : BitVec 56)
  | producerCompletion (prod : Nat)
  | accessPerform (acc : Nat)
  | reductionEntry (acc : Nat)
  | reductionMerge (acc other : Nat)
  | blendEntry (acc : Nat)
  | teamRetirement (team : Nat)
  | packerTake (launch queue : Nat)
  | fillingTeamTimeout (launch queue : Nat)
  | copyCompletion (copy : Nat)
  | moorConversionDone (team : Nat)
  | matrixStep (group : Nat)
  | shareDelivery (issue member : Nat)
  | mloopgStatus (issue : Nat)
  | commandEntry (cmd : Nat)
  | foldMove (cmd : Nat)
  | embBag (cmd lane : Nat)
  | updElement (cmd elem : Nat)
  | completionWord (cmd : Nat)
  | aliasAdd (acc : Nat)
  | aliasMinMax (acc : Nat)
  | aliasBitwise (acc : Nat)
  | rowFill (acc : Nat)
  | rowCopy (acc : Nat)
  | planeMultiplyAccumulate (acc : Nat)
  | planeAdd (acc : Nat)
  | microprogramBurst (acc : Nat)
  | remapSwap (hot cool : Nat)
  | swapHoldEnd (stack : Nat)
  | registerWindowWrite (acc : Nat)
  | emptyingWindowWrite (acc : Nat)
  -- faults and waiting (R353 to R367)
  | replayWalk (team : Nat)
  | replayThreshold (who : Waiter)
  | beaconTick (busy : List Nat)
  | diePhaseEnd (die : Nat)
  | packagePhaseEnd
  | eclwLimitExpiry (team : Nat)
  -- launches and the scheduler (R329 to R346, R356, R357)
  | queueWrite (vf q : Nat) (tail : BitVec 32)
  | entryTake (vf q : Nat)
  | distribution (launch : Nat)
  | bind (unit : Nat) (places : List Placement)
  | evict (unit : Nat)
  | preEmption (unit : Nat)
  | heldPreEmptionForce (team : Nat)
  | launchCompletion (launch : Nat)
  | invalidation (vf : Nat) (value : Word64)
  | invalidationDone (vf : Nat)
  | qprioWrite (vf q : Nat) (prio : BitVec 3)
  | frrefWrite (vf : Nat) (value : Word64)
  | registerPageWrite (page : Page) (off : Nat) (size : Nat) (value : Word64)
  -- the system-software mailbox (R376, R377)
  | setdom
  | setmask
  | rowset
  | pin
  | patset
  | nsgrant
  | ckpt (err : Bool)
  | restore (err : Bool)
  | power
  | nonce
  | dbgauth
  | dbgend
  | attest
  | chain
  | peer
  | fusepr
  | unknownCommand
  | mailboxCompletion
  | bringUp (r : BringUpReport)
  -- fabric, storage, errors, ports and debug (R361, R374, R380, R384 to R388)
  | fabricDoorbell (vf : Nat)
  | put (vf : Nat)
  | putAcknowledge (put : Nat) (res : LinkEnd)
  | flashExtent (copy extent : Nat) (err : Bool)
  | softError (addr : Nat) (uncorrectable : Bool)
  | frheadWrite (vf : Nat) (value : BitVec 32)
  | portStateChange (port : Nat) (up : Bool)
  | incomingPut (vf : Nat) (dst : BitVec 56) (data : List Byte) (signal : Option (BitVec 56 × Word64))
  | invasiveDebugCommand (team : Nat) (ask : DebugAsk)
deriving DecidableEq, Repr

end Sys2Proof
end

