-- ==== Sys2Proof/WellFormed.lean ====
section
/-! DEFINITION. The decode-time checks of R85 on the fields of an instruction word: what a word must satisfy, beyond its
opcode and XOP, to be an instruction. Operand classes and numbers are NOT checked here: they are step 4 of R20 (R86). -/

namespace Sys2Proof

/-- The all-zero operand field (R78); an unused operand field holds it. -/
def Opd.zero : Opd := ⟨.v, 0⟩

/-- The operand 'none': class 10, number 0 (R75, R165, R175). -/
def Opd.none : Opd := ⟨.m, 0⟩

/-- A modifier field that asks for nothing (R79). -/
def Modifier.plain : Modifier := ⟨0, 0⟩

/-- PM = 0 with PN = 1 is reserved (R70). -/
def Pred.ok (p : Pred) : Bool := !(p.pm == 0 && p.pn)

/-- The types of R40 that TY codes: the 'Int' of the integer section (R101). -/
def Ty.isInt : Ty → Bool
  | .i32 | .n32 | .i64 | .n64 | .i16 | .n16 | .i8 | .n8 => true
  | _ => false

/-- The 'Flt' of the floating-point section (R114). -/
def Ty.isFlt : Ty → Bool
  | .f64 | .f32 | .f16 | .bf16 => true
  | _ => false

/-- The 16- and 8-bit integer types of the packed instructions (R156). -/
def Ty.isPacked : Ty → Bool
  | .i16 | .n16 | .i8 | .n8 => true
  | _ => false

/-- Signed integer types (R40). -/
def Ty.isSigned : Ty → Bool
  | .i32 | .i64 | .i16 | .i8 => true
  | _ => false

/-- The width of a type in bits; a TAP6 element is read in the low 6 bits of its byte (R40, R43, R49). -/
def Ty.bits : Ty → Nat
  | .i64 | .n64 | .f64 => 64
  | .i32 | .n32 | .f32 => 32
  | .i16 | .n16 | .f16 | .bf16 => 16
  | .i8 | .n8 | .tap8 | .tap6 | .e4m3 | .e5m2 => 8

/-- Types of 64 bits, which take a v pair (R42). -/
def Ty.is64 (t : Ty) : Bool := t.bits == 64

/-- Types of 32 or 64 bits. -/
def Ty.isWide (t : Ty) : Bool := t.bits == 32 || t.bits == 64

/-- The scaled eight-bit and tapered formats, and I8 (R52). -/
def Ty.isScalable : Ty → Bool
  | .tap8 | .tap6 | .e4m3 | .e5m2 | .i8 => true
  | _ => false

/-- Which operand and option fields of a format R word an instruction uses; the others are zero (R85). -/
structure RShape where
  d : Bool := true
  a : Bool := true
  b : Bool := false
  c : Bool := false
  simm : Bool := false
  sat : Bool := false
  rm : Bool := false

/-- The checks of R85 on a format R word against the fields its instruction uses. -/
def RShape.fits (u : RShape) (w : RWord) : Bool :=
  (u.d || w.d == .zero) && (u.a || w.a == .zero) && (u.b || w.b == .zero) && (u.c || w.c == .zero) &&
    (u.simm || w.simm == 0) && (u.sat || !w.sat) && (u.rm || w.rm == .dyn)

/-- The rule of R73 for the upper bits of a format I immediate, by type; the eight-bit float and tapered types are
not accepted. -/
def immFits (t : Ty) (imm : BitVec 32) : Bool :=
  match t with
  | .i16 => imm == (imm.setWidth 16).signExtend 32
  | .i8 => imm == (imm.setWidth 8).signExtend 32
  | .n16 => imm.toNat < 65536
  | .n8 => imm.toNat < 256
  | .tap8 | .tap6 | .e4m3 | .e5m2 => false
  | _ => true

/-- The checks of R85 on a format I word: d and a say whether the operand is used. -/
def IWord.fits (w : IWord) (d a sat rm : Bool) : Bool :=
  (d || w.d == .zero) && (a || w.a == .zero) && (sat || !w.sat) && (rm || w.rm == .dyn)

/-- Format R or I with two sources, the second replaced by the immediate of R73. -/
def riFits (t : Ty) (sat rm : Bool) : RI → Bool
  | .r w => RShape.fits ⟨true, true, true, false, false, sat, rm⟩ w
  | .i w => w.fits true true sat rm && immFits t w.imm

/-- Is the finite F32 value of this pattern exactly a value of F16 or BF16 (R115)? Zeros, infinities and NaNs are
accepted. -/
def f32PatternFits (t : Ty) (imm : BitVec 32) : Bool :=
  let e := (imm.toNat / 2 ^ 23) % 256
  let f := imm.toNat % 2 ^ 23
  let sig := if e == 0 then f else 2 ^ 23 + f
  let ex := if e == 0 then 1 else e
  -- the value is sig times two to the (ex - 150)
  if e == 255 || sig == 0 then true
  else match t with
    | .f16 =>
      -- the largest F16 value is 2047 * 2^5; its spacing is 2^-24, or 2^(k) with 11 significant bits
      let lead := Nat.log2 sig + ex
      if lead ≥ 150 + 16 then false
      else
        let drop := Nat.max (Nat.log2 sig - 10) (126 - ex)
        sig % 2 ^ drop == 0
    | .bf16 => if e == 0 then sig % 2 ^ 16 == 0 else f % 2 ^ 16 == 0
    | _ => true

/-- The format M rules of R75 and R240: the orderings accepted, the spaces accepted, and SCOPE zero when relaxed. -/
def MWord.fits (w : MWord) (acq rel both spad cwin : Bool) : Bool :=
  (match w.ord with
    | .relaxed => w.scope == .team
    | .acquire => acq
    | .release => rel
    | .acqRel => both) &&
  (match w.space with
    | .global => true
    | .spad => spad
    | .cwin => cwin)

/-- As MWord.fits for ATOM, RED and BFA, whose SCOPE also names the scope of atomicity (R75, R240). -/
def MWord.fitsAtomic (w : MWord) (both : Bool) : Bool :=
  (w.ord == .relaxed || w.ord == .release || both) && w.space != .cwin

/-- Which fields of a format X word an instruction uses; the others are zero (R85). -/
structure XShape where
  d : Bool := false
  a : Bool := false
  b : Bool := false
  c : Bool := false
  handle : Bool := false
  barrier : Bool := false   -- BE = 1 accepted

/-- The checks of R85 and R76 on a format X word against the fields its instruction uses. -/
def XShape.fits (u : XShape) (w : XWord) : Bool :=
  (u.d || w.d == .zero) && (u.a || w.a == .zero) && (u.b || w.b == .zero) && (u.c || w.c == .zero) &&
    (u.handle || w.handle == 0) && (w.be || w.bn == 0) && (u.barrier || !w.be)

/-- Bits [hi:lo] of CIMM16 as a number. -/
def XWord.imm (w : XWord) (hi lo : Nat) : Nat := (w.cimm.toNat / 2 ^ lo) % 2 ^ (hi + 1 - lo)

/-- Layout P of CIMM16 (R240): a scope of at most 101, zero when relaxed, and an accepted ordering. -/
def XWord.layoutP (w : XWord) (relaxed acquire release : Bool) : Bool :=
  w.imm 15 5 == 0 && decide (w.imm 4 2 ≤ 5) &&
    (match w.imm 1 0 with
      | 0 => relaxed && w.imm 4 2 == 0
      | 1 => acquire
      | 2 => release
      | _ => false)

/-- Layout S of CIMM16 (R240): GRD only where accepted, bits [14:10] zero. -/
def XWord.layoutS (w : XWord) (grd : Bool) : Bool := w.imm 14 10 == 0 && (grd || w.imm 15 15 == 0)

/-- The types MOOR, MLOOP and MLOOPG can name: TY 0 reads as I4 and TY 1 as B1 (R41, R303, R305). -/
def Ty.isMoored : Ty → Bool
  | .i32 | .n32 | .f64 | .f32 | .f16 | .bf16 | .tap8 | .tap6 | .e4m3 | .e5m2 | .i8 => true
  | _ => false

/-- The accumulator rules of CIMM16 for ACCRD and ACCWR: KIND 00 takes the floating and tapered types only (R314). -/
def accFits (t : Ty) (w : XWord) : Bool :=
  w.imm 15 9 == 0 && w.imm 5 5 == 0 && (w.imm 7 6 != 0 || !t.isInt)

/-- The pairings of source type and destination DK that CPYR accepts (R294, R319). -/
def cpyrPair (t : Ty) (dk : Nat) : Bool :=
  match dk with
  | 0 | 1 => !t.isInt
  | 2 => t == .f32 || t == .f16 || t == .bf16
  | _ => t == .i32 || t == .i8

/-- The source and destination spaces of a copy, as SPACE is coded (R316, R317). -/
def XWord.spaces (w : XWord) (ss ds : List Nat) : Bool :=
  w.imm 15 8 == 0 && ss.contains (w.imm 3 0) && ds.contains (w.imm 7 4)

/-- The checks of R85 on an instruction's word. An event has no word. -/
def wellFormed : Instr → Bool
  | .nop => true
  | .add p t w | .sub p t w | .mul p t w | .div p t w | .shl p t w => p.ok && t.isInt && riFits t true false w
  | .mulh p t w | .rem p t w | .min p t w | .max p t w | .and p t w | .or p t w | .xor p t w | .andn p t w
  | .shr p t w | .sra p t w | .rot p t w => p.ok && t.isInt && riFits t false false w
  | .addc p t w | .subb p t w => p.ok && (t == .n32 || t == .n64) && RShape.fits { b := true, c := true } w
  | .mad p t w => p.ok && t.isInt && RShape.fits { b := true, c := true, sat := true } w
  | .neg p t w | .abs p t w => p.ok && t.isInt && RShape.fits { sat := true } w
  | .clz p t w | .popc p t w | .brev p t w => p.ok && t.isInt && RShape.fits {} w
  | .bfx p t w => p.ok && t.isInt && (match w with
      | .r w => RShape.fits { b := true } w
      | .i w => w.fits true true false false && decide (w.imm.toNat < 65536))
  | .bfi p t w => p.ok && t.isInt && RShape.fits { b := true, c := true } w
  | .ffcs p t w => p.ok && (t == .n32 || t == .n64) && RShape.fits {} w
  | .plset p t w => p.ok && (t == .n32 || t == .n64) && RShape.fits { b := true } w
  | .sel p _ w => p.ok && RShape.fits { b := true, c := true } w
  | .cmp p t _ w => p.ok && t.isInt && riFits t false false w
  | .mov p t w => p.ok && (match w with
      | .r w => RShape.fits {} w
      | .i w => w.fits true false false false && (t.isInt || t == .f32 || t == .f64) && immFits t w.imm)
  | .movi p t w => p.ok && (t.isWide) && (t.is64 || decide (w.imm.toNat < 2 ^ 32))
  | .lea p t w => p.ok && t.isInt && t.isWide && (match w with
      | .r w => RShape.fits { b := true, simm := true } w && decide (w.simm.toNat ≤ 7)
      | .i w => w.fits true true false false && immFits t w.imm)
  | .movmTor p w => p.ok && RShape.fits { simm := true } w && (w.d.cls == .s || w.simm == 0)
  | .movmTom p w => p.ok && RShape.fits { simm := true } w && (w.a.cls == .s || w.simm == 0)
  | .padd p t w | .psub p t w | .pmul p t w => p.ok && t.isPacked && RShape.fits { b := true, sat := true } w
  | .pmac p t w => p.ok && (t == .i16 || t == .n16) && RShape.fits { b := true, c := true } w
  | .pmin p t w | .pmax p t w | .pcmp p t _ w | .pnar p t w => p.ok && t.isPacked && RShape.fits { b := true } w
  | .pshr p t w => p.ok && (t.isPacked || t == .i32 || t == .n32) && (match w with
      | .r w => RShape.fits { b := true, rm := true } w
      | .i w => w.fits true true false true && decide (w.imm.toNat ≤ 31))
  | .pwid p t w => p.ok && t.isPacked && RShape.fits { simm := true } w && decide (w.simm.toNat ≤ 1)
  | .fadd p t w | .fsub p t w | .fmul p t w | .fdiv p t w => p.ok && t.isFlt && riFits t true true w
  | .fma p t w => p.ok && t.isFlt && RShape.fits { b := true, c := true, sat := true, rm := true } w
  | .fsqrt p t w | .frsq p t w | .fexp2 p t w | .flog2 p t w =>
    p.ok && t.isFlt && RShape.fits { sat := true, rm := true } w
  | .fmin p t w | .fmax p t w => p.ok && t.isFlt && riFits t false false w && (match w with
      | .r _ => true
      | .i w => f32PatternFits t w.imm)
  | .fcmp p t _ _ w => p.ok && t.isFlt && riFits t false false w
  | .fclass p t w => p.ok && t.isFlt && RShape.fits {} w
  | .frnd p t w => p.ok && t.isFlt && RShape.fits { rm := true } w
  | .fscale p t w => p.ok && t.isFlt && (match w with
      | .r w => RShape.fits { b := true, sat := true, rm := true } w
      | .i w => w.fits true true true true)
  | .fupd p _ w => p.ok && RShape.fits { b := true, c := true, simm := true } w &&
      decide (w.simm.toNat ≤ 60) && w.simm.toNat % 4 == 0
  -- SAT stands in the word for every destination; it has no effect on a tapered one (R82, R121; DEDUCED, log 93)
  | .cvt p _ _ w => p.ok && RShape.fits { sat := true, rm := true } w
  | .cvts p t src w => p.ok && t.isScalable && src.isFlt && RShape.fits { b := true, sat := true, rm := true } w
  | .cvtb p t src w => p.ok && t.isScalable && src.isFlt && RShape.fits {} w
  | .bra p _ | .brc p _ _ _ | .jmp p _ | .call p _ _ | .ret p _ | .loop p _ _ | .exit p | .pick p _ => p.ok
  | .brd _ _ _ | .join => true
  | .slide p _ _ w => p.ok && RShape.fits { b := true, simm := true } w && decide (w.simm.toNat ≤ 1023)
  | .shfl p _ t w => p.ok && t.isWide && RShape.fits { b := true } w
  | .bcast p t w => p.ok && t.isWide && RShape.fits { b := true, simm := true } w && (w.b == .none || w.simm == 0)
  | .redl p op t w => p.ok && (t.isInt || t.isFlt) && RShape.fits { sat := true, rm := true } w &&
      redFits op t w.sat w.rm
  | .scanl p op _ t w => p.ok && (t.isInt || t.isFlt) && RShape.fits { sat := true, rm := true } w &&
      redFits op t w.sat w.rm
  | .vote p op w => p.ok && RShape.fits { simm := true } w && (w.simm == 0 || (op == .ballot && w.d.cls == .s))
  | .elect p w => p.ok && RShape.fits { a := false } w
  | .widf p t w => p.ok && (t == .n32 || t == .n64) && RShape.fits { a := false, simm := true } w &&
      (decide (w.simm.toNat ≤ 5) || (decide (8 ≤ w.simm.toNat) && decide (w.simm.toNat ≤ 13)))
  | .msk p op w => p.ok && RShape.fits { b := true } w && (op != .not || w.b == .zero)
  | .spawn p w => p.ok && XShape.fits { a := true, b := true } w && w.imm 15 8 == 0 && decide (w.imm 7 4 ≤ 8) &&
      (w.imm 7 4 != 0 || w.b == .zero)
  | .bari p w => p.ok && RShape.fits { d := false, b := true, simm := true } w &&
      (if w.b == .none then decide (1 ≤ w.simm.toNat) && decide (w.simm.toNat ≤ 1023) else w.simm == 0)
  | .bara p w => p.ok && RShape.fits { d := false } w
  | .barw p w | .bars p w => p.ok && RShape.fits {} w
  | .ld p t w | .ldg p t w => p.ok && t != .tap6 && w.fits true false false true true
  | .st p t w | .stg p t w => p.ok && t != .tap6 && w.fits false true false true true
  | .ldt p _ w => p.ok && XShape.fits { d := true, a := true, handle := true } w && w.layoutP true true false
  | .stt p _ w => p.ok && XShape.fits { d := true, a := true, handle := true } w && w.layoutP true false true
  | .pref p t w => p.ok && t != .tap6 && w.d == .zero && w.fits false false false false false
  | .atom p op t w => p.ok && (t.isWide && t != .f32 && t != .f64 || ((t == .f32 || t == .f64) && atomFloat op)) &&
      w.fitsAtomic true
  | .red p op t w => p.ok && (t.isWide && t != .f32 && t != .f64 || ((t == .f32 || t == .f64) && atomFloat (.red op))) &&
      w.fitsAtomic false
  | .bfaIns p w | .bfaFfcs p w | .bfaPlset p w => p.ok && w.fitsAtomic true
  | .fence p w => p.ok && w.d == .zero && w.a == .zero && w.b == .zero && w.off == 0 && w.ord != .relaxed &&
      w.space == .global
  | .fencesc p w => p.ok && w.d == .zero && w.a == .zero && w.b == .zero && w.off == 0 && w.ord == .relaxed &&
      w.scope != .system && w.space == .global
  | .sld p w => p.ok && XShape.fits { d := true, a := true, b := true, handle := true } w && w.layoutS false
  | .sst p w => p.ok && XShape.fits { d := true, a := true, b := true, handle := true, barrier := true } w &&
      w.layoutS false && w.bn == 0
  | .sepoch p w => p.ok && XShape.fits { d := true, handle := true } w && w.imm 15 3 == 0 && w.imm 1 0 == 0
  | .sepochBind p w => p.ok && XShape.fits { handle := true, barrier := true } w && w.be && w.cimm == 1
  | .sepochUnbind p w => p.ok && XShape.fits { handle := true } w && w.cimm == 2
  | .harden p w => p.ok && XShape.fits { d := true, a := true, b := true, handle := true } w && w.imm 15 4 == 0
  | .slda p w => p.ok && XShape.fits { d := true, a := true, b := true, c := true, handle := true } w && w.layoutS true
  | .ssta p w => p.ok && XShape.fits { d := true, a := true, handle := true, barrier := true } w && w.imm 15 1 == 0
  | .hatt p w => p.ok && XShape.fits { d := true, a := true, handle := true } w && w.layoutP false false true
  | .hdet p w => p.ok && XShape.fits { d := true, handle := true } w && w.layoutP false false true
  | .hset p w => p.ok && XShape.fits { a := true, handle := true } w && w.layoutP false false true
  | .hget p w => p.ok && XShape.fits { d := true, handle := true } w && w.layoutP true true false
  | .moor p t w => p.ok && t.isMoored && XShape.fits { a := true } w && decide (1 ≤ w.imm 4 0) &&
      decide (w.imm 4 0 ≤ 16) && w.imm 15 6 == 0 && (w.imm 5 5 == 0 || t.isScalable)
  | .unmoor p w => p.ok && XShape.fits { a := true } w && w.cimm == 0
  | .mloop p _ _ t w => p.ok && t.isMoored && XShape.fits { a := true, b := true, c := true } w
  | .mloopg p _ _ t w => p.ok && t.isMoored && w.be &&
      XShape.fits { d := true, a := true, b := true, c := true, barrier := true } w
  | .oprdy p w => p.ok && XShape.fits { barrier := true } w && w.be && w.cimm == 0
  | .mfence p w => p.ok && XShape.fits { d := true } w && w.cimm == 0
  | .mwait p w => p.ok && XShape.fits { a := true } w && w.cimm == 0
  | .accz p w => p.ok && XShape.fits { d := true } w && w.imm 15 6 == 0 && w.imm 5 4 != 3
  | .accrd p t w | .accwr p t w => p.ok && XShape.fits { d := true, a := true, b := true } w && accFits t w
  | .cpyPlain p w => p.ok && XShape.fits { a := true, barrier := true } w && w.spaces [0, 1, 2] [0, 1, 2]
  | .cpyTile p w => p.ok && XShape.fits { a := true, barrier := true, handle := true } w && w.spaces [0] [1]
  | .cpyTr p w => p.ok && XShape.fits { a := true, barrier := true } w && w.spaces [0] [0, 1]
  | .cpyMcast p w => p.ok && XShape.fits { a := true, barrier := true } w && w.spaces [0, 1] [2]
  | .cpyFlash p w => p.ok && XShape.fits { a := true, barrier := true } w && w.spaces [0] [0]
  | .cpys p w => p.ok && XShape.fits { a := true, barrier := true } w && w.spaces [0, 1] [1]
  | .cpyr p t w => p.ok && XShape.fits { a := true, barrier := true } w && w.imm 15 15 == 0 &&
      decide (w.imm 3 0 ≤ 1) && (w.imm 7 4 == 0 && w.imm 14 10 == 0 || w.imm 7 4 == 2 && w.be) && cpyrPair t (w.imm 9 8)
  | .drain p _ => p.ok
  | .fold p w => p.ok && XShape.fits { d := true, a := true, b := true, handle := true } w && w.imm 15 4 == 0 &&
      decide (1 ≤ w.imm 3 0) && decide (w.imm 3 0 ≤ 8)
  | .emb p _ w => p.ok && XShape.fits { d := true, a := true, b := true, c := true, handle := true } w && w.cimm == 0
  | .upd p _ w => p.ok && XShape.fits { a := true } w && w.cimm == 0
  | .trap p w => p.ok && w.fits false false false false
  | .eret w | .tmaskMask w | .tmaskUnmask w => RShape.fits { d := false, a := false } w
  | .srd p t w | .swr p t w => p.ok && (t == .n32 || t == .n64) && RShape.fits {} w
  | .bkpt p w => p.ok && RShape.fits { d := false, a := false, simm := true } w
  | .eclw p _ w => p.ok && RShape.fits {} w && (w.a.cls == .s || w.a == .none) && w.ma == .plain && w.mb == .plain && w.mc == .plain &&
      !w.fea && !w.feb && !w.fec
  | .launch p w => p.ok && XShape.fits { d := true, a := true } w && w.imm 15 8 == 0 && (w.imm 6 6 == 1 || w.imm 5 0 == 0)
  -- a nonzero modifier or FE bit of YIELD is a breach of R80 or R81, Illegal-Operand at step 4 (DESIGN CHOICE, log 132)
  | .yield p w => p.ok && RShape.fits { d := false, a := false } w
  | .rep _ => true
  | .errorInjection .. | .producerCompletion .. | .accessPerform .. | .reductionEntry .. | .reductionMerge ..
  | .blendEntry .. | .teamRetirement .. | .packerTake .. | .fillingTeamTimeout .. | .copyCompletion ..
  | .moorConversionDone .. | .matrixStep .. | .shareDelivery .. | .mloopgStatus .. | .commandEntry .. | .foldMove ..
  | .embBag .. | .updElement .. | .completionWord .. | .aliasAdd .. | .aliasMinMax .. | .aliasBitwise .. | .rowFill ..
  | .rowCopy .. | .planeMultiplyAccumulate .. | .planeAdd .. | .microprogramBurst .. | .remapSwap .. | .swapHoldEnd ..
  | .registerWindowWrite .. | .emptyingWindowWrite .. | .replayWalk .. | .replayThreshold .. | .beaconTick ..
  | .diePhaseEnd .. | .packagePhaseEnd | .eclwLimitExpiry .. | .queueWrite .. | .entryTake .. | .distribution ..
  | .bind .. | .evict .. | .preEmption .. | .heldPreEmptionForce .. | .launchCompletion .. | .invalidation ..
  | .invalidationDone .. | .qprioWrite .. | .frrefWrite .. | .registerPageWrite .. | .setdom | .setmask | .rowset | .pin
  | .patset | .nsgrant | .ckpt .. | .restore .. | .power | .nonce | .dbgauth | .dbgend | .attest | .chain | .peer
  | .fusepr | .unknownCommand | .mailboxCompletion | .bringUp .. | .fabricDoorbell .. | .put .. | .putAcknowledge ..
  | .flashExtent .. | .softError .. | .frheadWrite .. | .portStateChange .. | .incomingPut ..
  | .invasiveDebugCommand .. => false
where
  /-- R166: the bitwise operations take integers; RM only on a floating .add; SAT only on an integer .add. -/
  redFits (op : RedOp) (t : Ty) (sat : Bool) (rm : Rm) : Bool :=
    (t.isInt || op == .add || op == .min || op == .max) && (!sat || (t.isInt && op == .add)) &&
      (rm == .dyn || (t.isFlt && op == .add))
  /-- R247: the operations that accept F32 and F64. -/
  atomFloat : AtomOp → Bool
    | .red .add | .red .min | .red .max | .exch | .cas => true
    | _ => false

end Sys2Proof
end

