-- ==== Sys2Proof/Decode.lean ====
section
/-! DEFINITION. The decoder of instruction words, total on 96 bits and rejecting by name (R70 to R85), the encoder
written from the same tables, and the two functions by which the host lays out a word of the opcode table. -/

namespace Sys2Proof

/-- Why a word is no instruction. Every one of these is Illegal-Instruction at step 3 of R20 (R85). -/
inductive Reject where
  /-- An OP the opcode map marks with a dash (R83). -/
  | opcode
  /-- An XOP value not listed for the OP (R84). -/
  | subOperation
  /-- A field or TY that the instruction does not take is not zero, or holds a reserved code (R71 to R77). -/
  | field
  /-- The fields break a check of R85 that the instruction's description gives. -/
  | illFormed
deriving DecidableEq, Repr

/-! ### Codes of the enumerated fields -/

/-- TY (R71). -/
def Ty.code : Ty → BitVec 4
  | .i32 => 0 | .n32 => 1 | .i64 => 2 | .n64 => 3 | .f32 => 4 | .f64 => 5 | .f16 => 6 | .bf16 => 7
  | .i16 => 8 | .n16 => 9 | .i8 => 10 | .n8 => 11 | .tap8 => 12 | .tap6 => 13 | .e4m3 => 14 | .e5m2 => 15

def Ty.ofCode (c : BitVec 4) : Ty :=
  match c.toNat with
  | 0 => .i32 | 1 => .n32 | 2 => .i64 | 3 => .n64 | 4 => .f32 | 5 => .f64 | 6 => .f16 | 7 => .bf16
  | 8 => .i16 | 9 => .n16 | 10 => .i8 | 11 => .n8 | 12 => .tap8 | 13 => .tap6 | 14 => .e4m3 | _ => .e5m2

/-- The class of an operand field (R78). -/
def Cls.code : Cls → BitVec 2
  | .v => 0 | .s => 1 | .m => 2 | .x => 3

def Cls.ofCode (c : BitVec 2) : Cls :=
  match c.toNat with
  | 0 => .v | 1 => .s | 2 => .m | _ => .x

/-- RM (R72). -/
def Rm.code : Rm → BitVec 3
  | .dyn => 0 | .rn => 1 | .rz => 2 | .rd => 3 | .ru => 4 | .rna => 5

def Rm.ofCode (c : BitVec 3) : Option Rm :=
  match c.toNat with
  | 0 => some .dyn | 1 => some .rn | 2 => some .rz | 3 => some .rd | 4 => some .ru | 5 => some .rna
  | _ => none

/-- ORD (R75). -/
def Ord.code : Ord → BitVec 2
  | .relaxed => 0 | .acquire => 1 | .release => 2 | .acqRel => 3

def Ord.ofCode (c : BitVec 2) : Ord :=
  match c.toNat with
  | 0 => .relaxed | 1 => .acquire | 2 => .release | _ => .acqRel

/-- SCOPE (R75). -/
def Scope.code : Scope → BitVec 3
  | .team => 0 | .group => 1 | .cluster => 2 | .die => 3 | .package => 4 | .system => 5

def Scope.ofCode (c : BitVec 3) : Option Scope :=
  match c.toNat with
  | 0 => some .team | 1 => some .group | 2 => some .cluster | 3 => some .die | 4 => some .package
  | 5 => some .system | _ => none

/-- SPACE (R75). -/
def Space.code : Space → BitVec 4
  | .global => 0 | .spad => 1 | .cwin => 2

def Space.ofCode (c : BitVec 4) : Option Space :=
  match c.toNat with
  | 0 => some .global | 1 => some .spad | 2 => some .cwin | _ => none

/-- The conditions of CMP and PCMP as XOP[4:0] (R84). -/
def Cond.code : Cond → BitVec 5
  | .eq => 0 | .ne => 1 | .lt => 2 | .le => 3 | .gt => 4 | .ge => 5

def Cond.ofCode (c : BitVec 5) : Option Cond :=
  match c.toNat with
  | 0 => some .eq | 1 => some .ne | 2 => some .lt | 3 => some .le | 4 => some .gt | 5 => some .ge | _ => none

/-- The conditions of FCMP as XOP[2:0] (R84). -/
def FCond.code : FCond → BitVec 3
  | .eq => 0 | .ne => 1 | .lt => 2 | .le => 3 | .gt => 4 | .ge => 5 | .un => 6 | .ord => 7

def FCond.ofCode (c : BitVec 3) : FCond :=
  match c.toNat with
  | 0 => .eq | 1 => .ne | 2 => .lt | 3 => .le | 4 => .gt | 5 => .ge | 6 => .un | _ => .ord

/-- .any, .all, .none (R84). -/
def Quant.code : Quant → BitVec 6
  | .any => 0 | .all => 1 | .none => 2

def Quant.ofCode (c : BitVec 6) : Option Quant :=
  match c.toNat with
  | 0 => some .any | 1 => some .all | 2 => some .none | _ => Option.none

def VoteOp.code : VoteOp → BitVec 6
  | .quant q => q.code
  | .ballot => 3

def VoteOp.ofCode (c : BitVec 6) : Option VoteOp :=
  match c.toNat with
  | 0 => some (.quant .any) | 1 => some (.quant .all) | 2 => some (.quant .none) | 3 => some .ballot
  | _ => none

/-- The operations of REDL, SCANL and RED (R84). -/
def RedOp.code : RedOp → BitVec 3
  | .add => 0 | .min => 1 | .max => 2 | .and => 3 | .or => 4 | .xor => 5

def RedOp.ofCode (c : BitVec 3) : Option RedOp :=
  match c.toNat with
  | 0 => some .add | 1 => some .min | 2 => some .max | 3 => some .and | 4 => some .or | 5 => some .xor
  | _ => none

def AtomOp.code : AtomOp → BitVec 3
  | .red op => op.code
  | .exch => 6
  | .cas => 7

def AtomOp.ofCode (c : BitVec 3) : AtomOp :=
  match c.toNat with
  | 0 => .red .add | 1 => .red .min | 2 => .red .max | 3 => .red .and | 4 => .red .or | 5 => .red .xor
  | 6 => .exch | _ => .cas

def MskOp.code : MskOp → BitVec 6
  | .and => 0 | .or => 1 | .xor => 2 | .andn => 3 | .not => 4

def MskOp.ofCode (c : BitVec 6) : Option MskOp :=
  match c.toNat with
  | 0 => some .and | 1 => some .or | 2 => some .xor | 3 => some .andn | 4 => some .not | _ => none

/-- The semirings of MLOOP as XOP[1:0] (R84). -/
def Semiring.code : Semiring → BitVec 2
  | .plusTimes => 0 | .minPlus => 1 | .maxTimes => 2 | .orAnd => 3

def Semiring.ofCode (c : BitVec 2) : Semiring :=
  match c.toNat with
  | 0 => .plusTimes | 1 => .minPlus | 2 => .maxTimes | _ => .orAnd

def Path.code : Path → BitVec 6
  | .rwin => 0 | .spad => 1 | .clus => 2 | .acc => 3 | .glob => 4 | .host => 5 | .flash => 6

def Path.ofCode (c : BitVec 6) : Option Path :=
  match c.toNat with
  | 0 => some .rwin | 1 => some .spad | 2 => some .clus | 3 => some .acc | 4 => some .glob | 5 => some .host
  | 6 => some .flash | _ => none

/-- A one-bit field as a Bool, and back. -/
def bitB (b : BitVec 1) : Bool := b == 1

def bBit (b : Bool) : BitVec 1 := if b then 1 else 0

/-! ### The head of a word (R70) -/

/-- The fields of bits [95:73] and the 73 bits below them. -/
structure Head where
  op : BitVec 8
  pn : Bool
  pm : BitVec 4
  xop : BitVec 6
  ty : BitVec 4
  payload : BitVec 73
deriving DecidableEq, Repr

def Head.ofSlot (w : Slot) : Head where
  op := w.extractLsb' 88 8
  pn := bitB (w.extractLsb' 87 1)
  pm := w.extractLsb' 83 4
  xop := w.extractLsb' 77 6
  ty := w.extractLsb' 73 4
  payload := w.extractLsb' 0 73

def Head.toSlot (h : Head) : Slot := h.op ++ (bBit h.pn ++ (h.pm ++ (h.xop ++ (h.ty ++ h.payload))))

def Head.pred (h : Head) : Pred := ⟨h.pn, h.pm⟩

/-! ### The formats: reading and writing the 73 bits -/

def Opd.ofBits (b : BitVec 10) : Opd := ⟨Cls.ofCode (b.extractLsb' 8 2), b.extractLsb' 0 8⟩

def Opd.toBits (o : Opd) : BitVec 10 := o.cls.code ++ o.num

def Modifier.ofBits (b : BitVec 5) : Modifier := ⟨b.extractLsb' 3 2, b.extractLsb' 0 3⟩

def Modifier.toBits (m : Modifier) : BitVec 5 := m.view ++ m.sel

/-- Format R (R72); none where RM holds a reserved code (R82). -/
def RWord.ofBits (b : BitVec 73) : Option RWord := do
  let rm ← Rm.ofCode (b.extractLsb' 11 3)
  pure {
    d := Opd.ofBits (b.extractLsb' 63 10), a := Opd.ofBits (b.extractLsb' 53 10),
    b := Opd.ofBits (b.extractLsb' 43 10), c := Opd.ofBits (b.extractLsb' 33 10),
    ma := Modifier.ofBits (b.extractLsb' 28 5), mb := Modifier.ofBits (b.extractLsb' 23 5),
    mc := Modifier.ofBits (b.extractLsb' 18 5), fea := bitB (b.extractLsb' 17 1), feb := bitB (b.extractLsb' 16 1),
    fec := bitB (b.extractLsb' 15 1), sat := bitB (b.extractLsb' 14 1), rm, simm := b.extractLsb' 0 11 }

def RWord.toBits (w : RWord) : BitVec 73 :=
  w.d.toBits ++ (w.a.toBits ++ (w.b.toBits ++ (w.c.toBits ++ (w.ma.toBits ++ (w.mb.toBits ++ (w.mc.toBits ++
    (bBit w.fea ++ (bBit w.feb ++ (bBit w.fec ++ (bBit w.sat ++ (w.rm.code ++ w.simm)))))))))))

/-- Format I (R73); bits [10:0] are zero. -/
def IWord.ofBits (b : BitVec 73) : Option IWord := do
  let rm ← Rm.ofCode (b.extractLsb' 11 3)
  if b.extractLsb' 0 11 = 0 then
    pure {
      d := Opd.ofBits (b.extractLsb' 63 10), a := Opd.ofBits (b.extractLsb' 53 10), imm := b.extractLsb' 21 32,
      ma := Modifier.ofBits (b.extractLsb' 16 5), fea := bitB (b.extractLsb' 15 1), sat := bitB (b.extractLsb' 14 1),
      rm }
  else none

def IWord.toBits (w : IWord) : BitVec 73 :=
  w.d.toBits ++ (w.a.toBits ++ (w.imm ++ (w.ma.toBits ++ (bBit w.fea ++ (bBit w.sat ++ (w.rm.code ++ (0 : BitVec 11)))))))

/-- Format L (R74). -/
def LWord.ofBits (b : BitVec 73) : LWord := ⟨bitB (b.extractLsb' 72 1), b.extractLsb' 64 8, b.extractLsb' 0 64⟩

def LWord.toBits (w : LWord) : BitVec 73 := bBit w.dc ++ (w.dn ++ w.imm)

/-- Format M (R75); none where SCOPE or SPACE holds a reserved code or bits [10:0] are not zero. -/
def MWord.ofBits (b : BitVec 73) : Option MWord := do
  let scope ← Scope.ofCode (b.extractLsb' 18 3)
  let space ← Space.ofCode (b.extractLsb' 11 4)
  if b.extractLsb' 0 11 = 0 then
    pure {
      d := Opd.ofBits (b.extractLsb' 63 10), a := Opd.ofBits (b.extractLsb' 53 10),
      b := Opd.ofBits (b.extractLsb' 43 10), off := b.extractLsb' 23 20, ord := Ord.ofCode (b.extractLsb' 21 2), scope,
      fea := bitB (b.extractLsb' 17 1), feb := bitB (b.extractLsb' 16 1), fed := bitB (b.extractLsb' 15 1), space }
  else none

def MWord.toBits (w : MWord) : BitVec 73 :=
  w.d.toBits ++ (w.a.toBits ++ (w.b.toBits ++ (w.off ++ (w.ord.code ++ (w.scope.code ++ (bBit w.fea ++ (bBit w.feb ++
    (bBit w.fed ++ (w.space.code ++ (0 : BitVec 11))))))))))

/-- Format X (R76). -/
def XWord.ofBits (b : BitVec 73) : XWord :=
  { d := Opd.ofBits (b.extractLsb' 63 10), a := Opd.ofBits (b.extractLsb' 53 10),
    b := Opd.ofBits (b.extractLsb' 43 10), c := Opd.ofBits (b.extractLsb' 33 10), handle := b.extractLsb' 21 12,
    be := bitB (b.extractLsb' 20 1), bn := b.extractLsb' 16 4, cimm := b.extractLsb' 0 16 }

def XWord.toBits (w : XWord) : BitVec 73 :=
  w.d.toBits ++ (w.a.toBits ++ (w.b.toBits ++ (w.c.toBits ++ (w.handle ++ (bBit w.be ++ (w.bn ++ w.cimm))))))

/-- Format B (R77): the target, the operand, and bits [29:0]. -/
structure BWord where
  tgt : BitVec 33
  a : Opd
  low : BitVec 30
deriving DecidableEq, Repr

def BWord.ofBits (b : BitVec 73) : BWord := ⟨b.extractLsb' 40 33, Opd.ofBits (b.extractLsb' 30 10), b.extractLsb' 0 30⟩

def BWord.toBits (w : BWord) : BitVec 73 := w.tgt ++ (w.a.toBits ++ w.low)

/-- The layout of REP (R89). -/
def RepWord.ofBits (b : BitVec 73) : Option RepWord :=
  if b.extractLsb' 0 55 = 0 then
    some ⟨b.extractLsb' 67 6, b.extractLsb' 64 3, b.extractLsb' 61 3, b.extractLsb' 58 3, b.extractLsb' 55 3⟩
  else none

def RepWord.toBits (w : RepWord) : BitVec 73 := w.cnt ++ (w.sd ++ (w.sa ++ (w.sb ++ (w.sc ++ (0 : BitVec 55)))))

/-! ### Building an instruction of each format -/

/-- The condition c, or a rejection under the name r. -/
def demand (c : Bool) (r : Reject) : Except Reject Unit := if c then .ok () else .error r

/-- Some a, or a rejection under the name r. -/
def needs {α : Type} (o : Option α) (r : Reject) : Except Reject α :=
  match o with
  | some a => .ok a
  | none => .error r

/-- Format R with an element type. -/
def Head.asR (h : Head) (k : Pred → Ty → RWord → Instr) : Except Reject Instr := do
  let w ← needs (RWord.ofBits h.payload) .field
  pure (k h.pred (Ty.ofCode h.ty) w)

/-- Format R where TY must name the one type t. -/
def Head.asRF (h : Head) (t : Ty) (k : Pred → RWord → Instr) : Except Reject Instr := do
  demand (h.ty == t.code) .field
  h.asR fun p _ w => k p w

/-- Format R without an element type: TY is zero (R71). -/
def Head.asRU (h : Head) (k : Pred → RWord → Instr) : Except Reject Instr := h.asRF .i32 k

/-- Format R without an element type and without a predicate. -/
def Head.asRN (h : Head) (k : RWord → Instr) : Except Reject Instr := do
  demand (!h.pn && h.pm == 0) .field
  h.asRU fun _ w => k w

/-- Format R or I by XOP[5] (R84). -/
def Head.asRI (h : Head) (k : Pred → Ty → RI → Instr) : Except Reject Instr :=
  if bitB (h.xop.extractLsb' 5 1) then do
    let w ← needs (IWord.ofBits h.payload) .field
    pure (k h.pred (Ty.ofCode h.ty) (.i w))
  else h.asR fun p t w => k p t (.r w)

/-- Format M with an element type. -/
def Head.asM (h : Head) (k : Pred → Ty → MWord → Instr) : Except Reject Instr := do
  let w ← needs (MWord.ofBits h.payload) .field
  pure (k h.pred (Ty.ofCode h.ty) w)

/-- Format M where TY must name the one type t. -/
def Head.asMF (h : Head) (t : Ty) (k : Pred → MWord → Instr) : Except Reject Instr := do
  demand (h.ty == t.code) .field
  h.asM fun p _ w => k p w

/-- Format X with an element type. -/
def Head.asX (h : Head) (k : Pred → Ty → XWord → Instr) : Except Reject Instr :=
  .ok (k h.pred (Ty.ofCode h.ty) (XWord.ofBits h.payload))

/-- Format X where TY must name the one type t. -/
def Head.asXF (h : Head) (t : Ty) (k : Pred → XWord → Instr) : Except Reject Instr := do
  demand (h.ty == t.code) .field
  h.asX fun p _ w => k p w

/-- Format X without an element type: TY is zero (R71). -/
def Head.asXU (h : Head) (k : Pred → XWord → Instr) : Except Reject Instr := h.asXF .i32 k

/-- Format B, whose fields tgt, a and low say which parts are used; the others are zero, TY too. -/
def Head.asB (h : Head) (tgt a low : Bool) (k : Pred → BWord → Instr) : Except Reject Instr := do
  let w := BWord.ofBits h.payload
  demand (h.ty == 0 && (tgt || w.tgt == 0) && (a || w.a == .zero) && (low || w.low == 0)) .field
  pure (k h.pred w)

/-- XOP is zero. -/
def Head.plain (h : Head) (k : Except Reject Instr) : Except Reject Instr :=
  if h.xop = 0 then k else .error .subOperation

/-- XOP[4:0] is zero: a word of format R or I with no sub-operation. -/
def Head.plainRI (h : Head) (k : Pred → Ty → RI → Instr) : Except Reject Instr :=
  if h.xop.extractLsb' 0 5 = 0 then h.asRI k else .error .subOperation

/-- The opcodes 0x00 to 0x22. -/
def buildInt (h : Head) : Except Reject Instr :=
  match h.op.toNat with
  | 0x00 => if h = { op := 0, pn := false, pm := 0, xop := 0, ty := 0, payload := 0 } then .ok .nop else .error .field
  | 0x01 => h.plainRI .add
  | 0x02 => h.plainRI .sub
  | 0x03 => h.plain (h.asR .addc)
  | 0x04 => h.plain (h.asR .subb)
  | 0x05 => h.plainRI .mul
  | 0x06 => h.plainRI .mulh
  | 0x07 => h.plain (h.asR .mad)
  | 0x08 => h.plainRI .div
  | 0x09 => h.plainRI .rem
  | 0x0A => h.plain (h.asR .neg)
  | 0x0B => h.plain (h.asR .abs)
  | 0x0C => h.plainRI .min
  | 0x0D => h.plainRI .max
  | 0x0E => h.plainRI .and
  | 0x0F => h.plainRI .or
  | 0x10 => h.plainRI .xor
  | 0x11 => h.plainRI .andn
  | 0x12 => h.plainRI .shl
  | 0x13 => h.plainRI .shr
  | 0x14 => h.plainRI .sra
  | 0x15 => h.plainRI .rot
  | 0x16 => h.plain (h.asR .clz)
  | 0x17 => h.plain (h.asR .popc)
  | 0x18 => h.plain (h.asR .brev)
  | 0x19 => h.plainRI .bfx
  | 0x1A => h.plain (h.asR .bfi)
  | 0x1B => h.plain (h.asR .ffcs)
  | 0x1C => h.plain (h.asR .plset)
  | 0x1D => h.plain (h.asR .sel)
  | 0x1E => do
    let cc ← needs (Cond.ofCode (h.xop.extractLsb' 0 5)) .subOperation
    h.asRI fun p t w => .cmp p t cc w
  | 0x1F => h.plainRI .mov
  | 0x20 => h.plain (.ok (.movi h.pred (Ty.ofCode h.ty) (LWord.ofBits h.payload)))
  | 0x21 => h.plainRI .lea
  | 0x22 =>
    if h.xop = 0 then h.asRU .movmTor
    else if h.xop = 1 then h.asRU .movmTom
    else .error .subOperation
  | _ => .error .opcode

/-- The opcodes 0x40 to 0x72: packed, floating-point and conversion instructions. -/
def buildNum (h : Head) : Except Reject Instr :=
  match h.op.toNat with
  | 0x40 => h.plain (h.asR .padd)
  | 0x41 => h.plain (h.asR .psub)
  | 0x42 => h.plain (h.asR .pmul)
  | 0x43 => h.plain (h.asR .pmac)
  | 0x44 => h.plain (h.asR .pmin)
  | 0x45 => h.plain (h.asR .pmax)
  | 0x46 => do
    demand (!bitB (h.xop.extractLsb' 5 1)) .subOperation
    let cc ← needs (Cond.ofCode (h.xop.extractLsb' 0 5)) .subOperation
    h.asR fun p t w => .pcmp p t cc w
  | 0x47 => h.plainRI .pshr
  | 0x48 => h.plain (h.asR .pnar)
  | 0x49 => h.plain (h.asR .pwid)
  | 0x50 => h.plainRI .fadd
  | 0x51 => h.plainRI .fsub
  | 0x52 => h.plainRI .fmul
  | 0x53 => h.plain (h.asR .fma)
  | 0x54 => h.plainRI .fdiv
  | 0x55 => h.plain (h.asR .fsqrt)
  | 0x56 => h.plain (h.asR .frsq)
  | 0x57 => h.plainRI .fmin
  | 0x58 => h.plainRI .fmax
  | 0x59 => do
    demand (!bitB (h.xop.extractLsb' 4 1)) .subOperation
    h.asRI fun p t w => .fcmp p t (FCond.ofCode (h.xop.extractLsb' 0 3)) (bitB (h.xop.extractLsb' 3 1)) w
  | 0x5A => h.plain (h.asR .fclass)
  | 0x5B => h.plain (h.asR .frnd)
  | 0x5C => h.plainRI .fscale
  | 0x5D => h.plain (h.asR .fexp2)
  | 0x5E => h.plain (h.asR .flog2)
  | 0x5F =>
    if h.xop = 0 then h.asRF .f32 fun p w => .fupd p false w
    else if h.xop = 1 then h.asRF .f32 fun p w => .fupd p true w
    else .error .subOperation
  | 0x70 => do
    demand (h.xop.extractLsb' 4 2 == 0) .subOperation
    h.asR fun p t w => .cvt p t (Ty.ofCode (h.xop.extractLsb' 0 4)) w
  | 0x71 => do
    demand (h.xop.extractLsb' 4 2 == 0) .subOperation
    h.asR fun p t w => .cvts p t (Ty.ofCode (h.xop.extractLsb' 0 4)) w
  | 0x72 => do
    demand (h.xop.extractLsb' 4 2 == 0) .subOperation
    h.asR fun p t w => .cvtb p t (Ty.ofCode (h.xop.extractLsb' 0 4)) w
  | _ => .error .opcode

/-- The opcodes 0x80 to 0x9D: control transfers and the instructions across lanes. -/
def buildControl (h : Head) : Except Reject Instr :=
  match h.op.toNat with
  | 0x80 => h.plain (h.asB true false false fun p w => .bra p w.tgt)
  | 0x81 => do
    let q ← needs (Quant.ofCode h.xop) .subOperation
    h.asB true true false fun p w => .brc p q w.tgt w.a
  | 0x82 => h.plain do
    demand (!h.pn && h.pm == 0) .field
    h.asB true true true fun _ w => .brd w.tgt w.a w.low
  | 0x83 => h.plain do
    demand (!h.pn && h.pm == 0) .field
    h.asB false false false fun _ _ => .join
  | 0x84 => h.plain (h.asB false true false fun p w => .jmp p w.a)
  | 0x85 => h.plain (h.asB true true false fun p w => .call p w.tgt w.a)
  | 0x86 => h.plain (h.asB false true false fun p w => .ret p w.a)
  | 0x87 => h.plain (h.asB true true false fun p w => .loop p w.tgt w.a)
  | 0x88 => h.plain (h.asB false false false fun p _ => .exit p)
  | 0x89 => h.plain (h.asB true false false fun p w => .pick p w.tgt)
  | 0x90 =>
    if h.xop = 0 then h.asR fun p t w => .slide p false t w
    else if h.xop = 1 then h.asR fun p t w => .slide p true t w
    else .error .subOperation
  | 0x91 =>
    if h.xop = 0 then h.asR fun p t w => .shfl p false t w
    else if h.xop = 1 then h.asR fun p t w => .shfl p true t w
    else .error .subOperation
  | 0x92 => h.plain (h.asR .bcast)
  | 0x93 => do
    demand (h.xop.extractLsb' 3 3 == 0) .subOperation
    let op ← needs (RedOp.ofCode (h.xop.extractLsb' 0 3)) .subOperation
    h.asR fun p t w => .redl p op t w
  | 0x94 => do
    demand (h.xop.extractLsb' 4 2 == 0) .subOperation
    let op ← needs (RedOp.ofCode (h.xop.extractLsb' 0 3)) .subOperation
    h.asR fun p t w => .scanl p op (bitB (h.xop.extractLsb' 3 1)) t w
  | 0x95 => do
    let op ← needs (VoteOp.ofCode h.xop) .subOperation
    h.asRU fun p w => .vote p op w
  | 0x96 => h.plain (h.asRU .elect)
  | 0x97 => h.plain (h.asR .widf)
  | 0x98 => do
    let op ← needs (MskOp.ofCode h.xop) .subOperation
    h.asRU fun p w => .msk p op w
  | 0x99 => h.plain (h.asXU .spawn)
  | 0x9A => h.plain (h.asRU .bari)
  | 0x9B => h.plain (h.asRU .bara)
  | 0x9C => h.plain (h.asRU .barw)
  | 0x9D => h.plain (h.asRU .bars)
  | _ => .error .opcode

/-- SEPOCH and its two forms, which CIMM16 selects (R256). -/
def sepochForm (p : Pred) (w : XWord) : Instr :=
  if w.imm 1 0 = 1 then .sepochBind p w else if w.imm 1 0 = 2 then .sepochUnbind p w else .sepoch p w

/-- The opcodes 0xA0 to 0xB5: memory, soft regions and handles. -/
def buildMemory (h : Head) : Except Reject Instr :=
  match h.op.toNat with
  | 0xA0 => h.plain (h.asM .ld)
  | 0xA1 => h.plain (h.asM .st)
  | 0xA2 => h.plain (h.asM .ldg)
  | 0xA3 => h.plain (h.asM .stg)
  | 0xA4 => h.plain (h.asX .ldt)
  | 0xA5 => h.plain (h.asX .stt)
  | 0xA6 => h.plain (h.asM .pref)
  | 0xA7 => do
    demand (h.xop.extractLsb' 3 3 == 0) .subOperation
    h.asM fun p t w => .atom p (AtomOp.ofCode (h.xop.extractLsb' 0 3)) t w
  | 0xA8 => do
    demand (h.xop.extractLsb' 3 3 == 0) .subOperation
    let op ← needs (RedOp.ofCode (h.xop.extractLsb' 0 3)) .subOperation
    h.asM fun p t w => .red p op t w
  | 0xA9 =>
    if h.xop = 0 then h.asMF .n64 .bfaIns
    else if h.xop = 1 then h.asMF .n64 .bfaFfcs
    else if h.xop = 2 then h.asMF .n64 .bfaPlset
    else .error .subOperation
  | 0xAA => h.plain (h.asMF .i32 .fence)
  | 0xAB => h.plain (h.asMF .i32 .fencesc)
  | 0xAC => h.plain (h.asXF .f32 .sld)
  | 0xAD => h.plain (h.asXF .f32 .sst)
  | 0xAE => h.plain (h.asXU sepochForm)
  | 0xAF => h.plain (h.asXF .f32 .harden)
  | 0xB0 => h.plain (h.asXF .f32 .slda)
  | 0xB1 => h.plain (h.asXU .ssta)
  | 0xB2 => h.plain (h.asXU .hatt)
  | 0xB3 => h.plain (h.asXU .hdet)
  | 0xB4 => h.plain (h.asXU .hset)
  | 0xB5 => h.plain (h.asXU .hget)
  | _ => .error .opcode

/-- The opcodes 0xC0 to 0xD6: the engines. -/
def buildEngine (h : Head) : Except Reject Instr :=
  match h.op.toNat with
  | 0xC0 => h.plain (h.asX .moor)
  | 0xC1 => h.plain (h.asXU .unmoor)
  | 0xC2 => do
    demand (h.xop.extractLsb' 3 3 == 0) .subOperation
    h.asX fun p t w => .mloop p (Semiring.ofCode (h.xop.extractLsb' 0 2)) (bitB (h.xop.extractLsb' 2 1)) t w
  | 0xC3 => do
    demand (h.xop.extractLsb' 3 3 == 0) .subOperation
    h.asX fun p t w => .mloopg p (Semiring.ofCode (h.xop.extractLsb' 0 2)) (bitB (h.xop.extractLsb' 2 1)) t w
  | 0xC4 => h.plain (h.asXU .oprdy)
  | 0xC5 => h.plain (h.asXU .mfence)
  | 0xC6 => h.plain (h.asXU .mwait)
  | 0xC7 => h.plain (h.asXU .accz)
  | 0xC8 => h.plain (h.asX .accrd)
  | 0xC9 => h.plain (h.asX .accwr)
  | 0xD0 =>
    if h.xop = 0 then h.asXU .cpyPlain
    else if h.xop = 1 then h.asXU .cpyTile
    else if h.xop = 2 then h.asXU .cpyTr
    else if h.xop = 3 then h.asXU .cpyMcast
    else if h.xop = 4 then h.asXU .cpyFlash
    else .error .subOperation
  | 0xD1 => h.plain (h.asXU .cpys)
  | 0xD2 => h.plain (h.asX .cpyr)
  | 0xD3 => do
    let path ← needs (Path.ofCode h.xop) .subOperation
    demand (h.ty == 0 && h.payload == 0) .field
    pure (.drain h.pred path)
  | 0xD4 => h.plain (h.asXU .fold)
  | 0xD5 =>
    if h.xop = 0 then h.asXU fun p w => .emb p false w
    else if h.xop = 1 then h.asXU fun p w => .emb p true w
    else .error .subOperation
  | 0xD6 =>
    if h.xop = 0 then h.asXF .f32 fun p w => .upd p false w
    else if h.xop = 1 then h.asXF .f32 fun p w => .upd p true w
    else .error .subOperation
  | _ => .error .opcode

/-- The opcodes 0xE0 to 0xE8 and 0xF0. -/
def buildSystem (h : Head) : Except Reject Instr :=
  match h.op.toNat with
  | 0xE0 => h.plain do
    demand (h.ty == 0) .field
    let w ← needs (IWord.ofBits h.payload) .field
    pure (.trap h.pred w)
  | 0xE1 => h.plain (h.asRN .eret)
  | 0xE2 => h.plain (h.asR .srd)
  | 0xE3 => h.plain (h.asR .swr)
  | 0xE4 =>
    if h.xop = 0 then h.asRN .tmaskUnmask
    else if h.xop = 1 then h.asRN .tmaskMask
    else .error .subOperation
  | 0xE5 => h.plain (h.asRU .bkpt)
  | 0xE6 =>
    if h.xop = 0 then h.asRU fun p w => .eclw p false w
    else if h.xop = 1 then h.asRU fun p w => .eclw p true w
    else .error .subOperation
  | 0xE7 => h.plain (h.asXU .launch)
  | 0xE8 => h.plain (h.asRU .yield)
  | 0xF0 => h.plain do
    demand (h.ty == 0 && !h.pn && h.pm == 0) .field
    let w ← needs (RepWord.ofBits h.payload) .field
    pure (.rep w)
  | _ => .error .opcode

/-- The fields of a word by its opcode (R83, R84), before the checks of R85 on them. -/
def build (w : Slot) : Except Reject Instr :=
  let h := Head.ofSlot w
  if h.op.toNat < 0x40 then buildInt h
  else if h.op.toNat < 0x80 then buildNum h
  else if h.op.toNat < 0xA0 then buildControl h
  else if h.op.toNat < 0xC0 then buildMemory h
  else if h.op.toNat < 0xE0 then buildEngine h
  else buildSystem h

/-- Step 3 of R20 on one word: the instruction, or the name of what makes it Illegal-Instruction (R85). -/
def decode (w : Slot) : Except Reject Instr :=
  match build w with
  | .error r => .error r
  | .ok i => if wellFormed i then .ok i else .error .illFormed

/-! ### The encoder -/

/-- A word of format R, or of the other formats below, from its fields. -/
def mkWord (op : BitVec 8) (p : Pred) (xop : BitVec 6) (t : Ty) (payload : BitVec 73) : Option Slot :=
  some (Head.toSlot { op, pn := p.pn, pm := p.pm, xop, ty := t.code, payload })

/-- The predicate field of an instruction that takes none. -/
def Pred.always : Pred := ⟨false, 0⟩

/-- XOP[5] selects format I (R84). -/
def mkRI (op : BitVec 8) (p : Pred) (low : BitVec 5) (t : Ty) : RI → Option Slot
  | .r w => mkWord op p ((0 : BitVec 1) ++ low) t w.toBits
  | .i w => mkWord op p ((1 : BitVec 1) ++ low) t w.toBits

/-- A word of format B. -/
def mkB (op : BitVec 8) (p : Pred) (xop : BitVec 6) (tgt : BitVec 33) (a : Opd) (low : BitVec 30) : Option Slot :=
  mkWord op p xop .i32 (BWord.toBits ⟨tgt, a, low⟩)

/-- The word of an instruction (R70 to R89); an event has none. -/
def encode : Instr → Option Slot
  | .nop => some 0
  | .add p t w => mkRI 0x01 p 0 t w
  | .sub p t w => mkRI 0x02 p 0 t w
  | .addc p t w => mkWord 0x03 p 0 t w.toBits
  | .subb p t w => mkWord 0x04 p 0 t w.toBits
  | .mul p t w => mkRI 0x05 p 0 t w
  | .mulh p t w => mkRI 0x06 p 0 t w
  | .mad p t w => mkWord 0x07 p 0 t w.toBits
  | .div p t w => mkRI 0x08 p 0 t w
  | .rem p t w => mkRI 0x09 p 0 t w
  | .neg p t w => mkWord 0x0A p 0 t w.toBits
  | .abs p t w => mkWord 0x0B p 0 t w.toBits
  | .min p t w => mkRI 0x0C p 0 t w
  | .max p t w => mkRI 0x0D p 0 t w
  | .and p t w => mkRI 0x0E p 0 t w
  | .or p t w => mkRI 0x0F p 0 t w
  | .xor p t w => mkRI 0x10 p 0 t w
  | .andn p t w => mkRI 0x11 p 0 t w
  | .shl p t w => mkRI 0x12 p 0 t w
  | .shr p t w => mkRI 0x13 p 0 t w
  | .sra p t w => mkRI 0x14 p 0 t w
  | .rot p t w => mkRI 0x15 p 0 t w
  | .clz p t w => mkWord 0x16 p 0 t w.toBits
  | .popc p t w => mkWord 0x17 p 0 t w.toBits
  | .brev p t w => mkWord 0x18 p 0 t w.toBits
  | .bfx p t w => mkRI 0x19 p 0 t w
  | .bfi p t w => mkWord 0x1A p 0 t w.toBits
  | .ffcs p t w => mkWord 0x1B p 0 t w.toBits
  | .plset p t w => mkWord 0x1C p 0 t w.toBits
  | .sel p t w => mkWord 0x1D p 0 t w.toBits
  | .cmp p t cc w => mkRI 0x1E p cc.code t w
  | .mov p t w => mkRI 0x1F p 0 t w
  | .movi p t w => mkWord 0x20 p 0 t w.toBits
  | .lea p t w => mkRI 0x21 p 0 t w
  | .movmTor p w => mkWord 0x22 p 0 .i32 w.toBits
  | .movmTom p w => mkWord 0x22 p 1 .i32 w.toBits
  | .padd p t w => mkWord 0x40 p 0 t w.toBits
  | .psub p t w => mkWord 0x41 p 0 t w.toBits
  | .pmul p t w => mkWord 0x42 p 0 t w.toBits
  | .pmac p t w => mkWord 0x43 p 0 t w.toBits
  | .pmin p t w => mkWord 0x44 p 0 t w.toBits
  | .pmax p t w => mkWord 0x45 p 0 t w.toBits
  | .pcmp p t cc w => mkWord 0x46 p ((0 : BitVec 1) ++ cc.code) t w.toBits
  | .pshr p t w => mkRI 0x47 p 0 t w
  | .pnar p t w => mkWord 0x48 p 0 t w.toBits
  | .pwid p t w => mkWord 0x49 p 0 t w.toBits
  | .fadd p t w => mkRI 0x50 p 0 t w
  | .fsub p t w => mkRI 0x51 p 0 t w
  | .fmul p t w => mkRI 0x52 p 0 t w
  | .fma p t w => mkWord 0x53 p 0 t w.toBits
  | .fdiv p t w => mkRI 0x54 p 0 t w
  | .fsqrt p t w => mkWord 0x55 p 0 t w.toBits
  | .frsq p t w => mkWord 0x56 p 0 t w.toBits
  | .fmin p t w => mkRI 0x57 p 0 t w
  | .fmax p t w => mkRI 0x58 p 0 t w
  | .fcmp p t cc sig w => mkRI 0x59 p ((0 : BitVec 1) ++ (bBit sig ++ cc.code)) t w
  | .fclass p t w => mkWord 0x5A p 0 t w.toBits
  | .frnd p t w => mkWord 0x5B p 0 t w.toBits
  | .fscale p t w => mkRI 0x5C p 0 t w
  | .fexp2 p t w => mkWord 0x5D p 0 t w.toBits
  | .flog2 p t w => mkWord 0x5E p 0 t w.toBits
  | .fupd p adam w => mkWord 0x5F p (if adam then 1 else 0) .f32 w.toBits
  | .cvt p t src w => mkWord 0x70 p ((0 : BitVec 2) ++ src.code) t w.toBits
  | .cvts p t src w => mkWord 0x71 p ((0 : BitVec 2) ++ src.code) t w.toBits
  | .cvtb p t src w => mkWord 0x72 p ((0 : BitVec 2) ++ src.code) t w.toBits
  | .bra p target => mkB 0x80 p 0 target .zero 0
  | .brc p q target a => mkB 0x81 p q.code target a 0
  | .brd target a rcv => mkB 0x82 .always 0 target a rcv
  | .join => mkB 0x83 .always 0 0 .zero 0
  | .jmp p a => mkB 0x84 p 0 0 a 0
  | .call p target a => mkB 0x85 p 0 target a 0
  | .ret p a => mkB 0x86 p 0 0 a 0
  | .loop p target a => mkB 0x87 p 0 target a 0
  | .exit p => mkB 0x88 p 0 0 .zero 0
  | .pick p target => mkB 0x89 p 0 target .zero 0
  | .slide p down t w => mkWord 0x90 p (if down then 1 else 0) t w.toBits
  | .shfl p byXor t w => mkWord 0x91 p (if byXor then 1 else 0) t w.toBits
  | .bcast p t w => mkWord 0x92 p 0 t w.toBits
  | .redl p op t w => mkWord 0x93 p ((0 : BitVec 3) ++ op.code) t w.toBits
  | .scanl p op excl t w => mkWord 0x94 p ((0 : BitVec 2) ++ (bBit excl ++ op.code)) t w.toBits
  | .vote p op w => mkWord 0x95 p op.code .i32 w.toBits
  | .elect p w => mkWord 0x96 p 0 .i32 w.toBits
  | .widf p t w => mkWord 0x97 p 0 t w.toBits
  | .msk p op w => mkWord 0x98 p op.code .i32 w.toBits
  | .spawn p w => mkWord 0x99 p 0 .i32 w.toBits
  | .bari p w => mkWord 0x9A p 0 .i32 w.toBits
  | .bara p w => mkWord 0x9B p 0 .i32 w.toBits
  | .barw p w => mkWord 0x9C p 0 .i32 w.toBits
  | .bars p w => mkWord 0x9D p 0 .i32 w.toBits
  | .ld p t w => mkWord 0xA0 p 0 t w.toBits
  | .st p t w => mkWord 0xA1 p 0 t w.toBits
  | .ldg p t w => mkWord 0xA2 p 0 t w.toBits
  | .stg p t w => mkWord 0xA3 p 0 t w.toBits
  | .ldt p t w => mkWord 0xA4 p 0 t w.toBits
  | .stt p t w => mkWord 0xA5 p 0 t w.toBits
  | .pref p t w => mkWord 0xA6 p 0 t w.toBits
  | .atom p op t w => mkWord 0xA7 p ((0 : BitVec 3) ++ op.code) t w.toBits
  | .red p op t w => mkWord 0xA8 p ((0 : BitVec 3) ++ op.code) t w.toBits
  | .bfaIns p w => mkWord 0xA9 p 0 .n64 w.toBits
  | .bfaFfcs p w => mkWord 0xA9 p 1 .n64 w.toBits
  | .bfaPlset p w => mkWord 0xA9 p 2 .n64 w.toBits
  | .fence p w => mkWord 0xAA p 0 .i32 w.toBits
  | .fencesc p w => mkWord 0xAB p 0 .i32 w.toBits
  | .sld p w => mkWord 0xAC p 0 .f32 w.toBits
  | .sst p w => mkWord 0xAD p 0 .f32 w.toBits
  | .sepoch p w | .sepochBind p w | .sepochUnbind p w => mkWord 0xAE p 0 .i32 w.toBits
  | .harden p w => mkWord 0xAF p 0 .f32 w.toBits
  | .slda p w => mkWord 0xB0 p 0 .f32 w.toBits
  | .ssta p w => mkWord 0xB1 p 0 .i32 w.toBits
  | .hatt p w => mkWord 0xB2 p 0 .i32 w.toBits
  | .hdet p w => mkWord 0xB3 p 0 .i32 w.toBits
  | .hset p w => mkWord 0xB4 p 0 .i32 w.toBits
  | .hget p w => mkWord 0xB5 p 0 .i32 w.toBits
  | .moor p t w => mkWord 0xC0 p 0 t w.toBits
  | .unmoor p w => mkWord 0xC1 p 0 .i32 w.toBits
  | .mloop p sr unf t w => mkWord 0xC2 p ((0 : BitVec 3) ++ (bBit unf ++ sr.code)) t w.toBits
  | .mloopg p sr unf t w => mkWord 0xC3 p ((0 : BitVec 3) ++ (bBit unf ++ sr.code)) t w.toBits
  | .oprdy p w => mkWord 0xC4 p 0 .i32 w.toBits
  | .mfence p w => mkWord 0xC5 p 0 .i32 w.toBits
  | .mwait p w => mkWord 0xC6 p 0 .i32 w.toBits
  | .accz p w => mkWord 0xC7 p 0 .i32 w.toBits
  | .accrd p t w => mkWord 0xC8 p 0 t w.toBits
  | .accwr p t w => mkWord 0xC9 p 0 t w.toBits
  | .cpyPlain p w => mkWord 0xD0 p 0 .i32 w.toBits
  | .cpyTile p w => mkWord 0xD0 p 1 .i32 w.toBits
  | .cpyTr p w => mkWord 0xD0 p 2 .i32 w.toBits
  | .cpyMcast p w => mkWord 0xD0 p 3 .i32 w.toBits
  | .cpyFlash p w => mkWord 0xD0 p 4 .i32 w.toBits
  | .cpys p w => mkWord 0xD1 p 0 .i32 w.toBits
  | .cpyr p t w => mkWord 0xD2 p 0 t w.toBits
  | .drain p path => mkWord 0xD3 p path.code .i32 0
  | .fold p w => mkWord 0xD4 p 0 .i32 w.toBits
  | .emb p mean w => mkWord 0xD5 p (if mean then 1 else 0) .i32 w.toBits
  | .upd p adam w => mkWord 0xD6 p (if adam then 1 else 0) .f32 w.toBits
  | .trap p w => mkWord 0xE0 p 0 .i32 w.toBits
  | .eret w => mkWord 0xE1 .always 0 .i32 w.toBits
  | .srd p t w => mkWord 0xE2 p 0 t w.toBits
  | .swr p t w => mkWord 0xE3 p 0 t w.toBits
  | .tmaskUnmask w => mkWord 0xE4 .always 0 .i32 w.toBits
  | .tmaskMask w => mkWord 0xE4 .always 1 .i32 w.toBits
  | .bkpt p w => mkWord 0xE5 p 0 .i32 w.toBits
  | .eclw p pkg w => mkWord 0xE6 p (if pkg then 1 else 0) .i32 w.toBits
  | .launch p w => mkWord 0xE7 p 0 .i32 w.toBits
  | .yield p w => mkWord 0xE8 p 0 .i32 w.toBits
  | .rep w => mkWord 0xF0 .always 0 .i32 w.toBits
  | .errorInjection .. | .producerCompletion .. | .accessPerform .. | .reductionEntry .. | .reductionMerge ..
  | .blendEntry .. | .teamRetirement .. | .packerTake .. | .fillingTeamTimeout .. | .copyCompletion ..
  | .moorConversionDone .. | .matrixStep .. | .shareDelivery .. | .mloopgStatus .. | .commandEntry .. | .foldMove ..
  | .embBag .. | .updElement .. | .completionWord .. | .aliasAdd .. | .aliasMinMax .. | .aliasBitwise .. | .rowFill ..
  | .rowCopy .. | .planeMultiplyAccumulate .. | .planeAdd .. | .microprogramBurst .. | .remapSwap .. | .swapHoldEnd ..
  | .registerWindowWrite .. | .emptyingWindowWrite .. | .replayWalk .. | .replayThreshold .. | .beaconTick ..
  | .diePhaseEnd .. | .packagePhaseEnd | .eclwLimitExpiry .. | .queueWrite .. | .entryTake .. | .distribution ..
  | .bind .. | .evict .. | .preEmption .. | .heldPreEmptionForce .. | .launchCompletion .. | .invalidation ..
  | .invalidationDone .. | .qprioWrite .. | .frrefWrite .. | .registerPageWrite .. | .setdom | .setmask | .rowset | .pin
  | .patset | .nsgrant | .ckpt .. | .restore .. | .power | .nonce | .dbgauth | .dbgend | .attest | .chain | .peer
  | .fusepr | .unknownCommand | .mailboxCompletion | .bringUp .. | .fabricDoorbell .. | .put .. | .putAcknowledge ..
  | .flashExtent .. | .softError .. | .frheadWrite .. | .portStateChange .. | .incomingPut ..
  | .invasiveDebugCommand .. => none

/-! ### The lines of memory and the words of the table -/

/-- The number that a list of bytes holds, the first byte lowest (R14). -/
def ofBytesLE : List Byte → Nat
  | [] => 0
  | b :: rest => b.toNat + 256 * ofBytesLE rest

/-- The n low bytes of a number, the lowest first (R14). -/
def toBytesLE : Nat → Nat → List Byte
  | 0, _ => []
  | n + 1, k => BitVec.ofNat 8 k :: toBytesLE n (k / 256)

/-- An instruction of the opcode table from the low nbits bits of its word; every bit above them is zero. The word is
laid out as its slot holds it, lowest byte first (R14). -/
def decodeTableWord (nbits w : Nat) : Option Instr :=
  match decode (BitVec.ofNat 96 (ofBytesLE (toBytesLE 12 (w % 2 ^ nbits)))) with
  | .ok i => some i
  | .error _ => none

end Sys2Proof
end

