-- ==== Sys2Proof/Machine/State.lean ====
section
/-! DEFINITION. The state of the device as plain data: teams, groups, launches, contexts, memory with its coherence
history, pending accesses, engines, the watch core's tables and the package's own registers; and the state after reset. -/

namespace Sys2Proof.Machine

/-- A finite map from numbers, kept in strictly rising order of its keys. -/
abbrev Tab (α : Type) := List (Nat × α)

/-- A view: for each location code, an index in its coherence order; an absent location is at index 0 (R220). -/
abbrev View := Tab Nat

/-- The scope instances (R221); clusters are numbered 8 × die + cluster. -/
inductive Inst where
  | team (t : Nat)
  | group (g : Nat)
  | cluster (c : Nat)
  | die (d : Nat)
  | package
  | system
deriving DecidableEq, Repr

/-- A message: a view carried at an instance (R224). -/
structure Msg where
  inst : Inst
  view : View
deriving DecidableEq, Repr

/-- What one party knows (R220, R226): its own O, its A by instance, the records of its FENCE.rel, and the messages
carried by the writes that its reads chose. -/
structure PView where
  o : View := []
  acq : List Msg := []
  rel : List Msg := []
  seen : List Msg := []
deriving DecidableEq, Repr

/-- The parties of the ordering machine (R217). -/
inductive Party where
  | team (t : Nat)
  | copy (k : Nat)
  | batch (group n : Nat)
  | share (issue member : Nat)
  | command (k : Nat)
  | host
  | launch (l : Nat)
  | put (p : Nat)
  /-- A party that reads or writes with no view of its own: the watch core, the transport engine (R330, R384). -/
  | watch
deriving DecidableEq, Repr

/-- One write in the coherence order of one byte: the write's identifier and the byte it replaced. -/
structure WriteRef where
  id : Nat
  old : Byte
deriving DecidableEq, Repr

/-- What a write carries (R219, R224): its writer, the die of its writer, its messages. -/
structure WriteInfo where
  party : Party
  die : Option Nat
  msgs : List Msg
  /-- Made by an entry of a matrix queue: later entries of the queue see it (R280). -/
  queued : Bool := false
  /-- The dies of the parties of the reductions merged into it (R228, R367). -/
  more : List Nat := []
deriving DecidableEq, Repr

/-- A register word of a team as its image holds it: one lane of a v register, an s register, or a 32-bit word of an m
register. -/
inductive RegRef where
  | v (reg lane : Nat)
  | s (reg : Nat)
  | m (reg word : Nat)
deriving DecidableEq, Repr

/-- One write of a register word in its coherence order (R218, R219): the identifier of a write through a window, or the place among
the writes that the team's own instructions made; the value it replaced; and what one of the team's own carries (R226). -/
structure RegWrite where
  ref : RegRef
  id : Nat
  own : Nat
  old : Word64
  msgs : List Msg
deriving DecidableEq, Repr

/-- The element formats of memory: a TY code, I4 or B1 (R41, R50, R208). -/
inductive Elem where
  | ty (t : Ty)
  | i4
  | b1
deriving DecidableEq, Repr

/-- What a long-latency producer does with the bytes its accesses return (R11). -/
inductive Form where
  /-- One element: its format, the type it is delivered in, its first bit in the bytes returned. A plane element has its
  bit position and one part for each bit plane; a scaled one has its block scale as the last part (R96, R203, R244). -/
  | elem (d : RegRef) (t : Ty) (fmt : Elem) (shift : Nat) (plane scaled : Bool)
  /-- The sum of a soft load (R253): one part for each weight. -/
  | soft (d : RegRef) (weights : List Word32)
  /-- One weight gradient of SLDA (R260). -/
  | grad (d : RegRef) (g : Word32)
  /-- The eight words of HGET (R262). -/
  | words (d : Nat)
  /-- A value already computed: ATOM, BFA, ACCRD, SEPOCH, SSTA, MLOOPG. -/
  | value (d : RegRef) (t : Ty) (w : Word64)
deriving DecidableEq, Repr

/-- A long-latency producer issued and not yet completed (R11). -/
structure Producer where
  team : Nat
  dests : List RegRef
  form : Form
  /-- The bytes each of its accesses has returned so far. -/
  parts : List (Option (List Byte))
  /-- The flags its completion sets (R248, R314). -/
  flags : BitVec 8 := 0
  /-- The O that a team waiting on it joins (R261). -/
  join : View := []
deriving DecidableEq, Repr

/-- One blend of a soft store (R254). -/
structure Blend where
  team : Nat
  launch : Nat
  wid : Word64
  order : Nat
  lane : Nat
  tseq : Nat
  elem : Nat
  x : Word32
  /-- Slot, weight and byte address of the slot's element, for the entries that take part; the second number is k. -/
  entries : List (Nat × Nat × Word32 × Nat)
  pc : Word64
deriving DecidableEq, Repr

/-- What a pending access does when it performs. -/
inductive AccKind where
  | read
  /-- A store; mask holds the bits written of each byte (R245). -/
  | write (data mask : List Byte)
  | atom (op : AtomOp) (t : Ty) (v cmp : Word64)
  | bfaIns (v mask : Word64)
  | bfaFfcs
  | bfaPlset (limit : Word64)
  | red (op : RedOp) (t : Ty) (v : Word64)
  /-- An element of a layered handle, formed at the home slice (R213): entry, row, column. -/
  | layered (handle : Nat) (row col : Nat)
  /-- The read of a whole handle entry (R262). -/
  | entry
  /-- The blends of one SST (R254), with the arrival it sends after them. -/
  | blend (bs : List Blend) (arrive : Bool)
  /-- The close move of SEPOCH (R237). -/
  | close (handle : Nat) (jrst : Bool)
  /-- SEPOCH.bind and SEPOCH.unbind (R269). -/
  | bindTo (bar : Option (Nat × Nat))
  /-- SSTA (R261): epoch, RWD, the barrier it arrives at. -/
  | adjoint (handle : Nat) (epoch : Word32) (rwd : Bool) (bar : Option Nat)
  /-- A store through an alias window (R202, R299). -/
  | windowOp (code : Nat) (t : Ty) (x : Word64)
  /-- A write of a register image through the register window, and one through the emptying window. -/
  | windowWrite (data : List Byte)
  | windowEmpty
  /-- One slice of a copy: what is still to be read, as intervals of units: bytes of the destination rows, or elements of CPYR
  (R291, R293, R294). -/
  | copyRun (todo : List (Nat × Nat))
  /-- The addition of one element of CPYR that has been read: source type, destination kind, element (R294). -/
  | copyAdd (t : Ty) (dk v : Nat)
  /-- The masks of a slice of CPYS (R293). -/
  | copyMasks
  /-- ACCRD of one element: destination type, kind, SAT (R314). -/
  | accRead (t : Ty) (kind : Nat) (sat : Bool)
  /-- The arrival of OPRDY at a barrier of the team's group (R282). -/
  | ready (bar : Nat)
deriving DecidableEq, Repr

/-- A reduction that has been merged into another: its party, its place in the party's program order and its lane, its ordering and
scope, and what its fault record names (R228, R360). -/
structure Merged where
  party : Party
  seq : Nat
  lane : Nat
  ord : Ord
  scope : Scope
  vf : Nat
  launch : Nat
  pc : Word64
  va : Word64
deriving DecidableEq, Repr

/-- A run of bytes: all of them, or, with a pitch, the first width bytes of every pitch only, where the run begins at byte phase of
one (the slots of a soft region, R210, R252). -/
structure Run where
  first : Nat
  len : Nat
  pitch : Nat := 0
  width : Nat := 0
  phase : Nat := 0
deriving DecidableEq, Repr

/-- A pending access of a party (R222). -/
structure Access where
  party : Party
  /-- Place in the party's program order; the accesses of one instruction share it. -/
  seq : Nat
  path : Path
  vf : Nat
  launch : Nat
  pc : Word64
  lane : Nat
  /-- The address as the program formed it, and the location it names. -/
  va : Word64
  loc : Nat
  size : Nat
  kind : AccKind
  ord : Ord
  scope : Scope
  /-- The producer it feeds, and the part of it. -/
  prod : Option (Nat × Nat)
  /-- The runs of bytes whose order this access respects as a whole (R256, R269). -/
  range : List Run := []
  /-- The reductions merged into this one (R228). -/
  merged : List Merged := []
  /-- The bytes that other elements of its load were formed from, with the index each took (R137). -/
  formed : View := []
deriving DecidableEq, Repr

/-- A barrier of a group (R173), with its phase views (R229) and the turns of CPYR (R294). -/
structure Barrier where
  expect : BitVec 16
  arrived : BitVec 16
  gen : BitVec 32
  faultC : Bool
  faultL : Bool
  collecting : View
  phases : List (BitVec 32 × View)
  turns : Nat
deriving DecidableEq, Repr

/-- A gate (R282): its barrier, the arrival of its OPRDY, and GEN + 1 once that arrival has performed. -/
structure Gate where
  bar : Nat
  arrival : Nat
  target : Option (BitVec 32)
deriving DecidableEq, Repr

/-- A reconvergence stack entry (R139). -/
structure StackEntry where
  pending : Bool
  pc : Word64
  mask : LaneSet
deriving DecidableEq, Repr

/-- What a waiting instruction of a team has already done. -/
inductive Stall where
  | none
  /-- Waits for these registers to become full (R12, R13, R393). -/
  | regs (rs : List RegRef)
  /-- Waits at a barrier for its target (R176); or released, with the status word of that moment (R177). -/
  | barrier (b : Nat) (released : Option Word64)
  /-- FENCESC at a scope (R227): drained, waits for the tick; or its SC move is done. -/
  | fence (scope : Scope) (done : Bool)
  /-- MOOR has marked its region (R273); converting; or converted with an error or not. -/
  | moor (rb : Nat) (done : Bool) (error : Option Nat)
  /-- ECLW waits, for the package or its die, with a limit or without; or has its result (R366). -/
  | eclw (pkg limited : Bool) (result : Option Word64)
  /-- DRAIN waits for these copies (R320). -/
  | drain (copies : List Nat)
  /-- SPAWN waits for room for so many items in a queue of its launch (R150). -/
  | spawn (q need : Nat)
  /-- LAUNCH waits for room in a queue of its context (R345). -/
  | launch (q : Nat)
  /-- MOOR waits until its core may moor so many bytes more (R273). -/
  | capacity (bytes : Nat)
  /-- MLOOPG waits for room at the members of its mask (R288). -/
  | share (mask : Nat)
  /-- A copy command waits until fewer than 16 collect in its group (R290). -/
  | collect
  /-- MWAIT waits for the batches up to this one; it resumes for the same one (R312). -/
  | mwait (n : BitVec 32)
  /-- HSET, HATT or HDET waits for a FOLD that holds the entry at this address (R297). -/
  | held (entry : Nat)
  /-- Waits for pending accesses or engine work of its own core. -/
  | other
deriving DecidableEq, Repr

/-- How a team stands (R154). -/
inductive Phase where
  | running
  /-- Parked by a translation fault (R353): the address, the access kind of R374, the lanes that failed. -/
  | parked (va : Word64) (kind : Nat) (lanes : LaneSet)
  /-- Refused a translation (R355): the Access is raised when the team next runs. -/
  | refused (va : Word64) (lanes : LaneSet)
  /-- Every lane has exited; waits to retire (R127). -/
  | ended
  | retired
deriving DecidableEq, Repr

/-- The control state of the image as last written (R348). -/
structure ControlBlock where
  spc : Word64 := 0
  regpc : Word64 := 0
  regcnt : Word64 := 0
  bits : Word64 := 0
  status : Word64 := 0
  fpmode : Word64 := 0
  tcause : Word64 := 0
  tpc : Word64 := 0
  btgt : List (BitVec 32) := []
  emask : LaneSet := 0
  xmask : LaneSet := 0
  flanes : LaneSet := 0
deriving DecidableEq, Repr

/-- A team (R7 to R19, R132, R133). -/
structure Team where
  launch : Nat
  group : Nat
  idx : Nat
  lanes : Nat
  vcount : Nat
  /-- v registers: register, then lane. -/
  v : List (List Word32)
  vEmpty : List LaneSet
  s : List Word64
  sEmpty : BitVec 64
  m : List LaneSet
  pc : Word64
  /-- The PC has entered its line from outside (R17), and was reached by a checked transfer (R18). -/
  entered : Bool
  checked : Bool
  status : BitVec 8
  rm : BitVec 3
  skipnf : Bool
  trapcause : Word64
  trappc : Word64
  masked : Bool
  pickthr : BitVec 9
  einjSite : BitVec 3
  einjAddr : BitVec 56
  /-- The work identifier of lane 0, and for a packed team that of every lane (R143, R153). -/
  wid : Word64
  packed : Option (List Word64)
  e : LaneSet
  x : LaneSet
  stack : List StackEntry
  /-- The reconvergence block as it was last written from outside, when that is not what the stack gives (R348). -/
  block : Option (List Byte) := none
  regpc : Word64
  rvalid : Bool
  regcnt : Word64
  /-- The last instruction closed a region: the next one is its entry (R351). -/
  closed : Bool
  targets : List (Option (BitVec 32))
  gate : Option Gate
  /-- Copy commands issued so far (R290). -/
  copies : Nat
  seq : Nat
  /-- The slot at the PC has been recorded as a region entry where it is one (R19). -/
  recorded : Bool
  /-- REP in progress: the next iteration, the REP word, and its follower as step 3 decoded it (R91, R94). -/
  rep : Option (Nat × RepWord × Instr)
  stall : Stall
  phase : Phase
  /-- The teams of its core that have issued since this one became ready (R154). -/
  passed : List Nat
  preheld : Bool
  forced : Bool
  /-- Evicted while parked past the threshold: resumes at REGPC (R354). -/
  parkedOut : Bool
  image : Nat
  ctl : ControlBlock
  /-- Stopped by a debugger, and how many instructions it may still run (R388). -/
  halted : Bool
  steps : Nat
  pv : PView
  /-- The passes of the instruction issued last that are still to come (R134, R154). -/
  owed : Nat := 0
  /-- The writes of its register words, latest first, and how many of its own moves have written some (R218, R219). -/
  past : List RegWrite := []
  clock : Nat := 0
deriving DecidableEq, Repr

/-- A moored region (R271, R273): offsets are group-relative. -/
structure Moor where
  rb : Nat
  macros : Nat
  ty : Ty
  scaled : Bool
  /-- The scale area that the MOOR named. -/
  scb : Nat
  /-- Its place among the copies started, when it was marked (R273). -/
  order : Nat
  converting : Bool
  /-- Non-finite flags by tile, column and block, set ones listed. -/
  flags : List (Nat × Nat)
  scales : List Byte
  /-- The bytes that the conversion read, and the index in its order of the write that each read took (R370). -/
  data : List Byte := []
  took : View := []
deriving DecidableEq, Repr

/-- The parameters of a matrix loop (R277, R307). -/
structure LoopParams where
  semiring : Semiring
  unf : Bool
  ty : Ty
  mb : Nat
  mi : Nat
  ab : Nat
  ai : Int
  asc : Bool
  c0 : Bool
  sb : Nat
  ap : Nat
  steps : Nat
  zt : Nat
  /-- The unfold descriptor as read at issue (R285). -/
  desc : List Byte
deriving DecidableEq, Repr

/-- What an entry of a matrix queue does (R280). -/
inductive QueueWork where
  | loop (p : LoopParams) (batch : Nat)
  | share (issue : Nat) (p : LoopParams)
  /-- The place of an issuer's own share until it is delivered (R282, R304). -/
  | held (issue : Nat) (p : LoopParams)
  | fill (z n kind : Nat)
  /-- ACCWR: offset of each element in the group's accumulators, and its eight bytes. -/
  | put (cells : List (Nat × List Byte))
deriving DecidableEq, Repr

/-- An entry of a matrix queue: its issuer, its place in the issuer's program order, the gate that holds it (R282), its
next step and its fault (R286): cause and detail. num counts the loops that the group's queue has taken. -/
structure QueueEntry where
  team : Nat
  seq : Nat
  num : Nat
  gate : Option Gate
  work : QueueWork
  step : Nat
  fault : Option (Nat × Nat)
  pc : Word64
deriving DecidableEq, Repr

/-- A fault of matrix work not yet reported (R286): the loop's number, the cause, its issuer and its PC. -/
structure EngineFault where
  num : Nat
  cause : Nat
  team : Nat
  pc : Word64
deriving DecidableEq, Repr

/-- A batch (R281): loops still to finish, whether closed, its party's views, its faults not yet reported. -/
structure Batch where
  unfinished : Nat
  closed : Bool
  pv : PView
  faults : List EngineFault
deriving DecidableEq, Repr

/-- Where a group is bound: core 0 to 1023 (256 × die + 32 × cluster + core), slot, and scratchpad base in 4 KiB
units (R340). -/
structure Place where
  core : Nat
  slot : Nat
  spb : Nat
deriving DecidableEq, Repr

/-- Why a group is to leave its core (R356). -/
inductive Leave where
  | preempt
  | yield
  | park
deriving DecidableEq, Repr

/-- A group (R145, R146). -/
structure Group where
  launch : Nat
  gang : Nat
  gidx : Nat
  packed : Bool
  teams : List Nat
  place : Option Place
  /-- Where it was bound last (R272, R359). -/
  last : Option Place
  started : Bool
  retired : Bool
  stopped : Bool
  spad : Nat
  nacc : Nat
  nbar : Nat
  barriers : List Barrier
  moors : List Moor
  queue : List QueueEntry
  shares : List QueueEntry
  reserved : Nat
  batch : BitVec 32
  batches : Tab Batch
  entryNo : Nat
  /-- The groups of its core whose queues have taken a step since its own could take one (R280). -/
  passed : List Nat
  /-- The groups of its core whose teams have issued since one of its own did, while it had one that could (R154). -/
  waited : List Nat := []
  leave : Option Leave
  prio : Nat
deriving DecidableEq, Repr

/-- An item of a spawn queue (R149), with the view its SPAWN released (R172). -/
structure Item where
  pc : Word64
  payload : List Word32
  seq : Word64
  rel : View
deriving DecidableEq, Repr

/-- A spawn queue (R148 to R151): filling teams are oldest first, each one's items first placed first. -/
structure SpawnQueue where
  logn : Nat
  vregs : Nat
  spad : Nat
  nacc : Nat
  nbar : Nat
  counter : Word64
  items : List Item
  filling : List (Word64 × List Item)
deriving DecidableEq, Repr

/-- The lifecycle of a launch (R335). -/
inductive Life where
  | admitted
  | distributed
  | resident
  | retired
  | completed
deriving DecidableEq, Repr

/-- A fault record as its 64 bytes hold it (R359). -/
structure FaultRecord where
  cause : Nat
  kind : Nat
  tcause : Word64
  pc : Word64
  regcnt : Word64
  wid : Word64
  place : Nat
  addr : Word64
  lnum : Nat
deriving DecidableEq, Repr

/-- A launch from its admission (R331 to R343). -/
structure Launch where
  vf : Nat
  lnum : Nat
  queue : Nat
  qpos : Nat
  serialOn : Option Nat
  entry : Word64
  argp : Word64
  htb : Word64
  cwadr : Word64
  imgt : Word64
  fq : Word64
  fqcap : Nat
  logn : Nat
  vregs : Nat
  tpg : Nat
  gpg : Nat
  widths : List Nat
  counts : List Nat
  spad : Nat
  nacc : Nat
  nbar : Nat
  headerQueue : Nat
  cscope : Scope
  coResident : Bool
  domain : Nat
  regions : List (Nat × Nat × Nat)
  spawn : Tab SpawnQueue
  life : Life
  edges : List Nat
  /-- What the launches before it released (R337). -/
  start : View
  base : Nat
  units : Nat
  records : Nat
  written : Nat
  drop : Nat
  firstCause : Nat
  terminated : Bool
  /-- The O of every party of the launch that has ended (R239). -/
  done : View
  /-- Writes of the watch core for the launch that a swap holds, oldest first: address, bytes, whether a fault record (R196). -/
  waiting : List (Word64 × List Byte × Bool) := []
deriving DecidableEq, Repr

/-- A launch queue of a context (R329). -/
structure LaunchQueue where
  qbase : BitVec 56 := 0
  qerr : BitVec 8 := 0
  qen : Bool := false
  qprio : BitVec 3 := 0
  qlog : BitVec 5 := 4
  qtail : Word32 := 0
  qhead : Word32 := 0
  /-- What the queue writes released to the watch core (R330, R345). -/
  rel : View := []
  /-- The launch of the last entry taken, for SERIAL (R334). -/
  last : Option Nat := none
  /-- What the completion word of an entry refused last released, for SERIAL (R337, R343). -/
  refused : View := []
  /-- A translation that the entry at QHEAD waits for, reported to system software (R334, R374). -/
  blocked : Option Word64 := none
deriving DecidableEq, Repr

/-- An invalidation that has taken effect (R206, R329): first page, log2 of the size (64 for all), and the number of
writes made before it. -/
structure Inval where
  base : Nat
  logSize : Nat
  stamp : Nat
deriving DecidableEq, Repr

/-- A context: one virtual function (R329, R374), with what system software assigns to it (R199, R201, R377). -/
structure Context where
  pgroot : BitVec 56
  trapvec : Word64
  invDone : Word32
  invPending : List Word64
  invals : List Inval
  frbase : Word64
  frtail : Word32
  frhead : Word32
  /-- Reports that wait for room in the ring (R374): address, kind, LNUM. -/
  reports : List (Word64 × Nat × Nat)
  rthresh : BitVec 23
  fxbase : BitVec 56
  fxlog : BitVec 4
  fxdoor : BitVec 56
  fxhead : Word32
  /-- Descriptors taken up to here by the transport engine's last reading of the doorbell (R384). -/
  fxtail : Word32
  fxRel : View
  /-- A translation that the next descriptor waits for, reported to system software. -/
  fxBlocked : Option Word64
  consent : Bool
  /-- An invasive debugger has claimed the context (R129, R388). -/
  claimed : Bool
  queues : Tab LaunchQueue
  /-- Queue served last at each priority (R330). -/
  servedQueue : Tab Nat
  admitted : Nat
  domain : BitVec 8
  readMask : BitVec 256
  writeMask : BitVec 256
  patterns : Tab (BitVec 256)
deriving DecidableEq, Repr

/-- The mode of a copy (R291, R293, R294). -/
inductive CopyMode where
  | plain | tile | tr | mcast | flash | rows
  | reduce (t : Ty) (dk turn : Nat)
deriving DecidableEq, Repr

/-- One team's slice of a copy (R291), with the views its issuer had (R230); what the start read for it: the members that it
reaches, the masks of CPYS, the pattern of .tr, the tags of .flash. -/
structure Slice where
  team : Nat
  idx : Nat
  w0 : Word64
  w1 : Word64
  w2 : Word64
  w3 : Word64
  view : View
  members : List Nat
  masks : List Nat
  pattern : BitVec 256
  tags : List Nat
deriving DecidableEq, Repr

/-- How a copy stands: its slices collect, it is read in, its accesses perform, it is done. -/
inductive CopyPhase where
  | collecting | starting | running | complete
deriving DecidableEq, Repr

/-- A copy command (R290). Its slices stand in ascending team index. -/
structure Copy where
  group : Nat
  launch : Nat
  vf : Nat
  ordinal : Nat
  mode : CopyMode
  handle : Nat
  bar : Option Nat
  cimm : BitVec 16
  phase : CopyPhase
  slices : List Slice
  differ : Bool
  /-- Its place among the copies started, and the core it started on. -/
  order : Nat
  core : Nat
  /-- The paths that its writes have taken (R295). -/
  paths : List Path
  pv : PView
  /-- Cause and the bits that R347 adds to the ordinal. -/
  fault : Option (Nat × Nat)
  /-- A DRAIN or a record has told of the fault; a barrier has (R292, R360). -/
  reported : Bool
  told : Bool
  /-- .tile: the handle entry as read at the start. -/
  entry : List Byte
  /-- .tile: the entry as each line of the tile has read it, by slice and line of its base (R238). -/
  lines : Tab (List Byte) := []
  /-- .flash: the extent that is loaded now, by slice and number, and whether its tag has been checked. -/
  extent : Nat × Nat
  checked : Bool
  /-- CPYR to peers: the members whose turn is still due, each with whether it has begun. -/
  turns : List (Nat × Bool)
  /-- A translation that the copy waits for, reported to system software (R292, R374). -/
  blocked : Option Word64
  pc : Word64
deriving DecidableEq, Repr

/-- One bag of EMB (R300, R322): its lane, index array, output and count; the lines still to read or write, as intervals of units:
those of the index array, then those of each row, then those of the output; the indices read so far, by position; the row elements
read so far, element j of row i at i × EXT0 + j, in F32; whether some of the output is written, and whether it waits for a
translation. -/
structure Bag where
  lane : Nat
  indices : Word64
  out : Word64
  count : Word32
  todo : List (Nat × Nat) := []
  idx : Tab Nat := []
  rows : Tab Word32 := []
  begun : Bool := false
  waits : Bool := false
deriving DecidableEq, Repr

/-- A memory-side command (R296). FOLD and EMB hold the handle entry that they read. -/
inductive CommandKind where
  | fold (handle p : Nat) (nb nl : Word64) (entry : List Byte)
  | emb (mean : Bool) (entry : List Byte) (bags : List Bag)
  | upd (adam skipnf : Bool) (w m v g : Word64) (count : Nat) (params : List Word64)
deriving DecidableEq, Repr

structure Command where
  kind : CommandKind
  team : Nat
  seq : Nat
  launch : Nat
  vf : Nat
  /-- The completion word: the place that its address named at issue; whether it was reached through the emptying window. -/
  cwAt : Nat
  cwEmpties : Bool
  tag : Word32
  /-- The die of the core that it left (R342). -/
  die : Option Nat
  entered : Bool
  /-- The latest write of all when it entered: the rows of EMB are not read older than that (R300). -/
  since : Nat
  /-- Elements of FOLD, lanes of EMB, elements of UPD still to do, as intervals; then, for FOLD, the final move. -/
  todo : List (Nat × Nat)
  final : Bool
  flags : BitVec 8
  fault : Option Nat
  /-- FOLD: the entry that it holds (R297). -/
  holds : Option Nat
  /-- A translation that the command waits for, reported to system software. -/
  blocked : Option Word64
  pv : PView
  pc : Word64
deriving DecidableEq, Repr

/-- A ganged issue (R287, R288): members still to receive their share, members not yet settled. -/
structure Issue where
  team : Nat
  group : Nat
  params : LoopParams
  bar : Nat
  gate : Option Gate
  toSend : List Nat
  unsettled : List Nat
  /-- Members in whose share buffer an entry was reserved at issue (R288). -/
  reserved : List Nat
  faulted : BitVec 32
  missed : BitVec 32
  prod : Nat
  seq : Nat
  pc : Word64
  pvs : Tab PView
deriving DecidableEq, Repr

/-- What the closes of a region did while its journal's header could not be reached, to be written when it can (R258): whether
the journal was reset, the records appended since then, the closes, and the first epoch that lost records. -/
structure Unwritten where
  base : Word64
  reset : Bool
  records : Nat
  closes : Nat
  lost : Option Word32
deriving DecidableEq, Repr

/-- A soft region's queue at its home slice (R235), by its entry's location; SSTs of each team in the epoch (R258). -/
structure Soft where
  blends : List Blend
  counts : Tab Nat
  epoch : Word32
  unwritten : Option Unwritten
deriving DecidableEq, Repr

/-- A put of the fabric transport (R385). -/
structure Put where
  vf : Nat
  desc : List Byte
  sent : Bool
  cw : Word64
  tag : Word32
  pv : PView
deriving DecidableEq, Repr

/-- A put that comes in from a peer (R385): the bytes of its data still to land, as intervals of offsets, then its signal; the writes
that have landed, as a view. -/
structure Inbound where
  vf : Nat
  dst : BitVec 56
  data : List Byte
  todo : List (Nat × Nat)
  signal : Option (BitVec 56 × Word64)
  o : View
deriving DecidableEq, Repr

/-- What a checkpoint keeps of a page of an image beside its bytes (R139, R184, R383): the registers that are empty, and the stack that
its reconvergence block holds, in a layout that the device alone reads. -/
structure Aside where
  empty : List RegRef
  stack : List StackEntry
  block : Option (List Byte)
deriving DecidableEq, Repr

/-- A flash namespace behind a storage port (R379, R380). -/
structure Flash where
  /-- Formatted with 4,096-byte blocks and no metadata. -/
  blocks4k : Bool
  bytes : List Host.Cell
  grants : Word64
  /-- What checkpoints in it keep beside the bytes, by the place of the page. -/
  asides : Tab Aside := []
deriving DecidableEq, Repr

/-- The mailbox of the physical function (R376). -/
structure Mailbox where
  args : List Word64
  mout : Word64
  mres : BitVec 8
  dseq : Word32
  busy : Bool
  seq : Word32
  opc : BitVec 16
  /-- The arguments as the running command read them, and its result once known. -/
  taken : List Word64
  result : Option (BitVec 8 × Word64)
deriving DecidableEq, Repr

/-- Security states (R388). -/
inductive Security where
  | od | pr | pd
deriving DecidableEq, Repr

/-- How far bring-up has come (R391): not yet begun; failed, with the mailbox alone; done; or out of S3 with steps 1 and 3 to run again
(R389). -/
inductive Boot where
  | reset | recovery | up | waking
deriving DecidableEq, Repr

/-- Power states (R389). -/
inductive Power where
  | p0 | p1 | s1 | s3
deriving DecidableEq, Repr

/-- The move that a step makes: a team issues its next instruction, one event of the table happens, or the host makes
an access of its own at system scope (R217, R239). -/
inductive Move where
  | issue (team : Nat)
  | event (i : Instr)
  | hostWrite (loc : Nat) (data : List Byte) (release : Bool)
  | hostRead (loc n : Nat) (acquire : Bool)
  /-- The host's IOMMU refuses these ranges of bus addresses from now on: requester, base, length (R375). -/
  | hostRefuse (ranges : List (Nat × Nat × Nat))
  /-- The write of an incoming put at this offset of its data lands, or its signal once all have (R385). -/
  | land (put off : Nat)
  /-- Walks read the page-table entry at this address as it stood so many writes back, until an invalidation (R206). -/
  | oldEntry (addr back : Nat)
deriving DecidableEq, Repr

/-- The state of the device. -/
structure State where
  -- the model's own: which move comes next, which permitted write a read returns, the counter of free values
  agenda : List Move
  picks : List Nat
  freeCtr : Nat
  cur : Option Nat
  round : List Move
  nextId : Nat
  /-- The bytes read for the load whose line is being formed, with the index each took (R137). -/
  formed : View
  /-- The FOLD under whose triple that line is formed, and its write of the entry (R238). -/
  under : Option (Nat × Nat)
  -- memory and its coherence history (R218, R219)
  mem : List Host.Cell
  hist : Tab (List WriteRef)
  writes : Tab WriteInfo
  nextWrite : Nat
  entries : Tab (List (List Byte))
  bindings : Tab (List (Option (Nat × Nat)))
  sc : List Msg
  hostView : PView
  pend : Tab Access
  prods : Tab Producer
  flash : Tab Flash
  -- work
  teams : Tab Team
  groups : Tab Group
  launches : Tab Launch
  ctxs : Tab Context
  stale : Tab Nat
  copies : Tab Copy
  commands : Tab Command
  issues : Tab Issue
  soft : Tab Soft
  puts : Tab Put
  inbound : Tab Inbound
  -- the base dies and the package
  alloc : Tab (BitVec 16)
  frames : Tab Nat
  pinned : List Nat
  held : Tab (Nat × Nat)
  /-- Host bus ranges whose requests the host refuses (R375): requester (0 to 63 a virtual function, 64 the physical one), base,
  length. -/
  hostDenied : List (Nat × Nat × Nat)
  /-- Words (byte address div 8; those of copies in home slices and instruction lines above all others) marked uncorrectable, with the site
  code of their storage (R361). -/
  marks : Tab Nat
  corrected : Tab Nat
  embRows : Tab Nat
  beacon : Word64
  bwmon : Tab Nat
  bwWindow : Tab (List Nat)
  cores : LaneSet
  stackSet : BitVec 12
  ports : BitVec 24
  portUp : BitVec 24
  served : Tab Nat
  mailbox : Mailbox
  nonce : List Byte
  peers : Tab (BitVec 24 × BitVec 48)
  security : Security
  invasive : Bool
  power : Power
  boot : Boot
  /-- Which firmware and microprograms step 1 of bring-up found last; their contents are constants of Config (R389, R390). -/
  firmware : Nat
  msix : Tab Nat
deriving DecidableEq, Repr

/-- Reasons for which the machine stops. -/
inductive Fault where
  /-- Raised by an instruction's meaning when no team is issuing, or the team named does not exist: there is nothing that
  could execute the word. Safe: the hardware never issues a word without a team. -/
  | noTeam
deriving DecidableEq, Repr

/-- Reasons for which the model declines a step. -/
inductive Refusal where
  /-- Raised by an arm of exec whose instruction has no meaning yet. Safe: nothing can be proved about it. -/
  | notModelled (mnemonic : String)
deriving DecidableEq, Repr

/-- A context at reset (R329, R374). -/
def Context.reset : Context where
  pgroot := 0
  trapvec := 0
  invDone := 0
  invPending := []
  invals := []
  frbase := 0
  frtail := 0
  frhead := 0
  reports := []
  rthresh := 14000
  fxbase := 0
  fxlog := 4
  fxdoor := 0
  fxhead := 0
  fxtail := 0
  fxRel := []
  fxBlocked := none
  consent := false
  claimed := false
  queues := []
  servedQueue := []
  admitted := 0
  domain := 0
  readMask := 0
  writeMask := 0
  patterns := []

/-- The mailbox at reset (R376). -/
def Mailbox.reset : Mailbox where
  args := List.replicate 16 0
  mout := 0
  mres := 0
  dseq := 0
  busy := false
  seq := 0
  opc := 0
  taken := []
  result := none

/-- The device right after reset: no work, memory with nothing listed, every register at the value of its table. Before
bring-up (R391) no core, stack or port is reported as enabled. -/
def State.reset : State where
  agenda := []
  picks := []
  freeCtr := 0
  cur := none
  round := []
  nextId := 0
  formed := []
  under := none
  mem := []
  hist := []
  writes := []
  nextWrite := 1
  entries := []
  bindings := []
  sc := []
  hostView := {}
  pend := []
  prods := []
  flash := []
  teams := []
  groups := []
  launches := []
  ctxs := []
  stale := []
  copies := []
  commands := []
  issues := []
  soft := []
  puts := []
  inbound := []
  alloc := []
  frames := []
  pinned := []
  held := []
  hostDenied := []
  marks := []
  corrected := []
  embRows := []
  beacon := 0
  bwmon := []
  bwWindow := []
  cores := 0
  stackSet := 0
  ports := 0
  portUp := 0
  served := []
  mailbox := Mailbox.reset
  nonce := []
  peers := []
  security := .od
  invasive := false
  power := .p0
  boot := .reset
  firmware := 0
  msix := []

end Sys2Proof.Machine
end

