-- ==== Sys2Proof/Machine/Table.lean ====
section
/-! DEFINITION. Finite maps in canonical form, the byte memory, and lists used as register files. -/

namespace Sys2Proof.Machine

/-! ### Maps with keys in rising order -/

/-- The entry at key k. -/
def tabGet? {α : Type} : Tab α → Nat → Option α
  | [], _ => none
  | (j, a) :: rest, k => if j = k then some a else if k < j then none else tabGet? rest k

/-- The entry at key k, or d. -/
def tabGet {α : Type} (t : Tab α) (k : Nat) (d : α) : α := (tabGet? t k).getD d

/-- The map with a at key k. -/
def tabSet {α : Type} : Tab α → Nat → α → Tab α
  | [], k, a => [(k, a)]
  | (j, b) :: rest, k, a =>
    if j = k then (k, a) :: rest
    else if k < j then (k, a) :: (j, b) :: rest
    else (j, b) :: tabSet rest k a

/-- The map without key k. -/
def tabDel {α : Type} : Tab α → Nat → Tab α
  | [], _ => []
  | (j, b) :: rest, k =>
    if j = k then rest
    else if k < j then (j, b) :: rest
    else (j, b) :: tabDel rest k

/-- The map with f applied to the entry at key k, when there is one. -/
def tabModify {α : Type} (t : Tab α) (k : Nat) (f : α → α) : Tab α :=
  match tabGet? t k with
  | some a => tabSet t k (f a)
  | none => t

/-- The keys are strictly rising and all at least lo. -/
def tabSortedFrom {α : Type} : Nat → Tab α → Bool
  | _, [] => true
  | lo, (k, _) :: rest => decide (lo ≤ k) && tabSortedFrom (k + 1) rest

/-! ### Views -/

/-- The index of location l in a view (R220). -/
def viewAt (v : View) (l : Nat) : Nat := tabGet v l 0

/-- The view with location l at index i; never lowered. -/
def viewRaise (v : View) (l i : Nat) : View := if viewAt v l < i then tabSet v l i else v

/-- Location a at index i joined before the rest, which k joins with what remains of the second view. -/
def joinAt (a i : Nat) (k : View → View) : View → View
  | [] => (a, i) :: k []
  | (b, j) :: w =>
    if a = b then (a, Nat.max i j) :: k w
    else if a < b then (a, i) :: k ((b, j) :: w)
    else (b, j) :: joinAt a i k w

/-- The join of two views: the larger index at each location (R220). -/
def viewJoin : View → View → View
  | [], w => w
  | (a, i) :: v, w => joinAt a i (viewJoin v) w

/-! ### Bytes of memory -/

/-- What a byte of memory that nothing has written reads as: zero (DESIGN CHOICE, log 2). -/
def unwritten : Byte := 0

/-- The byte at address a. -/
def memGet (m : List Host.Cell) (a : Nat) : Byte := tabGet m a unwritten

/-- Memory with b at address a; an entry equal to what an unlisted address reads as is not listed. -/
def memSet (m : List Host.Cell) (a : Nat) (b : Byte) : List Host.Cell :=
  if b = unwritten then tabDel m a else tabSet m a b

/-- The canonical form of memory: addresses strictly rising, no entry equal to what an unlisted address reads as. -/
def Memory.wf (m : List Host.Cell) : Bool := tabSortedFrom 0 m && m.all fun c => c.2 != unwritten

/-- The n bytes from address a, lowest first. -/
def memGets (m : List Host.Cell) (a : Nat) : Nat → List Byte
  | 0 => []
  | n + 1 => memGet m a :: memGets m (a + 1) n

/-- Memory with the bytes bs from address a. -/
def memSets (m : List Host.Cell) (a : Nat) : List Byte → List Host.Cell
  | [] => m
  | b :: bs => memSets (memSet m a b) (a + 1) bs

/-! ### Lists as register files -/

/-- The list with x at position i, padded with d up to it. -/
def putAt {α : Type} (d : α) : List α → Nat → α → List α
  | [], 0, x => [x]
  | [], i + 1, x => d :: putAt d [] i x
  | _ :: rest, 0, x => x :: rest
  | a :: rest, i + 1, x => a :: putAt d rest i x

/-- The element at position i, or d. -/
def nth {α : Type} (d : α) : List α → Nat → α
  | [], _ => d
  | a :: _, 0 => a
  | _ :: rest, i + 1 => nth d rest i

/-- The numbers of the lanes of a set below n, ascending. -/
def lanesOf (n : Nat) (l : LaneSet) : List Nat := (List.range n).filter fun i => l.getLsbD i

/-- The set that holds lane i alone. -/
def laneBit (i : Nat) : LaneSet := BitVec.ofNat 1024 (2 ^ i)

/-- The lanes 0 to n - 1. -/
def firstLanes (n : Nat) : LaneSet := BitVec.ofNat 1024 (2 ^ n - 1)

/-- The set with lane i in it or not. -/
def laneSet (l : LaneSet) (i : Nat) (b : Bool) : LaneSet := if b then l ||| laneBit i else l &&& ~~~ laneBit i

/-- The number of bits that are one below position n. -/
def countOnes (w : Nat) : Nat → Nat
  | 0 => 0
  | n + 1 => countOnes w n + (if w.testBit n then 1 else 0)

end Sys2Proof.Machine
end

