-- ==== Sys2Proof/Machine/Ordering.lean ====
section
/-! DEFINITION. The ordering machine (R216 to R229): locations, the views of the parties, reads that choose a permitted
write, writes that carry messages. -/

namespace Sys2Proof.Machine

/-! ### Locations (R218) -/

/-- The location of one byte; byte addresses are those of Translate. -/
def byteLoc (a : Nat) : Nat := 3 * a

/-- The location of the handle entry at byte address a, taken as a whole. -/
def entryLoc (a : Nat) : Nat := 3 * a + 1

/-- The location of the binding of the soft region whose entry is at byte address a (R269). -/
def bindLoc (a : Nat) : Nat := 3 * a + 2

/-- Bytes of the scratchpad of group g (area 0) and of its accumulators (area 1) have addresses of their own, above
every device physical address, so that they stay with the group when it is re-bound (R189, R192). -/
def groupByte (area g off : Nat) : Nat := 2 ^ 48 + (2 * g + area) * 2 ^ 20 + off

def spadByte (g off : Nat) : Nat := groupByte 0 g off

def accByte (g off : Nat) : Nat := groupByte 1 g off

/-- The byte belongs to a group's accumulators. -/
def isAcc (a : Nat) : Bool := decide (2 ^ 48 ≤ a) && (a - 2 ^ 48) / 2 ^ 20 % 2 == 1

/-! ### Where a party stands -/

/-- The group of a team. -/
def State.groupOf (s : State) (t : Nat) : Option Group := (tabGet? s.teams t).bind fun tm => tabGet? s.groups tm.group

/-- The core of a group (256 × die + 32 × cluster + core). -/
def Group.core (g : Group) : Option Nat := g.place.map (·.core)

/-- The team whose instances a party has: its issuer (R221). -/
def State.partyTeam (s : State) : Party → Option Nat
  | .team t => some t
  | .command k => (tabGet? s.commands k).map (·.team)
  | .share i _ => (tabGet? s.issues i).map (·.team)
  | .copy k => (tabGet? s.copies k).bind fun c => c.slices.head?.map (·.team)
  | .batch g _ => (tabGet? s.groups g).bind fun g => g.teams.head?
  | _ => none

/-- The group of a party. -/
def State.partyGroup (s : State) : Party → Option Nat
  | .copy k => (tabGet? s.copies k).map (·.group)
  | .batch g _ => some g
  | p => (s.partyTeam p).bind fun t => (tabGet? s.teams t).map (·.group)

/-- The core on which a party runs, when it is bound; that on which its group retired, for what is still to perform (R342). -/
def State.partyCore (s : State) (p : Party) : Option Nat :=
  (s.partyGroup p).bind fun g => (tabGet? s.groups g).bind fun gr => if gr.retired then gr.last.map (·.core) else gr.core

/-- The instance that a scope names for a party at the move (R221); a party with no core has none below package. -/
def State.instOf (s : State) (p : Party) (sc : Scope) : Inst :=
  match sc with
  | .team => (s.partyTeam p).elim .package .team
  | .group => (s.partyGroup p).elim .package .group
  | .cluster => (s.partyCore p).elim .package fun c => .cluster (c / 32)
  | .die => (s.partyCore p).elim .package fun c => .die (c / 256)
  | .package => .package
  | .system => .system

/-! ### Views of parties -/

def State.pv (s : State) : Party → PView
  | .team t => (tabGet? s.teams t).elim {} (·.pv)
  | .copy k => (tabGet? s.copies k).elim {} (·.pv)
  | .command k => (tabGet? s.commands k).elim {} (·.pv)
  | .batch g n => ((tabGet? s.groups g).bind fun g => tabGet? g.batches n).elim {} (·.pv)
  | .share i m => ((tabGet? s.issues i).bind fun x => tabGet? x.pvs m).getD {}
  | .host => s.hostView
  | .launch l => (tabGet? s.launches l).elim {} fun x => { o := x.done }
  | .put p => (tabGet? s.puts p).elim {} (·.pv)
  | .watch => {}

def State.setPv (s : State) (p : Party) (v : PView) : State :=
  match p with
  | .team t => { s with teams := tabModify s.teams t fun x => { x with pv := v } }
  | .copy k => { s with copies := tabModify s.copies k fun x => { x with pv := v } }
  | .command k => { s with commands := tabModify s.commands k fun x => { x with pv := v } }
  | .batch g n =>
    { s with groups := tabModify s.groups g fun x =>
        { x with batches := tabModify x.batches n fun b => { b with pv := v } } }
  | .share i m => { s with issues := tabModify s.issues i fun x => { x with pvs := tabSet x.pvs m v } }
  | .host => { s with hostView := v }
  | .launch l => { s with launches := tabModify s.launches l fun x => { x with done := v.o } }
  | .put q => { s with puts := tabModify s.puts q fun x => { x with pv := v } }
  | .watch => s

/-- The view held at an instance. -/
def msgAt (ms : List Msg) (i : Inst) : View :=
  match ms with
  | [] => []
  | m :: rest => if m.inst = i then m.view else msgAt rest i

/-- The list with v joined at instance i. -/
def msgJoin (ms : List Msg) (i : Inst) (v : View) : List Msg :=
  match ms with
  | [] => [⟨i, v⟩]
  | m :: rest => if m.inst = i then ⟨i, viewJoin m.view v⟩ :: rest else m :: msgJoin rest i v

/-- A[I] joined with v. -/
def PView.acquire (p : PView) (i : Inst) (v : View) : PView := { p with acq := msgJoin p.acq i v }

/-- O joined with v. -/
def PView.joinO (p : PView) (v : View) : PView := { p with o := viewJoin p.o v }

/-- What a release at I carries: the join of O and A[I] (R224). -/
def PView.released (p : PView) (i : Inst) : View := viewJoin p.o (msgAt p.acq i)

/-- The floor of a party at one location: the maximum of O and of every A (R220). -/
def PView.floorAt (p : PView) (l : Nat) : Nat := p.acq.foldl (fun n m => Nat.max n (viewAt m.view l)) (viewAt p.o l)

/-- The floor as a view: what a command or a batch takes from its issuer (R232, R233). -/
def PView.floor (p : PView) : View := p.acq.foldl (fun v m => viewJoin v m.view) p.o

/-! ### Coherence orders -/

/-- The writes of a location, latest first. -/
def State.orderOf (s : State) (l : Nat) : List WriteRef := tabGet s.hist l []

/-- The index of the latest write of a location; the initial value is write 0. -/
def State.latest (s : State) (l : Nat) : Nat := (s.orderOf l).length

/-- The identifier of the write at index i of an order of latest-first writes; 0 is the initial value. -/
def writeIdAt (ws : List WriteRef) (i : Nat) : Nat := if i = 0 then 0 else nth 0 (ws.map (·.id)) (ws.length - i)

/-- The index of write w in an order, or 0. -/
def indexOfWrite : List WriteRef → Nat → Nat
  | [], _ => 0
  | x :: rest, w => if x.id = w then rest.length + 1 else indexOfWrite rest w

/-- The value of byte a as the write at index i left it (R223). -/
def State.byteAt (s : State) (a i : Nat) : Byte :=
  let ws := s.orderOf (byteLoc a)
  if ws.length ≤ i then memGet s.mem a else nth 0 (ws.map (·.old)) (ws.length - i - 1)

/-- The indices that a read of bytes a, a + 1, … chooses before the rule of one move: for each byte, so many writes back
from the latest as the next pick says, and never below the floor. -/
def State.choose (s : State) (fl : Nat → Nat) (a : Nat) (picks : List Nat) : Nat → List Nat
  | 0 => []
  | n + 1 =>
    let l := byteLoc a
    Nat.max (fl l) (s.latest l - picks.headD 0) :: s.choose fl (a + 1) picks.tail n

/-- One pass of the rule of one move (R223): no byte takes a write that precedes, in its order, a write w chosen for
another byte when w wrote both. -/
def State.together (s : State) (a : Nat) (idx : List Nat) : List Nat :=
  let ids := (List.range idx.length).map fun i => writeIdAt (s.orderOf (byteLoc (a + i))) (nth 0 idx i)
  (List.range idx.length).map fun j =>
    ids.foldl (fun k w => if w = 0 then k else Nat.max k (indexOfWrite (s.orderOf (byteLoc (a + j))) w)) (nth 0 idx j)

/-- The passes of `together` until no index can rise any more. -/
def State.settleChoice (s : State) (a : Nat) (idx : List Nat) : Nat → List Nat
  | 0 => idx
  | n + 1 => s.settleChoice a (s.together a idx) n

/-- The indices that one aligned read of n bytes at a takes (R223): with no picks, the latest of every byte. -/
def State.readIdx (s : State) (fl : Nat → Nat) (a n : Nat) : List Nat :=
  match s.picks with
  | [] => (List.range n).map fun i => s.latest (byteLoc (a + i))
  | ps => s.settleChoice a (s.choose fl a ps n) n

/-- The messages carried by the writes chosen. -/
def State.carried (s : State) (a : Nat) (idx : List Nat) : List Msg :=
  (List.range idx.length).flatMap fun i =>
    (tabGet? s.writes (writeIdAt (s.orderOf (byteLoc (a + i))) (nth 0 idx i))).elim [] (·.msgs)

/-- The index that a location had when the write with identifier w was the latest of all (R218). -/
def State.indexSince (s : State) (w l : Nat) : Nat := ((s.orderOf l).filter fun x => decide (x.id ≤ w)).length

/-- What a party gains from the messages of the writes that a read of its chose (R224, R226): an acquire at the instance
given, and what a later FENCE.acq takes. -/
def PView.gain (v : PView) (acq : Option Inst) (ms : List Msg) : PView :=
  { v with
    seen := ms.foldl (fun l m => msgJoin l m.inst m.view) v.seen
    acq := match acq with
      | none => v.acq
      | some i => (ms.filter fun m => m.inst = i).foldl (fun l m => msgJoin l m.inst m.view) v.acq }

/-- What a read perform of n bytes at address a returns, not below the floor fl, an acquire at the instance given, and the views after
it of a party that has views v (R223, R224). -/
def State.readView (s : State) (v : PView) (acq : Option Inst) (fl : Nat → Nat) (a n : Nat) : List Byte × PView :=
  let idx := s.readIdx fl a n
  ((List.range n).map fun i => s.byteAt (a + i) (nth 0 idx i),
    { v.gain acq (s.carried a idx) with
      o := (List.range n).foldl (fun o i => viewRaise o (byteLoc (a + i)) (nth 0 idx i)) v.o })

/-- A read perform of n bytes at address a by party p, not below the floor fl, an acquire at the instance given (R223,
R224). -/
def State.readFloor (s : State) (p : Party) (acq : Option Inst) (fl : Nat → Nat) (a n : Nat) : List Byte × State :=
  let x := s.readView (s.pv p) acq fl a n
  (x.1, { s.setPv p x.2 with picks := s.picks.drop n })

/-- The writes of a byte later than the last one that an entry of a matrix queue made. -/
def State.sinceQueued (s : State) : List WriteRef → Nat
  | [] => 0
  | w :: rest => if (tabGet? s.writes w.id).elim false (·.queued) then 0 else s.sinceQueued rest + 1

/-- The floor of a party at a byte of the accumulators: a read never goes behind the latest step (R279). -/
def State.accFloor (s : State) (p : Party) (l : Nat) : Nat :=
  Nat.max ((s.pv p).floorAt l) (s.latest l - s.sinceQueued (s.orderOf l))

/-- The index of the latest write of an order, up to write w, that command k made. -/
def State.writtenBy (s : State) (k w : Nat) : List WriteRef → Nat
  | [] => 0
  | x :: rest =>
    if decide (x.id ≤ w) && (tabGet? s.writes x.id).elim false (fun i => i.party == .command k) then rest.length + 1
    else s.writtenBy k w rest

/-- A line formed under a FOLD's triple reads nothing older than what that FOLD wrote (R238). -/
def State.underFloor (s : State) (l : Nat) : Nat :=
  match s.under with
  | none => 0
  | some (k, w) => s.writtenBy k w (s.orderOf l)

/-- The floor of a party at a location: its own; in the accumulators the latest step's as well (R220, R279); in a line formed under a
FOLD's triple what the FOLD wrote (R238). -/
def State.readFloorAt (s : State) (p : Party) (l : Nat) : Nat :=
  Nat.max (s.underFloor l) (if isAcc (l / 3) then s.accFloor p l else (s.pv p).floorAt l)

/-- A read perform by party p (R220, R223). -/
def State.readMem (s : State) (p : Party) (acq : Option Inst) (a n : Nat) : List Byte × State :=
  s.readFloor p acq (s.readFloorAt p) a n

/-- A read perform of n bytes for a line that is being formed: a byte that its load has read before keeps the write that it took (R137,
R213). -/
def State.readOnce (s : State) (p : Party) (acq : Option Inst) (a n : Nat) : List Byte × State :=
  let got := s.readIdx (s.readFloorAt p) a n
  let idx := (List.range n).map fun i => (tabGet? s.formed (byteLoc (a + i))).getD (nth 0 got i)
  let v := s.pv p
  ((List.range n).map fun i => s.byteAt (a + i) (nth 0 idx i),
    { s.setPv p { v.gain acq (s.carried a idx) with
        o := (List.range n).foldl (fun o i => viewRaise o (byteLoc (a + i)) (nth 0 idx i)) v.o } with
      picks := s.picks.drop n
      formed := (List.range n).foldl (fun f i => tabSet f (byteLoc (a + i)) (nth 0 idx i)) s.formed })

/-- A read by hardware that is no party, not below the floor given (R330, R384). -/
def State.peek (s : State) (floor : View) (a n : Nat) : List Byte × State :=
  let idx := s.readIdx (viewAt floor) a n
  ((List.range n).map fun i => s.byteAt (a + i) (nth 0 idx i), { s with picks := s.picks.drop n })

/-- The bytes b of memory with the bits of the mask taken from the new data (R245). -/
def maskByte (old new mask : Byte) : Byte := (old &&& ~~~ mask) ||| (new &&& mask)

/-- The bytes from a as write w leaves them in memory and in their orders (R223). -/
def State.appendBytes (s : State) (w a : Nat) : List Byte → State
  | [] => s
  | b :: bs =>
    let l := byteLoc a
    State.appendBytes { s with
      mem := memSet s.mem a b
      hist := tabSet s.hist l (⟨w, memGet s.mem a⟩ :: s.orderOf l) } w (a + 1) bs

/-- A view raised at the n bytes from a to the latest write of each. -/
def State.raiseLatest (s : State) (o : View) (a n : Nat) : View :=
  (List.range n).foldl (fun o i => viewRaise o (byteLoc (a + i)) (s.latest (byteLoc (a + i)))) o

/-- A view raised at the n bytes from a to the write that comes next (R224). -/
def State.raiseNext (s : State) (o : View) (a n : Nat) : View :=
  (List.range n).foldl (fun o i => viewRaise o (byteLoc (a + i)) (s.latest (byteLoc (a + i)) + 1)) o

/-- The die on which a party writes; a copy and a command count for the core that they left, wherever their group is (R342,
R367). -/
def State.partyDie (s : State) (p : Party) : Option Nat :=
  match p with
  | .copy k => (tabGet? s.copies k).map (·.core / 256)
  | .command k => (tabGet? s.commands k).bind (·.die)
  | p => (s.partyCore p).map (· / 256)

/-- A write perform of the bytes at a by party p: a release at the instance given, carrying p's fence records, and the
extra messages (R223, R224, R226, R228). -/
def State.writeMem (s : State) (p : Party) (rel : Option Inst) (extra : List Msg) (a : Nat) (data : List Byte) : State :=
  let w := s.nextWrite
  let s1 := { s.appendBytes w a data with nextWrite := w + 1 }
  let v := s.pv p
  let o := s1.raiseLatest v.o a data.length
  let own := match rel with
    | none => []
    | some i => [⟨i, viewJoin o (msgAt v.acq i)⟩]
  let msgs := v.rel ++ own ++ extra
  { s1.setPv p { v with o := o } with writes := tabSet s1.writes w { party := p, die := s.partyDie p, msgs := msgs } }

/-- The write with identifier w counts for a die (R367). -/
def State.countFor (s : State) (w : Nat) (die : Option Nat) : State :=
  { s with writes := tabModify s.writes w fun x => { x with die := die } }

/-- The write with identifier w counts for some dies more (R367). -/
def State.countMore (s : State) (w : Nat) (dies : List Nat) : State :=
  { s with writes := tabModify s.writes w fun x => { x with more := dies } }

/-- A write of some bits of the bytes at a, on top of the latest write of each. -/
def State.writeMask (s : State) (p : Party) (rel : Option Inst) (a : Nat) (data mask : List Byte) : State :=
  let old := memGets s.mem a data.length
  s.writeMem p rel [] a ((List.range data.length).map fun i => maskByte (nth 0 old i) (nth 0 data i) (nth 0xFF mask i))

/-- The messages on the latest writes of the n bytes at a, which an ATOM or RED copies onto its own write (R224). -/
def State.lastMsgs (s : State) (a n : Nat) : List Msg := s.carried a ((List.range n).map fun i => s.latest (byteLoc (a + i)))

/-- The read of an indivisible move: party p takes the latest write of n bytes at a, and gains from its messages. -/
def State.takeLatest (s : State) (p : Party) (acq : Option Inst) (a n : Nat) : State :=
  let v := s.pv p
  s.setPv p { v.gain acq (s.lastMsgs a n) with o := s.raiseLatest v.o a n }

/-- An indivisible read and write of the last write of n bytes at a (R223): f gives the new bytes from the old. -/
def State.updateMem (s : State) (p : Party) (acq rel : Option Inst) (extra : List Msg) (a n : Nat)
    (f : List Byte → List Byte) : List Byte × State :=
  let old := memGets s.mem a n
  (old, (s.takeLatest p acq a n).writeMem p rel (s.lastMsgs a n ++ extra) a (f old))

/-- The same by a move that is no ATOM and no RED: the messages of the write that it replaces stay with that write (R224). -/
def State.modifyMem (s : State) (p : Party) (a n : Nat) (f : List Byte → List Byte) : State :=
  (s.takeLatest p none a n).writeMem p none [] a (f (memGets s.mem a n))

/-! ### Locations that are not bytes -/

/-- A write to an entry or binding location that rides in the same move as the write of bytes with identifier w. -/
def State.appendWhole (s : State) (w l : Nat) : State :=
  { s with hist := tabSet s.hist l (⟨w, 0⟩ :: s.orderOf l) }

/-! ### Fences (R226) -/

/-- FENCE.rel at I: the record that every later write carries. -/
def PView.fenceRel (p : PView) (i : Inst) : PView := { p with rel := msgJoin p.rel i (p.released i) }

/-- FENCE.acq at I: every message at I that an earlier read of p chose joins A[I]. -/
def PView.fenceAcq (p : PView) (i : Inst) : PView := p.acquire i (msgAt p.seen i)

/-- The SC move of FENCESC at I (R227). -/
def State.scMove (s : State) (p : Party) (i : Inst) : State :=
  let v := s.pv p
  let sI := viewJoin (msgAt s.sc i) (v.released i)
  { s.setPv p (v.acquire i sI) with sc := msgJoin s.sc i sI }

end Sys2Proof.Machine
end

