-- ==== Sys2Proof/Machine/Translate.lean ====
section
/-! DEFINITION. Address spaces: the physical map (R181 to R183), register images and their windows (R184 to R188),
scratchpad and cluster window (R189, R190), page tables (R204, R205), row permissions (R197 to R200). -/

namespace Sys2Proof.Machine

/-- The trap causes (R347). -/
inductive Cause where
  | illegalInstruction | illegalOperand | branchTarget | emptyRegister | misaligned | scratchpadBounds | translation
  | access | mooredWrite | listOverflow | softError | handleInvalid | breakpoint | software | gangFault | containerTag
  | stridePattern | deferred
deriving DecidableEq, Repr

/-- The code of a cause (R347). -/
def Cause.code : Cause → Nat
  | .illegalInstruction => 0x01 | .illegalOperand => 0x02 | .branchTarget => 0x03 | .emptyRegister => 0x04
  | .misaligned => 0x05 | .scratchpadBounds => 0x06 | .translation => 0x07 | .access => 0x08 | .mooredWrite => 0x09
  | .listOverflow => 0x0A | .softError => 0x0B | .handleInvalid => 0x0C | .breakpoint => 0x0D | .software => 0x0E
  | .gangFault => 0x0F | .containerTag => 0x10 | .stridePattern => 0x11 | .deferred => 0x12

/-- The cause of a code (R347). -/
def Cause.ofCode (n : Nat) : Cause :=
  match n with
  | 0x01 => .illegalInstruction | 0x02 => .illegalOperand | 0x03 => .branchTarget | 0x04 => .emptyRegister
  | 0x05 => .misaligned | 0x06 => .scratchpadBounds | 0x07 => .translation | 0x08 => .access | 0x09 => .mooredWrite
  | 0x0A => .listOverflow | 0x0B => .softError | 0x0C => .handleInvalid | 0x0D => .breakpoint | 0x0E => .software
  | 0x0F => .gangFault | 0x10 => .containerTag | 0x11 => .stridePattern | _ => .deferred

/-- How an instruction ends before it has an effect. -/
inductive Stop where
  /-- A trap: its cause, the detail of R347, and the address of R359. -/
  | trap (c : Cause) (detail : Nat) (addr : Word64)
  /-- A translation that parks the team (R353): the address and the access kind of R374. -/
  | park (va : Word64) (kind : Nat)
  /-- An Access of the row-permission check, fatal to the context (R199). -/
  | fatal (va : Word64)
  /-- The instruction waits where it is, for the registers named or for something else. -/
  | wait (w : Stall)
deriving DecidableEq, Repr

/-- A fault whose detail is its address: bits [55:0] of it (R347). -/
def Stop.at (c : Cause) (a : Word64) : Stop := .trap c (a.toNat % 2 ^ 56) a

/-- What an address reaches. -/
inductive Target where
  /-- A byte of main memory, host memory, a scratchpad or an accumulator, by its byte address. -/
  | byte (a : Nat)
  /-- Main memory through an alias window (R202). -/
  | viaAlias (code a : Nat)
  /-- A register image through the register window or the emptying window (R186, R188). -/
  | image (a : Nat) (emptying : Bool)
  /-- The Light List window (R386). -/
  | light (off : Nat)
deriving DecidableEq, Repr

/-- The access kinds of a fault report (R374). -/
inductive AccessKind where
  | load | store | fetch | atomic | engine
deriving DecidableEq, Repr

def AccessKind.code : AccessKind → Nat
  | .load => 0 | .store => 1 | .fetch => 2 | .atomic => 3 | .engine => 4

/-! ### Main memory (R182, R197, R199) -/

/-- Main memory exists at this physical address, on a stack that is enabled (R182, R183). -/
def State.stackHas (s : State) (pa : Nat) : Bool :=
  decide (pa < 0xC000000000) && decide (pa % 2 ^ 36 ≤ 0xEE6B27FFF) && s.stackSet.getLsbD (pa / 2 ^ 36)

/-- The allocation entry of the 64 KiB page that holds a physical address; its 8 row groups have one entry (R197). -/
def State.rowEntry (s : State) (pa : Nat) : BitVec 16 := tabGet s.alloc (pa / 65536) 0

/-- The row group of a physical address holds register images. -/
def State.isImage (s : State) (pa : Nat) : Bool := (s.rowEntry pa).getLsbD 8

def State.ctx (s : State) (vf : Nat) : Context := tabGet s.ctxs vf Context.reset

/-- The row-permission check of R199 for a context. -/
def State.rowAllowed (s : State) (vf pa : Nat) (store : Bool) : Bool :=
  let d := (s.rowEntry pa).toNat % 256
  d != 0 && d != 255 && (if store then (s.ctx vf).writeMask.getLsbD d else (s.ctx vf).readMask.getLsbD d)

/-- The byte address of host bus address a (R181). -/
def hostByte (a : Nat) : Nat := 0xE * 2 ^ 44 + a

/-- The host answers a request of a function to n bytes at a bus address (R375). -/
def State.hostAnswers (s : State) (f a n : Nat) : Bool :=
  s.hostDenied.all fun r => r.1 != f || decide (a + n ≤ r.2.1) || decide (r.2.1 + r.2.2 ≤ a)

/-- The host answers for all of n bytes at a byte address, where they are host memory (R375). -/
def State.hostSpan (s : State) (f a n : Nat) : Bool :=
  !(decide (hostByte 0 ≤ a) && decide (a < 2 ^ 48)) || s.hostAnswers f (a - hostByte 0) n

/-! ### Register images (R184) -/

/-- The number of mask words of a team of n lanes. -/
def Team.words (tm : Team) : Nat := tm.lanes / 32

/-- The size of a register image: 4 KiB + 4 × c × n, rounded up to 64 KiB (R184). -/
def imageSize (n c : Nat) : Nat := (4096 + 4 * c * n + 65535) / 65536 * 65536

/-- The team whose image holds the physical address. -/
def State.imageOwner (s : State) (pa : Nat) : Option (Nat × Team) :=
  s.teams.find? fun t => t.2.image ≠ 0 && decide (t.2.image ≤ pa) &&
    decide (pa < t.2.image + imageSize t.2.lanes t.2.vcount) && t.2.phase != .retired

/-- What lies at an offset of an image. -/
inductive ImagePart where
  | s (reg : Nat)
  | m (reg word : Nat)
  | control (off : Nat)
  | stack (off : Nat)
  | v (reg lane : Nat)
  | beyond
deriving DecidableEq, Repr

/-- The layout of R184: the part that holds byte off of the image of a team. -/
def Team.imagePart (tm : Team) (off : Nat) : ImagePart :=
  if off < 0x200 then .s (off / 8)
  else if off < 0xA00 then .m ((off - 0x200) / 128) ((off - 0x200) % 128 / 4)
  else if off < 0xC00 then .control (off - 0xA00)
  else if off < 0x1000 then .stack (off - 0xC00)
  else
    let k := (off - 0x1000) / (128 * tm.words)
    if k < tm.vcount then .v k (32 * ((off - 0x1000) / 128 % tm.words) + (off - 0x1000) % 128 / 4)
    else .beyond

/-- The image address of a register of a team, of its low word for an s register. -/
def Team.imageAddr (tm : Team) : RegRef → Nat
  | .m k w => tm.image + 0x200 + 128 * k + 4 * w
  | .s k => tm.image + 8 * k
  | .v k l => tm.image + 0x1000 + 128 * (k * tm.words + l / 32) + 4 * (l % 32)

/-! ### The physical address space (R181 to R183, R191) -/

/-- The array offset of a group's scratchpad byte (R189). -/
def Group.spadBase (g : Group) : Nat := (g.place.or g.last).elim 0 fun p => 4096 * p.spb

/-- Scratchpad bytes of a group rounded up to 4 KiB (R189). -/
def Group.spadLen (g : Group) : Nat := (g.spad + 4095) / 4096 * 4096

/-- The bound group of context vf whose scratchpad range on a core covers array offset off (R191). -/
def State.spadOwner (s : State) (vf core off : Nat) : Option (Nat × Group) :=
  s.groups.find? fun g => g.2.core == some core && decide (g.2.spadBase ≤ off) &&
    decide (off < g.2.spadBase + g.2.spadLen) && ((tabGet? s.launches g.2.launch).elim false fun l => l.vf == vf)

/-- The bound group of context vf in a slot of a core. -/
def State.slotOwner (s : State) (vf core slot : Nat) : Option (Nat × Group) :=
  s.groups.find? fun g => (g.2.place.elim false fun p => p.core == core && p.slot == slot) &&
    ((tabGet? s.launches g.2.launch).elim false fun l => l.vf == vf)

/-- What an access of n bytes at a device physical address reaches for a context, or none where the access raises Access (R181 to R183, R191);
the inner none is the fatal check of R199. A reduction and an alias store meet that check at the slice (R199, R360), so
for them it is left out here: rows is false, or the store is through an alias code. A bound group's slot answers in all of its 16 tiles,
whatever its accumulator count (DEDUCED, log 114). -/
def State.physical (s : State) (vf pa : Nat) (store rows : Bool) (n : Nat := 1) : Option (Option Target) :=
  let code := pa / 2 ^ 44
  if code ≤ 0xA then
    if pa % 2 ^ 44 / 2 ^ 40 ≠ 0 then none
    else
      let a := pa % 2 ^ 40
      if !s.stackHas a || s.isImage a then none
      else if rows && (code = 0 || !store) && !s.rowAllowed vf a store then some none
      else if code = 0 then some (some (.byte a)) else some (some (.viaAlias code a))
  else if code = 0xE then
    if s.hostAnswers vf (pa % 2 ^ 44) n then some (some (.byte (hostByte (pa % 2 ^ 44)))) else none
  else if code = 0xF then
    if pa.testBit 43 then
      let off := pa % 2 ^ 40
      match pa / 2 ^ 40 % 8 with
      | 0 => if store then none else some (some (.light off))
      | 1 => if s.stackHas off && s.isImage off then
          if !rows || s.rowAllowed vf off store then some (some (.image off false)) else some none
        else none
      | 2 => if s.stackHas off && s.isImage off && store then
          if !rows || s.rowAllowed vf off store then some (some (.image off true)) else some none
        else none
      | _ => none
    else
      let core := 256 * (pa / 2 ^ 41 % 4) + 32 * (pa / 2 ^ 38 % 8) + pa / 2 ^ 33 % 32
      let off := pa % 2 ^ 30
      if !s.cores.getLsbD core then none
      else match pa / 2 ^ 30 % 8 with
        | 0 => if off < 2 ^ 20 then
            (s.spadOwner vf core off).map fun g => some (.byte (spadByte g.1 (off - g.2.spadBase)))
          else none
        | 1 => if off < 2 ^ 20 then
            (s.slotOwner vf core (off / 0x20000)).map fun g => some (.byte (accByte g.1 (off % 0x20000)))
          else none
        | _ => none
  else none

/-- The device physical address of a byte address, for the details that report it (R361). -/
def State.physOf (s : State) (a : Nat) : Nat :=
  if a < 2 ^ 48 then a
  else
    let k := (a - 2 ^ 48) / 2 ^ 20
    let off := (a - 2 ^ 48) % 2 ^ 20
    let g := tabGet? s.groups (k / 2)
    let core := (g.bind Group.core).getD 0
    let home := 0xF * 2 ^ 44 + (core / 256) * 2 ^ 41 + (core / 32 % 8) * 2 ^ 38 + (core % 32) * 2 ^ 33
    if k % 2 = 0 then home + (g.elim 0 Group.spadBase) + off
    else home + 2 ^ 30 + ((g.bind Group.place).elim 0 (·.slot)) * 0x20000 + off

/-! ### Soft errors (R361) -/

/-- The copy of a main-memory word that its home slice holds, and that of an instruction line that cores hold, as the soft errors of
those storages name them: by these above the word's byte address. -/
def sliceCopy : Nat := 2 ^ 60

def lineCopy : Nat := 2 ^ 61

/-- The byte address of the word that an entry of marks is about. -/
def markedByte (k : Nat) : Nat := 8 * k % sliceCopy

/-- The mark is on a word as data, and not on the copy in an instruction line. -/
def dataMark (k : Nat) : Bool := decide (8 * k < lineCopy)

/-- The marked words that n bytes at a meet: the first one's address and its site code. -/
def State.markAt (s : State) (a n : Nat) : Option (Nat × Nat) :=
  (s.marks.find? fun m => dataMark m.1 && decide (markedByte m.1 < a + n) && decide (a < markedByte m.1 + 8)).map fun m =>
    (markedByte m.1, m.2)

/-- A line that a fetch takes from memory or from its copy in a core holds a marked word. -/
def State.lineMarked (s : State) (a : Nat) : Bool :=
  s.marks.any fun m => decide (markedByte m.1 < a + 64) && decide (a < markedByte m.1 + 8)

/-- The trap of a consumer of a marked word: site code in [15:8], address bits [47:0] in [63:16] (R347). -/
def State.softErrorAt (s : State) (m : Nat × Nat) (va : Word64) : Stop :=
  .trap .softError (m.2 + s.physOf m.1 % 2 ^ 48 * 2 ^ 8) va

/-- A write of n bytes at a removes the mark of every word it replaces whole (R361). -/
def State.unmark (s : State) (a n : Nat) : State :=
  match s.marks with
  | [] => s
  | ms => { s with marks := ms.filter fun m => !(decide (a ≤ markedByte m.1) && decide (markedByte m.1 + 8 ≤ a + n)) }

/-- A write of n bytes at a replaces part of a marked word only. -/
def State.partMark (s : State) (a n : Nat) : Option (Nat × Nat) :=
  (s.marks.find? fun m => dataMark m.1 && decide (markedByte m.1 < a + n) && decide (a < markedByte m.1 + 8) &&
    !(decide (a ≤ markedByte m.1) && decide (markedByte m.1 + 8 ≤ a + n))).map fun m => (markedByte m.1, m.2)

/-! ### Swapped regions (R196) -/

/-- Some of n bytes lie in a 2 MiB region whose frame is being swapped: an access to them is held. -/
def State.swapping (s : State) (a n : Nat) : Bool :=
  decide (a < 2 ^ 40) && s.held.any fun h => [a / 2 ^ 21, (a + n - 1) / 2 ^ 21].any fun r => r == h.2.1 || r == h.2.2

/-! ### Page tables (R204, R205) -/

/-- How a walk ends. -/
inductive Walk where
  /-- The physical address of the byte, and the leaf's W and X. -/
  | found (pa : Nat) (w x : Bool)
  | invalid
  | refused
  /-- It meets a marked word (R361). -/
  | marked (m : Nat × Nat)
  /-- It waits for a swap that holds a table's region (R196). -/
  | held
deriving DecidableEq, Repr

/-- The stamp of the latest invalidation of a context that covers an address (R206, R329). -/
def Context.stampFor (c : Context) (va : Nat) : Nat :=
  c.invals.foldl (fun n i => if va / 2 ^ i.logSize = i.base / 2 ^ i.logSize then Nat.max n i.stamp else n) 0

/-- The latest of some writes that is older than w; 0 is before them all. -/
def olderWrite (ids : List Nat) (w : Nat) : Nat := ids.foldl (fun m x => if x < w then Nat.max m x else m) 0

/-- So many writes back among some. -/
def backFrom (ids : List Nat) (w : Nat) : Nat → Nat
  | 0 => w
  | n + 1 => backFrom ids (olderWrite ids w) n

/-- The write that was the latest of any of n bytes so many of their writes ago. -/
def State.writeAgo (s : State) (a n back : Nat) : Nat :=
  let ids := ((List.range n).flatMap fun i => (s.orderOf (byteLoc (a + i))).map (·.id)).eraseDups
  backFrom ids s.nextWrite (Nat.min back ids.length + 1)

/-- n bytes as they all stood when write w was the latest of all. -/
def State.bytesAsOf (s : State) (a n w : Nat) : List Byte :=
  (List.range n).map fun i =>
    s.byteAt (a + i) ((s.orderOf (byteLoc (a + i))).filter fun x => decide (x.id ≤ w)).length

/-- The 8 bytes of a page-table entry as a walk reads them: the latest, or the entry as it stood at an older write that no invalidation
has covered (R206). -/
def State.entryBytes (s : State) (stamp pa : Nat) : Nat :=
  match tabGet s.stale pa 0 with
  | 0 => ofBytesLE (memGets s.mem pa 8)
  | back => ofBytesLE (s.bytesAsOf pa 8 (Nat.max (stamp - 1) (s.writeAgo pa 8 back)))

/-- A page table may lie at this address: main memory outside the image rows (R200), or host memory. -/
def State.tableAt (s : State) (vf pa : Nat) : Bool :=
  (decide (pa < 2 ^ 40) && s.stackHas pa && !s.isImage pa) || (decide (pa / 2 ^ 44 = 0xE) && s.hostAnswers vf (pa % 2 ^ 44) 8)

/-- First bit, number of index bits, and size of the table of a level (R204). -/
def levelShift (lv : Nat) : Nat := match lv with | 0 => 48 | 1 => 39 | 2 => 30 | 3 => 21 | _ => 16

def levelBits (lv : Nat) : Nat := match lv with | 0 => 8 | 4 => 5 | _ => 9

/-- The walk from the table of a level; left counts the levels still to read. -/
def State.walkFrom (s : State) (vf stamp va : Nat) : Nat → Nat → Nat → Walk
  | 0, _, _ => .refused
  | left + 1, lv, table =>
    let idx := va / 2 ^ levelShift lv % 2 ^ levelBits lv
    let at_ := table + 8 * idx
    if !s.tableAt vf at_ then .refused
    else if tabGet s.stale at_ 0 = 0 && s.swapping at_ 8 then .held
    else if let (some m, true) := (s.markAt at_ 8, tabGet s.stale at_ 0 == 0) then .marked m
    else
      let e := s.entryBytes stamp at_
      let addr := e / 2 ^ 8 % 2 ^ 40 * 2 ^ 8
      if !e.testBit 0 then .invalid
      else if e / 2 ^ 48 ≠ 0 || e / 2 ^ 4 % 2 ^ 4 ≠ 0 || (e.testBit 2 && e.testBit 3) then .refused
      else if e.testBit 1 then
        if lv = 4 || addr % 2 ^ (levelBits (lv + 1) + 3) ≠ 0 then .refused
        else s.walkFrom vf stamp va left (lv + 1) addr
      else if lv ≤ 1 || addr % 2 ^ levelShift lv ≠ 0 then .refused
      else .found (addr + va % 2 ^ levelShift lv) (e.testBit 2) (e.testBit 3)

/-- The walk of a 56-bit virtual address in a context (R204, R205). A root of 0 has no page tables. -/
def State.walk (s : State) (vf va : Nat) : Walk :=
  let c := s.ctx vf
  if c.pgroot = 0 then .invalid
  else if c.pgroot.toNat % 2048 ≠ 0 then .refused
  else s.walkFrom vf (c.stampFor va) va 5 0 c.pgroot.toNat

/-! ### Checking an access (R22) -/

/-- The target of an access of n bytes at a global virtual address (R22, R204, R199). -/
def State.translate (s : State) (vf : Nat) (va : Word64) (n : Nat) (k : AccessKind) (store : Bool)
    (rows : Bool := true) : Except Stop Target :=
  if va.toNat / 2 ^ 56 ≠ 0 then .error (Stop.at .access va)
  else if va.toNat % n ≠ 0 then .error (Stop.at .misaligned va)
  else match s.walk vf va.toNat with
    | .invalid => .error (.park va k.code)
    | .refused => .error (Stop.at .access va)
    | .marked m => .error (s.softErrorAt m va)
    | .held => .error (.wait .other)
    | .found pa w x =>
      if store && (!w || x) then .error (Stop.at .access va)
      else if k = .fetch && !x then .error (Stop.at .access va)
      else match s.physical vf pa store rows n with
        | none => .error (Stop.at .access va)
        | some none => .error (.fatal va)
        | some (some t) => .ok t

/-- A group-relative address in the scratchpad of group g (R189). -/
def State.spadTarget (s : State) (g : Nat) (a : Word64) (n : Nat) : Except Stop Target :=
  match tabGet? s.groups g with
  | none => .error (Stop.at .access a)
  | some gr =>
    if a.toNat / 2 ^ 56 ≠ 0 then .error (Stop.at .access a)
    else if a.toNat % n ≠ 0 then .error (Stop.at .misaligned a)
    else if a.toNat + n ≤ gr.spadLen then .ok (.byte (spadByte g a.toNat))
    else if gr.spadBase + a.toNat < 2 ^ 20 then .error (Stop.at .scratchpadBounds a)
    else .error (Stop.at .access a)

/-- The group that is member m of the gang of group g, when it is live: bound and not retired (R146, R190). -/
def State.member (s : State) (g m : Nat) : Option (Nat × Group) :=
  (tabGet? s.groups g).bind fun gr =>
    s.groups.find? fun h => h.2.launch == gr.launch && h.2.gang == gr.gang && !h.2.packed && !gr.packed &&
      h.2.gidx == m && h.2.place.isSome && !h.2.retired

/-- A cluster-window address (R190). -/
def State.windowTarget (s : State) (g : Nat) (a : Word64) (n : Nat) : Except Stop Target :=
  if a.toNat / 2 ^ 25 ≠ 0 then .error (Stop.at .access a)
  else if a.toNat % n ≠ 0 then .error (Stop.at .misaligned a)
  else
    let off := a.toNat % 2 ^ 20
    match s.member g (a.toNat / 2 ^ 20) with
    | none => .error (Stop.at .access a)
    | some (h, gr) =>
      if off + n ≤ gr.spadLen then .ok (.byte (spadByte h off))
      else if gr.spadBase + off < 2 ^ 20 then .error (.trap .scratchpadBounds off a)
      else .error (Stop.at .access a)

/-- The target of an access in a space (R75). -/
def State.target (s : State) (vf g : Nat) (sp : Space) (a : Word64) (n : Nat) (k : AccessKind) (store : Bool)
    (rows : Bool := true) : Except Stop Target :=
  match sp with
  | .global => s.translate vf a n k store rows
  | .spad => s.spadTarget g a n
  | .cwin => s.windowTarget g a n

/-! ### Moored regions (R271, R275) -/

def Moor.len (m : Moor) : Nat := 32768 * m.macros

/-- A moored region of a group meets the n bytes at a group-relative offset. -/
def Group.mooredAt (g : Group) (off n : Nat) : Bool :=
  g.moors.any fun m => decide (off < m.rb + m.len) && decide (m.rb < off + n)

/-- A byte address lies in a moored region: a write there is refused (R273). -/
def State.isMoored (s : State) (a n : Nat) : Bool :=
  decide (2 ^ 48 ≤ a) && decide ((a - 2 ^ 48) / 2 ^ 20 % 2 = 0) &&
    ((tabGet? s.groups ((a - 2 ^ 48) / 2 ^ 20 / 2)).elim false fun g => g.mooredAt ((a - 2 ^ 48) % 2 ^ 20) n)

/-! ### Home slices (R193) -/

/-- The home slice of a main-memory address: die and number. -/
def homeSlice (pa : Nat) : Nat × Nat :=
  (pa / 2 ^ 36 / 3,
    (pa / 2 ^ 6 % 64) ^^^ (pa / 2 ^ 12 % 64) ^^^ (pa / 2 ^ 18 % 64) ^^^ (pa / 2 ^ 24 % 64) ^^^ (pa / 2 ^ 30 % 64) ^^^
      (pa / 2 ^ 36 % 16))

/-! ### Fetch (R14, R88) -/

/-- The 64 bytes of the line that a PC names, or why it cannot be fetched (R88). A leaf with an alias code, or one that names a register
or the Light List window, raises Access (DESIGN CHOICE, log 62: R202 speaks of LD and ST alone, and no rule of a fetch through those).
A fetch in a region that a swap holds waits (R196). -/
def State.fetchLine (s : State) (vf : Nat) (pc : Word64) : Except Stop (Nat × Nat) :=
  match s.translate vf (pc &&& ~~~ 63#64) 64 .fetch false with
  | .error e => .error e
  | .ok (.byte a) => if s.swapping a 64 then .error (.wait .other) else .ok (a, ofBytesLE (memGets s.mem a 64))
  | .ok _ => .error (Stop.at .access (pc &&& ~~~ 63#64))

/-- The line word of a line (R14). -/
def lineWord (line : Nat) : Nat := line % 2 ^ 32

/-- Slot k of a line (R14). -/
def lineSlot (line k : Nat) : Slot := BitVec.ofNat 96 (line / 2 ^ (32 + 96 * k))

/-- The parity of the ones of the n low bits of w. -/
def oddOnes (w n : Nat) : Bool := countOnes w n % 2 == 1

end Sys2Proof.Machine
end

