-- ==== Sys2Proof/Machine/Ops.lean ====
section
/-! DEFINITION. The named operations on a team: register files with their full/empty bits, control flow, taking a trap
and returning from it, fault records and the end of a launch. -/

namespace Sys2Proof.Machine

/-! ### Teams -/

/-- Lanes 0 to n - 1 of a team. -/
def Team.all (tm : Team) : LaneSet := firstLanes tm.lanes

/-- A mask register; m0 reads as all-true (R8). -/
def Team.mask (tm : Team) (k : Nat) : LaneSet := if k = 0 then tm.all else nth 0 tm.m k

/-- The team with mask register k set; a write to m0 has no effect. -/
def Team.setMask (tm : Team) (k : Nat) (l : LaneSet) : Team :=
  if k = 0 then tm else { tm with m := putAt 0 tm.m k (l &&& tm.all) }

/-- The active lanes of an instruction with predicate p (R133). -/
def Team.active (tm : Team) (p : Pred) : LaneSet :=
  let sel := tm.mask p.pm.toNat
  tm.e &&& ~~~ tm.x &&& tm.all &&& (if p.pm = 0 then tm.all else if p.pn then ~~~ sel else sel)

/-- The value of v register r in lane l. -/
def Team.vGet (tm : Team) (r l : Nat) : Word32 := nth 0 (nth [] tm.v r) l

/-- The value of s register r. -/
def Team.sGet (tm : Team) (r : Nat) : Word64 := nth 0 tm.s r

def Team.vSet (tm : Team) (r l : Nat) (w : Word32) : Team := { tm with v := putAt [] tm.v r (putAt 0 (nth [] tm.v r) l w) }

def Team.sSet (tm : Team) (r : Nat) (w : Word64) : Team := { tm with s := putAt 0 tm.s r w }

/-- The full/empty bit of a register is empty (R11). -/
def Team.isEmpty (tm : Team) : RegRef → Bool
  | .v r l => (nth 0 tm.vEmpty r).getLsbD l
  | .s r => tm.sEmpty.getLsbD r
  | .m .. => false

/-- The team with a register emptied or filled; its value stays (R11, R188). -/
def Team.setEmpty (tm : Team) (q : RegRef) (b : Bool) : Team :=
  match q with
  | .v r l => { tm with vEmpty := putAt 0 tm.vEmpty r (laneSet (nth 0 tm.vEmpty r) l b) }
  | .s r =>
    let bit : BitVec 64 := BitVec.ofNat 64 (2 ^ r)
    { tm with sEmpty := if b then tm.sEmpty ||| bit else tm.sEmpty &&& ~~~ bit }
  | .m .. => tm

/-- The issuing team. -/
def State.current (s : State) : Option (Nat × Team) := s.cur.bind fun t => (tabGet? s.teams t).map fun tm => (t, tm)

def State.setTeam (s : State) (t : Nat) (tm : Team) : State := { s with teams := tabSet s.teams t tm }

/-- The state with f applied to team t. -/
def State.onTeam (s : State) (t : Nat) (f : Team → Team) : State := { s with teams := tabModify s.teams t f }

def State.onGroup (s : State) (g : Nat) (f : Group → Group) : State := { s with groups := tabModify s.groups g f }

def State.onLaunch (s : State) (l : Nat) (f : Launch → Launch) : State := { s with launches := tabModify s.launches l f }

def State.onCtx (s : State) (vf : Nat) (f : Context → Context) : State :=
  { s with ctxs := tabSet s.ctxs vf (f (s.ctx vf)) }

/-- The launch, the context number and the group of a team. -/
def State.launchOf (s : State) (tm : Team) : Option Launch := tabGet? s.launches tm.launch

def State.vfOf (s : State) (tm : Team) : Nat := (s.launchOf tm).elim 0 (·.vf)

def State.groupOfTeam (s : State) (tm : Team) : Option Group := tabGet? s.groups tm.group

/-- The accumulator and barrier counts that a team's operands are checked against (R173, R303). -/
def State.accCount (s : State) (tm : Team) : Nat := (s.groupOfTeam tm).elim 0 (·.nacc)

def State.barCount (s : State) (tm : Team) : Nat := (s.groupOfTeam tm).elim 0 (·.nbar)

/-- Debug is authorised for a context (R388). -/
def State.debugOk (s : State) (vf : Nat) : Bool :=
  match s.security with
  | .od => true
  | .pr => false
  | .pd => (s.ctx vf).consent

/-- An invasive debugger may act on a context (R388). -/
def State.invasiveOk (s : State) (vf : Nat) : Bool :=
  match s.security with
  | .od => true
  | .pr => false
  | .pd => s.invasive && (s.ctx vf).consent

/-! ### Control flow (R15, R17, R18) -/

/-- A PC is malformed: slot 5 to 7, bits 5:3 or bits 63:56 not zero (R15). -/
def badPc (pc : Word64) : Bool :=
  decide (5 ≤ pc.toNat % 8) || pc.toNat / 8 % 8 != 0 || pc.toNat / 2 ^ 56 != 0

/-- The linear slot number of a PC (R77). -/
def pcSlot (pc : Word64) : Nat := 5 * (pc.toNat / 64) + pc.toNat % 8

/-- The PC of a linear slot number. -/
def slotPc (k : Nat) : Word64 := BitVec.ofNat 64 (k / 5 * 64 + k % 5)

/-- The next slot in sequential flow (R15). -/
def nextPc (pc : Word64) : Word64 := slotPc (pcSlot pc + 1)

/-- The target at a signed slot offset, or the malformed PC that raises Misaligned (R77); a slot number below zero has no
PC, and the transferring PC is reported. -/
def targetPc (pc : Word64) (off : Int) : Except Word64 Word64 :=
  let k : Int := (pcSlot pc : Int) + off
  if k < 0 then .error pc
  else
    let p := slotPc k.toNat
    if badPc p then .error p else .ok p

/-- The team at a new PC: reached by a checked transfer or not; anew is set where the PC counts as entering its line
whatever the line was. What the last instruction had begun is over. -/
def Team.goto (tm : Team) (pc : Word64) (checked anew : Bool) : Team :=
  { tm with
    entered := anew || tm.entered || tm.pc.toNat / 64 != pc.toNat / 64
    pc := pc
    checked := checked
    recorded := false
    stall := .none
    rep := none }

/-- The team past a completed instruction: the next slot, or the next iteration of a REP (R20, R91). -/
def Team.advance (tm : Team) : Team :=
  match tm.rep with
  | some (i, w, f) =>
    if i < w.cnt.toNat then { tm with rep := some (i + 1, w, f), stall := .none }
    else { tm.goto (nextPc (nextPc tm.pc)) false false with rep := none }
  | none => tm.goto (nextPc tm.pc) false false

/-- The team with flags ORed into %status (R10). -/
def Team.raise (tm : Team) (f : BitVec 8) : Team := { tm with status := tm.status ||| f }

/-- The number of the instruction in the team's program order: each instruction takes the next. -/
def Team.number (tm : Team) : Team := { tm with seq := tm.seq + 1 }

/-! ### Units of binding (R146, R147, R341) -/

/-- The groups that are bound and evicted with group g: its gang, or the whole of a co-resident launch. -/
def State.unitOf (s : State) (g : Nat) : List Nat :=
  match tabGet? s.groups g with
  | none => []
  | some gr =>
    let co := (tabGet? s.launches gr.launch).elim false (·.coResident)
    (s.groups.filter fun h => h.2.launch == gr.launch &&
      (if gr.packed then h.1 == g else !h.2.packed && (co || h.2.gang == gr.gang))).map (·.1)

/-- A pre-emption or YIELD of the team is held, or no longer, as its control state shows (R348, R357). -/
def Team.setPreheld (tm : Team) (b : Bool) : Team :=
  { tm with
    preheld := b
    ctl := { tm.ctl with bits := if b then tm.ctl.bits ||| 4#64 else tm.ctl.bits &&& ~~~ 4#64 } }

/-- The units' groups are asked to leave their cores; a team with MASKED = 1 holds a pre-emption or a YIELD, and no fault eviction,
which goes before them (R146, R346, R354, R356, R357). -/
def State.requestLeave (s : State) (unit : List Nat) (why : Leave) : State :=
  unit.foldl (fun s g => match tabGet? s.groups g with
    | none => s
    | some gr =>
      if gr.retired || gr.place.isNone then s
      else
        let s1 := { s with groups := tabSet s.groups g { gr with leave := some (if why = .park then .park else gr.leave.getD why) } }
        if why = .park then s1
        else gr.teams.foldl (fun s t => s.onTeam t fun tm => if tm.masked then tm.setPreheld true else tm) s1) s

/-- Some team of the unit's groups holds the eviction: MASKED = 1 and not yet forced; a fault eviction is not held (R146, R354,
R357). -/
def State.held? (s : State) (unit : List Nat) : Bool :=
  unit.any fun g => (tabGet? s.groups g).elim false fun gr => !gr.retired && gr.place.isSome && gr.leave != some .park &&
    gr.teams.any fun t => (tabGet? s.teams t).elim false fun tm =>
      tm.phase != .retired && tm.phase != .ended && tm.masked && !tm.forced

/-- A team that has become masked since its unit was asked to leave holds the request from now on (R357). -/
def State.holdDue (s : State) (t : Nat) : State :=
  match tabGet? s.teams t with
  | none => s
  | some tm =>
    if tm.masked && !tm.preheld && !tm.forced && (tabGet? s.groups tm.group).elim false (fun g =>
        g.place.isSome && (g.leave == some .preempt || g.leave == some .yield)) then s.setTeam t (tm.setPreheld true)
    else s

/-! ### Saving a group (R221, R348, R356) -/

/-- The control state of a team as a save writes it (R348). -/
def Team.save (tm : Team) : ControlBlock where
  spc := tm.pc
  regpc := tm.regpc
  regcnt := tm.regcnt
  bits := BitVec.ofNat 64
    ((if tm.rvalid then 1 else 0) + (if tm.masked then 2 else 0) + (if tm.preheld then 4 else 0) +
      (match tm.phase with
        | .parked .. => 8
        | _ => if tm.parkedOut then 8 else 0) + (if tm.rep.isSome then 16 else 0) + (tm.rep.elim 0 (·.1)) * 32 +
      tm.pickthr.toNat * 2 ^ 16 +
      ((List.range 16).foldl (fun n k => n + if (nth none tm.targets k).isSome then 2 ^ k else 0) 0) * 2 ^ 48)
  status := tm.status.setWidth 64
  fpmode := BitVec.ofNat 64 (tm.rm.toNat + if tm.skipnf then 8 else 0)
  tcause := tm.trapcause
  tpc := tm.trappc
  btgt := (List.range 16).map fun k => (nth none tm.targets k).getD 0
  emask := tm.e
  xmask := tm.x
  flanes := tm.ctl.flanes

/-- What a team keeps of a wait across an eviction: an ECLW, and a FENCESC whose SC move is still to come, start again (R227,
R366). -/
def Stall.saved : Stall → Stall
  | .fence _ false => .none
  | .eclw _ _ Option.none => .none
  | w => w

/-- One team saved: its control state written, its A joined into its O (R221). -/
def Team.leaveCore (tm : Team) : Team :=
  { tm with
    ctl := tm.save
    stall := tm.stall.saved
    entered := true
    preheld := false
    forced := false
    owed := 0
    pv := { tm.pv with o := tm.pv.floor } }

/-- A group taken off its core. -/
def State.unbind (s : State) (g : Nat) : State :=
  match tabGet? s.groups g with
  | none => s
  | some gr =>
    let s1 := gr.teams.foldl (fun s t => s.onTeam t fun tm => if tm.phase = .retired then tm else tm.leaveCore) s
    s1.onGroup g fun gr => { gr with last := gr.place.or gr.last, place := none, leave := none }

/-! ### Fault records (R333, R359) -/

/-- Where a group is bound, or was bound last, as a fault record holds it (R359). -/
def Group.recordPlace (g : Group) : Nat :=
  (g.place.or g.last).elim 0 fun p => p.core / 256 + (p.core / 32 % 8) * 4 + (p.core % 32) * 32 + p.slot * 1024

/-- The 64 bytes of a fault record (R359). -/
def FaultRecord.bytes (r : FaultRecord) : List Byte :=
  toBytesLE 8 (r.cause + r.kind * 256) ++ toBytesLE 8 r.tcause.toNat ++ toBytesLE 8 r.pc.toNat ++
    toBytesLE 8 r.regcnt.toNat ++ toBytesLE 8 r.wid.toNat ++ toBytesLE 8 r.place ++ toBytesLE 8 r.addr.toNat ++
    toBytesLE 8 r.lnum

/-- A write by the watch core for a context, made only when every byte range translates as a store; never parked. -/
def State.watchWrite (s : State) (vf : Nat) (va : Word64) (data : List Byte) : Option State :=
  match s.translate vf va data.length .store true with
  | .ok (.byte a) => some ((s.writeMem .watch none [] a data).unmark a data.length)
  | _ => none

/-- A swap holds the place of such a write, or the tables that lead there (R196). -/
def State.watchHeld (s : State) (vf : Nat) (va : Word64) (n : Nat) : Bool :=
  match s.translate vf va n .store true with
  | .ok (.byte a) => s.swapping a n
  | .error (.wait _) => true
  | _ => false

/-- A write of the watch core for launch l made; that of a record is counted as written or in DROP (R333, R343). -/
def State.watchPut (s : State) (l : Nat) (x : Word64 × List Byte × Bool) : State :=
  match tabGet? s.launches l with
  | none => s
  | some la => match s.watchWrite la.vf x.1 x.2.1 with
    | some s1 => s1.onLaunch l fun la => if x.2.2 then { la with written := la.written + 1 } else la
    | none => s.onLaunch l fun la => if x.2.2 then { la with drop := la.drop + 1 } else la

/-- The writes of the watch core for launch l that wait, made in their order as far as no swap holds them (R196). -/
def State.watchFlush (s : State) (l : Nat) : List (Word64 × List Byte × Bool) → State
  | [] => s.onLaunch l fun la => { la with waiting := [] }
  | x :: rest =>
    if (tabGet? s.launches l).elim false fun la => s.watchHeld la.vf x.1 x.2.1.length then
      s.onLaunch l fun la => { la with waiting := x :: rest }
    else (s.watchPut l x).watchFlush l rest

/-- A write of the watch core for launch l, after those that wait. -/
def State.launchWrite (s : State) (l : Nat) (x : Word64 × List Byte × Bool) : State :=
  s.watchFlush l (((tabGet? s.launches l).elim [] (·.waiting)) ++ [x])

/-- The 16 bytes of a fault report (R374). -/
def reportBytes (r : Word64 × Nat × Nat) : List Byte :=
  toBytesLE 8 (r.1.toNat % 2 ^ 56 + r.2.1 * 2 ^ 60) ++ toBytesLE 4 r.2.2 ++ toBytesLE 4 0

/-- A vector of MSI-X raised by a function: 0 to 63 are the virtual ones, 64 the physical one. -/
def State.raiseMsix (s : State) (function vector : Nat) : State :=
  let k := 2048 * function + vector
  { s with msix := tabSet s.msix k (tabGet s.msix k 0 + 1) }

/-- Reports written to the fault-report ring while it has room; the others wait (R374). -/
def State.writeReports (s : State) (vf : Nat) : List (Word64 × Nat × Nat) → State
  | [] => s.onCtx vf fun c => { c with reports := [] }
  | r :: rest =>
    let c := s.ctx vf
    if c.frtail - c.frhead = 256 then s.onCtx vf fun c => { c with reports := r :: rest }
    else
      let a := c.frbase.toNat % 2 ^ 44 + 16 * (c.frtail.toNat % 256)
      let s1 := if s.hostAnswers vf a 16 then (s.writeMem .watch none [] (hostByte a) (reportBytes r)).unmark (hostByte a) 16 else s
      ((s1.onCtx vf fun c => { c with frtail := c.frtail + 1 }).raiseMsix vf 0).writeReports vf rest

/-- A fault report to system software: address, kind, LNUM (R353, R374). -/
def State.report (s : State) (vf : Nat) (va : Word64) (kind lnum : Nat) : State :=
  s.writeReports vf ((s.ctx vf).reports ++ [(va, kind, lnum)])

/-- A record of a launch: written at FQ in order of occurrence, or counted in DROP (R333, R343). -/
def State.addRecord (s : State) (l : Nat) (r : FaultRecord) : State :=
  match tabGet? s.launches l with
  | none => s
  | some la =>
    let r := { r with lnum := la.lnum }
    let s1 := s.onLaunch l fun la => { la with
      records := la.records + 1
      firstCause := if la.records = 0 then r.cause else la.firstCause
      drop := if la.records < la.fqcap then la.drop else la.drop + 1 }
    if la.records < la.fqcap then s1.launchWrite l (la.fq + BitVec.ofNat 64 (64 * la.records), r.bytes, true) else s1

/-- The record of a team (R359). -/
def State.teamRecord (s : State) (t : Nat) (cause kind : Nat) (tcause pc addr : Word64) : State :=
  match tabGet? s.teams t with
  | none => s
  | some tm =>
    s.addRecord tm.launch {
      cause, kind, tcause, pc, regcnt := tm.regcnt, wid := tm.wid
      place := (s.groupOfTeam tm).elim 0 Group.recordPlace, addr, lnum := 0 }

/-- A Deferred record of an access that its team issued (R360). -/
def State.deferred (s : State) (t : Nat) (original : Nat) (pc addr : Word64) : State :=
  s.teamRecord t Cause.deferred.code 1 (BitVec.ofNat 64 (Cause.deferred.code + original * 256)) pc addr

/-! ### Images given back (R184, R333) -/

/-- The place of a team in its launch's image table; packed teams have none (R333). -/
def State.imageEntry (s : State) (tm : Team) : Option Nat :=
  match tabGet? s.groups tm.group, tabGet? s.launches tm.launch with
  | some g, some l => if g.packed || l.imgt == 0 then none else some (tm.idx + l.tpg * (g.gidx + l.gpg * g.gang))
  | _, _ => none

/-- The image table entry of a team written, when it has one. -/
def State.writeImageEntry (s : State) (tm : Team) (base : Nat) : State :=
  match s.imageEntry tm, tabGet? s.launches tm.launch with
  | some k, some l => s.launchWrite tm.launch (l.imgt + BitVec.ofNat 64 (8 * k), toBytesLE 8 base, false)
  | _, _ => s

/-- The rows of n bytes from a multiple of 64 KiB with their allocation entry set. -/
def State.setRows (s : State) (a n : Nat) (e : BitVec 16) : State :=
  { s with alloc := (List.range (n / 65536)).foldl (fun m i => tabSet m (a / 65536 + i) e) s.alloc }

/-- A team is over: its image's rows are free again, and its image table entry is zero. -/
def State.retireTeam (s : State) (t : Nat) : State :=
  match tabGet? s.teams t with
  | none => s
  | some tm =>
    if tm.phase = .retired then s
    else
      let s1 := s.setTeam t { tm with phase := .retired }
      if tm.image = 0 then s1
      else (s1.setRows tm.image (imageSize tm.lanes tm.vcount) 0).writeImageEntry tm 0

/-! ### Bindings of soft regions (R256, R269) -/

/-- A write of the binding by a party. -/
def State.writeBinding (s : State) (p : Party) (a : Nat) (b : Option (Nat × Nat)) : State :=
  let w := s.nextWrite
  let l := bindLoc a
  let s1 := { s.appendWhole w l with
    nextWrite := w + 1
    bindings := tabSet s.bindings a (b :: tabGet s.bindings a []) }
  let v := s.pv p
  { s1.setPv p { v with o := viewRaise v.o l (s1.latest l) } with
    writes := tabSet s1.writes w { party := p, die := s.partyDie p, msgs := v.rel } }

/-- The bindings of a group end (R256). -/
def State.endBindings (s : State) (g : Nat) : State :=
  (s.bindings.filter fun b => ((b.2.headD none).elim false fun x => x.1 == g)).foldl
    (fun s b => s.writeBinding .watch b.1 none) s

/-! ### The end of a launch (R358) -/

/-- What the teams of a group that have not retired, its batches and the shares of its ganged issues know (R239). -/
def State.partyViews (s : State) (g : Nat) (gr : Group) : View :=
  let teams : View := gr.teams.foldl (fun v t => match tabGet? s.teams t with
    | some tm => if tm.phase = .retired then v else viewJoin v tm.pv.o
    | none => v) []
  let batches := gr.batches.foldl (fun v b => viewJoin v b.2.pv.o) teams
  s.issues.foldl (fun v x => if x.2.group = g then x.2.pvs.foldl (fun v p => viewJoin v p.2.o) v else v) batches

/-- The launch of a group receives what the group's parties know. -/
def State.joinDone (s : State) (g : Nat) (gr : Group) : State :=
  s.onLaunch gr.launch fun la => { la with done := viewJoin la.done (s.partyViews g gr) }

/-- A group stopped for good: its teams end, its bindings end, its copies still collecting and its queues are dropped, its slot is
given up, and what its parties know is its launch's. -/
def State.stopGroup (s : State) (g : Nat) : State :=
  match tabGet? s.groups g with
  | none => s
  | some gr =>
    if gr.retired then s
    else
      let s1 := (s.unbind g).endBindings g
      let s2 := gr.teams.foldl State.retireTeam (s1.joinDone g gr)
      let s3 := s2.onGroup g fun gr =>
        { gr with stopped := true, retired := true, moors := [], queue := [], shares := [], batches := [] }
      { s3 with
        issues := s3.issues.filter fun x => x.2.group != g
        copies := s3.copies.filter fun c => !(c.2.group == g && c.2.phase == .collecting)
        prods := s3.prods.filter fun p => !gr.teams.contains p.2.team }

/-- Every group of a launch stopped, and its unpacked items dropped (R358). -/
def State.stopLaunch (s : State) (l : Nat) : State :=
  let s1 := (s.groups.filter fun g => g.2.launch == l).foldl (fun s g => s.stopGroup g.1) s
  s1.onLaunch l fun la => { la with
    terminated := true
    life := if la.life = .completed then la.life else .retired
    spawn := la.spawn.map fun q => (q.1, { q.2 with items := [], filling := [] }) }

/-- Termination by a fault of team t (R358): its record, a Gang-Fault record of every other live member of its gang, and
the stop of the launch. -/
def State.terminate (s : State) (t : Nat) (cause : Nat) (tcause pc addr : Word64) : State :=
  match tabGet? s.teams t with
  | none => s
  | some tm =>
    let s1 := s.teamRecord t cause 0 tcause pc addr
    let me := (tabGet? s.groups tm.group).elim 0 (·.gidx)
    let others := (s.groups.filter fun g => g.2.launch == tm.launch && !g.2.packed && g.1 != tm.group &&
      !g.2.retired && g.2.place.isSome &&
      (tabGet? s.groups tm.group).elim false fun h => !h.packed && g.2.gang == h.gang)
    let s2 := others.foldl (fun s g => s.teamRecord (g.2.teams.headD 0) Cause.gangFault.code 2
      (BitVec.ofNat 64 (Cause.gangFault.code + me * 256)) ((tabGet? s.teams (g.2.teams.headD 0)).elim 0 (·.pc)) 0) s1
    s2.stopLaunch tm.launch

/-- A row-permission Access: fatal to the context, whose every launch ends Faulted (R199). -/
def State.fatal (s : State) (t : Nat) (pc va : Word64) : State :=
  match tabGet? s.teams t with
  | none => s
  | some tm =>
    let vf := s.vfOf tm
    let tc : Word64 := BitVec.ofNat 64 (Cause.access.code + va.toNat % 2 ^ 56 * 256)
    let s1 := s.terminate t Cause.access.code tc pc va
    ((s1.launches.filter fun l => l.2.vf == vf && l.2.life != .completed).foldl (fun s l => s.stopLaunch l.1) s1)

/-! ### Taking a trap and returning from it (R25 to R28, R349) -/

/-- MASKED set or cleared; a pre-emption is held only while it is 1 (R357). -/
def Team.setMasked (tm : Team) (b : Bool) : Team :=
  { tm with
    masked := b
    preheld := b && tm.preheld
    forced := b && tm.forced
    ctl := if b then tm.ctl else { tm.ctl with bits := tm.ctl.bits &&& ~~~ 4#64 } }

/-- The trap vector of a team's context cannot be entered: zero or malformed (R26). -/
def badVector (v : Word64) : Bool := v == 0 || badPc v

/-- Team t takes a trap: cause, detail, address for the record, the lanes that failed a step-7 check, and the PC that
%trappc receives. A trap while MASKED is 1, or with a vector that cannot be entered, ends the launch (R26, R27). -/
def State.takeTrap (s : State) (t : Nat) (c : Cause) (detail : Nat) (addr : Word64) (flanes : LaneSet)
    (ret : Word64) : State :=
  match tabGet? s.teams t with
  | none => s
  | some tm =>
    let tc : Word64 := BitVec.ofNat 64 (c.code + detail * 256)
    let vec := (s.ctx (s.vfOf tm)).trapvec
    if tm.masked || badVector vec then s.terminate t c.code tc ret addr
    else
      s.setTeam t { tm.goto vec false true with
        trapcause := tc
        trappc := ret
        masked := true
        ctl := { tm.ctl with
          flanes := flanes
          regpc := tm.regpc
          regcnt := tm.regcnt
          bits := (tm.ctl.bits &&& ~~~ 1#64) ||| (if tm.rvalid then 1#64 else 0#64) } }

/-- ERET: the PC becomes %trappc and MASKED becomes 0 (R28); a return to the region's entry runs it anew (R352). -/
def Team.trapReturn (tm : Team) : Team :=
  { (tm.goto tm.trappc false true).setMasked false with closed := tm.closed || (tm.rvalid && tm.trappc == tm.regpc) }

/-- Team t parks (R353): a fault report is due, and the team is not ready. -/
def State.park (s : State) (t : Nat) (va : Word64) (kind : Nat) (lanes : LaneSet) : State :=
  match tabGet? s.teams t with
  | none => s
  | some tm =>
    let s1 := s.setTeam t { tm with phase := .parked va kind lanes }
    s1.report (s.vfOf tm) va kind ((s.launchOf tm).elim 0 (·.lnum))

/-- How an instruction of team t ends (R20, R136): flanes are the lanes that failed a step-7 check. -/
def State.settle (s : State) (t : Nat) (flanes : LaneSet) : Stop → State
  | .trap c d a => s.takeTrap t c d a flanes ((tabGet? s.teams t).elim 0 (·.pc))
  | .park va k => s.park t va k flanes
  | .fatal va => s.fatal t ((tabGet? s.teams t).elim 0 (·.pc)) va
  | .wait w => s.onTeam t fun tm => { tm with stall := w }

/-- What an instruction's meaning gives: a state, or how it ends with the lanes that failed. -/
abbrev Result := Except (LaneSet × Stop) State

/-- The step's outcome of a meaning run for the issuing team. -/
def State.run (s : State) (f : Nat → Team → Result) : Host.Outcome State Fault Refusal :=
  match s.current with
  | none => .fault .noTeam
  | some (t, tm) =>
    match f t tm with
    | .ok s1 => .next s1
    | .error (l, e) => .next (s.settle t l e)

/-- A stop that no lane's step-7 check caused. -/
def stop {α : Type} (e : Stop) : Except (LaneSet × Stop) α := .error (0, e)

/-- A trap whose detail is zero. -/
def trapPlain {α : Type} (c : Cause) : Except (LaneSet × Stop) α := stop (.trap c 0 0)

/-- The condition holds, or the trap is raised. -/
def ensure (b : Bool) (c : Cause) : Except (LaneSet × Stop) Unit := if b then .ok () else trapPlain c

/-- The instruction waits unless the condition holds. -/
def waitFor (b : Bool) (w : Stall) : Except (LaneSet × Stop) Unit := if b then .ok () else stop (.wait w)

end Sys2Proof.Machine
end

