-- ==== Sys2Proof/Machine/Image.lean ====
section
/-! DEFINITION. Register images as the register window and the emptying window reach them (R184 to R188, R348). -/

namespace Sys2Proof.Machine

/-! ### Reading (R184, R186) -/

/-- The 512 bytes of a team's control state as last written (R348). -/
def ControlBlock.byte (c : ControlBlock) (off : Nat) : Byte :=
  let word (w : Word64) : Byte := w.extractLsb' (8 * (off % 8)) 8
  if off < 0x40 then
    word (nth 0 [c.spc, c.regpc, c.regcnt, c.bits, c.status, c.fpmode, c.tcause, c.tpc] (off / 8))
  else if off < 0x80 then (nth 0 c.btgt ((off - 0x40) / 4)).extractLsb' (8 * (off % 4)) 8
  else if off < 0x100 then c.emask.extractLsb' (8 * (off - 0x80)) 8
  else if off < 0x180 then c.xmask.extractLsb' (8 * (off - 0x100)) 8
  else if off < 0x200 then c.flanes.extractLsb' (8 * (off - 0x180)) 8
  else 0

/-- The control state that 512 bytes hold. -/
def ControlBlock.ofBytes (bs : List Byte) : ControlBlock :=
  let n := ofBytesLE bs
  let word (k : Nat) : Word64 := BitVec.ofNat 64 (n / 2 ^ (64 * k))
  let lanes (k : Nat) : LaneSet := BitVec.ofNat 1024 (n / 2 ^ (8 * k))
  { spc := word 0, regpc := word 1, regcnt := word 2, bits := word 3, status := word 4, fpmode := word 5, tcause := word 6, tpc := word 7
    btgt := (List.range 16).map fun k => BitVec.ofNat 32 (n / 2 ^ (512 + 32 * k))
    emask := lanes 0x80, xmask := lanes 0x100, flanes := lanes 0x180 }

/-- A byte of the reconvergence block: what the stack gives, or what was written there last from outside (R139, R348). -/
def Team.blockByte (tm : Team) (b : Nat) : Byte :=
  match tm.block with
  | none => Config.reconvergenceByte (tm.stack.map fun e => (e.pending, e.pc, e.mask)) b
  | some bs => nth 0 bs b

/-- The byte at an offset of a team's register image. -/
def Team.imageByte (tm : Team) (off : Nat) : Byte :=
  match tm.imagePart off with
  | .s r => (tm.sGet r).extractLsb' (8 * (off % 8)) 8
  | .m r w => (if r = 0 then tm.all else nth 0 tm.m r).extractLsb' (32 * w + 8 * (off % 4)) 8
  | .control c => tm.ctl.byte c
  | .stack b => tm.blockByte b
  | .v r l => (tm.vGet r l).extractLsb' (8 * (off % 4)) 8
  | .beyond => (Config.freeWord off).extractLsb' 0 8

/-- The n bytes at an image address: the one current copy (R185). -/
def State.imageRead (s : State) (pa n : Nat) : List Byte :=
  match s.imageOwner pa with
  | none => (List.range n).map fun i => (Config.freeWord (pa + i)).extractLsb' 0 8
  | some (_, tm) => (List.range n).map fun i => tm.imageByte (pa - tm.image + i)

/-! ### Checking (R186, R188) -/

/-- Why a window access of n bytes is refused, if it is: the trap of R186. A write of 1, 2 or 8 bytes to v words is accepted, and fills
or empties each word that it meets (DEDUCED, log 113: R186 and R188 speak of 4 bytes). -/
def State.windowCheck (s : State) (pa n : Nat) (write emptying : Bool) (va : Word64) : Option Stop :=
  match s.imageOwner pa with
  | none => some (Stop.at .access va)
  | some (_, tm) =>
    if !write then if emptying then some (Stop.at .access va) else none
    else match tm.imagePart (pa - tm.image) with
      | .s _ => if n = 8 ∧ pa % 8 = 0 then none else some (Stop.at .misaligned va)
      | .m .. => if emptying then some (Stop.at .access va) else none
      | .v .. => none
      | _ => some (Stop.at .access va)

/-! ### Writing -/

/-- The 4-byte registers that n bytes at an offset meet, lowest first. -/
def Team.imageRegs (tm : Team) (off n : Nat) : List RegRef :=
  ((List.range ((n + off % 4 + 3) / 4)).map fun i => tm.imagePart (off / 4 * 4 + 4 * i)).filterMap fun
    | .v r l => some (.v r l)
    | .s r => some (.s r)
    | _ => none

/-- One byte of an image written, with the full bit of the register it belongs to (R186). -/
def Team.imagePut (tm : Team) (off : Nat) (b : Byte) : Team :=
  let at_ (w : BitVec 64) (k : Nat) : BitVec 64 :=
    (w &&& ~~~ (BitVec.ofNat 64 (255 * 2 ^ (8 * k)))) ||| ((b.setWidth 64) <<< (8 * k))
  match tm.imagePart off with
  | .s r => (tm.sSet r (at_ (tm.sGet r) (off % 8))).setEmpty (.s r) false
  | .v r l => (tm.vSet r l ((at_ ((tm.vGet r l).setWidth 64) (off % 4)).setWidth 32)).setEmpty (.v r l) false
  | .m r w =>
    let k := 32 * w + 8 * (off % 4)
    let old := nth 0 tm.m r
    tm.setMask r ((old &&& ~~~ (BitVec.ofNat 1024 (255 * 2 ^ k))) ||| ((b.setWidth 1024) <<< k))
  | _ => tm

/-- Bytes of an image written from an offset. -/
def Team.imagePuts (tm : Team) (off : Nat) : List Byte → Team
  | [] => tm
  | b :: bs => (tm.imagePut off b).imagePuts (off + 1) bs

/-- The bytes of an image with their full bits after a write through the register window (R186). -/
def State.imageWrite (s : State) (pa : Nat) (data : List Byte) : State :=
  match s.imageOwner pa with
  | none => s
  | some (t, tm) => (s.setTeam t (tm.imagePuts (pa - tm.image) data)).unmark pa data.length

/-! ### Image words as locations (R185, R218, R223, R224, R234)

A word of an image is one location: its one current copy is the team's register, and its order holds the writes that came through a
window and those of the team's own instructions. Every access through the register window acts on whole words. A view holds a word's
index at the location of its first byte, and at one location of the image how many of the team's own writing moves it has seen:
the team knows of them all, so that whoever has acquired from it knows of all up to one of them. -/

/-- The byte address lies in a register image. -/
def State.inImage (s : State) (a : Nat) : Bool := decide (a < 2 ^ 40) && s.isImage a

/-- The register word that holds byte off of an image: its register, its first byte, its length. -/
def Team.imageWord (tm : Team) (off : Nat) : Option (RegRef × Nat × Nat) :=
  match tm.imagePart off with
  | .s r => some (.s r, off / 8 * 8, 8)
  | .m r w => if r = 0 then none else some (.m r w, off / 4 * 4, 4)
  | .v r l => some (.v r l, off / 4 * 4, 4)
  | _ => none

/-- The register words that n bytes from an offset meet. -/
def Team.imageWords (tm : Team) (off n : Nat) : List (RegRef × Nat × Nat) :=
  (List.range n).foldl (fun ws i => match tm.imageWord (off + i) with
    | some w => if ws.contains w then ws else ws ++ [w]
    | none => ws) []

/-- The value of a register word. -/
def Team.regValue (tm : Team) : RegRef → Word64
  | .v r l => (tm.vGet r l).setWidth 64
  | .s r => tm.sGet r
  | .m r w => ((tm.mask r).extractLsb' (32 * w) 32).setWidth 64

/-- The writes of a register word, latest first. -/
def Team.wordOrder (tm : Team) (q : RegRef) : List RegWrite := tm.past.filter fun w => w.ref == q

/-- The value of a word as the write at an index of its order left it. -/
def Team.wordAt (tm : Team) (q : RegRef) (i : Nat) : Word64 :=
  let ws := tm.wordOrder q
  if ws.length ≤ i then tm.regValue q else nth 0 (ws.map (·.old)) (ws.length - i - 1)

/-- The location of a word, and that of the count of the team's own writing moves. -/
def Team.wordLoc (tm : Team) (q : RegRef) : Nat := byteLoc (tm.imageAddr q)

def Team.clockLoc (tm : Team) : Nat := entryLoc tm.image

/-- The index of the latest own write among the first c of the team's own writing moves. -/
def ownIndex (c : Nat) : List RegWrite → Nat
  | [] => 0
  | w :: rest => if w.own ≠ 0 ∧ w.own ≤ c then rest.length + 1 else ownIndex c rest

/-- The index of the write with an identifier. -/
def idIndex (id : Nat) : List RegWrite → Nat
  | [] => 0
  | w :: rest => if w.own = 0 ∧ w.id = id then rest.length + 1 else idIndex id rest

/-- The floor of a word under the floors fl of a party (R220). -/
def Team.wordFloor (tm : Team) (fl : Nat → Nat) (q : RegRef) : Nat :=
  Nat.max (fl (tm.wordLoc q)) (ownIndex (fl tm.clockLoc) (tm.wordOrder q))

/-- The identifier of the write at an index of a word's order; 0 for one of the team's own. -/
def Team.wordId (tm : Team) (q : RegRef) (i : Nat) : Nat :=
  if i = 0 then 0 else nth 0 ((tm.wordOrder q).map (·.id)) ((tm.wordOrder q).length - i)

/-- One pass of the rule of one move over words (R223). -/
def Team.wordsTogether (tm : Team) (qs : List RegRef) (idx : List Nat) : List Nat :=
  let ids := (qs.zip idx).map fun x => tm.wordId x.1 x.2
  (qs.zip idx).map fun x => ids.foldl (fun k w => if w = 0 then k else Nat.max k (idIndex w (tm.wordOrder x.1))) x.2

/-- The passes until no index can rise any more. -/
def Team.settleWords (tm : Team) (qs : List RegRef) (idx : List Nat) : Nat → List Nat
  | 0 => idx
  | n + 1 => tm.settleWords qs (tm.wordsTogether qs idx) n

/-- The indices that a read of words chooses: so many writes back as the picks say, and never below the floors (R223). -/
def Team.wordChoice (tm : Team) (fl : Nat → Nat) (qs : List RegRef) (picks : List Nat) : List Nat :=
  tm.settleWords qs ((List.range qs.length).map fun i =>
    let q := nth (.s 0) qs i
    Nat.max (tm.wordFloor fl q) ((tm.wordOrder q).length - nth 0 picks i)) qs.length

/-- The messages on one write of a word: those of a write through a window, or of one of the team's own. -/
def State.regMsgs (s : State) (w : RegWrite) : List Msg := if w.own = 0 then (tabGet? s.writes w.id).elim [] (·.msgs) else w.msgs

/-- The messages on the writes of words at indices. -/
def State.wordMsgs (s : State) (tm : Team) (qs : List RegRef) (idx : List Nat) : List Msg :=
  (qs.zip idx).flatMap fun x =>
    let ws := tm.wordOrder x.1
    if x.2 = 0 then [] else (ws[ws.length - x.2]?).elim [] s.regMsgs

/-- A view raised at words to indices. -/
def Team.raiseWords (tm : Team) (o : View) (qs : List RegRef) (idx : List Nat) : View :=
  (qs.zip idx).foldl (fun o x => viewRaise o (tm.wordLoc x.1) x.2) o

/-- The latest index of each word. -/
def Team.wordsLatest (tm : Team) (qs : List RegRef) : List Nat := qs.map fun q => (tm.wordOrder q).length

/-- The n bytes from an offset, with the words at the values given. -/
def Team.imageValues (tm : Team) (off n : Nat) (ws : List ((RegRef × Nat × Nat) × Word64)) : List Byte :=
  (List.range n).map fun i =>
    match ws.find? fun w => decide (w.1.2.1 ≤ off + i) && decide (off + i < w.1.2.1 + w.1.2.2) with
    | some w => w.2.extractLsb' (8 * (off + i - w.1.2.1)) 8
    | none => tm.imageByte (off + i)

/-- A read perform of image bytes by party p. -/
def State.readImage (s : State) (p : Party) (acq : Option Inst) (pa n : Nat) : List Byte × State :=
  match s.imageOwner pa with
  | none => (s.imageRead pa n, s)
  | some (_, tm) =>
    let ws := tm.imageWords (pa - tm.image) n
    let qs := ws.map (·.1)
    let v := s.pv p
    let idx := tm.wordChoice v.floorAt qs s.picks
    (tm.imageValues (pa - tm.image) n (ws.zip ((qs.zip idx).map fun x => tm.wordAt x.1 x.2)),
      { s.setPv p { v.gain acq (s.wordMsgs tm qs idx) with o := tm.raiseWords v.o qs idx } with picks := s.picks.drop qs.length })

/-- The write lies in the m0 area, where it has no effect (R186). -/
def State.imageIgnores (s : State) (pa : Nat) : Bool :=
  (s.imageOwner pa).elim false fun t => match t.2.imagePart (pa - t.2.image) with
    | .m 0 _ => true
    | _ => false

/-- A write perform of image bytes by party p: one write of every word that they meet. -/
def State.writeImage (s : State) (p : Party) (rel : Option Inst) (extra : List Msg) (pa : Nat) (data : List Byte) : State :=
  match s.imageOwner pa with
  | none => s
  | some (t, tm) =>
    if s.imageIgnores pa then s
    else
      let w := s.nextWrite
      let qs := (tm.imageWords (pa - tm.image) data.length).map (·.1)
      let v := s.pv p
      let o := tm.raiseWords v.o qs ((tm.wordsLatest qs).map (· + 1))
      let own := match rel with
        | none => []
        | some i => [⟨i, viewJoin o (msgAt v.acq i)⟩]
      let s1 := { s.setPv p { v with o := o } with
        nextWrite := w + 1
        writes := tabSet s.writes w { party := p, die := s.partyDie p, msgs := v.rel ++ own ++ extra } }
      (s1.onTeam t fun tm1 => { tm1 with past := qs.map (fun q => ⟨q, w, 0, tm.regValue q, []⟩) ++ tm1.past }).imageWrite pa data

/-- The messages on the latest writes of image bytes (R224). -/
def State.lastImageMsgs (s : State) (pa n : Nat) : List Msg :=
  (s.imageOwner pa).elim [] fun t =>
    let qs := (t.2.imageWords (pa - t.2.image) n).map (·.1)
    s.wordMsgs t.2 qs (t.2.wordsLatest qs)

/-- The read of an indivisible move: party p takes the latest writes of image bytes, and gains from their messages. -/
def State.takeImage (s : State) (p : Party) (acq : Option Inst) (pa n : Nat) : State :=
  match s.imageOwner pa with
  | none => s
  | some (_, tm) =>
    let qs := (tm.imageWords (pa - tm.image) n).map (·.1)
    let v := s.pv p
    s.setPv p { v.gain acq (s.lastImageMsgs pa n) with o := tm.raiseWords v.o qs (tm.wordsLatest qs) }

/-- An indivisible update of image bytes by party p: the bytes before it, and the state. -/
def State.updateImage (s : State) (p : Party) (acq rel : Option Inst) (extra : List Msg) (pa n : Nat)
    (f : List Byte → List Byte) : List Byte × State :=
  let old := s.imageRead pa n
  (old, (s.takeImage p acq pa n).writeImage p rel (s.lastImageMsgs pa n ++ extra) pa (f old))

/-- An indivisible change of image bytes by a move that is no ATOM and no RED. -/
def State.modifyImage (s : State) (p : Party) (pa n : Nat) (f : List Byte → List Byte) : State :=
  (s.takeImage p none pa n).writeImage p none [] pa (f (s.imageRead pa n))

/-- A write perform of bytes of memory or of an image; it removes the mark of every word that it replaces whole (R361). -/
def State.writeAt (s : State) (p : Party) (rel : Option Inst) (extra : List Msg) (a : Nat) (data : List Byte) : State :=
  if s.inImage a then s.writeImage p rel extra a data else (s.writeMem p rel extra a data).unmark a data.length

/-- An indivisible update of n bytes, in memory or in an image. -/
def State.updateAt (s : State) (p : Party) (acq rel : Option Inst) (extra : List Msg) (a n : Nat)
    (f : List Byte → List Byte) : List Byte × State :=
  if s.inImage a then s.updateImage p acq rel extra a n f else s.updateMem p acq rel extra a n f

/-- A view raised at n bytes of memory or of an image, by so many writes past the latest of each: 0 or 1. -/
def State.raiseAt (s : State) (o : View) (a n next : Nat) : View :=
  if s.inImage a then
    (s.imageOwner a).elim o fun t =>
      let qs := (t.2.imageWords (a - t.2.image) n).map (·.1)
      t.2.raiseWords o qs ((t.2.wordsLatest qs).map (· + next))
  else if next = 0 then s.raiseLatest o a n
  else s.raiseNext o a n

/-! ### The writes of the team's own instructions (R185, R218) -/

/-- The positions from k on at which two lists differ. -/
def diffAt {α : Type} [DecidableEq α] (k : Nat) : List α → List α → List Nat
  | a :: as, b :: bs => if a = b then diffAt (k + 1) as bs else k :: diffAt (k + 1) as bs
  | _, bs => (List.range bs.length).map (k + ·)

/-- The register words whose values differ. -/
def Team.changedWords (old new : Team) : List RegRef :=
  (diffAt 0 old.s new.s).map RegRef.s ++
    (diffAt 0 old.v new.v).flatMap (fun r => (diffAt 0 (nth [] old.v r) (nth [] new.v r)).map (RegRef.v r)) ++
    (diffAt 0 old.m new.m).flatMap fun k => if k = 0 then []
      else ((List.range new.words).filter fun w => old.regValue (.m k w) != new.regValue (.m k w)).map (RegRef.m k)

/-- Two lists of register values are equal; lists that are one object need no comparison. -/
def sameValues {α : Type} [DecidableEq α] (a b : List α) : Bool := withPtrEq a b (fun _ => decide (a = b)) fun h => decide_eq_true h

/-- One move of the team's own writes words: each write enters the order of its word, with the value that it replaced, and carries the
fence records given (R218, R223, R226); the team knows of it. -/
def Team.enterOwn (tm : Team) (rel : List Msg) (ws : List (RegRef × Word64)) : Team :=
  if ws = [] then tm
  else
    let c := tm.clock + 1
    { tm with
      clock := c
      past := ws.map (fun w => ⟨w.1, 0, c, w.2, rel⟩) ++ tm.past
      pv := { tm.pv with o := viewRaise tm.pv.o tm.clockLoc c } }

/-- The words that a move has entered in their orders already. -/
def Team.enteredNow (old new : Team) : List RegRef := (new.past.take (new.past.length - old.past.length)).map (·.ref)

/-- The team after a move, with the register words entered that its own instruction or producer changed in it, and those of also, which
a producer has written. -/
def Team.logOwn (old new : Team) (also : List RegRef) : Team :=
  if new.image = 0 ∨ old.image ≠ new.image then new
  else if also = [] && sameValues old.v new.v && sameValues old.s new.s && sameValues old.m new.m then new
  else
    let done := old.enteredNow new
    let qs := (also ++ (old.changedWords new).filter fun q => !also.contains q).filter fun q => !done.contains q
    new.enterOwn old.pv.rel (qs.map fun q => (q, old.regValue q))

/-- The producers that have completed in a move, which removes them and adds none. -/
def State.doneProducers (old new : State) : List Producer :=
  if old.prods.length ≤ new.prods.length then [] else (old.prods.filter fun p => (tabGet? new.prods p.1).isNone).map (·.2)

/-- The registers of team t that producers have written: value and full bit came in one step (R11). -/
def Team.delivered (tm : Team) (t : Nat) (ps : List Producer) : List RegRef :=
  ((ps.filter fun p => p.team == t).flatMap (·.dests)).filter fun q => !tm.isEmpty q

/-- Every team after a move, with its own register writes entered. -/
def State.logOwn (old new : State) : State :=
  let ps := old.doneProducers new
  { new with teams := new.teams.map fun u => (u.1, (tabGet? old.teams u.1).elim u.2 fun tm => tm.logOwn u.2 (u.2.delivered u.1 ps)) }

/-! ### The emptying window (R188) -/

/-- A write through the emptying window: the full/empty bits are cleared, the values stay (R188). -/
def State.imageEmpty (s : State) (pa n : Nat) : State :=
  match s.imageOwner pa with
  | none => s
  | some (t, tm) => s.setTeam t ((tm.imageRegs (pa - tm.image) n).foldl (fun tm q => tm.setEmpty q true) tm)

/-- A long-latency producer of the image's team, other than the write's own, is pending on a register that the bytes meet: a
window write is held (R186, R188). -/
def State.imageHeld (s : State) (own : Option Nat) (pa n : Nat) : Bool :=
  match s.imageOwner pa with
  | none => false
  | some (t, tm) => (tm.imageRegs (pa - tm.image) n).any fun q => s.prods.any fun p =>
      some p.1 != own && p.2.team == t && p.2.dests.contains q

end Sys2Proof.Machine
end

