-- ==== Sys2Proof/Machine/Flags.lean ====
section
/-! DEFINITION. Numbers and flags: integers with wrap and saturation, the floating, eight-bit, tapered and scale formats,
rounding with its sticky flags (R39 to R63), and the elementary functions correctly rounded. -/

namespace Sys2Proof.Machine

/-! ### The sticky flags (R10) -/

abbrev Flags := BitVec 8

def fInvalid : Flags := 0x01
def fDivz : Flags := 0x02
def fOver : Flags := 0x04
def fUnder : Flags := 0x08
def fInexact : Flags := 0x10
def fSat : Flags := 0x20
def fNegclamp : Flags := 0x40
def fNanupd : Flags := 0x80

/-- The flag when the condition holds. -/
def flagIf (b : Bool) (f : Flags) : Flags := if b then f else 0

/-! ### Integers (R39, R40) -/

/-- The value of the n low bits of a word, by the signedness of the type. -/
def intOf (signed : Bool) (n : Nat) (w : Nat) : Int :=
  let u := w % 2 ^ n
  if signed && decide (2 ^ n ≤ 2 * u) then (u : Int) - (2 ^ n : Nat) else u

/-- wrap_T: the n low bits of an integer. -/
def wrapBits (n : Nat) (x : Int) : Nat := (x % (2 ^ n : Nat)).toNat

/-- The smallest and the largest value of an integer type. -/
def intMin (signed : Bool) (n : Nat) : Int := if signed then -(2 ^ (n - 1) : Nat) else 0

def intMax (signed : Bool) (n : Nat) : Int := if signed then (2 ^ (n - 1) : Nat) - 1 else (2 ^ n : Nat) - 1

/-- sat_T: the value clamped into the type's range (R39). -/
def satInt (signed : Bool) (n : Nat) (x : Int) : Int :=
  if x < intMin signed n then intMin signed n else if intMax signed n < x then intMax signed n else x

/-- sat_T when sat, wrap_T otherwise, as bits, with the SAT flag where the clamp changed the value. -/
def fitInt (signed : Bool) (n : Nat) (sat : Bool) (x : Int) : Nat × Flags :=
  if sat then (wrapBits n (satInt signed n x), flagIf (satInt signed n x != x) fSat) else (wrapBits n x, 0)

/-! ### Real values -/

/-- A NaN is quiet, signalling, or the NaR of a tapered format. -/
inductive NanKind where
  | quiet | signalling | nar
deriving DecidableEq, Repr

/-- A value of a floating or tapered format: a finite value is ±num/den, and a zero keeps its sign. -/
inductive FNum where
  | nan (k : NanKind)
  | inf (neg : Bool)
  | fin (neg : Bool) (num den : Nat)
deriving DecidableEq, Repr

/-- A binary floating format (R43, R46, R51): exponent and fraction widths, bias, the code of the largest finite
magnitude, and whether it has an infinity and a sign. -/
structure Fmt where
  ebits : Nat
  fbits : Nat
  bias : Nat
  top : Nat
  hasInf : Bool
  sign : Bool
deriving DecidableEq, Repr

def fmtF64 : Fmt := ⟨11, 52, 1023, 0x7FEFFFFFFFFFFFFF, true, true⟩
def fmtF32 : Fmt := ⟨8, 23, 127, 0x7F7FFFFF, true, true⟩
def fmtF16 : Fmt := ⟨5, 10, 15, 0x7BFF, true, true⟩
def fmtBF16 : Fmt := ⟨8, 7, 127, 0x7F7F, true, true⟩
def fmtE4M3 : Fmt := ⟨4, 3, 7, 0x7E, false, true⟩
def fmtE5M2 : Fmt := ⟨5, 2, 15, 0x7B, true, true⟩
/-- The block scale E5M3 (R51). -/
def fmtScale : Fmt := ⟨5, 3, 15, 0xFE, false, false⟩

/-- The binary format of a floating type (R43, R46). -/
def tyFmt : Ty → Fmt
  | .f64 => fmtF64
  | .f16 => fmtF16
  | .bf16 => fmtBF16
  | .e4m3 => fmtE4M3
  | .e5m2 => fmtE5M2
  | _ => fmtF32

/-- The width of a format without its sign. -/
def Fmt.mag (f : Fmt) : Nat := f.ebits + f.fbits

/-- ±2^x × sig as a value. -/
def scaled (neg : Bool) (sig : Nat) (x : Int) : FNum :=
  if x < 0 then .fin neg sig (2 ^ x.natAbs) else .fin neg (sig * 2 ^ x.natAbs) 1

/-- The canonical NaN of a format (R44, R46). -/
def Fmt.canonNan (f : Fmt) : Nat :=
  if f.hasInf then (2 ^ f.ebits - 1) * 2 ^ f.fbits + 2 ^ (f.fbits - 1) else f.top + 1

/-- The value of a code (R43, R46, R51). -/
def Fmt.decode (f : Fmt) (c : Nat) : FNum :=
  let neg := f.sign && c.testBit f.mag
  let m := c % 2 ^ f.mag
  let e := m / 2 ^ f.fbits
  let frac := m % 2 ^ f.fbits
  if f.top < m then
    if f.hasInf && frac == 0 then .inf neg
    else if f.hasInf && !frac.testBit (f.fbits - 1) then .nan .signalling
    else .nan .quiet
  else if e = 0 then scaled neg frac (1 - (f.bias : Int) - f.fbits)
  else scaled neg (2 ^ f.fbits + frac) ((e : Int) - f.bias - f.fbits)

/-- floor(log2(num/den)) of a positive value. -/
def floorLog2 (num den : Nat) : Int :=
  let d : Int := (Nat.log2 num : Int) - Nat.log2 den
  let below := if d < 0 then decide (num * 2 ^ d.natAbs < den) else decide (num < den * 2 ^ d.natAbs)
  if below then d - 1 else d

/-- The quotient num / (den × 2^q), as a floor, twice the remainder, and the divisor. -/
def quantum (num den : Nat) (q : Int) : Nat × Nat × Nat :=
  let (a, b) := if q < 0 then (num * 2 ^ q.natAbs, den) else (num, den * 2 ^ q.natAbs)
  (a / b, 2 * (a % b), b)

/-- The floor raised by one or not, as the mode rounds (R53). -/
def roundUp (rm : Rm) (neg odd : Bool) (r2 d : Nat) : Bool :=
  if r2 = 0 then false
  else match rm with
    | .rz => false
    | .rd => neg
    | .ru => !neg
    | .rna => decide (d ≤ r2)
    | _ => decide (d < r2) || (decide (d = r2) && odd)

/-- The largest finite value with its sign. -/
def Fmt.largest (f : Fmt) (neg : Bool) : Nat := f.top + if neg then 2 ^ f.mag else 0

/-- An infinite result (R54): ±largest and SAT when saturating; 0x7F in E4M3. -/
def Fmt.infinite (f : Fmt) (sat neg : Bool) : Nat × Flags :=
  if sat then (f.largest neg, fSat)
  else if f.hasInf then (f.top + 1 + (if neg then 2 ^ f.mag else 0), 0)
  else (f.canonNan, 0)

/-- The rounding of an exact value into a format, with the flags of that one rounding (R53 to R56). -/
def Fmt.round (f : Fmt) (rm : Rm) (sat : Bool) : FNum → Nat × Flags
  | .nan _ => (f.canonNan, 0)
  | .inf neg => f.infinite sat neg
  | .fin neg num den =>
    let s := if neg then 2 ^ f.mag else 0
    if num = 0 then (s, 0)
    else
      let e := floorLog2 num den
      let emin : Int := 1 - (f.bias : Int)
      let q := Max.max (e - f.fbits) (emin - f.fbits)
      let (n0, r2, d) := quantum num den q
      let n := n0 + if roundUp rm neg (n0 % 2 == 1) r2 d then 1 else 0
      let code := (q - (emin - f.fbits)).toNat * 2 ^ f.fbits + n
      let inexact := r2 != 0
      if f.top < code then
        let away := match rm with
          | .rz => false
          | .rd => neg
          | .ru => !neg
          | _ => true
        if sat then (f.largest neg, fSat ||| fInexact)
        else if away then ((f.infinite false neg).1, fOver ||| fInexact)
        else (f.largest neg, fOver ||| fInexact)
      else
        -- tininess is seen after rounding with the exponent unbounded (R55)
        let tiny := if emin ≤ e then false
          else if e + 1 < emin then true
          else
            let (u0, v2, w) := quantum num den (e - f.fbits)
            decide (u0 + (if roundUp rm neg (u0 % 2 == 1) v2 w then 1 else 0) < 2 ^ (f.fbits + 1))
        (s + code, flagIf inexact fInexact ||| flagIf (tiny && inexact) fUnder)

/-! ### Tapered formats (R47, R48, R61) -/

/-- The number of identical bits from position i down to 0 of a code, starting with bit i. -/
def runLength (c : Nat) (b : Bool) : Nat → Nat
  | 0 => 0
  | i + 1 => if c.testBit i == b then runLength c b i + 1 else 0

/-- The value of a positive code of n bits. -/
def tapPositive (n c : Nat) : FNum :=
  let b := c.testBit (n - 2)
  let m := runLength c b (n - 1)
  let k : Int := if b then (m : Int) - 1 else -(m : Int)
  let left := n - 1 - m - 1            -- bits after the run and the bit that ends it
  let x := if left = 0 then 0 else if c.testBit (left - 1) then 1 else 0
  let q := left - 1
  scaled false (2 ^ q + c % 2 ^ q) (2 * k + x - q)

/-- The decoding of a code of n bits (R47). -/
def tapDecode (n c : Nat) : FNum :=
  let c := c % 2 ^ n
  if c = 0 then .fin false 0 1
  else if c = 2 ^ (n - 1) then .nan .nar
  else if c.testBit (n - 1) then
    match tapPositive n (2 ^ n - c) with
    | .fin _ a b => .fin true a b
    | v => v
  else tapPositive n c

/-- a/b ≤ c/d. -/
def ratLe (a b c d : Nat) : Bool := decide (a * d ≤ c * b)

/-- The largest positive code of n bits whose value is at most num/den, from code c down; 0 when there is none. -/
def tapFloor (n num den : Nat) : Nat → Nat
  | 0 => 0
  | c + 1 =>
    match tapPositive n (c + 1) with
    | .fin _ a b => if ratLe a b num den then c + 1 else tapFloor n num den c
    | _ => tapFloor n num den c

/-- The rounding of an exact value into TAP8 or TAP6 (R61). -/
def tapRound (n : Nat) (rm : Rm) : FNum → Nat × Flags
  | .nan .nar => (2 ^ (n - 1), 0)
  | .nan _ => (2 ^ (n - 1), fInvalid)
  | .inf _ => (2 ^ (n - 1), fInvalid)
  | .fin neg num den =>
    let put (c : Nat) : Nat := if neg then 2 ^ n - c else c
    let top := 2 ^ (n - 1) - 1
    if num = 0 then (0, 0)
    else
      let lo := tapFloor n num den top
      if lo = 0 then (put 1, fUnder ||| fInexact)
      else match tapPositive n lo, tapPositive n (lo + 1) with
        | .fin _ a b, .fin _ c d =>
          if a * den = num * b then (put lo, 0)
          else if lo = top then (put top, fOver ||| fInexact)
          else
            -- compare num/den with the mean of a/b and c/d
            let l := 2 * num * b * d
            let r := den * (a * d + c * b)
            let up := match rm with
              | .rz => false
              | .rd => neg
              | .ru => !neg
              | .rna => decide (r ≤ l)
              | _ => decide (r < l) || (decide (r = l) && lo % 2 == 1)
            (put (if up then lo + 1 else lo), fInexact)
        | _, _ => (put lo, 0)

/-! ### Any type as a value -/

/-- The value of an element of a type, read from its bits. -/
def tyValue (t : Ty) (w : Nat) : FNum :=
  match t with
  | .tap8 => tapDecode 8 w
  | .tap6 => tapDecode 6 w
  | .f64 | .f32 | .f16 | .bf16 | .e4m3 | .e5m2 => (tyFmt t).decode (w % 2 ^ t.bits)
  | _ =>
    let x := intOf t.isSigned t.bits w
    .fin (decide (x < 0)) x.natAbs 1

/-- The integer nearest to num/den as the mode rounds. -/
def roundInt (rm : Rm) (neg : Bool) (num den : Nat) : Nat :=
  let n := num / den
  n + if roundUp rm neg (n % 2 == 1) (2 * (num % den)) den then 1 else 0

/-- A floating or tapered value to an integer type (R58). -/
def toInteger (t : Ty) (rm : Rm) : FNum → Nat × Flags
  | .nan _ => (0, fInvalid)
  | .inf neg => (wrapBits t.bits (if neg then intMin t.isSigned t.bits else intMax t.isSigned t.bits), fInvalid)
  | .fin neg num den =>
    let n := roundInt rm neg num den
    let x : Int := if neg then -(n : Int) else n
    let c := satInt t.isSigned t.bits x
    if c ≠ x then (wrapBits t.bits c, fSat)
    else (wrapBits t.bits x, flagIf (num % den != 0) fInexact)

/-- A value into a floating or tapered type, rounded once; the flags of reading it are the caller's (R57, R60, R61). A tapered
destination has no use for SAT (DEDUCED, log 93). -/
def tyFromNum (t : Ty) (rm : Rm) (sat : Bool) (v : FNum) : Nat × Flags :=
  match t with
  | .tap8 => tapRound 8 rm v
  | .tap6 => let (c, f) := tapRound 6 rm v
             (c + (if c.testBit 5 then 192 else 0), f)
  | .e4m3 =>
    match v with
    | .inf neg => if sat then fmtE4M3.infinite true neg else (0x7F, fInvalid)
    | _ => fmtE4M3.round rm sat v
  | _ => (tyFmt t).round rm sat v

/-- INVALID for a signalling NaN that an operation reads (R44). -/
def sigFlag : FNum → Flags
  | .nan .signalling => fInvalid
  | _ => 0

/-- The conversion of an element from one type to another (R57 to R61, R121), as bits and flags. Between equal types an infinity under
SAT is delivered as R54 says (DEDUCED, log 94). -/
def convert (src dst : Ty) (rm : Rm) (sat : Bool) (w : Nat) : Nat × Flags :=
  if src.isInt then
    let x := intOf src.isSigned src.bits w
    if dst.isInt then fitInt dst.isSigned dst.bits sat x
    else tyFromNum dst rm sat (.fin (decide (x < 0)) x.natAbs 1)
  else
    let v := tyValue src w
    if dst.isInt then toInteger dst rm v
    else
      let (c, f) := tyFromNum dst rm sat v
      (c, f ||| sigFlag v)

/-! ### Exact arithmetic -/

def FNum.isNan : FNum → Bool
  | .nan _ => true
  | _ => false

def FNum.isInf : FNum → Bool
  | .inf _ => true
  | _ => false

def FNum.isFinite : FNum → Bool
  | .fin .. => true
  | _ => false

def FNum.isZero : FNum → Bool
  | .fin _ n _ => n == 0
  | _ => false

def FNum.negative : FNum → Bool
  | .nan _ => false
  | .inf n => n
  | .fin n _ _ => n

def FNum.neg : FNum → FNum
  | .nan k => .nan k
  | .inf n => .inf (!n)
  | .fin n a b => .fin (!n) a b

def qnan : FNum := .nan .quiet

/-- A signed fraction as an integer numerator. -/
def signedNum (neg : Bool) (n : Nat) : Int := if neg then -(n : Int) else n

/-- The exact sum; the sign of an exact zero sum is that of R45. -/
def FNum.add (rm : Rm) : FNum → FNum → FNum × Flags
  | .nan a, .nan b => (qnan, sigFlag (.nan a) ||| sigFlag (.nan b))
  | .nan a, _ => (qnan, sigFlag (.nan a))
  | _, .nan b => (qnan, sigFlag (.nan b))
  | .inf a, .inf b => if a = b then (.inf a, 0) else (qnan, fInvalid)
  | .inf a, _ => (.inf a, 0)
  | _, .inf b => (.inf b, 0)
  | .fin s a b, .fin t c d =>
    let x : Int := signedNum s a * d + signedNum t c * b
    if x = 0 then (.fin (if a = 0 && c = 0 && s = t then s else decide (rm = .rd)) 0 1, 0)
    else (.fin (decide (x < 0)) x.natAbs (b * d), 0)

/-- The exact product. -/
def FNum.mul : FNum → FNum → FNum × Flags
  | .nan a, .nan b => (qnan, sigFlag (.nan a) ||| sigFlag (.nan b))
  | .nan a, _ => (qnan, sigFlag (.nan a))
  | _, .nan b => (qnan, sigFlag (.nan b))
  | .inf a, .inf b => (.inf (a != b), 0)
  | .inf a, .fin t c _ => if c = 0 then (qnan, fInvalid) else (.inf (a != t), 0)
  | .fin s a _, .inf b => if a = 0 then (qnan, fInvalid) else (.inf (s != b), 0)
  | .fin s a b, .fin t c d => (.fin (s != t) (a * c) (b * d), 0)

/-- The exact quotient (R114). -/
def FNum.div : FNum → FNum → FNum × Flags
  | .nan a, .nan b => (qnan, sigFlag (.nan a) ||| sigFlag (.nan b))
  | .nan a, _ => (qnan, sigFlag (.nan a))
  | _, .nan b => (qnan, sigFlag (.nan b))
  | .inf _, .inf _ => (qnan, fInvalid)
  | .inf a, .fin t _ _ => (.inf (a != t), 0)
  | .fin s _ _, .inf b => (.fin (s != b) 0 1, 0)
  | .fin s a b, .fin t c d =>
    if c = 0 then if a = 0 then (qnan, fInvalid) else (.inf (s != t), fDivz)
    else (.fin (s != t) (a * d) (b * c), 0)

/-- a × b + c, exact; INVALID for 0 × ∞ even when c is a quiet NaN (R114). -/
def FNum.fma (rm : Rm) (a b c : FNum) : FNum × Flags :=
  let (p, f) := a.mul b
  let (s, g) := FNum.add rm p c
  (s, f ||| g)

/-- The square root of a positive fraction to beyond the precision of every format: exact where it is rational with
that precision, else a value on the same side of every rounding boundary. -/
def sqrtFrac (num den : Nat) : Nat × Nat :=
  let lead := floorLog2 num den
  -- at least 70 significant bits of the root
  let k := (70 - lead / 2).toNat
  let scaledNum := num * 2 ^ (2 * k)
  let q := scaledNum / den
  let s := Nat.sqrt q
  if s * s * den = scaledNum then (s, 2 ^ k) else (2 * s + 1, 2 ^ (k + 1))

/-- √A (R114). -/
def FNum.sqrt : FNum → FNum × Flags
  | .nan k => (qnan, sigFlag (.nan k))
  | .inf false => (.inf false, 0)
  | .inf true => (qnan, fInvalid)
  | .fin neg n d =>
    if n = 0 then (.fin neg 0 1, 0)
    else if neg then (qnan, fInvalid)
    else let (a, b) := sqrtFrac n d
         (.fin false a b, 0)

/-- 1 / √A (R114). -/
def FNum.rsqrt : FNum → FNum × Flags
  | .nan k => (qnan, sigFlag (.nan k))
  | .inf false => (.fin false 0 1, 0)
  | .inf true => (qnan, fInvalid)
  | .fin neg n d =>
    if n = 0 then (.inf neg, fDivz)
    else if neg then (qnan, fInvalid)
    else let (a, b) := sqrtFrac d n
         (.fin false a b, 0)

/-! ### FEXP2 and FLOG2, correctly rounded (R114) -/

/-- ln 2 × 2^p from below: the sum of 2^p / (k × 2^k) for k up to n, each term truncated. -/
def ln2Below (p : Nat) : Nat → Nat
  | 0 => 0
  | n + 1 => ln2Below p n + 2 ^ p / ((n + 1) * 2 ^ (n + 1))

/-- The Taylor sum of e^y in units of 2^-p, y being y / 2^p below 1: term is y^k / k!, truncated. -/
def expSum (p y : Nat) : Nat → Nat → Nat → Nat
  | 0, _, _ => 0
  | n + 1, k, term => term + expSum p y n (k + 1) (term * y / 2 ^ p / (k + 1))

/-- 2^f in units of 2^-p, for f = num / 2^fb in [0, 1): a lower bound within 16p units. -/
def exp2Below (p num fb : Nat) : Nat :=
  let y := num * ln2Below (p + 8) (p + 8) / 2 ^ (fb + 8)
  expSum p y p 0 (2 ^ p)

/-- The first precision of the list at which the lower and the upper bound round alike; the lower bound's result when
none decides. -/
def decideRound (round : FNum → Nat × Flags) (bounds : Nat → FNum × FNum) : List Nat → Nat × Flags
  | [] => (0, 0)
  | p :: rest =>
    let (lo, hi) := bounds p
    let a := round lo
    if a = round hi then a
    else match rest with
      | [] => a
      | _ => decideRound round bounds rest

/-- The working precisions tried in turn. -/
def precisions : List Nat := [96, 192, 384, 768]

/-- round(2^A) (R114). -/
def exp2Round (f : Fmt) (rm : Rm) (sat : Bool) : FNum → Nat × Flags
  | .nan k => ((f.round rm sat qnan).1, sigFlag (.nan k))
  | .inf false => f.round rm sat (.inf false)
  | .inf true => f.round rm sat (.fin false 0 1)
  | .fin neg n d =>
    if n = 0 then f.round rm sat (.fin false 1 1)
    else if n * 2 ^ 80 < d then
      -- below every rounding boundary next to 1
      f.round rm sat (.fin false (if neg then 2 ^ 100 - 1 else 2 ^ 100 + 1) (2 ^ 100))
    else if 2 ^ 20 * d ≤ n then
      -- far outside every format's range
      f.round rm sat (scaled false (2 ^ 8 + 1) (if neg then -100000 else 100000))
    else
      let x := signedNum neg n
      let i := Int.fdiv x d
      let frac := (x - i * d).toNat
      if frac = 0 then f.round rm sat (scaled false 1 i)
      else
        -- d is a power of two
        let fb := Nat.log2 d
        decideRound (f.round rm sat)
          (fun p =>
            let lo := exp2Below p frac fb
            (scaled false (2 * lo - 1) (i - (p + 1)), scaled false (2 * (lo + 16 * p) + 1) (i - (p + 1)))) precisions

/-- n bits of log2 of m, m being m / 2^p in [1, 2), by repeated squaring of a lower and an upper bound: the bits so far,
and whether every bit was certain. -/
def log2Bits (p : Nat) : Nat → Nat → Nat → Nat → Nat × Bool
  | 0, _, _, acc => (acc, true)
  | n + 1, lo, hi, acc =>
    let l := lo * lo / 2 ^ p
    let h := hi * hi / 2 ^ p + 1
    if 2 ^ (p + 1) ≤ l then log2Bits p n (l / 2) (h / 2 + 1) (2 * acc + 1)
    else if h < 2 ^ (p + 1) then log2Bits p n l h (2 * acc)
    else (acc, false)

/-- round(log2 A) (R114). -/
def log2Round (f : Fmt) (rm : Rm) (sat : Bool) : FNum → Nat × Flags
  | .nan k => ((f.round rm sat qnan).1, sigFlag (.nan k))
  | .inf false => f.round rm sat (.inf false)
  | .inf true => ((f.round rm sat qnan).1, fInvalid)
  | .fin neg n d =>
    if n = 0 then
      let (c, g) := f.round rm sat (.inf true)
      (c, g ||| fDivz)
    else if neg then ((f.round rm sat qnan).1, fInvalid)
    else
      let e := floorLog2 n d
      -- m = n/d / 2^e in [1, 2)
      let (a, b) := if e < 0 then (n * 2 ^ e.natAbs, d) else (n, d * 2 ^ e.natAbs)
      if a = b then f.round rm sat (.fin (decide (e < 0)) e.natAbs 1)
      else
        decideRound (f.round rm sat)
          (fun p =>
            let q := 2 * p + 64
            let w := p + 32
            let (bits, sure) := log2Bits q w (a * 2 ^ q / b) (a * 2 ^ q / b + 1) 0
            -- the value lies strictly between bits and bits + 1, and no rounding boundary does
            let x : Int := (e * (2 ^ w : Nat) + bits) * 2 + 1
            let v : FNum := .fin (decide (x < 0)) x.natAbs (2 ^ (w + 1))
            if sure then (v, v) else (.fin false 1 1, .fin true 1 1)) precisions

/-! ### Minimum, maximum, comparison (R115, R116, R67) -/

/-- A < B by value, −0 below +0 when zeros order. -/
def FNum.lt (zeros : Bool) : FNum → FNum → Bool
  | .nan _, _ => false
  | _, .nan _ => false
  | .inf a, .inf b => a && !b
  | .inf a, _ => a
  | _, .inf b => !b
  | .fin s a b, .fin t c d =>
    if a = 0 && c = 0 then zeros && s && !t
    else decide (signedNum s a * d < signedNum t c * b)

/-- FMIN or FMAX of two elements, as bits (R115). -/
def floatMinMax (f : Fmt) (isMax : Bool) (a b : Nat) : Nat × Flags :=
  let x := f.decode a
  let y := f.decode b
  let g := sigFlag x ||| sigFlag y
  if x.isNan && y.isNan then (f.canonNan, g)
  else if x.isNan then (b, g)
  else if y.isNan then (a, g)
  else if isMax then (if FNum.lt true x y then b else a, g)
  else (if FNum.lt true y x then b else a, g)

/-- The truth of a condition of FCMP (R116). -/
def floatCompare (cc : FCond) (x y : FNum) : Bool :=
  let un := x.isNan || y.isNan
  let lt := FNum.lt false x y
  let gt := FNum.lt false y x
  match cc with
  | .eq => !un && !lt && !gt
  | .ne => un || lt || gt
  | .lt => lt
  | .le => !un && !gt
  | .gt => gt
  | .ge => !un && !lt
  | .un => un
  | .ord => !un

/-- The truth of a condition of CMP (R109). -/
def intCompare (cc : Cond) (x y : Int) : Bool :=
  match cc with
  | .eq => decide (x = y)
  | .ne => decide (x ≠ y)
  | .lt => decide (x < y)
  | .le => decide (x ≤ y)
  | .gt => decide (y < x)
  | .ge => decide (y ≤ x)

/-! ### F32 shorthands: one rounding in RN -/

def f32 (w : Word32) : FNum := fmtF32.decode w.toNat

def f64 (w : Word64) : FNum := fmtF64.decode w.toNat

/-- RN of an exact result into F32, with the flags of the rounding and of the operation. -/
def rn32 (v : FNum × Flags) : Word32 × Flags :=
  let (c, f) := fmtF32.round .rn false v.1
  (BitVec.ofNat 32 c, f ||| v.2)

def rn64 (v : FNum × Flags) : Word64 × Flags :=
  let (c, f) := fmtF64.round .rn false v.1
  (BitVec.ofNat 64 c, f ||| v.2)

def addRn (a b : Word32) : Word32 × Flags := rn32 (FNum.add .rn (f32 a) (f32 b))

def mulRn (a b : Word32) : Word32 × Flags := rn32 ((f32 a).mul (f32 b))

def fmaRn (a b c : Word32) : Word32 × Flags := rn32 (FNum.fma .rn (f32 a) (f32 b) (f32 c))

/-- RN(a − b) in F32. -/
def subRn (a b : Word32) : Word32 × Flags := rn32 (FNum.add .rn (f32 a) (f32 b).neg)

/-! ### Scales and block formats (R41, R49 to R52) -/

/-- The value of an element with its block scale: exact (R52). -/
def scaledValue (v scale : FNum) : FNum :=
  match scale with
  | .nan _ => qnan
  | _ => match v with
    | .nan _ => qnan
    | .inf n => if scale.isZero then qnan else .inf n
    | .fin s a b => match scale with
      | .fin _ c d => .fin s (a * c) (b * d)
      | _ => qnan

/-- The code of the scale that CVTB chooses from the largest magnitude (R63). -/
def chooseScale (amax : FNum) (limit : Nat) : Nat × Flags :=
  match amax with
  | .fin _ n d =>
    if n = 0 then (0x78, 0)
    else
      let (c, f) := fmtScale.round .ru false (.fin false n (d * limit))
      if f &&& fOver ≠ 0 then (0xFE, fSat) else (c, 0)
  | _ => (0x78, 0)

/-- M_D of R63. -/
def scaleLimit : Ty → Nat
  | .e4m3 => 448
  | .e5m2 => 57344
  | .tap8 => 4096
  | .tap6 => 256
  | _ => 127

/-! ### Accumulation (R64 to R67) -/

/-- One product into a paired FP32 element (R64): s in the low word, c in the high word. -/
def pairedStep (acc : Word64) (p : FNum) : Word64 :=
  let s : Word32 := acc.extractLsb' 0 32
  let c : Word32 := acc.extractLsb' 32 32
  let sum := (FNum.add .rn (f32 s) p).1
  let s1 := (rn32 (sum, 0)).1
  let c1 : Word32 :=
    if (f32 s1).isFinite && (f32 s).isFinite && p.isFinite then
      let e := (FNum.add .rn sum (f32 s1).neg).1
      if e.isZero then c else (rn32 (FNum.add .rn (f32 c) e)).1
    else c
  c1 ++ s1

/-- One product into an F64 element, fused (R65). -/
def doubleStep (acc : Word64) (a b : FNum) : Word64 := (rn64 (FNum.fma .rn a b (f64 acc))).1

/-- min or max of R67 on F32 patterns. -/
def semiringPick (isMax : Bool) (a b : Word32) : Word32 := BitVec.ofNat 32 (floatMinMax fmtF32 isMax a.toNat b.toNat).1

end Sys2Proof.Machine
end

