-- ==== Sys2Proof/Machine/Operands.lean ====
section
/-! DEFINITION. Operand forms: the checks of step 4, the rearranging modifiers, the reading of sources under the full/empty
rules and the placing of results (R12, R13, R42, R73, R78 to R81, R96, R97). -/

namespace Sys2Proof.Machine

/-! ### What an instruction uses (R78 to R81, R86) -/

/-- The operand classes that a position accepts. -/
structure Want where
  v : Bool := false
  s : Bool := false
  /-- Mask registers; m0 only as a source (R8). -/
  m : Bool := false
  /-- Class 10 number 0, 'none'. -/
  none : Bool := false
  /-- Accumulators and barriers: class 11. -/
  z : Bool := false
  b : Bool := false
deriving DecidableEq, Repr

def wantV : Want := { v := true }
def wantS : Want := { s := true }
def wantM : Want := { m := true }
def wantVS : Want := { v := true, s := true }
def wantSN : Want := { s := true, none := true }

/-- The four operand letters, in the order of R347. -/
inductive Letter where
  | a | b | c | d
deriving DecidableEq, Repr

/-- Which lanes of a v source an instruction reads. -/
inductive Who where
  /-- The active lanes, or the lowest one when every destination is an s register (R97; DEDUCED, log 21: with a v or m
  destination beside it, each lane reads its own source and the s register takes the lowest lane's result). -/
  | active
  /-- Every active lane whatever the destination (R166, R167). -/
  | eachActive
  /-- Every lane of the team, whether or not its value is used (R162; DEDUCED, log 99). -/
  | every
  /-- The lowest active lane, by an instruction that acts once (R97). -/
  | lowest
deriving DecidableEq, Repr

/-- One operand position of an instruction: the field, what it accepts, how it is used, and its modifier and FE bit. -/
structure Use where
  letter : Letter
  opd : Opd
  want : Want
  read : Bool := false
  write : Bool := false
  /-- A v operand is a 64-bit pair (R42). -/
  pair : Bool := false
  /-- Consecutive registers named from the first (R171, R247, R262). -/
  span : Nat := 1
  md : Modifier := .plain
  /-- The views that the position admits (R80, R156). -/
  views : List (BitVec 2) := []
  fe : Bool := false
  who : Who := .active
  /-- Named by the operand field of its letter, and not by another field of the word (R119). -/
  field : Bool := true
  /-- The one word of a mask register that an index names, whatever lanes are active (R113, R167). -/
  word : Option Nat := none
deriving DecidableEq, Repr

/-- The views of a 32-bit source (R80). -/
def allViews : List (BitVec 2) := [0, 1, 2, 3]

/-- The counts that operand numbers are checked against (R8, R173, R303). -/
structure Counts where
  v : Nat
  z : Nat
  b : Nat
deriving DecidableEq, Repr

def State.counts (s : State) (tm : Team) : Counts := ⟨tm.vcount, s.accCount tm, s.barCount tm⟩

/-- The register numbers that a use names. -/
def Use.nums (u : Use) : List Nat :=
  let n := u.opd.num.toNat
  match u.opd.cls with
  | .v => if u.pair then (List.range u.span).flatMap fun i => [n + 2 * i, n + 2 * i + 1]
          else (List.range u.span).map (n + ·)
  | .s => (List.range u.span).map (n + ·)
  | _ => []

/-- The field checks of step 4 on one position (R8, R42, R80, R81, R86). -/
def Use.ok (c : Counts) (u : Use) : Bool :=
  let n := u.opd.num.toNat
  (match u.opd.cls with
    | .v => u.want.v && (!u.pair || n % 2 == 0) && u.nums.all fun k => decide (k < c.v)
    | .s => u.want.s && decide (n + u.span ≤ 64)
    | .m => (u.want.m && decide (n ≤ 15) && (!u.write || n != 0)) || (u.want.none && n == 0)
    | .x => (u.want.z && decide (n < c.z)) || (u.want.b && decide (n < c.b))) &&
  (u.md == .plain || (u.opd.cls == .v && u.read && !u.write && !u.pair && u.views.contains u.md.view)) &&
  (!u.fe || (u.read && (u.opd.cls == .v || u.opd.cls == .s)))

/-- The words of a mask that hold the bits of some of the lanes, or, for a write, that these lanes replace whole. -/
def maskWords (write : Bool) (lanes : List Nat) : List Nat :=
  (List.range 32).filter fun w =>
    if write then (List.range 32).all fun i => lanes.contains (32 * w + i) else lanes.any fun l => l / 32 == w

/-- The registers that a use names, in the lanes given; m0 is no storage (R8). -/
def Use.refs (u : Use) (lanes : List Nat) : List RegRef :=
  match u.opd.cls with
  | .v => u.nums.flatMap fun k => lanes.map fun l => RegRef.v k l
  | .s => u.nums.map RegRef.s
  | .m => if u.opd.num = 0 then []
      else (match u.word with
        | none => maskWords u.write lanes
        | some j => if u.write then (maskWords true lanes).filter (· == j) else [j]).map fun w => RegRef.m u.opd.num.toNat w
  | .x => []

/-- An unused position; its field is zero by R85, its modifier and FE bit by R80 and R81. -/
def unused (l : Letter) (md : Modifier := .plain) (fe : Bool := false) : Use :=
  { letter := l, opd := .zero, want := wantV, md := md, fe := fe }

/-- The operand positions of a format R word that names none of its sources. -/
def usesNone (w : RWord) : List Use := [unused .a w.ma w.fea, unused .b w.mb w.feb, unused .c w.mc w.fec]

/-- No two of these v or s destinations are the same register (R98). -/
def distinct : List Opd → Bool
  | [] => true
  | o :: rest => rest.all (fun q => q != o) && distinct rest

/-! ### Modifiers (R79) -/

/-- Elements of n bits of a 32-bit word, chosen from low to high; none stands for zero. -/
def elems (n : Nat) (w : Word32) : List (Option Nat) → Nat
  | [] => 0
  | o :: rest =>
    (match o with
      | some i => w.toNat / 2 ^ (n * i) % 2 ^ n
      | none => 0) + 2 ^ n * elems n w rest

/-- The elements that each selector takes in the three packed views, from low to high. -/
def pick2 (sel : Nat) : List (Option Nat) :=
  match sel with
  | 0 => [some 0, some 1] | 1 => [some 1, some 0] | 2 => [some 0, some 0] | 3 => [some 1, some 1]
  | 4 => [none, some 1] | 5 => [some 0, none] | 6 => [some 1, none] | _ => [none, some 0]

def pick4 (sel : Nat) : List (Option Nat) :=
  match sel with
  | 0 => [some 0, some 1, some 2, some 3]
  | 1 => [some 3, some 2, some 1, some 0]
  | 2 => [some 0, some 0, some 0, some 0]
  | 3 => [some 1, some 1, some 1, some 1]
  | 4 => [some 2, some 2, some 2, some 2]
  | 5 => [some 3, some 3, some 3, some 3]
  | 6 => [some 1, some 0, some 3, some 2]
  | _ => [some 2, some 3, some 0, some 1]

def pick8 (sel : Nat) : List (Option Nat) :=
  match sel with
  | 0 => [some 0, some 1, some 2, some 3, some 4, some 5, some 6, some 7]
  | 1 => [some 7, some 6, some 5, some 4, some 3, some 2, some 1, some 0]
  | 2 => [some 1, some 0, some 3, some 2, some 5, some 4, some 7, some 6]
  | 3 => List.replicate 8 (some 0)
  | 4 => [some 0, none, some 1, none, some 2, none, some 3, none]
  | 5 => [some 4, none, some 5, none, some 6, none, some 7, none]
  | 6 => [some 0, some 2, some 4, some 6]
  | _ => [some 1, some 3, some 5, some 7]

/-- The rearranged copy of a source register (R79). -/
def rearrange (m : Modifier) (w : Word32) : Word32 :=
  match m.view with
  | 0 => match m.sel with
    | 0 => w
    | 1 => BitVec.ofNat 32 (elems 8 w [some 3, some 2, some 1, some 0])
    | 2 => w.rotateLeft 8
    | 3 => w.rotateLeft 16
    | 4 => w.rotateLeft 24
    | 5 => ~~~ w
    | 6 => (w.setWidth 16).setWidth 32
    | _ => (w.setWidth 16).signExtend 32
  | 1 => BitVec.ofNat 32 (elems 16 w (pick2 m.sel.toNat))
  | 2 => BitVec.ofNat 32 (elems 8 w (pick4 m.sel.toNat))
  | _ => BitVec.ofNat 32 (elems 4 w (pick8 m.sel.toNat))

/-! ### Reading sources (R42, R96) -/

/-- A v pair as 64 bits (R42). -/
def Team.pairGet (tm : Team) (r l : Nat) : Word64 := tm.vGet (r + 1) l ++ tm.vGet r l

/-- The 32 bits of a source: a v register rearranged, or bits [31:0] of an s register. -/
def Team.word (tm : Team) (o : Opd) (m : Modifier) (l : Nat) : Word32 :=
  match o.cls with
  | .v => rearrange m (tm.vGet o.num.toNat l)
  | .s => (tm.sGet o.num.toNat).setWidth 32
  | _ => 0

/-- The 64 bits of a source of a 64-bit type. -/
def Team.wide (tm : Team) (o : Opd) (l : Nat) : Word64 :=
  match o.cls with
  | .v => tm.pairGet o.num.toNat l
  | .s => tm.sGet o.num.toNat
  | _ => 0

/-- The bits of a source at a type (R96). -/
def Team.bitsOf (tm : Team) (t : Ty) (o : Opd) (m : Modifier) (l : Nat) : Nat :=
  if t.is64 then (tm.wide o l).toNat else (tm.word o m l).toNat % 2 ^ t.bits

/-- The operand of an immediate of an integer type, as bits (R73). -/
def immBits (t : Ty) (imm : BitVec 32) : Nat :=
  match t with
  | .i64 => (imm.signExtend 64).toNat
  | _ => imm.toNat % 2 ^ t.bits

/-- The pattern of a floating type whose value is that of an F32 pattern; a NaN keeps its sign and its fraction, at the
top of the wider fraction (DEDUCED from R73 and R110, log 20). -/
def f32Pattern (t : Ty) (imm : BitVec 32) : Nat :=
  match t with
  | .f32 => imm.toNat
  | .f64 =>
    if (f32 imm).isNan then imm.toNat / 2 ^ 31 * 2 ^ 63 + 0x7FF * 2 ^ 52 + imm.toNat % 2 ^ 23 * 2 ^ 29
    else (fmtF64.round .rn false (f32 imm)).1
  | _ => ((tyFmt t).round .rn false (f32 imm)).1

/-- A second source, from a register or an immediate, as bits of an integer type. -/
def Team.second (tm : Team) (t : Ty) (w : RI) (l : Nat) : Nat :=
  match w with
  | .r w => tm.bitsOf t w.b w.mb l
  | .i w => immBits t w.imm

def Team.first (tm : Team) (t : Ty) (w : RI) (l : Nat) : Nat :=
  match w with
  | .r w => tm.bitsOf t w.a w.ma l
  | .i w => tm.bitsOf t w.a w.ma l

/-- The same sources as values of a floating type; an immediate is its F32 value, whatever the type (R73). -/
def Team.firstNum (tm : Team) (t : Ty) (w : RI) (l : Nat) : FNum := (tyFmt t).decode (tm.first t w l)

def Team.secondNum (tm : Team) (t : Ty) (w : RI) (l : Nat) : FNum :=
  match w with
  | .r w => (tyFmt t).decode (tm.bitsOf t w.b w.mb l)
  | .i w => f32 w.imm

/-- The destination, SAT and RM of a word of format R or I. -/
def riD : RI → Opd
  | .r w => w.d
  | .i w => w.d

def riSat : RI → Bool
  | .r w => w.sat
  | .i w => w.sat

def riRm : RI → Rm
  | .r w => w.rm
  | .i w => w.rm

/-! ### Placing results (R42, R96) -/

/-- A TAP6 element as a register holds it: bits 7 and 6 are copies of bit 5 (R49). -/
def tapByte (w : Nat) : Nat := w % 64 + (if w.testBit 5 then 192 else 0)

/-- A result of at most 32 bits in a v register. -/
def placeV (t : Ty) (w : Nat) : Word32 :=
  match t with
  | .tap6 => BitVec.ofNat 32 (tapByte w)
  | .i16 => (BitVec.ofNat 16 w).signExtend 32
  | .i8 => (BitVec.ofNat 8 w).signExtend 32
  | _ => BitVec.ofNat 32 (w % 2 ^ t.bits)

/-- A result in an s register. -/
def placeS (t : Ty) (w : Nat) : Word64 :=
  match t with
  | .tap6 => BitVec.ofNat 64 (tapByte w)
  | .i32 => (BitVec.ofNat 32 w).signExtend 64
  | .i16 => (BitVec.ofNat 16 w).signExtend 64
  | .i8 => (BitVec.ofNat 8 w).signExtend 64
  | _ => BitVec.ofNat 64 (w % 2 ^ t.bits)

/-- A result of a type written to lane l of a v destination, or to an s destination. -/
def Team.put (tm : Team) (t : Ty) (d : Opd) (l : Nat) (w : Nat) : Team :=
  match d.cls with
  | .v =>
    if t.is64 then
      (tm.vSet d.num.toNat l (BitVec.ofNat 32 w)).vSet (d.num.toNat + 1) l (BitVec.ofNat 32 (w / 2 ^ 32))
    else tm.vSet d.num.toNat l (placeV t w)
  | .s => tm.sSet d.num.toNat (placeS t w)
  | _ => tm

/-- The registers that a result of a type occupies, in the lanes given. -/
def destRefs (t : Ty) (d : Opd) (lanes : List Nat) : List RegRef :=
  Use.refs { letter := .d, opd := d, want := wantVS, pair := t.is64 } lanes

/-! ### Steps 4 to 6 and 8 of R20 -/

/-- What a meaning works from once its sources are ready: the team, its active lanes (at least one), the lowest. -/
structure Ready where
  t : Nat
  tm : Team
  act : LaneSet
  lanes : List Nat
deriving Repr

def Ready.low (r : Ready) : Nat := r.lanes.headD 0

/-- The lanes in which a use is read. -/
def Use.lanesRead (u : Use) (once : Bool) (n : Nat) (lanes : List Nat) : List Nat :=
  match u.who with
  | .active => if once then lanes.take 1 else lanes
  | .eachActive => lanes
  | .every => List.range n
  | .lowest => lanes.take 1

/-- A soft-error mark on a register that the team reads (R361, site 0x02). -/
def State.regMark (s : State) (tm : Team) (rs : List RegRef) : Option (Nat × Nat) :=
  match s.marks with
  | [] => none
  | _ => if tm.image = 0 then none else rs.findSome? fun q => s.markAt (tm.imageAddr q) 4

/-- A soft-error mark on the mask register that an instruction's predicate reads (R361). -/
def State.predMark (s : State) (tm : Team) (p : Pred) : Option (Nat × Nat) :=
  s.regMark tm (if p.pm = 0 then [] else (List.range tm.words).map fun w => RegRef.m p.pm.toNat w)

/-- A write of registers replaces the 4-byte word at an image address, or that word holds no lane of the team (R184). -/
def Team.replaces (tm : Team) (rs : List RegRef) (a : Nat) : Bool :=
  (rs.any fun q => match q with
    | .s _ => tm.imageAddr q == a / 8 * 8
    | _ => tm.imageAddr q == a) ||
    (match tm.imagePart (a - tm.image) with
      | .m _ w => decide (tm.image ≤ a) && decide (tm.words ≤ w)
      | _ => false)

/-- The marks on register words that a write of registers replaces whole are removed (R361). -/
def State.clearRegMarks (s : State) (tm : Team) (rs : List RegRef) : State :=
  match s.marks with
  | [] => s
  | ms => if rs = [] then s
    else { s with marks := ms.filter fun m => !(tm.replaces rs (markedByte m.1) && tm.replaces rs (markedByte m.1 + 4)) }

/-- A marked register word is consumed (R361). -/
def unmarked (s : State) (mark : Option (Nat × Nat)) (va : Word64 := 0) : Except (LaneSet × Stop) Unit :=
  match mark with
  | some m => stop (s.softErrorAt m va)
  | none => .ok ()

/-- Step 6 for one team: a trap for the first empty source with its FE bit set, else a wait until every source is full,
else a Soft-Error for a marked register (R12, R361, R393). -/
def State.sources (s : State) (tm : Team) (us : List Use) (once : Bool) (lanes : List Nat) :
    Except (LaneSet × Stop) Unit :=
  let reads := us.filter (·.read)
  match reads.find? fun u => u.fe && (u.refs (u.lanesRead once tm.lanes lanes)).any tm.isEmpty with
  | some u => stop (.trap .emptyRegister (u.opd.cls.code.toNat * 256 + u.opd.num.toNat) 0)
  | none =>
    let refs := reads.flatMap fun u => u.refs (u.lanesRead once tm.lanes lanes)
    let empty := refs.filter tm.isEmpty
    if empty ≠ [] then stop (.wait (.regs empty))
    else unmarked s (s.regMark tm refs)

/-- The instruction's destinations wait until no producer is pending on them (R13). -/
def destsReady (tm : Team) (refs : List RegRef) : Except (LaneSet × Stop) Unit :=
  let empty := refs.filter tm.isEmpty
  if empty ≠ [] then stop (.wait (.regs empty)) else .ok ()

/-- Every destination is an s register: the lowest active lane alone is read and computed (R97). -/
def actsOnce (us : List Use) : Bool :=
  us.any (fun u => u.write && u.opd.cls == .s) && us.all fun u => !(u.write && (u.opd.cls == .v || u.opd.cls == .m))

/-- Past a completed instruction; one that closes a region makes the next one its entry (R351). -/
def Team.finish (tm : Team) (closes : Bool) : Team :=
  let tm1 := tm.advance
  if closes then { tm1 with closed := true } else tm1

/-- The team waits inside an instruction that has made part of its effect, or fixed what it waits for: its lanes were tested before
(R20). -/
def Stall.begun : Stall → Bool
  | .barrier .. | .fence .. | .moor .. | .eclw .. | .drain .. | .mwait .. => true
  | .none | .regs _ | .spawn .. | .launch _ | .capacity _ | .share _ | .collect | .held _ | .other => false

/-- Steps 4 to 6 of R20 for an instruction of the issuing team: the field checks, the active lanes, the sources; body is
steps 7 and 8. With no active lane only the PC advances, unless the instruction was begun with some, and an instruction that closes
regions closes none (R20, R304; DEDUCED against R351, log 91). -/
def State.instruct (s : State) (p : Pred) (us : List Use) (more : Team → Bool)
    (body : Ready → Result) : Host.Outcome State Fault Refusal :=
  s.run fun t tm => do
    ensure (us.all (Use.ok (s.counts tm)) && more tm) .illegalOperand
    unmarked s (s.predMark tm p)
    let act := tm.active p
    let lanes := lanesOf tm.lanes act
    if lanes = [] && !tm.stall.begun then .ok (s.setTeam t tm.advance)
    else
      s.sources tm us (actsOnce us) lanes
      body ⟨t, tm, act, lanes⟩

/-- The results of f in the lanes given, or the lowest failing lane's stop with the set of lanes that failed (R136). -/
def eachLane {α : Type} (f : Nat → Except Stop α) : List Nat → Except (LaneSet × Stop) (List α)
  | [] => .ok []
  | l :: rest =>
    match f l, eachLane f rest with
    | .ok a, .ok as => .ok (a :: as)
    | .ok _, .error e => .error e
    | .error e, .ok _ => .error (laneBit l, e)
    | .error e, .error (ls, _) => .error (laneBit l ||| ls, e)

/-- The registers that the instruction's destinations name. -/
def writeRefs (us : List Use) (lanes : List Nat) : List RegRef :=
  (us.filter (·.write)).flatMap fun u => u.refs lanes

/-- Steps 7 and 8 of an instruction that writes registers only: the team that body gives, once no destination is empty. -/
def State.writeBack (s : State) (r : Ready) (us : List Use) (tm : Team) : Result := do
  destsReady r.tm (writeRefs us r.lanes)
  .ok ((s.setTeam r.t tm.advance).clearRegMarks r.tm (writeRefs us r.lanes))

/-- An instruction that changes only its team's registers, masks and flags. -/
def State.alu (s : State) (p : Pred) (us : List Use) (more : Team → Bool) (f : Ready → Except (LaneSet × Stop) Team) :
    Host.Outcome State Fault Refusal :=
  s.instruct p us more fun r => do
    let tm ← f r
    s.writeBack r us tm

/-- The lanes for which a result is computed: every active lane of a v destination, the lowest for an s one (R97). -/
def Ready.results (r : Ready) (d : Opd) : List Nat := if d.cls == .s then r.lanes.take 1 else r.lanes

/-- An instruction with one destination, v or s: f gives a lane's result as bits of the type, and its flags. -/
def State.lanewise (s : State) (p : Pred) (t : Ty) (d : Opd) (us : List Use) (f : Team → Nat → Nat × Flags) :
    Host.Outcome State Fault Refusal :=
  s.alu p us (fun _ => true) fun r =>
    .ok ((r.results d).foldl (fun tm l =>
      let x := f r.tm l
      (tm.put t d l x.1).raise x.2) r.tm)

/-- An instruction that writes one bit of an m register for each active lane (R97). -/
def State.maskwise (s : State) (p : Pred) (d : Opd) (us : List Use) (f : Team → Nat → Bool × Flags) :
    Host.Outcome State Fault Refusal :=
  s.alu p us (fun _ => true) fun r =>
    let k := d.num.toNat
    let set := r.lanes.foldl (fun ls l => laneSet ls l (f r.tm l).1) (r.tm.mask k)
    .ok (r.lanes.foldl (fun tm l => tm.raise (f r.tm l).2) (r.tm.setMask k set))

/-! ### The uses of the common shapes -/

/-- A destination of a type, v or s. -/
def dUse (t : Ty) (d : Opd) : Use := { letter := .d, opd := d, want := wantVS, write := true, pair := t.is64 }

/-- A barrier that a format X word names exists (R173). -/
def barOk (s : State) (w : XWord) (tm : Team) : Bool := !w.be || decide (w.bn.toNat < s.barCount tm)

/-- A mask destination m1 to m15. -/
def mdUse (d : Opd) : Use := { letter := .d, opd := d, want := wantM, write := true }

/-- A v or s source of a type that admits views. -/
def srcUse (l : Letter) (t : Ty) (o : Opd) (md : Modifier) (fe : Bool) : Use :=
  { letter := l, opd := o, want := wantVS, read := true, pair := t.is64, md := md, views := allViews, fe := fe }

/-- The field that names a special register: class m, and no mask register (R9). -/
def spUse (l : Letter) (o : Opd) (md : Modifier) (fe : Bool) : Use := { letter := l, opd := o, want := wantM, md := md, fe := fe }

/-- A mask source. -/
def mUse (l : Letter) (o : Opd) (md : Modifier) (fe : Bool) : Use :=
  { letter := l, opd := o, want := wantM, read := true, md := md, fe := fe }

/-- D, A. -/
def usesDA (t : Ty) (w : RWord) : List Use :=
  [srcUse .a t w.a w.ma w.fea, unused .b w.mb w.feb, unused .c w.mc w.fec, dUse t w.d]

/-- D, A, B. -/
def usesDAB (t : Ty) (w : RWord) : List Use :=
  [srcUse .a t w.a w.ma w.fea, srcUse .b t w.b w.mb w.feb, unused .c w.mc w.fec, dUse t w.d]

/-- D, A, B, C. -/
def usesDABC (t : Ty) (w : RWord) : List Use :=
  [srcUse .a t w.a w.ma w.fea, srcUse .b t w.b w.mb w.feb, srcUse .c t w.c w.mc w.fec, dUse t w.d]

/-- D, A, and a register or immediate B. -/
def usesRI (t : Ty) : RI → List Use
  | .r w => usesDAB t w
  | .i w => [srcUse .a t w.a w.ma w.fea, dUse t w.d]

/-- An s register read in A, and one written in D. -/
def usesInOut (w : XWord) : List Use :=
  [{ letter := .a, opd := w.a, want := wantS, read := true }, { letter := .d, opd := w.d, want := wantS, write := true }]

/-- The rounding mode of an instruction (R82). -/
def Team.mode (tm : Team) (rm : Rm) : Rm :=
  match rm with
  | .dyn => match tm.rm with
    | 2 => .rz
    | 3 => .rd
    | 4 => .ru
    | 5 => .rna
    | _ => .rn
  | m => m

end Sys2Proof.Machine
end

