-- ==== Sys2Proof/Machine/Handles.lean ====
section
/-! DEFINITION. Handle entries: their fields, their checks, the place of an element, layer descriptors (R207 to R212). -/

namespace Sys2Proof.Machine

/-- The n bits from bit b of a sequence of bytes taken as one little-endian number. -/
def field (bs : List Byte) (b n : Nat) : Nat := ofBytesLE bs / 2 ^ b % 2 ^ n

/-- A handle entry (R208): the types, then the fields; ext and pitch have five entries, pitch 0 is 1. -/
structure Handle where
  type : Nat
  blkl : Nat
  fmt : Nat
  rank : Nat
  ro : Bool
  sdim : Nat
  ext : List Nat
  pitch : List Nat
  base : Word64
  lcount : Nat
  ptr : Word64
  lver : Word32
  /-- The bits of 0x38 to 0x3F that R210 gives a soft region: home die and slice, journal capacity. -/
  home : Nat
  jcap : Nat
  /-- Every bit that the table gives no field is zero, and so are the fields marked zero for the type. -/
  clean : Bool
deriving DecidableEq, Repr

/-- The entry in 64 bytes (R208, R210). -/
def Handle.ofBytes (bs : List Byte) : Handle :=
  let n := ofBytesLE bs
  let f (b w : Nat) : Nat := n / 2 ^ b % 2 ^ w
  let rank := f 16 3
  let type := f 0 4
  let above := (List.range 5).all fun d => decide (d < rank) ||
    (f (32 + 32 * d) 32 == 0 && (d == 0 || f (160 + 32 * d) 32 == 0))
  { type
    blkl := f 4 4
    fmt := f 8 5
    rank
    ro := f 24 1 == 1
    sdim := f 25 3
    ext := (List.range 5).map fun d => f (32 + 32 * d) 32
    pitch := 1 :: (List.range 4).map fun d => f (192 + 32 * d) 32
    base := BitVec.ofNat 64 (f 320 56)
    lcount := f 376 8
    ptr := BitVec.ofNat 64 (f 384 56)
    lver := BitVec.ofNat 32 (f 448 32)
    home := f 448 8
    jcap := f 464 16
    clean := f 13 3 == 0 && f 19 5 == 0 && f 28 4 == 0 && f 440 8 == 0 && above &&
      (type == 4 || f 376 8 == 0) &&
      (match type with
        | 4 => f 480 32 == 0
        | 3 => f 456 8 == 0 && f 480 32 == 0
        | _ => f 448 64 == 0) }

/-- The format that FMT codes (R208); a use of an entry with a code of 18 to 31 raises Handle-Invalid (DEDUCED, log 115). -/
def Elem.ofCode (c : Nat) : Option Elem :=
  if c < 16 then some (.ty (Ty.ofCode (BitVec.ofNat 4 c))) else if c = 16 then some .i4 else if c = 17 then some .b1
  else none

/-- The width of an element in memory, in bits (R41, R49, R50). -/
def Elem.bits : Elem → Nat
  | .ty .tap6 => 6
  | .ty t => t.bits
  | .i4 => 4
  | .b1 => 1

/-- Extent and pitch of dimension d. -/
def Handle.extent (h : Handle) (d : Nat) : Nat := nth 0 h.ext d

def Handle.step (h : Handle) (d : Nat) : Nat := nth 0 h.pitch d

/-- The rules of R210 for a soft region; HOMEDIE and HOMESL fill byte 0x38. -/
def Handle.softOk (h : Handle) : Bool :=
  h.fmt == 4 && h.rank == 2 && h.blkl == 0 && !h.ro && decide (h.extent 0 ≤ 64) && decide (h.extent 1 ≤ 1048576) &&
    decide (h.extent 0 ≤ h.step 1) && h.ptr.toNat % 4096 == 0 && decide (1 ≤ h.jcap)

/-- The rules of R209: a use of the entry is valid. An LPTR that is not 32-byte aligned is a breach too (DEDUCED, log 115). -/
def Handle.ok (h : Handle) : Bool :=
  match Elem.ofCode h.fmt with
  | none => false
  | some e =>
    let scalable := match e with
      | .ty t => t.isScalable
      | _ => false
    decide (1 ≤ h.type) && decide (h.type ≤ 4) && decide (1 ≤ h.rank) && decide (h.rank ≤ 5) &&
      decide (h.sdim < h.rank) && h.clean &&
      ((List.range h.rank).all fun d => h.extent d != 0) &&
      (h.blkl == 0 || (h.blkl == 5 && scalable)) &&
      (h.blkl == 5 || h.ptr == 0 || h.type == 3 || h.type == 4) &&
      ((List.range h.rank).all fun d => d == 0 || decide (h.extent (d - 1) * h.step (d - 1) ≤ h.step d)) &&
      ((List.range h.rank).all fun d => d == 0 || h.step d % (match e with
        | .ty .tap6 => 32
        | .i4 => 2
        | .b1 => 32
        | _ => 1) == 0) &&
      h.base.toNat % (match e with
        | .ty .tap6 => 8
        | .ty t => t.bits / 8
        | .b1 => 4
        | .i4 => 1) == 0 &&
      (match h.type with
        | 2 => (match e with
            | .ty t => t.isInt && decide (t.bits ≤ 32)
            | _ => false) && h.rank == 1 && h.extent 0 % 32 == 0 && h.base.toNat % 1024 == 0
        | 3 => h.softOk
        | 4 => (match e with
            | .ty t => t.isFlt
            | _ => false) && h.rank == 2 && h.blkl == 0 && decide (h.lcount ≤ 8) && h.ptr.toNat % 32 == 0
        | _ => true)

/-- Handle-Invalid for handle n (R347): its number in [19:8]. -/
def invalidHandle (n : Nat) : Stop := .trap .handleInvalid n 0

/-- The virtual address of entry n of a launch's table (R207). -/
def Launch.entryVa (l : Launch) (n : Nat) : Word64 := l.htb + BitVec.ofNat 64 (64 * n)

/-- The contents of an entry as a use finds it when it takes the latest: what was last published, or the table's bytes
(R207). -/
def State.entryNow (s : State) (a : Nat) : List Byte :=
  match tabGet? s.entries a with
  | some (b :: _) => b
  | _ => memGets s.mem a 64

/-- The messages of the write at an index of a location that is no byte (R224). -/
def State.msgsAt (s : State) (l i : Nat) : List Msg := (tabGet? s.writes (writeIdAt (s.orderOf l) i)).elim [] (·.msgs)

/-- The bytes of an entry's table as they all stood so many writes ago, not before the write w of the entry as a whole (R207). -/
def State.tableBytes (s : State) (a w back : Nat) : List Byte := s.bytesAsOf a 64 (Nat.max w (s.writeAgo a 64 back))

/-- A read of entry a by a party (R218, R223, R238): the contents at an index of its order not below the floor; the oldest
are the bytes that the first publication replaced. A pick of 2^32 or more takes the table's bytes, as ordinary stores made
since the entry's write at the floor have left them: until an HSET, a use may find the contents before or after such a store
(R207). -/
def State.readEntry (s : State) (p : Party) (acq : Option Inst) (a : Nat) : List Byte × State :=
  let l := entryLoc a
  let v := s.pv p
  let back := s.picks.headD 0
  let i := if s.picks = [] then s.latest l else Nat.max (v.floorAt l) (s.latest l - back)
  let bytes := if 2 ^ 32 ≤ back then s.tableBytes a (writeIdAt (s.orderOf l) i) (back - 2 ^ 32)
    else match tabGet? s.entries a with
      | some vs => nth (memGets s.mem a 64) vs (s.latest l - i)
      | none => memGets s.mem a 64
  (bytes, { s.setPv p { v.gain acq (s.msgsAt l i) with o := viewRaise v.o l i } with picks := s.picks.drop 1 })

/-- The contents of an entry as the write at an index of its order left them. -/
def State.entryAt (s : State) (a i : Nat) : List Byte :=
  nth (memGets s.mem a 64) (tabGet s.entries a []) (s.latest (entryLoc a) - i)

/-- A change of an entry that keeps its base: an attach or a detach, by which LVER rises by 1 (R214). -/
def sameBase (old new : Handle) : Bool := old.base == new.base && new.lver == old.lver + 1

/-- The FOLD that gave an entry the base that it has at an index of its order, with its write of the entry (R238, R297). -/
def State.foldOf (s : State) (a : Nat) : Nat → Option (Nat × Nat)
  | 0 => none
  | i + 1 =>
    let w := writeIdAt (s.orderOf (entryLoc a)) (i + 1)
    match (tabGet? s.writes w).elim Party.watch (·.party) with
    | .command k => some (k, w)
    | _ => if sameBase (Handle.ofBytes (s.entryAt a i)) (Handle.ofBytes (s.entryAt a (i + 1))) then s.foldOf a i else none

/-- The reads that follow are those of a line formed under the triple of entry a that party p has just read. -/
def State.underEntry (s : State) (p : Party) (a : Nat) : State :=
  { s with under := s.foldOf a (viewAt (s.pv p).o (entryLoc a)) }

/-- The publication of new contents of entry a by a party, a release at the instance given, when the table's bytes already
hold them (R238, R263): the write of the whole entry. -/
def State.publish (s : State) (p : Party) (rel : Option Inst) (a : Nat) (old new : List Byte) : State :=
  let w := s.nextWrite
  let l := entryLoc a
  let vs := match tabGet? s.entries a with
    | some vs => vs
    | none => [old]
  let s1 := { s.appendWhole w l with nextWrite := w + 1, entries := tabSet s.entries a (new :: vs) }
  let v := s.pv p
  let o := viewRaise v.o l (s1.latest l)
  let own := match rel with
    | none => []
    | some i => [⟨i, viewJoin o (msgAt v.acq i)⟩]
  { s1.setPv p { v with o := o } with writes := tabSet s1.writes w { party := p, die := s.partyDie p, msgs := v.rel ++ own } }

/-- A change of entry a by a party, a release at the instance given (R238, R264 to R266, R297): one move writes the table's
bytes and the entry as a whole. -/
def State.changeEntry (s : State) (p : Party) (rel : Option Inst) (a : Nat) (new : List Byte) : State :=
  let w := s.nextWrite
  let l := entryLoc a
  let v := s.pv p
  let o := s.raiseNext (viewRaise v.o l (s.latest l + 1)) a new.length
  let own := match rel with
    | none => []
    | some i => [⟨i, viewJoin o (msgAt v.acq i)⟩]
  let vs := match tabGet? s.entries a with
    | some vs => vs
    | none => [memGets s.mem a 64]
  let s1 := ((s.writeMem p none own a new).unmark a new.length).appendWhole w l
  { s1.setPv p { s1.pv p with o := viewRaise (s1.pv p).o l (s1.latest l) } with entries := tabSet s1.entries a (new :: vs) }

/-! ### The place of an element (R208) -/

/-- Where an element lies: its first byte as an offset from BASE, the bytes it meets, and its first bit in them. -/
structure Spot where
  off : Nat
  bytes : Nat
  shift : Nat
deriving DecidableEq, Repr

/-- The spot of linear index k in a format (R41, R49, R50). -/
def Elem.spot (e : Elem) (k : Nat) : Spot :=
  match e with
  | .ty .tap6 =>
    let b := 6 * (k % 32)
    ⟨24 * (k / 32) + b / 8, if b % 8 ≤ 2 then 1 else 2, b % 8⟩
  | .ty t => ⟨t.bits / 8 * k, t.bits / 8, 0⟩
  | .i4 => ⟨k / 2, 1, 4 * (k % 2)⟩
  | .b1 => ⟨k / 32 * 4 + k % 32 / 8, 1, k % 8⟩

/-- The linear index of coordinates. -/
def Handle.index (h : Handle) (xs : List Nat) : Nat :=
  (List.range h.rank).foldl (fun k d => k + nth 0 xs d * h.step d) 0

/-- The coordinates lie in the extents. -/
def Handle.inside (h : Handle) (xs : List Nat) : Bool :=
  (List.range h.rank).all fun d => decide (nth 0 xs d < h.extent d)

/-- The offset from SBASE of the block scale of coordinates (R208). -/
def Handle.scaleOff (h : Handle) (xs : List Nat) : Nat :=
  let e (d : Nat) := if d = h.sdim then (h.extent d + 31) / 32 else h.extent d
  let y (d : Nat) := if d = h.sdim then nth 0 xs d / 32 else nth 0 xs d
  ((List.range h.rank).foldl (fun (acc : Nat × Nat) d => (acc.1 + y d * acc.2, acc.2 * e d)) (0, 1)).1

/-- The bytes and bit of bit plane i of element e of n bits of a plane handle, from BASE (R203). -/
def planeSpot (n e i : Nat) : Nat × Nat :=
  let u := e / 8192
  let k := e / 32 % 256
  ((u * n + i) * 1024 + 4 * k + e % 32 / 8, e % 8)

/-! ### Layer descriptors (R211) -/

structure Layer where
  kind : Nat
  lrank : Nat
  alpha : Word32
  addr : Word64
  cap : Nat
  count : Nat
  clean : Bool
deriving DecidableEq, Repr

/-- The layer that the 32 bytes of a descriptor describe; byte 0x0F counts as a zero-field (DEDUCED, log 115). -/
def Layer.ofBytes (bs : List Byte) : Layer :=
  let f (b w : Nat) : Nat := ofBytesLE bs / 2 ^ b % 2 ^ w
  { kind := f 0 2
    lrank := f 8 8
    alpha := BitVec.ofNat 32 (f 32 32)
    addr := BitVec.ofNat 64 (f 64 56)
    cap := f 128 32
    count := f 160 32
    clean := f 2 6 == 0 && f 16 16 == 0 && f 120 8 == 0 && f 192 64 == 0 }

/-- The rules of R211. -/
def Layer.ok (d : Layer) : Bool :=
  d.clean && d.addr.toNat % 64 == 0 &&
    (match d.kind with
      | 0 => d.lrank == 0 && decide (d.count ≤ d.cap)
      | 1 => d.lrank == 0 && d.count == 0
      | 2 => decide (1 ≤ d.lrank) && decide (d.lrank ≤ Nat.min 32 d.cap) && d.count == 0
      | _ => false)

end Sys2Proof.Machine
end

