-- ==== Sys2Proof/Machine/Sha3.lean ====
section
/-! DEFINITION. SHA3-256 (FIPS 202), with which Gwynfebel measures and the container tags are made (R6, R381, R390). Lanes are numbers
below 2^64; lane (x, y) is at index x + 5y. -/

namespace Sys2Proof.Machine

/-- The round constants. -/
def keccakRounds : List Nat :=
  [0x0000000000000001, 0x0000000000008082, 0x800000000000808A, 0x8000000080008000, 0x000000000000808B, 0x0000000080000001] ++
  [0x8000000080008081, 0x8000000000008009, 0x000000000000008A, 0x0000000000000088, 0x0000000080008009, 0x000000008000000A] ++
  [0x000000008000808B, 0x800000000000008B, 0x8000000000008089, 0x8000000000008003, 0x8000000000008002, 0x8000000000000080] ++
  [0x000000000000800A, 0x800000008000000A, 0x8000000080008081, 0x8000000000008080, 0x0000000080000001, 0x8000000080008008]

/-- The rotation of each lane. -/
def keccakOffsets : List Nat :=
  [0, 1, 62, 28, 27] ++ [36, 44, 6, 55, 20] ++ [3, 10, 43, 25, 39] ++ [41, 45, 15, 21, 8] ++ [18, 2, 61, 56, 14]

/-- A lane turned left by n places. -/
def rotLane (w n : Nat) : Nat := (w <<< n ||| w >>> (64 - n)) % 2 ^ 64

/-- Every lane mixed with the columns beside its own. -/
def keccakTheta (a : List Nat) : List Nat :=
  let c := (List.range 5).map fun x => (List.range 5).foldl (fun n y => n ^^^ nth 0 a (x + 5 * y)) 0
  (List.range 25).map fun i => nth 0 a i ^^^ nth 0 c ((i + 4) % 5) ^^^ rotLane (nth 0 c ((i + 1) % 5)) 1

/-- Every lane turned, and moved to its new place. -/
def keccakRhoPi (a : List Nat) : List Nat :=
  (List.range 25).map fun i =>
    let j := (i % 5 + 3 * (i / 5)) % 5 + 5 * (i % 5)
    rotLane (nth 0 a j) (nth 0 keccakOffsets j)

/-- Every lane combined with the two after it in its row. -/
def keccakChi (a : List Nat) : List Nat :=
  (List.range 25).map fun i =>
    let row := 5 * (i / 5)
    nth 0 a i ^^^ ((2 ^ 64 - 1 - nth 0 a (row + (i + 1) % 5)) &&& nth 0 a (row + (i + 2) % 5))

/-- One round. -/
def keccakRound (a : List Nat) (rc : Nat) : List Nat :=
  match keccakChi (keccakRhoPi (keccakTheta a)) with
  | [] => []
  | x :: rest => (x ^^^ rc) :: rest

def keccak (a : List Nat) : List Nat := keccakRounds.foldl keccakRound a

/-- A block of 136 bytes taken into the sponge. -/
def absorb (a : List Nat) (block : List Byte) : List Nat :=
  keccak ((List.range 25).map fun i => nth 0 a i ^^^ if i < 17 then ofBytesLE ((block.drop (8 * i)).take 8) else 0)

/-- Blocks of 136 bytes taken in one after another; fuel bounds their number. -/
def absorbAll : Nat → List Nat → List Byte → List Nat
  | 0, a, _ => a
  | n + 1, a, bs => absorbAll n (absorb a (bs.take 136)) (bs.drop 136)

/-- The message with the suffix of SHA3 and its padding to whole blocks. -/
def sha3Pad (bs : List Byte) : List Byte :=
  let n := 136 - bs.length % 136
  bs ++ if n = 1 then [0x86] else 0x06 :: (List.replicate (n - 2) 0 ++ [0x80])

/-- SHA3-256 of a sequence of bytes; the first byte of the digest is the lowest. -/
def sha3 (bs : List Byte) : BitVec 256 :=
  let a := absorbAll (bs.length / 136 + 1) (List.replicate 25 0) (sha3Pad bs)
  BitVec.ofNat 256 (ofBytesLE ((a.take 4).flatMap (toBytesLE 8)))

end Sys2Proof.Machine
end

