-- ==== Sys2Proof/Machine/Light.lean ====
section
/-! DEFINITION. The Light List (R386, R387). -/

namespace Sys2Proof.Machine

/-- The part number of entry 0x0001, "TVX-Y9-48A", padded with zeros to 16 bytes. -/
def partNumber : List Byte := [0x54, 0x56, 0x58, 0x2D, 0x59, 0x39, 0x2D, 0x34, 0x38, 0x41, 0, 0, 0, 0, 0, 0]

/-- The code of a security state, and of the debug mode in it: 0 none, 1 non-invasive, 2 invasive (DESIGN CHOICE, log 5). -/
def Security.code : Security → Nat
  | .od => 0 | .pr => 1 | .pd => 2

def State.debugMode (s : State) : Nat :=
  match s.security with
  | .od => 2
  | .pr => 0
  | .pd => if s.invasive then 2 else 1

/-- The measurements of firmware and microprograms (R390). -/
def measurements (firmware : Nat) : List Byte := (Config.firmware firmware).flatMap fun b => toBytesLE 32 (sha3 b).toNat

/-- The measurements: of the firmware, of each microprogram and of the security state, which is measured as the byte of its code (R390;
DESIGN CHOICE, log 82). -/
def State.measured (s : State) : List Byte :=
  measurements s.firmware ++ toBytesLE 32 (sha3 [BitVec.ofNat 8 s.security.code]).toNat

def Power.code : Power → Nat
  | .p0 => 0 | .p1 => 1 | .s1 => 2 | .s3 => 3

/-- The arithmetic clock in MHz (R389). -/
def Power.clock : Power → Nat
  | .p0 => 700 | .p1 => 350 | .s1 => 0 | .s3 => 0

/-- The entries in rising order of their ID: ID and body, in whole 8-byte units (R387). The order, and the places of the
fields that the table only lists, are the model's (DESIGN CHOICE, log 5). -/
def State.lightEntries (s : State) : List (Nat × List Byte) :=
  let u64 (n : Nat) : List Byte := toBytesLE 8 n
  [ (0x0001, partNumber ++ u64 Config.revision.toNat ++ u64 Config.serial.toNat),
    (0x0002, toBytesLE 128 s.cores.toNat),
    (0x0003, u64 s.stackSet.toNat ++ (List.range 12).flatMap fun k => toBytesLE 4 (Config.channelMap k).toNat),
    (0x0004, u64 0x7FE ++ u64 Config.microprograms.length ++
      Config.microprograms.flatMap fun m => u64 (m.1.toNat + m.2.toNat * 2 ^ 16)),
    (0x0005, u64 2 ++ u64 Config.fermasaMinor.toNat),
    (0x0006, u64 s.ports.toNat ++ (List.range 24).flatMap fun k =>
      toBytesLE 6 (Config.portMac k).toNat ++ toBytesLE 2 (if s.portUp.getLsbD k then 1 else 0)),
    (0x0007, u64 s.security.code ++ u64 s.debugMode ++ toBytesLE 32 (sha3 s.measured).toNat),
    (0x0008, (List.range 6).flatMap fun k => u64 (tabGet s.corrected (k + 1) 0)),
    (0x0009, (List.range 12).flatMap fun k => u64 (tabGet s.embRows k 0)),
    (0x000A, u64 s.power.code ++ u64 s.power.clock),
    (0x0100, []) ]

/-- The list from the offset of its first entry: header word, then body (R386). -/
def lightBytes (at_ : Nat) : List (Nat × List Byte) → List Byte
  | [] => []
  | (id, body) :: rest =>
    let next := at_ + 8 + body.length
    toBytesLE 8 (id + 2 ^ 24 + body.length / 8 * 2 ^ 32 + (if rest = [] then 0 else next * 2 ^ 48)) ++ body ++
      lightBytes next rest

/-- The n bytes at an offset of the Light List window; past the list they are zero (DESIGN CHOICE, log 5). -/
def State.lightRead (s : State) (off n : Nat) : List Byte :=
  let all := lightBytes 0 s.lightEntries
  (List.range n).map fun i => nth 0 all (off + i)

end Sys2Proof.Machine
end

