-- ==== Sys2Proof/Machine/Access.lean ====
section
/-! DEFINITION. Pending accesses and long-latency producers: how an instruction issues them, which access may perform, and
what performing does (R11, R219, R222 to R224, R228). -/

namespace Sys2Proof.Machine

/-! ### Places -/

/-- The byte address that stands for an offset of the Light List window. -/
def lightByteAddr (off : Nat) : Nat := 0xF8 * 2 ^ 40 + off

/-- The byte address that a target names. -/
def Target.addr : Target → Nat
  | .byte a => a
  | .viaAlias _ a => a
  | .image a _ => a
  | .light off => lightByteAddr off

/-- The path on which an access travels (R219, R295). -/
def Target.path (sp : Space) : Target → Path
  | .image .. => .rwin
  | .byte a =>
    if sp = .spad then .spad
    else if 2 ^ 48 ≤ a then if (a - 2 ^ 48) / 2 ^ 20 % 2 = 1 then .acc else .clus
    else if hostByte 0 ≤ a then .host
    else .glob
  | _ => .glob

/-- The byte address of an access. -/
def Access.addr (a : Access) : Nat := a.loc / 3

/-- Two runs of bytes have a byte in common. -/
def runsMeet (p q : Nat × Nat) : Bool := decide (p.1 < q.1 + q.2) && decide (q.1 < p.1 + p.2)

/-- The run has a byte among the n bytes at a. -/
def Run.hits (r : Run) (a n : Nat) : Bool :=
  let lo := Nat.max a r.first
  let hi := Nat.min (a + n) (r.first + r.len)
  let o := (lo - r.first + r.phase) % r.pitch
  decide (lo < hi) && (r.pitch == 0 || decide (o < r.width) || decide (r.pitch < o + (hi - lo)))

/-- The pieces of a run without gaps: itself, or its slots. -/
def Run.pieces (r : Run) : List (Nat × Nat) :=
  if r.pitch = 0 then [(r.first, r.len)]
  else (List.range (r.len / r.pitch + 2)).map fun k =>
    let skip := if k = 0 then 0 else k * r.pitch - r.phase
    (r.first + skip, Nat.min (if k = 0 then r.width - r.phase else r.width) (r.len - skip))

/-- Two runs have a byte in common. -/
def Run.meets (p q : Run) : Bool :=
  if q.pitch = 0 then p.hits q.first q.len else p.pieces.any fun x => q.hits x.1 x.2

/-- The runs of bytes that an access counts as accesses to: its own bytes, or those of a whole region (R218, R256). -/
def Access.runs (a : Access) : List Run :=
  (if a.loc % 3 = 0 ∧ a.size ≠ 0 then [{ first := a.addr, len := a.size }] else []) ++ a.range

/-- The two accesses name a common location (R218), whatever code or mapping they reach it by. -/
def Access.meets (a b : Access) : Bool :=
  (a.loc % 3 != 0 && a.loc == b.loc) || a.runs.any fun p => b.runs.any p.meets

/-- Acquires and releases by ordering. -/
def Ord.acquires : Ord → Bool
  | .acquire | .acqRel => true
  | _ => false

def Ord.releases : Ord → Bool
  | .release | .acqRel => true
  | _ => false

/-- An access as a part of a merged reduction. -/
def Access.self (a : Access) : Merged := ⟨a.party, a.seq, a.lane, a.ord, a.scope, a.vf, a.launch, a.pc, a.va⟩

/-- The accesses that an access stands for: itself, and the reductions merged into it (R228). -/
def Access.members (a : Access) : List Merged := a.self :: a.merged

/-- The places in program order that an access holds. -/
def Access.places (a : Access) : List (Party × Nat × Sys2Proof.Ord) := a.members.map fun m => (m.party, m.seq, m.ord)

/-- The access writes a location, or enters something that a later move writes from (R222, R327). -/
def AccKind.writes : AccKind → Bool
  | .read | .layered .. | .entry | .copyMasks | .accRead .. | .ready _ => false
  | _ => true

/-- The access reads what other parties wrote: FENCE.acq joins what earlier reads chose, so it follows them. -/
def AccKind.reads : AccKind → Bool
  | .read | .atom .. | .bfaIns .. | .bfaFfcs | .bfaPlset _ | .layered .. | .entry | .accRead .. | .adjoint .. => true
  | .blend _ arrive => arrive
  | _ => false

/-- The access is a reduction or a memory-side command: a later fence waits until it has entered its slice queue (R222). -/
def AccKind.enters : AccKind → Bool
  | .red .. | .windowOp .. => true
  | _ => false

/-- A bag of an EMB has written some of its output, and is to write the rest (R322). -/
def Command.bagBegun (c : Command) : Bool :=
  match c.kind with
  | .emb _ _ bags => bags.any fun b => b.begun && c.todo.any fun i => decide (i.1 ≤ b.lane) && decide (b.lane < i.2)
  | _ => false

/-- Every line of a command has entered its slice queue, where its reads and writes of the line perform (R222, R233). A command that has
faulted enters no more lines, but for those of a bag whose output is begun (R322). -/
def Command.inQueues (c : Command) : Bool :=
  c.entered && ((c.fault.isSome && !c.bagBegun) || (c.todo == [] && !c.final))

/-- The access enters blends into a region's queue. -/
def AccKind.blends : AccKind → Bool
  | .blend .. => true
  | _ => false

/-- The access arrives at a barrier of its team's group when it performs. -/
def AccKind.arrives : AccKind → Bool
  | .blend _ arrive => arrive
  | .adjoint _ _ _ bar => bar.isSome
  | .ready _ => true
  | _ => false

/-- The earlier access b must perform before a (R222), within one instruction in ascending lanes at one location (R137,
R248); an arrival follows its team's earlier SSTs (R237). -/
def Access.precedes (b a : Access) : Bool :=
  b.members.any fun x => a.members.any fun y =>
    x.party == y.party &&
      (if x.seq < y.seq then
        Ord.acquires x.ord || Ord.releases y.ord || (b.kind.blends && a.kind.arrives) || b.meets a
       else x.seq == y.seq && decide (x.lane < y.lane) && b.meets a)

/-- A memory-side command of the team that precedes a place in its program order has not entered its slice queues (R222,
R233). -/
def State.commandBefore (s : State) (t n : Nat) : Bool :=
  s.commands.any fun c => c.2.team == t && decide (c.2.seq < n) && !c.2.inQueues

/-- The bytes of its group's accumulators that an ACCZ or ACCWR writes: offset and length (R313, R315). -/
def QueueWork.writes : QueueWork → List (Nat × Nat)
  | .fill z n _ => [(8192 * z, 8192 * n)]
  | .put cells => cells.map fun c => (c.1, 8)
  | _ => []

/-- The ACCZ and ACCWR of a team that still stand in its group's queue, earlier than a place in its program order. -/
def State.queuedWrites (s : State) (t n : Nat) : List (Nat × Nat) :=
  match tabGet? s.teams t with
  | none => []
  | some tm => ((tabGet? s.groups tm.group).elim [] (·.queue)).flatMap fun e =>
      if e.team = t ∧ e.seq < n then e.work.writes.map fun w => (accByte tm.group w.1, w.2) else []

/-- An access of a team must follow a write that still stands in the queue (R222, R313): one to a common location, or any
one for a release. -/
def State.queueBefore (s : State) (t n : Nat) (o : Sys2Proof.Ord) (a : Access) : Bool :=
  (s.queuedWrites t n).any fun w => Ord.releases o ||
    (a.loc % 3 == 0 && decide (w.1 < a.addr + a.size) && decide (a.addr < w.1 + w.2))

/-- A write of an image word stands behind a producer that is pending on the register (R186, R188). -/
def State.windowHeld (s : State) (a : Access) : Bool :=
  a.path == .rwin && a.kind.writes && s.imageHeld (a.prod.map (·.1)) a.addr a.size

/-- An access may perform when the others of mates perform in the same move: no earlier one must go first, and a window write
is not held (R186, R222). -/
def State.mayPerform (s : State) (mates : List Nat) (a : Access) : Bool :=
  (s.pend.all fun b => mates.contains b.1 || !b.2.precedes a) &&
    (a.places.all fun x => match x.1 with
      | .team t => (!Ord.releases x.2.2 || !s.commandBefore t x.2.1) && !s.queueBefore t x.2.1 x.2.2 a
      | _ => true) &&
    !s.windowHeld a

/-- The accesses that the given ones must follow, or that must follow them (R222), these included, in so many steps. -/
def State.reach (s : State) (later : Bool) (ids : List Nat) : Nat → List Nat
  | 0 => ids
  | n + 1 =>
    let more := (s.pend.filter fun b => !ids.contains b.1 && ids.any fun i => (tabGet? s.pend i).elim false fun a =>
      if later then a.precedes b.2 else b.2.precedes a).map (·.1)
    if more = [] then ids else s.reach later (ids ++ more) n

/-- The accesses other than id that must follow it and that it must follow: only a merged reduction can have any (R228). -/
def State.cycle (s : State) (id : Nat) : List Nat :=
  if s.pend.all fun b => b.2.merged == [] then []
  else
    let back := s.reach false [id] s.pend.length
    (s.reach true [id] s.pend.length).filter fun i => i != id && back.contains i

/-- An access may perform by itself. -/
def State.canPerform (s : State) (id : Nat) (a : Access) : Bool := s.mayPerform [id] a

/-- The team has accesses that have not performed. -/
def State.hasPending (s : State) (t : Nat) : Bool := s.pend.any fun a => a.2.places.any fun p => p.1 == .team t

/-- Every earlier access of the team has performed, its ACCZ and ACCWR among them, and every memory-side command has entered
its queue: what a release, a fence or an arrival waits for (R172, R178, R222). -/
def State.drained (s : State) (t : Nat) : Bool :=
  !s.hasPending t && (s.commands.all fun c => c.2.team != t || c.2.inQueues) &&
    s.queuedWrites t ((tabGet? s.teams t).elim 0 fun tm => tm.seq + 1) == []

/-- The team has an acquire that has not performed: a later access may not (R222). -/
def State.hasAcquire (s : State) (t : Nat) : Bool :=
  s.pend.any fun a => a.2.party == .team t && Ord.acquires a.2.ord

/-- An earlier access of the team to some of n bytes is still to perform, or still stands in its matrix queue (R222). -/
def State.ownBefore (s : State) (t seq a n : Nat) : Bool :=
  (s.pend.any fun x => (x.2.places.any fun q => q.1 == .team t) && x.2.runs.any fun q => q.hits a n) ||
    (s.queuedWrites t seq).any fun w => decide (w.1 < a + n) && decide (a < w.1 + w.2)

/-! ### Issuing -/

def State.addAccess (s : State) (a : Access) : State :=
  { s with pend := tabSet s.pend s.nextId a, nextId := s.nextId + 1 }

/-- A producer of a team: its destinations become empty (R11). -/
def State.addProducer (s : State) (t : Nat) (dests : List RegRef) (form : Form) (n : Nat) : Nat × State :=
  (s.nextId,
    { (s.onTeam t fun tm => dests.foldl (fun tm q => tm.setEmpty q true) tm) with
      prods := tabSet s.prods s.nextId { team := t, dests := dests, form := form, parts := List.replicate n none }
      nextId := s.nextId + 1 })

/-- An access of the issuing team to a target. -/
def State.teamAccess (s : State) (r : Ready) (sp : Space) (lane : Nat) (va : Word64) (tg : Target) (size : Nat)
    (kind : AccKind) (ord : Sys2Proof.Ord) (scope : Scope) (prod : Option (Nat × Nat)) : Access where
  party := .team r.t
  seq := r.tm.seq
  path := tg.path sp
  vf := s.vfOf r.tm
  launch := r.tm.launch
  pc := r.tm.pc
  lane := lane
  va := va
  loc := byteLoc tg.addr
  size := size
  kind := kind
  ord := ord
  scope := scope
  prod := prod

/-- The state after an instruction that issued accesses: the team has taken its number in program order and moved on. -/
def State.issued (s : State) (r : Ready) (closes : Bool) : Result := .ok (s.onTeam r.t fun tm => tm.number.finish closes)

/-! ### Step 7 of a load, a store, an atomic (R22, R128, R186, R202, R248, R275, R361) -/

/-- The types of the integer alias operations (R202). -/
def aliasType (t : Ty) : Bool := t == .i32 || t == .n32 || t == .i64 || t == .n64

/-- A mark on the bytes is consumed. -/
def State.consume (s : State) (tg : Target) (n : Nat) (va : Word64) : Except Stop Target :=
  match s.markAt tg.addr n with
  | some m => .error (s.softErrorAt m va)
  | none => .ok tg

/-- A mark on a word that the write replaces only in part is consumed. -/
def State.consumePart (s : State) (tg : Target) (n : Nat) (va : Word64) : Except Stop Target :=
  match s.partMark tg.addr n with
  | some m => .error (s.softErrorAt m va)
  | none => .ok tg

/-- The target of a load of one element of n bytes. -/
def State.loadTarget (s : State) (vf g : Nat) (sp : Space) (va : Word64) (n : Nat) (t : Ty) : Except Stop Target := do
  let tg ← s.target vf g sp va n .load false
  match tg with
  | .byte _ => s.consume tg n va
  | .viaAlias code _ => if code ≤ 6 && aliasType t then s.consume tg n va else .error (Stop.at .access va)
  | .image a e => match s.windowCheck a n false e va with
    | some x => .error x
    | none => s.consume tg n va
  | .light _ => .ok tg

/-- The bank that holds a main-memory row: stack, channel quad of its frame, bank of the quad (R196, R197; the layout of a
frame over the 4 bank groups of 8 banks is a DESIGN CHOICE, log 6). -/
def State.bankOf (s : State) (pa : Nat) : Nat × Nat × Nat :=
  let region := pa / 2 ^ 21
  let frame := tabGet s.frames region (region % 2 ^ 15)
  (pa / 2 ^ 36, frame % 8, pa / 2 ^ 10 % 32)

/-- The checks of R202 and R299 on an alias store of value x. -/
def State.aliasStoreOk (s : State) (code a : Nat) (t : Ty) (x : Word64) : Bool :=
  if code ≤ 6 then aliasType t
  else if code = 7 then (t == .n32 || t == .n64) && a % 1024 == 0
  else if code = 8 then
    let src := x.toNat % 2 ^ 40
    t == .n64 && a % 1024 == 0 && src % 1024 == 0 && s.stackHas src && !s.isImage src && s.bankOf src == s.bankOf a
  else
    let n := 8 * 2 ^ (x.toNat / 2 ^ 46 % 4)
    let arow : Int := (x.toNat % 2 ^ 30 * 1024 : Nat)
    let boff : Int := (x.extractLsb' 30 16).toInt * 1024
    let first : Int := (a / 2 ^ 21 * 2 ^ 21 : Nat)
    let inRegion (lo : Int) : Bool := decide (first ≤ lo) && decide (lo + (n * 1024 : Nat) ≤ first + 2 ^ 21)
    t == .n64 && a % 1024 == 0 && x.toNat / 2 ^ 51 == 0 && x.toNat / 2 ^ 48 % 4 == 0 && n != 64 &&
      (code != 10 || boff == 0) && inRegion (a : Nat) && inRegion arow && inRegion (arow + boff)

/-- The target of a store of one element of n bytes and value x. -/
def State.storeTarget (s : State) (vf g : Nat) (sp : Space) (va : Word64) (n : Nat) (t : Ty) (x : Word64) :
    Except Stop Target := do
  let tg ← s.target vf g sp va n .store true
  match tg with
  | .byte a => if s.isMoored a n then .error (Stop.at .mooredWrite va) else s.consumePart tg n va
  | .viaAlias code a => if s.aliasStoreOk code a t x then .ok tg else .error (Stop.at .access va)
  | .image a e => match s.windowCheck a n true e va with
    | some st => .error st
    | none => if e then .ok tg else s.consumePart tg n va
  | .light _ => .error (Stop.at .access va)

/-- The target of an atomic, or of a reduction, which meets the row check and the marks at its slice (R248, R249, R360). -/
def State.atomTarget (s : State) (vf g : Nat) (sp : Space) (va : Word64) (n : Nat) (red : Bool) :
    Except Stop Target := do
  let tg ← s.target vf g sp va n .atomic true (!red)
  match tg with
  | .byte a =>
    if hostByte 0 ≤ a && decide (a < 2 ^ 48) then .error (Stop.at .access va)
    else if s.isMoored a n then .error (Stop.at .mooredWrite va)
    else if red then .ok tg
    else if decide (a < 2 ^ 40) && !s.rowAllowed vf a false then .error (.fatal va)
    else s.consume tg n va
  | .image a false => match s.windowCheck a n true false va with
    | some st => .error st
    | none =>
      if red then .ok tg
      else if !s.rowAllowed vf a false then .error (.fatal va)
      else s.consume tg n va
  | _ => .error (Stop.at .access va)

/-! ### Reading memory at virtual addresses -/

/-- The targets of n bytes at a virtual address that need not be aligned: runs of consecutive bytes, each within one 64 KiB
page. -/
def State.spans (s : State) (vf : Nat) (k : AccessKind) (store : Bool) : Nat → Word64 → Nat → Except Stop (List (Word64 × Nat × Nat))
  | 0, _, _ => .ok []
  | fuel + 1, va, n =>
    if n = 0 then .ok []
    else do
      let here := Nat.min n (65536 - va.toNat % 65536)
      let tg ← s.translate vf va 1 k store
      match tg with
      | .byte a => if !s.hostSpan vf a here then .error (Stop.at .access va) else do
        let rest ← s.spans vf k store fuel (va + BitVec.ofNat 64 here) (n - here)
        .ok ((va, a, here) :: rest)
      | .viaAlias code a =>
        if !store && code ≤ 6 then do
          let rest ← s.spans vf k store fuel (va + BitVec.ofNat 64 here) (n - here)
          .ok ((va, a, here) :: rest)
        else .error (Stop.at .access va)
      | _ => .error (Stop.at .access va)

/-- The spans of n bytes, n at most a few pages. -/
def State.span (s : State) (vf : Nat) (va : Word64) (n : Nat) (k : AccessKind) (store : Bool) :
    Except Stop (List (Word64 × Nat × Nat)) := s.spans vf k store (n / 65536 + 2) va n

/-- A read of n bytes at a virtual address by a party, page run by page run; a marked word is consumed, and a read of a region that
a swap holds waits (R196). -/
def State.readVa (s : State) (p : Party) (acq : Option Inst) (vf : Nat) (va : Word64) (n : Nat) (k : AccessKind) :
    Except Stop (List Byte × State) := do
  let runs ← s.span vf va n k false
  if runs.any fun x => s.swapping x.2.1 x.2.2 then Except.error (.wait .other)
  else runs.foldlM (fun (acc : List Byte × State) (x : Word64 × Nat × Nat) =>
    match acc.2.markAt x.2.1 x.2.2 with
    | some m => Except.error (acc.2.softErrorAt m x.1)
    | none =>
      let (bs, s1) := acc.2.readMem p acq x.2.1 x.2.2
      Except.ok (acc.1 ++ bs, s1)) ([], s)

/-- The same read for a line that is being formed (R137, R213). -/
def State.readLineVa (s : State) (p : Party) (acq : Option Inst) (vf : Nat) (va : Word64) (n : Nat) : Except Stop (List Byte × State) := do
  let runs ← s.span vf va n .load false
  if runs.any fun x => s.swapping x.2.1 x.2.2 then Except.error (.wait .other)
  else runs.foldlM (fun (acc : List Byte × State) (x : Word64 × Nat × Nat) =>
    match acc.2.markAt x.2.1 x.2.2 with
    | some m => Except.error (acc.2.softErrorAt m x.1)
    | none =>
      let (bs, s1) := acc.2.readOnce p acq x.2.1 x.2.2
      Except.ok (acc.1 ++ bs, s1)) ([], s)

/-- The bytes at a virtual address as they stand, for a check at issue. -/
def State.peekVa (s : State) (vf : Nat) (va : Word64) (n : Nat) (k : AccessKind) : Except Stop (List Byte) :=
  (s.readVa .watch none vf va n k).map (·.1)

/-! ### Completing (R11, R42, R96, R244) -/

/-- The exact value of an element in F32 (R57); with a scale, of their product (R52). -/
def Elem.f32 (e : Elem) (w : Nat) (scale : Option Nat) : Nat :=
  let v : FNum := match e with
    | .ty t => tyValue t w
    | .i4 => let x := intOf true 4 w; .fin (decide (x < 0)) x.natAbs 1
    | .b1 => .fin false w 1
  let v := match scale with
    | none => v
    | some c => scaledValue v (fmtScale.decode c)
  (fmtF32.round .rn false v).1

/-- An element delivered in a type (R42, R49, R244): its own, the value in F32, or an I4 sign-extended. -/
def Elem.deliver (e : Elem) (t : Ty) (w : Nat) (scale : Option Nat) : Nat :=
  match e with
  | .ty .tap6 => if t = .tap6 then w + (if w.testBit 5 then 192 else 0) else e.f32 w scale
  | .ty u => if t = u then w else e.f32 w scale
  | .i4 => wrapBits 32 (intOf true 4 w)
  | .b1 => w

/-- The element that the parts of a producer hold. -/
def gatherElem (fmt : Elem) (shift : Nat) (plane : Bool) (data : List (List Byte)) : Nat :=
  if plane then
    ((List.range data.length).foldl (fun n i =>
      n + (if (ofBytesLE (nth [] data i)).testBit shift then 2 ^ i else 0)) 0) % 2 ^ fmt.bits
  else ofBytesLE data.flatten / 2 ^ shift % 2 ^ fmt.bits

/-- A register reference as an operand. -/
def RegRef.opd : RegRef → Opd × Nat
  | .v r l => (⟨.v, BitVec.ofNat 8 r⟩, l)
  | .s r => (⟨.s, BitVec.ofNat 8 r⟩, 0)
  | .m r _ => (⟨.m, BitVec.ofNat 8 r⟩, 0)

/-- A result of a type written to a register reference. -/
def Team.putRef (tm : Team) (t : Ty) (q : RegRef) (w : Nat) : Team := tm.put t q.opd.1 q.opd.2 w

/-- The sum of a soft load, in ascending entries; a NaN is canonical (R253). -/
def softSum (acc : Word32) : List (Word32 × Word32) → Word32
  | [] => acc
  | (w, x) :: rest => softSum (fmaRn w x acc).1 rest

/-- The team with the values of a completing producer written. -/
def Producer.deliver (q : Producer) (tm : Team) : Team :=
  let parts := q.parts.map (·.getD [])
  match q.form with
  | .elem d t fmt shift plane scaled =>
    let data := if scaled then parts.dropLast else parts
    let scale := if scaled then some (ofBytesLE (parts.getLastD [])) else none
    tm.putRef t d (fmt.deliver t (gatherElem fmt shift plane data) scale)
  | .soft d ws => tm.putRef .f32 d (softSum 0 (ws.zip (parts.map fun b => BitVec.ofNat 32 (ofBytesLE b)))).toNat
  | .grad d g => tm.putRef .f32 d (mulRn g (BitVec.ofNat 32 (ofBytesLE (parts.headD [])))).1.toNat
  | .words d => (List.range 8).foldl (fun tm i =>
      tm.sSet (d + i) (BitVec.ofNat 64 (field (parts.headD []) (64 * i) 64))) tm
  | .value d t w => tm.putRef t d w.toNat

/-- Every part of a producer has arrived. -/
def Producer.ready (q : Producer) : Bool := q.parts.all Option.isSome

/-- PRODUCER COMPLETION: the value and the full bit in one step, the flags of R248 and R314; a team that waits on the
register joins the producer's view (R261). -/
def State.complete (s : State) (k : Nat) (q : Producer) : State :=
  let s1 := s.onTeam q.team fun tm =>
    let tm1 := (q.dests.foldl (fun tm d => tm.setEmpty d false) (q.deliver tm)).raise q.flags
    match tm.stall with
    | .regs rs => if rs.any q.dests.contains then { tm1 with pv := tm1.pv.joinO q.join } else tm1
    | _ => tm1
  let s2 := match tabGet? s.teams q.team with
    | some tm => s1.clearRegMarks tm q.dests
    | none => s1
  { s2 with prods := tabDel s2.prods k }

/-- Bytes returned to a part of a producer. -/
def State.feed (s : State) (prod : Option (Nat × Nat)) (bytes : List Byte) : State :=
  match prod with
  | none => s
  | some (k, i) =>
    { s with prods := tabModify s.prods k fun q =>
        { q with parts := putAt none q.parts i (some bytes) } }

/-- A producer whose value is now known. -/
def State.settleValue (s : State) (prod : Option (Nat × Nat)) (w : Nat) (flags : Flags) (join : View) : State :=
  match prod with
  | none => s
  | some (k, i) =>
    { s with prods := tabModify s.prods k fun q =>
        { q with
          parts := putAt none q.parts i (some [])
          flags := q.flags ||| flags
          join := viewJoin q.join join
          form := match q.form with
            | .value d t _ => .value d t (BitVec.ofNat 64 w)
            | f => f } }

/-! ### Performing (R223, R224, R228, R248 to R250) -/

def State.acqOf (s : State) (a : Access) : Option Inst :=
  if Ord.acquires a.ord then some (s.instOf a.party a.scope) else none

def State.relOf (s : State) (a : Access) : Option Inst :=
  if Ord.releases a.ord then some (s.instOf a.party a.scope) else none

/-- A read perform of bytes of memory, of a register image, or of the Light List window (R185, R223, R386). -/
def State.readAt (s : State) (p : Party) (acq : Option Inst) (a n : Nat) : List Byte × State :=
  if lightByteAddr 0 ≤ a && decide (a < 2 ^ 48) then (s.lightRead (a - lightByteAddr 0) n, s)
  else if s.inImage a then s.readImage p acq a n
  else s.readMem p acq a n

/-- The combination of two operands by a reduction (R248, R249). -/
def RedOp.combine (op : RedOp) (t : Ty) (a b : Nat) : Nat × Flags :=
  if t.isFlt then
    match op with
    | .min => floatMinMax (tyFmt t) false a b
    | .max => floatMinMax (tyFmt t) true a b
    | _ =>
      let (v, f) := FNum.add .rn ((tyFmt t).decode a) ((tyFmt t).decode b)
      let (c, g) := (tyFmt t).round .rn false v
      (c, f ||| g)
  else
    let x := intOf t.isSigned t.bits a
    let y := intOf t.isSigned t.bits b
    (match op with
      | .add => wrapBits t.bits (x + y)
      | .min => wrapBits t.bits (Min.min x y)
      | .max => wrapBits t.bits (Max.max x y)
      | .and => a &&& b
      | .or => a ||| b
      | .xor => a ^^^ b, 0)

/-- The new value of ATOM (R248). -/
def AtomOp.apply (op : AtomOp) (t : Ty) (old v cmp : Nat) : Nat × Flags :=
  match op with
  | .red r => RedOp.combine r t old v
  | .exch => (v, 0)
  | .cas => (if old = cmp then v else old, 0)

/-- The new word and the result of BFA (R250). -/
def bfaApply (kind : AccKind) (w : Nat) : Nat × Nat :=
  match kind with
  | .bfaIns v m => ((w ^^^ (w &&& m.toNat)) ||| (v.toNat &&& m.toNat), w)
  | .bfaFfcs => let (d, n) := findFirst w; (n, d)
  | .bfaPlset l => let d := setLow w l.toNat; (w ||| d, d)
  | _ => (w, w)
where
  /-- FFCS on 64 bits: the index and the new word (R106). -/
  findFirst (w : Nat) : Nat × Nat :=
    if w = 2 ^ 64 - 1 then (2 ^ 64 - 1, w)
    else match (List.range 64).find? fun i => !w.testBit i with
      | some i => (i, w + 2 ^ i)
      | none => (2 ^ 64 - 1, w)
  /-- PLSET on 64 bits: the bits set (R107). -/
  setLow (w l : Nat) : Nat :=
    (((List.range 64).filter fun i => !w.testBit i).take l).foldl (fun n i => n + 2 ^ i) 0

/-- The access has performed. -/
def State.performed (s : State) (id : Nat) : State := { s with pend := tabDel s.pend id }

/-- The reads of one load that perform in one move with a given one: those that share bytes with it, or with one that does
(R137: lanes of one load that read the same byte see the same value). -/
def State.readMates (s : State) (id : Nat) (a : Access) : List (Nat × Access) :=
  let all := s.pend.filter fun b => b.2.kind == .read && b.2.party == a.party && b.2.seq == a.seq
  all.foldl (fun found _ => all.filter fun b => found.any fun c => c.1 == b.1 || b.2.meets c.2) [(id, a)]

/-- Reads of one move return their bytes. -/
def State.performReads (s : State) (a : Access) (mates : List (Nat × Access)) : State :=
  let lo := mates.foldl (fun n m => Nat.min n m.2.addr) a.addr
  let hi := mates.foldl (fun n m => Nat.max n (m.2.addr + m.2.size)) (a.addr + a.size)
  let (bs, s1) := s.readAt a.party (s.acqOf a) lo (hi - lo)
  mates.foldl (fun s m => (s.feed m.2.prod ((bs.drop (m.2.addr - lo)).take m.2.size)).performed m.1) s1

/-- A read performs with its mates, once all of them may. -/
def State.performRead (s : State) (id : Nat) (a : Access) : State :=
  let mates := s.readMates id a
  if mates.all fun m => s.mayPerform (mates.map (·.1)) m.2 then s.performReads a mates else s

/-- The other byte of an element that STT stores across two pages: it performs in the same move (R245). -/
def State.otherByte (s : State) (id : Nat) (a : Access) : Option (Nat × Access × List Byte × List Byte) :=
  if a.size != 1 then none
  else (s.pend.find? fun b => b.1 != id && b.2.party == a.party && b.2.seq == a.seq && b.2.lane == a.lane && b.2.size == 1 &&
      (b.2.va == a.va + 1 || a.va == b.2.va + 1)).bind fun b => match b.2.kind with
    | .write data mask => some (b.1, b.2, data, mask)
    | _ => none

/-- A store (R223, R245). -/
def State.performWrite (s : State) (id : Nat) (a : Access) (data mask : List Byte) : State :=
  let v := s.pv a.party
  match s.otherByte id a with
  | none => ((s.writeMask a.party (s.relOf a) a.addr data mask).unmark a.addr a.size).performed id
  | some (j, b, data2, mask2) =>
    if !s.mayPerform [id, j] b then s
    else
      let s0 := s.setPv a.party { v with o := s.raiseNext v.o b.addr 1 }
      let s1 := s0.writeMask a.party (s.relOf a) a.addr data mask
      let s2 := s1.appendBytes s.nextWrite b.addr [maskByte (memGet s.mem b.addr) (nth 0 data2 0) (nth 0xFF mask2 0)]
      (((s2.unmark a.addr 1).unmark b.addr 1).performed id).performed j

/-- An ATOM of one lane (R248). -/
def State.performAtom (s : State) (id : Nat) (a : Access) (op : AtomOp) (t : Ty) (v cmp : Word64) : State :=
  let new (old : List Byte) := AtomOp.apply op t (ofBytesLE old) v.toNat cmp.toNat
  let (old, s1) := s.updateAt a.party (s.acqOf a) (s.relOf a) [] a.addr a.size fun old => toBytesLE a.size (new old).1
  let s2 := match a.prod, a.party with
    | none, .team k => s1.onTeam k fun tm => tm.raise (new old).2
    | _, _ => s1.settleValue a.prod (ofBytesLE old) (new old).2 []
  (s2.unmark a.addr a.size).performed id

/-- A BFA of one lane (R250). -/
def State.performBfa (s : State) (id : Nat) (a : Access) : State :=
  let (old, s1) := s.updateAt a.party (s.acqOf a) (s.relOf a) [] a.addr a.size fun old =>
    toBytesLE 8 (bfaApply a.kind (ofBytesLE old)).1
  ((s1.settleValue a.prod (bfaApply a.kind (ofBytesLE old)).2 0 []).unmark a.addr a.size).performed id

/-- A fault that a reduction meets at its slice: its cause (R360). -/
def State.sliceFault (s : State) (vf a n : Nat) : Option Cause :=
  if decide (a < 2 ^ 40) && !(s.rowAllowed vf a true && s.rowAllowed vf a false) then some .access
  else if (s.markAt a n).isSome then some .softError
  else none

/-- The Deferred record of an access that its team issued. -/
def State.deferAccess (s : State) (m : Merged) (c : Cause) : State :=
  match m.party with
  | .team t => s.deferred t c.code m.pc m.va
  | _ => s

/-- What the write of a merged reduction carries for one of its parties: its fence records, and its release, which includes
the write itself (R224, R226, R228). -/
def State.carriedBy (s : State) (m : Merged) (a n : Nat) : List Msg :=
  let v := s.pv m.party
  let i := s.instOf m.party m.scope
  v.rel ++ (if Ord.releases m.ord then [⟨i, viewJoin (s.raiseAt v.o a n 1) (msgAt v.acq i)⟩] else [])

/-- The fault that a reduction meets at its slice, one of its parties' for a merged one (R228, R360). -/
def State.redFault (s : State) (a : Access) : Option Cause :=
  a.members.findSome? fun m => s.sliceFault m.vf a.addr a.size

/-- REDUCTION ENTRY: the reduction performs as it enters its slice queue, or is discarded with a Deferred record of every party
that it stands for (R228, R249, R360). A merged one carries the messages of all, and counts for the dies of all (R367). -/
def State.performRed (s : State) (id : Nat) (a : Access) (op : RedOp) (t : Ty) (v : Word64) : State :=
  match s.redFault a with
  | some c => (a.members.foldl (fun s m => s.deferAccess m c) s).performed id
  | none =>
    let extra := a.merged.flatMap fun m => s.carriedBy m a.addr a.size
    let (_, s1) := s.updateAt a.party none (s.relOf a) extra a.addr a.size fun old =>
      toBytesLE a.size (RedOp.combine op t (ofBytesLE old) v.toNat).1
    let s2 := a.merged.foldl (fun s m =>
      s.setPv m.party { s.pv m.party with o := s.raiseAt (s.pv m.party).o a.addr a.size 0 }) s1
    (s2.countMore s.nextWrite (a.merged.filterMap fun m => s.partyDie m.party)).performed id

/-- Two reductions of one location with one operation and type; reductions round to nearest (R228, R249). -/
def Access.alike (a b : Access) : Bool :=
  match a.kind, b.kind with
  | .red op t _, .red op' t' _ => op == op' && t == t' && a.loc == b.loc && a.size == b.size
  | _, _ => false

/-- The reduction that stands for two: their operands combined, the constraints and messages of both (R228). -/
def Access.mergedWith (a b : Access) : Access :=
  match a.kind, b.kind with
  | .red op t v, .red _ _ v' =>
    { a with kind := .red op t (BitVec.ofNat 64 (RedOp.combine op t v.toNat v'.toNat).1), merged := a.merged ++ b.members }
  | _, _ => a

/-- Two pending accesses replaced by the reduction that stands for both. -/
def State.joinReds (s : State) (i : Nat) (a : Access) (j : Nat) (b : Access) : State :=
  { s with pend := tabDel (tabSet s.pend i (a.mergedWith b)) j }

/-- The merge leaves every access a way to perform: both reductions could perform now; or, of what stands between them in their parties'
program orders, every access is a reduction that can be merged with them too (R222, R228). -/
def State.mergeable (s : State) (i : Nat) (a : Access) (j : Nat) (b : Access) : Bool :=
  (s.mayPerform [i, j] a && s.mayPerform [i, j] b) ||
    (let all := s.pend.map (·.1)
     let s1 := s.joinReds i a j b
     s.mayPerform all a && s.mayPerform all b && (s1.cycle i).all fun k => (tabGet? s1.pend k).elim false a.alike)

/-- REDUCTION MERGE: two pending reductions of one location, operation and type, of one party or of two, become one (R228); neither
meets a fault at its slice. -/
def State.mergeReds (s : State) (i : Nat) (a : Access) (j : Nat) (b : Access) : State :=
  if i ≠ j ∧ a.alike b ∧ s.mergeable i a j b ∧ s.redFault a = none ∧ s.redFault b = none then s.joinReds i a j b else s

/-- A reduction that can perform only together with others, which stand between those merged in it, merges with one of them (R228). -/
def State.closeCycle (s : State) (id : Nat) (a : Access) : Option State :=
  (s.cycle id).findSome? fun j => (tabGet? s.pend j).bind fun b => if a.alike b then some (s.joinReds id a j b) else none

/-- The read of a whole entry (R262). -/
def State.performEntry (s : State) (id : Nat) (a : Access) : State :=
  let (bs, s1) := s.readEntry a.party (s.acqOf a) a.addr
  (s1.feed a.prod bs).performed id

/-- REGISTER WINDOW WRITE (R186, R234). -/
def State.performWindowWrite (s : State) (id : Nat) (a : Access) (data : List Byte) : State :=
  (s.writeImage a.party (s.relOf a) [] a.addr data).performed id

/-- EMPTYING WINDOW WRITE (R188). -/
def State.performWindowEmpty (s : State) (id : Nat) (a : Access) : State := (s.imageEmpty a.addr a.size).performed id

/-- The kind of a store to a target. -/
def Target.storeKind (tg : Target) (t : Ty) (x : Word64) (data mask : List Byte) : AccKind :=
  match tg with
  | .viaAlias code _ => .windowOp code t x
  | .image _ false => .windowWrite data
  | .image _ true => .windowEmpty
  | _ => .write data mask

end Sys2Proof.Machine
end

