-- ==== Sys2Proof/Machine/Close.lean ====
section
/-! DEFINITION. Blend epochs: the close move, the journal, the binding of a barrier to a region, and the arrival at a barrier,
which closes the regions bound to it (R174, R229, R235 to R237, R255 to R258). -/

namespace Sys2Proof.Machine

/-! ### What a swap holds (R196) -/

/-- A swap holds some of n bytes at a virtual address, or the tables that lead there. -/
def State.rangeHeld (s : State) (vf lo n : Nat) : Bool :=
  (List.range (n / 65536 + 2)).any fun i =>
    let first := Nat.max lo (65536 * (lo / 65536 + i))
    let last := Nat.min (lo + n) (65536 * (lo / 65536 + i + 1))
    decide (first < last) && match s.translate vf (BitVec.ofNat 64 first) 1 .engine false false with
      | .ok (.byte a) | .ok (.viaAlias _ a) => s.swapping a (last - first)
      | .error (.wait _) => true
      | _ => false

/-- The bytes from the first slot element of a soft region to its last (R210). -/
def Handle.slotSpan (h : Handle) : Nat := 4 * ((h.extent 1 - 1) * h.step 1 + h.extent 0)

/-- A swap holds some of the slots or of the journal of a soft region: its close and its SSTA wait as a whole. -/
def State.regionHeld (s : State) (vf : Nat) (h : Handle) : Bool :=
  s.held != [] && (s.rangeHeld vf h.base.toNat h.slotSpan || s.rangeHeld vf h.ptr.toNat (4096 * h.jcap))

/-- The bytes of a region's slots, and none between them, as runs within pages, by whatever mapping they are reached (R210, R218,
R256); a page that does not translate names none. -/
def State.slotRuns (s : State) (vf : Nat) (h : Handle) : List Run :=
  let lo := h.base.toNat
  let hi := lo + h.slotSpan
  let pitch := 4 * h.step 1
  (List.range (hi / 65536 + 1 - lo / 65536)).filterMap fun i =>
    let first := Nat.max lo (65536 * (lo / 65536 + i))
    match { s with held := [] }.translate vf (BitVec.ofNat 64 first) 1 .engine false false with
    | .ok (.byte a) | .ok (.viaAlias _ a) => some {
        first := a, len := Nat.min hi (65536 * (lo / 65536 + i + 1)) - first
        pitch := pitch, width := 4 * h.extent 0, phase := (first - lo) % pitch }
    | _ => none

/-! ### The journal (R257, R258) -/

/-- The journal of a region while a close or an SSTA works on it: whether its header can be read, the header's fields (those
counted since it could be, when it cannot), what of them is not in memory yet, and the first address that could not be reached, with
the cause. -/
structure Journal where
  base : Word64
  cap : Nat
  known : Bool
  head : Nat
  epoch : Word32
  ovf : Bool
  ovfep : Word32
  owed : Unwritten
  fail : Option (Nat × Word64)
deriving DecidableEq, Repr

/-- The cause code with which a journal address fails. -/
def Stop.code : Stop → Nat
  | .park .. => Cause.translation.code
  | .trap c _ _ => c.code
  | _ => Cause.access.code

/-- The byte address of n bytes of a journal for a read or a write, or the cause of the failure; such an access is never parked. -/
def State.journalAddr (s : State) (vf : Nat) (va : Word64) (n : Nat) (store : Bool) : Except Nat Nat :=
  match s.translate vf va n .engine store with
  | .ok (.byte a) => .ok a
  | .ok _ => .error Cause.access.code
  | .error e => .error e.code

def Soft.empty : Soft := ⟨[], [], 0, none⟩

/-- What is still to be written to the header at a base. -/
def Soft.owed (q : Soft) (base : Word64) : Unwritten :=
  match q.unwritten with
  | some u => if u.base = base then u else ⟨base, false, 0, 0, none⟩
  | none => ⟨base, false, 0, 0, none⟩

/-- The journal header in 20 bytes, with what is still to be written to it (R257, R258). -/
def Unwritten.header (u : Unwritten) (cap : Nat) (bs : List Byte) : Journal :=
  let ovf := !u.reset && field bs 96 1 == 1
  { base := u.base, cap := cap, known := true, owed := u, fail := none
    head := (if u.reset then 0 else field bs 0 64) + u.records
    epoch := BitVec.ofNat 32 (field bs 64 32 + u.closes)
    ovf := ovf || u.lost.isSome
    ovfep := if ovf then BitVec.ofNat 32 (field bs 128 32) else u.lost.getD 0 }

/-- The journal of a soft region: its header as memory holds it; a header that cannot be read, or that holds a marked word, leaves the
epoch that the slice last counted, and what is still to be written. -/
def State.journal (s : State) (vf : Nat) (h : Handle) (q : Soft) : Journal :=
  let cap := 64 * h.jcap - 1
  let u := q.owed h.ptr
  let lost (c : Nat) : Journal := {
    base := h.ptr, cap := cap, known := false, head := u.records, epoch := q.epoch
    ovf := u.lost.isSome, ovfep := u.lost.getD 0, owed := u, fail := some (c, h.ptr) }
  match s.journalAddr vf h.ptr 64 false with
  | .error c => lost c
  | .ok a => if (s.markAt a 20).isSome then lost Cause.softError.code else u.header cap (memGets s.mem a 20)

/-- A record lost: OVF and OVFEP are set when they are not set yet. -/
def Journal.lose (j : Journal) : Journal :=
  if j.ovf then j else { j with ovf := true, ovfep := j.epoch, owed := { j.owed with lost := some j.epoch } }

/-- A reset (R258). -/
def Journal.reset (j : Journal) : Journal :=
  { j with head := 0, ovf := false, ovfep := 0, owed := { j.owed with reset := true, records := 0, lost := none } }

/-- The first address of a close that could not be reached. -/
def Journal.failed (j : Journal) (c : Nat) (va : Word64) : Journal := { j with fail := j.fail.or (some (c, va)) }

/-- One record appended (R258): it is lost when the journal is full, when HEAD cannot be read, or when its own write fails. -/
def State.appendRecord (s : State) (vf : Nat) (j : Journal) (bytes : List Byte) : State × Journal :=
  let next (j : Journal) : Journal :=
    { j with head := (j.head + 1) % 2 ^ 64, owed := { j.owed with records := j.owed.records + 1 } }
  if j.known && decide (j.head < j.cap) then
    let va := j.base + BitVec.ofNat 64 (64 * (1 + j.head))
    match s.journalAddr vf va 64 true with
    | .ok a => ((s.writeMem .watch none [] a bytes).unmark a 64, next j)
    | .error c => (s, next (j.lose.failed c va))
  else (s, next j.lose)

/-- The epoch advances and the header is written, where it can be: what is still to be written to it stays with the slice (R258). -/
def State.writeHeader (s : State) (vf : Nat) (j : Journal) : State × Journal × Option Unwritten :=
  let j1 := { j with epoch := j.epoch + 1, owed := { j.owed with closes := j.owed.closes + 1 } }
  if j.known then
    match s.journalAddr vf j.base 64 true with
    | .error c => (s, j1.failed c j.base, some j1.owed)
    | .ok a =>
      let bytes := toBytesLE 8 j1.head ++ toBytesLE 4 j1.epoch.toNat ++ toBytesLE 4 (if j1.ovf then 1 else 0) ++
        toBytesLE 8 j1.ovfep.toNat
      ((s.writeMem .watch none [] a bytes).unmark a 24, j1, none)
  else (s, j1, some j1.owed)

/-- A journal record (R258). -/
def recordBytes (epoch : Word32) (slot lane elem k tseq : Nat) (wid : Word64) (pre w x post : Word32) : List Byte :=
  toBytesLE 4 epoch.toNat ++ toBytesLE 4 slot ++ toBytesLE 2 lane ++ toBytesLE 1 elem ++ toBytesLE 1 k ++
    toBytesLE 4 tseq ++ toBytesLE 8 wid.toNat ++ toBytesLE 4 pre.toNat ++ toBytesLE 4 w.toNat ++ toBytesLE 4 x.toNat ++
    toBytesLE 4 post.toNat ++ toBytesLE 24 0

/-! ### Applying blends (R255) -/

/-- The slot after one entry of a blend: one rounding when everything is finite, else the IEEE operations in turn. -/
def blendValue (p w x : Word32) : Word32 :=
  if (f32 p).isFinite && (f32 w).isFinite && (f32 x).isFinite then
    (rn32 (FNum.add .rn ((FNum.add .rn (f32 x) (f32 p).neg).1.mul (f32 w)).1 (f32 p))).1
  else (addRn (mulRn (subRn x p).1 w).1 p).1

/-- A blend kept in ascending order of work identifiers, after those already there with the same one (R236). -/
def insertBlend (b : Blend) : List Blend → List Blend
  | [] => [b]
  | c :: rest => if b.wid.toNat < c.wid.toNat then b :: c :: rest else c :: insertBlend b rest

/-- The order of application: ascending work identifier, then the order of entry, which for one team is its program order
and its lanes' order. -/
def sortBlends : List Blend → List Blend → List Blend
  | acc, [] => acc
  | acc, b :: rest => sortBlends (insertBlend b acc) rest

/-- What a close has done so far. -/
structure Closing where
  s : State
  j : Journal
  /-- The die for which its writes count (R367). -/
  die : Option Nat
  /-- The team and the PC of its Deferred records. -/
  who : Nat × Word64
  /-- The indices of its slot writes. -/
  view : View

/-- One entry of a blend applied by party p: the slot's write and the journal record. A slot that was marked after the blend entered
is not read: the entry is discarded with a Deferred record of the close, since the soft store has performed (R342, R360; DEDUCED,
log 118). -/
def Closing.entry (c : Closing) (p : Party) (vf : Nat) (b : Blend) (e : Nat × Nat × Word32 × Nat) : Closing :=
  let a := e.2.2.2
  if (c.s.markAt a 4).isSome then { c with s := c.s.deferred c.who.1 Cause.softError.code c.who.2 (BitVec.ofNat 64 a) }
  else
    let pre := BitVec.ofNat 32 (ofBytesLE (memGets c.s.mem a 4))
    let q := blendValue pre e.2.2.1 b.x
    let s1 := (c.s.writeMem p none [] a (toBytesLE 4 q.toNat)).countFor c.s.nextWrite c.die
    let (s2, j) := s1.appendRecord vf c.j
      (recordBytes c.j.epoch e.1 b.lane b.elem e.2.1 b.tseq b.wid pre e.2.2.1 b.x q)
    { c with s := s2, j := j, view := s2.raiseLatest c.view a 4 }

def Closing.blend (c : Closing) (p : Party) (vf : Nat) (b : Blend) : Closing :=
  b.entries.foldl (fun c e => c.entry p vf b e) c

/-- The close move of the region whose entry is at byte address a, with handle h of context vf (R236, R258): the state, the
indices of its slot writes, the number of the closed epoch. Its writes count for a die (R367); a close that lost a journal write leaves
one Deferred record of the team and PC given (R258, R360). -/
def State.closeEpoch (s : State) (p : Party) (die : Option Nat) (who : Nat × Word64) (vf a : Nat) (h : Handle) (jrst : Bool) :
    State × View × Word32 :=
  let q := tabGet s.soft a Soft.empty
  let j0 := s.journal vf h q
  let j1 := if jrst then j0.reset else j0
  let c : Closing := (sortBlends [] q.blends).foldl (fun (c : Closing) b => c.blend p vf b) ⟨s, j1, die, who, []⟩
  let (s1, j2, u) := c.s.writeHeader vf c.j
  let s2 := match j2.fail with
    | some (cause, va) => s1.deferred who.1 cause who.2 va
    | none => s1
  ({ s2 with soft := tabSet s2.soft a ⟨[], [], j2.epoch, u⟩ }, c.view, j1.epoch)

/-! ### Bindings (R237, R256, R269) -/

/-- The binding of a region as it stands: group and barrier. -/
def State.binding (s : State) (a : Nat) : Option (Nat × Nat) := ((tabGet s.bindings a []).headD none)

/-- A read of the binding by a party: one not below its floor (R269). -/
def State.readBinding (s : State) (p : Party) (a : Nat) : Option (Nat × Nat) × State :=
  let l := bindLoc a
  let i := match s.picks with
    | [] => s.latest l
    | n :: _ => Nat.max ((s.pv p).floorAt l) (s.latest l - n)
  let v := s.pv p
  (nth none (tabGet s.bindings a []) (s.latest l - i),
    { s.setPv p { v.gain none (s.msgsAt l i) with o := viewRaise v.o l i } with picks := s.picks.drop 1 })

/-- The barrier of a binding is that of a group that has not retired: another binding has ended (R256). -/
def State.boundLive (s : State) (bar : Option (Nat × Nat)) : Option (Nat × Nat) :=
  bar.filter fun b => (tabGet? s.groups b.1).elim false fun g => !g.retired

/-- The epochs of the regions bound to barrier k of group g closed, with the indices of their slot writes (R237); the Deferred
records of such a close are those of the group's first team (R258). Several regions close in the order of the table of bindings, that of
their entries' addresses (DESIGN CHOICE, log 123: no rule orders the closes of one phase completion, and regions may share slots). -/
def State.closeBound (s : State) (g k : Nat) : State × View :=
  match tabGet? s.groups g with
  | none => (s, [])
  | some gr =>
    let vf := (tabGet? s.launches gr.launch).elim 0 (·.vf)
    (s.bindings.filter fun b => b.2.headD none == some (g, k)).foldl (fun (acc : State × View) b =>
      let h := Handle.ofBytes (acc.1.entryNow b.1)
      if h.type = 3 then
        let (s1, v, _) := acc.1.closeEpoch .watch (gr.core.map (· / 256)) (gr.teams.headD 0, 0) vf b.1 h false
        (s1, viewJoin acc.2 v)
      else acc) (s, [])

/-! ### Arrivals (R174, R229) -/

def Barrier.fresh (teams : Nat) : Barrier where
  expect := BitVec.ofNat 16 teams
  arrived := 0
  gen := 0
  faultC := false
  faultL := false
  collecting := []
  phases := []
  turns := 0

/-- The barrier k of a group. -/
def Group.barrier (g : Group) (k : Nat) : Barrier := nth (Barrier.fresh 1) g.barriers k

def Group.setBarrier (g : Group) (k : Nat) (b : Barrier) : Group := { g with barriers := putAt (Barrier.fresh 1) g.barriers k b }

/-- Generation g is at or past the target (R176). -/
def reached (g target : BitVec 32) : Bool := !(g - target).getLsbD 31

/-- The status word of BARW and BARS (R177). -/
def Barrier.status (b : Barrier) : Word64 :=
  BitVec.ofNat 64 (b.gen.toNat * 2 ^ 32 + (if b.faultL then 2 ^ 16 else 0) + b.expect.toNat)

/-- The join of the phase views completed up to a target. -/
def Barrier.upTo (b : Barrier) (target : BitVec 32) : View :=
  b.phases.foldl (fun v p => if reached target p.1 then viewJoin v p.2 else v) []

/-- A team released from barrier k of group g for its target: it has acquired at group scope, and its target is empty. -/
def Team.release (tm : Team) (g k : Nat) (b : Barrier) (target : BitVec 32) : Team :=
  { tm with
    targets := putAt none tm.targets k none
    pv := tm.pv.acquire (.group g) (b.upTo target) }

/-- Every team that waits on barrier k and whose target is reached is released (R174). -/
def State.releaseWaiters (s : State) (g k : Nat) (b : Barrier) : State :=
  ((tabGet? s.groups g).elim [] (·.teams)).foldl (fun s t => s.onTeam t fun tm =>
    match tm.stall, nth none tm.targets k with
    | .barrier j none, some target =>
      if j = k ∧ reached b.gen target then { tm.release g k b target with stall := .barrier k (some b.status) } else tm
    | _, _ => tm) s

/-- The next arrival at barrier k of group g completes its phase, and a swap holds what the closes of its move work on: it waits
(R196, R237). -/
def State.arrivalHeld (s : State) (g k : Nat) : Bool :=
  s.held != [] && (tabGet? s.groups g).elim false fun gr =>
    (gr.barrier k).arrived + 1 == (gr.barrier k).expect && s.bindings.any fun b =>
      let h := Handle.ofBytes (s.entryNow b.1)
      b.2.headD none == some (g, k) && (s.swapping b.1 64 ||
        (h.type == 3 && s.regionHeld ((tabGet? s.launches gr.launch).elim 0 (·.vf)) h))

/-- One arrival at barrier k of group g, with the view that it contributes (R174, R229). -/
def State.arrive (s : State) (g k : Nat) (v : View) (fault : Bool) : State :=
  match tabGet? s.groups g with
  | none => s
  | some gr =>
    let b := gr.barrier k
    let b1 := { b with arrived := b.arrived + 1, collecting := viewJoin b.collecting v, faultC := b.faultC || fault }
    if b1.arrived = b1.expect then
      let (s1, closed) := s.closeBound g k
      let b2 := { b1 with
        faultL := b1.faultC
        faultC := false
        arrived := 0
        gen := b1.gen + 1
        collecting := []
        turns := 0
        phases := (b1.gen + 1, viewJoin b1.collecting closed) :: b1.phases }
      (s1.onGroup g fun gr => gr.setBarrier k b2).releaseWaiters g k b2
    else s.onGroup g fun gr => gr.setBarrier k b1

end Sys2Proof.Machine
end

