-- ==== Sys2Proof/Machine/Barriers.lean ====
section
/-! DEFINITION. The barrier instructions (R173 to R178). -/

namespace Sys2Proof.Machine

/-- The barrier that the A operand names. -/
def barUse (w : RWord) : Use :=
  { letter := .a, opd := w.a, want := { b := true }, read := true, md := w.ma, fe := w.fea }

/-- The status destination of BARW and BARS: an s register or none. -/
def statusUse (w : RWord) : Use := { letter := .d, opd := w.d, want := wantSN, write := true }

/-- The uses of BARI. -/
def usesBari (w : RWord) : List Use :=
  [barUse w, { letter := .b, opd := w.b, want := wantSN, read := true, md := w.mb, fe := w.feb }, unused .c w.mc w.fec]

/-- The uses of BARA, and those of BARW and BARS with their destination. -/
def usesBar (w : RWord) (d : List Use) : List Use := [barUse w, unused .b w.mb w.feb, unused .c w.mc w.fec] ++ d

/-- The barrier named, of the issuing team's group. -/
def State.barrierOf (s : State) (r : Ready) (k : Nat) : Barrier :=
  (s.groupOfTeam r.tm).elim (Barrier.fresh 1) (·.barrier k)

/-- BARI (R176). -/
def execBari (p : Pred) (w : RWord) (s : State) : Host.Outcome State Fault Refusal :=
  s.instruct p (usesBari w) (fun _ => true) fun r => do
    let k := w.a.num.toNat
    let b := s.barrierOf r k
    let e : Word64 := match w.b.cls with
      | .s => r.tm.sGet w.b.num.toNat
      | _ => w.simm.setWidth 64
    ensure (e.extractLsb' 0 16 != 0 && e.extractLsb' 16 48 == 0 && b.arrived == 0) .illegalOperand
    .ok ((s.onGroup r.tm.group fun g => g.setBarrier k { b with expect := e.setWidth 16 }).setTeam r.t r.tm.advance)

/-- The arrival of a team at a barrier: its target is the phase it arrives in (R176, R229). -/
def State.teamArrives (s : State) (r : Ready) (k : Nat) : State :=
  let target := (s.barrierOf r k).gen + 1
  (s.onTeam r.t fun tm => { tm with targets := putAt none tm.targets k (some target) }).arrive r.tm.group k
    (r.tm.pv.released (.group r.tm.group)) false

/-- BARA (R176, R178); an arrival waits for a swap that holds what the closes of its move work on (R196). -/
def execBara (p : Pred) (w : RWord) (s : State) : Host.Outcome State Fault Refusal :=
  s.instruct p (usesBar w [unused .d]) (fun _ => true) fun r => do
    waitFor (s.drained r.t && !s.arrivalHeld r.tm.group w.a.num.toNat) .other
    .ok ((s.teamArrives r w.a.num.toNat).onTeam r.t Team.advance)

/-- The team past its wait, with its status word in D; it keeps the word while a producer is pending on D (R13). -/
def State.leaveBarrier (s : State) (t k : Nat) (d : Opd) (word : Word64) : State :=
  match tabGet? s.teams t, d.cls with
  | none, _ => s
  | some tm, .s =>
    if tm.isEmpty (.s d.num.toNat) then s.setTeam t { tm with stall := .barrier k (some word) }
    else (s.setTeam t (tm.sSet d.num.toNat word).advance).clearRegMarks tm [.s d.num.toNat]
  | some tm, _ => s.setTeam t tm.advance

/-- The wait of BARW and BARS: released already, released now, or waiting for the target (R176). -/
def State.awaitBarrier (s : State) (r : Ready) (k : Nat) (d : Opd) : Result :=
  match (tabGet? s.teams r.t) with
  | none => .ok s
  | some tm =>
    let b := s.barrierOf r k
    let target := (nth none tm.targets k).getD (b.gen + 1)
    if reached b.gen target then
      .ok ((s.setTeam r.t (tm.release r.tm.group k b target)).leaveBarrier r.t k d b.status)
    else
      .ok (s.setTeam r.t { tm with targets := putAt none tm.targets k (some target), stall := .barrier k none })

/-- A BARW or BARS that waits goes on where it is: its predicate was tested before its wait (R20, R176). -/
def State.resumeBarrier (s : State) (d : Opd) (start : Host.Outcome State Fault Refusal) : Host.Outcome State Fault Refusal :=
  match s.current with
  | none => start
  | some (t, tm) => match tm.stall with
    | .barrier k (some word) => .next (s.leaveBarrier t k d word)
    | .barrier k none => s.run fun t tm => s.awaitBarrier ⟨t, tm, 0, []⟩ k d
    | _ => start

/-- BARW (R176, R177). -/
def execBarw (p : Pred) (w : RWord) (s : State) : Host.Outcome State Fault Refusal :=
  s.resumeBarrier w.d (s.instruct p (usesBar w [statusUse w]) (fun _ => true) fun r => s.awaitBarrier r w.a.num.toNat w.d)

/-- BARS (R176, R177). -/
def execBars (p : Pred) (w : RWord) (s : State) : Host.Outcome State Fault Refusal :=
  s.resumeBarrier w.d (s.instruct p (usesBar w [statusUse w]) (fun _ => true) fun r => do
    waitFor (s.drained r.t && !s.arrivalHeld r.tm.group w.a.num.toNat) .other
    (s.teamArrives r w.a.num.toNat).awaitBarrier r w.a.num.toNat w.d)

end Sys2Proof.Machine
end

