-- ==== Sys2Proof/Machine/Control.lean ====
section
/-! DEFINITION. Control transfers (R124 to R127, R139 to R142, R302). -/

namespace Sys2Proof.Machine

/-- An s register operand that is read and has no FE bit. -/
def sUse (l : Letter) (o : Opd) : Use := { letter := l, opd := o, want := wantS, read := true }

/-- The PC at a target offset, or the Misaligned trap of a malformed one (R15, R77). -/
def targetOrTrap (pc : Word64) (off : Int) : Except (LaneSet × Stop) Word64 :=
  match targetPc pc off with
  | .ok p => .ok p
  | .error p => stop (Stop.at .misaligned p)

/-- A PC taken from a register, or the Misaligned trap of a malformed one (R15). -/
def pcOrTrap (pc : Word64) : Except (LaneSet × Stop) Word64 :=
  if badPc pc then stop (Stop.at .misaligned pc) else .ok pc

/-- A checked transfer of the issuing team to the target at an offset (R18). -/
def State.branch (s : State) (r : Ready) (tm : Team) (off : BitVec 33) : Result := do
  let pc ← targetOrTrap r.tm.pc off.toInt
  .ok (s.setTeam r.t (tm.goto pc true false))

/-- The team at its next instruction. -/
def State.pass (s : State) (r : Ready) (tm : Team) : Result := .ok (s.setTeam r.t tm.advance)

/-- What a quantifier says of the active lanes and a mask (R125, R167). -/
def Quant.holds (q : Quant) (lanes : List Nat) (m : LaneSet) : Bool :=
  match q with
  | .any => lanes.any m.getLsbD
  | .all => lanes.all m.getLsbD
  | .none => !lanes.any m.getLsbD

/-- BRA (R125). -/
def execBra (p : Pred) (target : BitVec 33) (s : State) : Host.Outcome State Fault Refusal :=
  s.instruct p [] (fun _ => true) fun r => s.branch r r.tm target

/-- BRC (R125). -/
def execBrc (p : Pred) (q : Sys2Proof.Quant) (target : BitVec 33) (a : Opd) (s : State) :
    Host.Outcome State Fault Refusal :=
  s.instruct p [mUse .a a .plain false] (fun _ => true) fun r =>
    if Quant.holds q r.lanes (r.tm.mask a.num.toNat) then s.branch r r.tm target else s.pass r r.tm

/-- JMP (R125). -/
def execJmp (p : Pred) (a : Opd) (s : State) : Host.Outcome State Fault Refusal :=
  s.instruct p [sUse .a a] (fun _ => true) fun r => do
    let pc ← pcOrTrap (r.tm.sGet a.num.toNat)
    .ok (s.setTeam r.t (r.tm.goto pc true false))

/-- CALL (R125). -/
def execCall (p : Pred) (target : BitVec 33) (a : Opd) (s : State) : Host.Outcome State Fault Refusal :=
  s.instruct p [{ letter := .a, opd := a, want := wantS, write := true }] (fun _ => true) fun r => do
    let s1 ← s.branch r (r.tm.sSet a.num.toNat (nextPc r.tm.pc)) target
    destsReady r.tm [.s a.num.toNat]
    .ok (s1.clearRegMarks r.tm [.s a.num.toNat])

/-- RET (R125). -/
def execRet (p : Pred) (a : Opd) (s : State) : Host.Outcome State Fault Refusal :=
  s.instruct p [sUse .a a] (fun _ => true) fun r => do
    let pc ← pcOrTrap (r.tm.sGet a.num.toNat)
    .ok (s.setTeam r.t (r.tm.goto pc true false))

/-- LOOP (R125). -/
def execLoop (p : Pred) (target : BitVec 33) (a : Opd) (s : State) : Host.Outcome State Fault Refusal :=
  s.instruct p [{ sUse .a a with write := true }] (fun _ => true) fun r =>
    let n := r.tm.sGet a.num.toNat
    if n = 0 then s.pass r r.tm
    else
      let tm := r.tm.sSet a.num.toNat (n - 1)
      if n = 1 then s.pass r tm else s.branch r tm target

/-! ### Divergence (R126, R139 to R141) -/

/-- Entries of the reconvergence stack (R139). -/
def stackDepth (lanes : Nat) : Nat :=
  if lanes ≤ 128 then 32 else if lanes ≤ 256 then 24 else if lanes ≤ 512 then 14 else 7

/-- The resumption of R141 from a stack: the team at the first entry with a live lane, or ended. -/
def Team.resume (tm : Team) : List StackEntry → Team
  | [] => { tm with stack := [], phase := .ended }
  | e :: rest =>
    let live := e.mask &&& ~~~ tm.x
    if live = 0 then tm.resume rest
    else { (tm.goto (if e.pending then e.pc else nextPc e.pc) false true) with stack := rest, e := live }

/-- BRD (R126, R140): both PCs are formed whether or not a lane takes the branch, the taken target first, so that it is the detail
where both are malformed (DEDUCED, log 31). -/
def execBrd (target : BitVec 33) (a : Opd) (rcv : BitVec 30) (s : State) : Host.Outcome State Fault Refusal :=
  s.instruct ⟨false, 0⟩ [mUse .a a .plain false] (fun _ => true) fun r => do
    let tgt ← targetOrTrap r.tm.pc target.toInt
    let back ← targetOrTrap r.tm.pc rcv.toInt
    ensure (decide (r.tm.stack.length + 2 ≤ stackDepth r.tm.lanes)) .illegalOperand
    let m := r.tm.mask a.num.toNat
    let t := r.act &&& m
    let f := r.act &&& ~~~ m
    let tm := { r.tm with stack := ⟨false, back, r.act⟩ :: r.tm.stack }
    if t = 0 then s.pass r tm
    else if f = 0 then .ok (s.setTeam r.t (tm.goto tgt true false))
    else .ok (s.setTeam r.t { (tm.goto tgt true false) with e := t, stack := ⟨true, nextPc r.tm.pc, f⟩ :: tm.stack })

/-- JOIN (R126, R141); a reconvergence block that has been changed raises Illegal-Operand (R348). -/
def execJoin (s : State) : Host.Outcome State Fault Refusal :=
  s.instruct ⟨false, 0⟩ [] (fun _ => true) fun r => do
    ensure r.tm.block.isNone .illegalOperand
    match r.tm.stack with
    | [] => trapPlain .illegalOperand
    | e :: rest =>
      if !e.pending && e.pc != r.tm.pc then trapPlain .illegalOperand
      else
        let live := e.mask &&& ~~~ r.tm.x
        if live = 0 then .ok (s.setTeam r.t (r.tm.resume rest))
        else
          .ok (s.setTeam r.t { (r.tm.goto (if e.pending then e.pc else nextPc r.tm.pc) false true) with
            stack := rest, e := live })

/-- EXIT (R127, R141); the resumption finds a changed reconvergence block as JOIN does (R348). -/
def execExit (p : Pred) (s : State) : Host.Outcome State Fault Refusal :=
  s.instruct p [] (fun _ => true) fun r =>
    let tm := { r.tm with x := r.tm.x ||| r.act }
    if tm.e &&& ~~~ tm.x ≠ 0 then s.pass r tm
    else do
      ensure r.tm.block.isNone .illegalOperand
      .ok (s.setTeam r.t (tm.resume tm.stack))

/-! ### PICK (R302, R325) -/

/-- The die on which a team's group is bound. -/
def State.teamDie (s : State) (tm : Team) : Nat := (((s.groupOfTeam tm).bind Group.core).getD 0) / 256

/-- PICK (R302). -/
def execPick (p : Pred) (target : BitVec 33) (s : State) : Host.Outcome State Fault Refusal :=
  s.instruct p [] (fun _ => true) fun r =>
    if r.tm.pickthr.toNat ≤ tabGet s.bwmon (s.teamDie r.tm) 0 then s.branch r r.tm target else s.pass r r.tm

end Sys2Proof.Machine
end

