-- ==== Sys2Proof/Machine/Lanes.lean ====
section
/-! DEFINITION. Instructions across the lanes of a team, and SPAWN (R162 to R172). -/

namespace Sys2Proof.Machine

/-! ### The shared shapes -/

/-- A v source read in the lanes that who names; no modifier is admitted (R162). -/
def laneUse (l : Letter) (t : Ty) (o : Opd) (w : Want) (md : Modifier) (fe : Bool) (who : Who) : Use :=
  { letter := l, opd := o, want := w, read := true, pair := t.is64, md := md, fe := fe, who := who }

/-- The bits of a v source at a type, in any lane. -/
def Team.lane (tm : Team) (t : Ty) (o : Opd) (l : Nat) : Nat := tm.bitsOf t o .plain l

/-! ### SLIDE, SHFL, BCAST (R163 to R165) -/

/-- The elements that one lane holds at a type (R163). -/
def Ty.perLane (t : Ty) : Nat := if t.is64 then 1 else 32 / slideWidth t
where
  /-- The element width of SLIDE; TAP6 takes 8 bits of a register. -/
  slideWidth (t : Ty) : Nat := if t = .tap6 then 8 else t.bits

/-- Element e of a v register read as one sequence (R163). -/
def Team.elem (tm : Team) (t : Ty) (o : Opd) (e : Nat) : Nat :=
  if t.is64 then (tm.pairGet o.num.toNat e).toNat
  else
    let n := Ty.perLane.slideWidth t
    (tm.vGet o.num.toNat (e / Ty.perLane t)).toNat / 2 ^ (n * (e % Ty.perLane t)) % 2 ^ n

/-- Element j of the fill register, or zero past its end. -/
def fillElem (t : Ty) (b : Word64) (j : Nat) : Nat :=
  let n := Ty.perLane.slideWidth t
  if 64 / n ≤ j then 0 else b.toNat / 2 ^ (n * j) % 2 ^ n

/-- The value of element e after SLIDE by d (R163); a 64-bit type has one element for each lane (DEDUCED, log 98). -/
def Team.slid (tm : Team) (down : Bool) (t : Ty) (a : Opd) (b : Word64) (d e : Nat) : Nat :=
  let total := tm.lanes * Ty.perLane t
  if down then
    if e + d < total then tm.elem t a (e + d) else fillElem t b (e + d - total)
  else if d ≤ e then tm.elem t a (e - d) else fillElem t b e

/-- The elements of a lane as one register value. -/
def joinElems (n : Nat) : List Nat → Nat
  | [] => 0
  | x :: rest => x + 2 ^ n * joinElems n rest

/-- The uses of SLIDE. -/
def usesSlide (t : Ty) (w : RWord) : List Use :=
  [laneUse .a t w.a wantV w.ma w.fea .every,
    { letter := .b, opd := w.b, want := wantS, read := true, md := w.mb, fe := w.feb },
    unused .c w.mc w.fec,
    { letter := .d, opd := w.d, want := wantV, write := true, pair := t.is64 }]

/-- SLIDE (R163); a TAP6 element is written with bits 7 and 6 as copies of bit 5 (R49). -/
def execSlide (p : Pred) (down : Bool) (t : Ty) (w : RWord) (s : State) : Host.Outcome State Fault Refusal :=
  s.lanewise p (if t.is64 then t else .n32) w.d (usesSlide t w) fun tm l =>
    let n := Ty.perLane t
    let es := (List.range n).map fun i =>
      let x := tm.slid down t w.a (tm.sGet w.b.num.toNat) w.simm.toNat (l * n + i)
      if t = .tap6 then tapByte x else x
    (joinElems (Ty.perLane.slideWidth t) es, 0)

/-- The uses of SHFL. -/
def usesShfl (t : Ty) (w : RWord) : List Use :=
  [laneUse .a t w.a wantV w.ma w.fea .every, laneUse .b .n32 w.b wantVS w.mb w.feb .active, unused .c w.mc w.fec,
    { letter := .d, opd := w.d, want := wantV, write := true, pair := t.is64 }]

/-- SHFL (R164). -/
def execShfl (p : Pred) (byXor : Bool) (t : Ty) (w : RWord) (s : State) : Host.Outcome State Fault Refusal :=
  s.lanewise p t w.d (usesShfl t w) fun tm l =>
    let j := (tm.word w.b .plain l).toNat % tm.lanes
    (tm.lane t w.a (if byXor then l ^^^ j else j), 0)

/-- The uses of BCAST. -/
def usesBcast (t : Ty) (w : RWord) : List Use :=
  [laneUse .a t w.a wantV w.ma w.fea .every,
    { letter := .b, opd := w.b, want := wantSN, read := true, md := w.mb, fe := w.feb }, unused .c w.mc w.fec, dUse t w.d]

/-- A source lane given as a number lies in the team (R165). -/
def bcastOk (w : RWord) (tm : Team) : Bool := w.b.cls == .s || decide (w.simm.toNat < tm.lanes)

/-- BCAST (R165). -/
def execBcast (p : Pred) (t : Ty) (w : RWord) (s : State) : Host.Outcome State Fault Refusal :=
  s.alu p (usesBcast t w) (bcastOk w) fun r =>
    let src := if w.b.cls == .s then (r.tm.sGet w.b.num.toNat).toNat % r.tm.lanes else w.simm.toNat
    .ok ((r.results w.d).foldl (fun tm l => tm.put t w.d l (r.tm.lane t w.a src)) r.tm)

/-! ### REDL and SCANL (R166) -/

/-- One step of a prefix: the exact integer so far or the bits so far, with the next operand. -/
def prefixStep (op : RedOp) (t : Ty) (rm : Rm) (acc : Int) (x : Nat) : Int × Flags :=
  if t.isFlt then
    match op with
    | .min => let (c, f) := floatMinMax (tyFmt t) false acc.toNat x; (c, f)
    | .max => let (c, f) := floatMinMax (tyFmt t) true acc.toNat x; (c, f)
    | _ =>
      let (v, f) := FNum.add rm ((tyFmt t).decode acc.toNat) ((tyFmt t).decode x)
      let (c, g) := (tyFmt t).round rm false v
      (c, f ||| g)
  else
    let y := intOf t.isSigned t.bits x
    match op with
    | .add => (acc + y, 0)
    | .min => (Min.min acc y, 0)
    | .max => (Max.max acc y, 0)
    | .and => (acc.toNat &&& x, 0)
    | .or => (acc.toNat ||| x, 0)
    | .xor => (acc.toNat ^^^ x, 0)

/-- The first value of a prefix: an integer, the bits of a bitwise operand, or an element with a NaN made canonical. -/
def prefixStart (op : RedOp) (t : Ty) (x : Nat) : Int × Flags :=
  if t.isFlt then
    let v := (tyFmt t).decode x
    (if v.isNan then (tyFmt t).canonNan else x, sigFlag v)
  else match op with
    | .and | .or | .xor => ((x : Int), 0)
    | _ => (intOf t.isSigned t.bits x, 0)

/-- The prefixes P(1), P(2), … of a list of operands, each with the flags of its own step. -/
def prefixes (op : RedOp) (t : Ty) (rm : Rm) : List Nat → List (Int × Flags)
  | [] => []
  | x :: rest => prefixStart op t x :: go (prefixStart op t x).1 rest
where
  go (acc : Int) : List Nat → List (Int × Flags)
    | [] => []
    | x :: rest => prefixStep op t rm acc x :: go (prefixStep op t rm acc x).1 rest

/-- A prefix as the bits that its lane receives, with the SAT flag of a clamp. -/
def prefixBits (op : RedOp) (t : Ty) (sat : Bool) (v : Int) : Nat × Flags :=
  if t.isFlt then (v.toNat, 0)
  else match op with
    | .add => fitInt t.isSigned t.bits sat v
    | _ => (wrapBits t.bits v, 0)

/-- The identity of a scan (R166). -/
def scanIdentity (op : RedOp) (t : Ty) : Nat :=
  if t.isFlt then
    match op with
    | .min => ((tyFmt t).infinite false false).1
    | .max => ((tyFmt t).infinite false true).1
    | _ => ((tyFmt t).round .rn false (.fin true 0 1)).1
  else
    match op with
    | .min => wrapBits t.bits (intMax t.isSigned t.bits)
    | .max => wrapBits t.bits (intMin t.isSigned t.bits)
    | .and => 2 ^ t.bits - 1
    | _ => 0

/-- The uses of REDL; those of SCANL want a v destination. -/
def usesRedl (t : Ty) (w : RWord) (d : Use) : List Use :=
  [laneUse .a t w.a wantVS w.ma w.fea .eachActive, unused .b w.mb w.feb, unused .c w.mc w.fec, d]

/-- REDL (R166). -/
def execRedl (p : Pred) (op : RedOp) (t : Ty) (w : RWord) (s : State) : Host.Outcome State Fault Refusal :=
  s.alu p (usesRedl t w (dUse t w.d)) (fun _ => true) fun r =>
    let ps := prefixes op t (r.tm.mode w.rm) (r.lanes.map (r.tm.lane t w.a))
    let x := prefixBits op t w.sat (ps.getLastD (0, 0)).1
    let f := ps.foldl (fun f q => f ||| q.2) x.2
    .ok ((r.results w.d).foldl (fun tm l => (tm.put t w.d l x.1).raise f) r.tm)

/-- The destination of SCANL. -/
def scanDest (t : Ty) (w : RWord) : Use := { letter := .d, opd := w.d, want := wantV, write := true, pair := t.is64 }

/-- SCANL (R166). The exclusive form shifts the prefixes by one lane, so the step of the last lane is not made. -/
def execScanl (p : Pred) (op : RedOp) (excl : Bool) (t : Ty) (w : RWord) (s : State) :
    Host.Outcome State Fault Refusal :=
  s.alu p (usesRedl t w (scanDest t w)) (fun _ => true) fun r =>
    let xs := r.lanes.map (r.tm.lane t w.a)
    let ps := prefixes op t (r.tm.mode w.rm) (if excl then xs.dropLast else xs)
    let bits := ps.map fun q => let x := prefixBits op t w.sat q.1; (x.1, x.2 ||| q.2)
    let out := if excl then (scanIdentity op t, 0) :: bits else bits
    .ok ((r.lanes.zip out).foldl (fun tm x => (tm.put t w.d x.1 x.2.1).raise x.2.2) r.tm)

/-! ### VOTE, ELECT, WIDF, MSK (R167 to R170) -/

/-- The uses of VOTE. -/
def usesVote (op : VoteOp) (w : RWord) : List Use :=
  let _ := op
  [{ letter := .a, opd := w.a, want := { v := true, m := true }, read := true, md := w.ma, fe := w.fea, who := .eachActive },
    unused .b w.mb w.feb, unused .c w.mc w.fec,
    { letter := .d, opd := w.d, want := { s := true, m := true }, write := true }]

/-- The truth of each lane of a VOTE source. -/
def Team.truth (tm : Team) (o : Opd) : LaneSet :=
  match o.cls with
  | .m => tm.mask o.num.toNat
  | _ => (List.range tm.lanes).foldl (fun ls l => laneSet ls l (tm.vGet o.num.toNat l != 0)) 0

/-- VOTE (R167). -/
def execVote (p : Pred) (op : VoteOp) (w : RWord) (s : State) : Host.Outcome State Fault Refusal :=
  s.alu p (usesVote op w) (fun tm => wordOk tm) fun r =>
    let truth := r.tm.truth w.a
    match op with
    | .ballot => match w.d.cls with
      | .m => .ok (r.tm.setMask w.d.num.toNat (truth &&& r.act))
      | _ => .ok (r.tm.sSet w.d.num.toNat (((truth &&& r.act).extractLsb' (32 * w.simm.toNat) 32).setWidth 64))
    | .quant q =>
      let b := match q with
        | .any => r.lanes.any truth.getLsbD
        | .all => r.lanes.all truth.getLsbD
        | .none => !r.lanes.any truth.getLsbD
      match w.d.cls with
      | .m =>
        let old := r.tm.mask w.d.num.toNat
        .ok (r.tm.setMask w.d.num.toNat (if b then old ||| r.act else old &&& ~~~ r.act))
      | _ => .ok (r.tm.sSet w.d.num.toNat (if b then 1 else 0))
where
  wordOk (tm : Team) : Bool := w.d.cls != .s || decide (w.simm.toNat < tm.words)

/-- The uses of ELECT. -/
def usesElect (w : RWord) : List Use :=
  [unused .a w.ma w.fea, unused .b w.mb w.feb, unused .c w.mc w.fec,
    { letter := .d, opd := w.d, want := { v := true, s := true, m := true }, write := true }]

/-- ELECT (R168). -/
def execElect (p : Pred) (w : RWord) (s : State) : Host.Outcome State Fault Refusal :=
  s.alu p (usesElect w) (fun _ => true) fun r =>
    match w.d.cls with
    | .m =>
      let old := r.tm.mask w.d.num.toNat
      .ok (r.tm.setMask w.d.num.toNat ((old &&& ~~~ r.act) ||| laneBit r.low))
    | _ => .ok ((r.results w.d).foldl (fun tm l => tm.put .n32 w.d l r.low) r.tm)

/-- The work identifier of a lane (R143, R153). -/
def Team.laneWid (tm : Team) (w0 l : Nat) : Word64 :=
  match tm.packed with
  | some ws => nth 0 ws l
  | none => if w0 = 0 then tm.wid else tm.wid + BitVec.ofNat 64 l

/-- Field i of a work identifier cut by the widths (R143). -/
def widField (widths : List Nat) (wid : Word64) (i : Nat) : Nat :=
  wid.toNat / 2 ^ ((widths.take i).foldl (· + ·) 0) % 2 ^ nth 0 widths i

/-- The value that WIDF reads for a lane (R169). -/
def widValue (la : Launch) (tm : Team) (i l : Nat) : Nat :=
  let wid := tm.laneWid (nth 0 la.widths 0) l
  if i = 8 then tm.lanes
  else if tm.packed.isSome then (if i = 0 then wid.toNat else if i ≤ 5 then 0 else 1)
  else if i ≤ 5 then widField la.widths wid i
  else if i = 9 then la.tpg
  else if i = 10 then la.gpg
  else if nth 0 la.widths (i - 8) = 0 then 1
  else nth 1 la.counts (i - 11)

/-- The uses of WIDF. -/
def usesWidf (t : Ty) (w : RWord) : List Use :=
  [unused .a w.ma w.fea, unused .b w.mb w.feb, unused .c w.mc w.fec, dUse t w.d]

/-- WIDF (R169). -/
def execWidf (p : Pred) (t : Ty) (w : RWord) (s : State) : Host.Outcome State Fault Refusal :=
  s.alu p (usesWidf t w) (fun _ => true) fun r =>
    .ok ((r.results w.d).foldl (fun tm l =>
      tm.put t w.d l ((s.launchOf r.tm).elim 0 fun la => widValue la r.tm w.simm.toNat l)) r.tm)

/-- The uses of MSK. -/
def usesMsk (op : MskOp) (w : RWord) : List Use :=
  [mUse .a w.a w.ma w.fea, if op = .not then unused .b w.mb w.feb else mUse .b w.b w.mb w.feb, unused .c w.mc w.fec,
    mdUse w.d]

/-- MSK (R170). -/
def execMsk (p : Pred) (op : MskOp) (w : RWord) (s : State) : Host.Outcome State Fault Refusal :=
  s.alu p (usesMsk op w) (fun _ => true) fun r =>
    let a := r.tm.mask w.a.num.toNat
    let b := r.tm.mask w.b.num.toNat
    let x := match op with
      | .and => a &&& b
      | .or => a ||| b
      | .xor => a ^^^ b
      | .andn => a &&& ~~~ b
      | .not => ~~~ a
    let old := r.tm.mask w.d.num.toNat
    .ok (r.tm.setMask w.d.num.toNat ((old &&& ~~~ r.act) ||| (x &&& r.act)))

/-! ### SPAWN (R148 to R150, R171, R172) -/

/-- Items a spawn queue holds that are not yet packed (R149). -/
def spawnRoom : Nat := 4096

/-- A spawn queue has room for so many items (R149, R171). -/
def SpawnQueue.room (q : SpawnQueue) (n : Nat) : Bool := decide (q.items.length + n ≤ spawnRoom)

/-- The uses of SPAWN. -/
def usesSpawn (w : XWord) : List Use :=
  let n := w.imm 7 4
  [{ letter := .a, opd := w.a, want := wantS, read := true },
    if n = 0 then unused .b else { letter := .b, opd := w.b, want := wantV, read := true, span := n, who := .eachActive }]

/-- The queue of a launch that a SPAWN names, when it is enabled. -/
def State.spawnQueue (s : State) (tm : Team) (q : Nat) : Option SpawnQueue :=
  (s.launchOf tm).bind fun la => tabGet? la.spawn q

/-- The item of a lane. -/
def Team.item (tm : Team) (w : XWord) (pc : Word64) (rel : View) (seq : Word64) (l : Nat) : Item where
  pc := pc
  payload := (List.range (w.imm 7 4)).map fun i => tm.vGet (w.b.num.toNat + i) l
  seq := seq
  rel := rel

/-- SPAWN (R171, R172): a release at package scope, so it follows every earlier access of its team. -/
def execSpawn (p : Pred) (w : XWord) (s : State) : Host.Outcome State Fault Refusal :=
  s.instruct p (usesSpawn w) (fun tm => (s.spawnQueue tm (w.imm 3 0)).isSome) fun r => do
    let pc := r.tm.sGet w.a.num.toNat
    if badPc pc then stop (Stop.at .misaligned pc)
    else match s.spawnQueue r.tm (w.imm 3 0) with
      | none => trapPlain .illegalOperand
      | some q =>
        waitFor (s.drained r.t) .other
        waitFor (q.room r.lanes.length) (.spawn (w.imm 3 0) r.lanes.length)
        let rel := r.tm.pv.released .package
        let items := (List.range r.lanes.length).map fun i =>
          r.tm.item w pc rel (q.counter + BitVec.ofNat 64 i) (nth 0 r.lanes i)
        let q1 := { q with
          items := q.items ++ items
          counter := q.counter + BitVec.ofNat 64 r.lanes.length }
        .ok ((s.onLaunch r.tm.launch fun la => { la with spawn := tabSet la.spawn (w.imm 3 0) q1 }).setTeam r.t
          (r.tm.finish true))

end Sys2Proof.Machine
end

