-- ==== Sys2Proof/Machine/System.lean ====
section
/-! DEFINITION. System instructions: TRAP, ERET, SRD, SWR with error injection, TMASK, BKPT, ECLW, LAUNCH, YIELD (R9, R10,
R129 to R131, R345, R346, R362, R366). -/

namespace Sys2Proof.Machine

/-! ### TRAP, BKPT, ERET, TMASK (R25 to R28, R129, R131) -/

/-- TRAP (R129): %trappc receives the next slot. -/
def execTrap (p : Pred) (w : IWord) (s : State) : Host.Outcome State Fault Refusal :=
  s.instruct p [unused .a w.ma w.fea] (fun _ => true) fun r =>
    .ok (s.takeTrap r.t .software w.imm.toNat 0 0 (nextPc r.tm.pc))

/-- BKPT (R129): it stops the team for an invasive debugger that has claimed the context, and traps otherwise. -/
def execBkpt (p : Pred) (w : RWord) (s : State) : Host.Outcome State Fault Refusal :=
  s.instruct p (usesNone w) (fun _ => true) fun r =>
    let vf := s.vfOf r.tm
    if (s.ctx vf).claimed && s.invasiveOk vf then .ok (s.setTeam r.t { r.tm.advance with halted := true })
    else .ok (s.takeTrap r.t .breakpoint w.simm.toNat 0 0 (nextPc r.tm.pc))

/-- ERET (R28): with MASKED = 0 it raises Illegal-Instruction; a malformed %trappc raises Misaligned (R15). -/
def execEret (w : RWord) (s : State) : Host.Outcome State Fault Refusal :=
  s.instruct ⟨false, 0⟩ (usesNone w) (fun _ => true) fun r => do
    ensure r.tm.masked .illegalInstruction
    let _ ← pcOrTrap r.tm.trappc
    .ok (s.setTeam r.t r.tm.trapReturn)

/-- TMASK.mask (R131). -/
def execTmaskMask (w : RWord) (s : State) : Host.Outcome State Fault Refusal :=
  s.instruct ⟨false, 0⟩ (usesNone w) (fun _ => true) fun r => .ok (s.setTeam r.t (r.tm.setMasked true).advance)

/-- TMASK.unmask (R131): a held pre-emption is taken at the boundary that follows (R357). -/
def execTmaskUnmask (w : RWord) (s : State) : Host.Outcome State Fault Refusal :=
  s.instruct ⟨false, 0⟩ (usesNone w) (fun _ => true) fun r => .ok (s.setTeam r.t (r.tm.setMasked false).advance)

/-! ### Error injection (R362) -/

/-- A word marked with the site code of its storage (R361). -/
def State.mark (s : State) (a site : Nat) : State := { s with marks := tabSet s.marks (a / 8) site }

/-- The register-window address that ADDR gives for site 010: the image word at physical address ADDR[39:0] (R186). -/
def imageWordAddr (addr : Word64) : Nat := 0xF * 2 ^ 44 + 2 ^ 43 + 2 ^ 40 + addr.toNat % 2 ^ 40

/-- The word that a site and an address name, checked as R362 says: its byte address and the site code of its storage. -/
def State.injectTarget (s : State) (tm : Team) (site : Nat) (addr : Word64) : Except Stop (Nat × Nat) :=
  match site with
  | 0 => match s.spadTarget tm.group addr 1 with
    | .ok tg => .ok (tg.addr, 3)
    | .error e => .error e
  | 1 => if addr.toNat < 0x2000 * s.accCount tm then .ok (accByte tm.group addr.toNat, 4)
    else .error (Stop.at .access addr)
  | 2 => match s.physical (s.vfOf tm) (imageWordAddr addr) false true with
    | some (some (.image a _)) => match s.windowCheck a 1 false false addr with
      | some e => .error e
      | none => .ok (a, 2)
    | some none => .error (.fatal addr)
    | _ => .error (Stop.at .access addr)
  | 3 | 4 => match s.translate (s.vfOf tm) addr 1 .load false with
    | .ok (.byte a) => if a < 2 ^ 40 then .ok (a, if site = 3 then 5 else 6) else .error (Stop.at .access addr)
    | .ok _ => .error (Stop.at .access addr)
    | .error e => .error e
  | 5 => match s.windowTarget tm.group addr 1 with
    | .ok tg => .ok (tg.addr, 3)
    | .error e => .error e
  | _ => .error (.trap .illegalOperand 0 0)

/-- The access reads or replaces words whose marks it has been checked for at step 7: one that meets a mark after it has left its core
reports it there instead (R360, R361). -/
def AccKind.checkedMarks : AccKind → Bool
  | .red .. | .blend .. | .close .. | .bindTo .. | .adjoint .. | .windowOp .. | .copyRun _ | .copyAdd .. | .copyMasks | .ready _ => false
  | _ => true

/-- An access that has been checked for marks is still pending on the word at a byte address: a mark lands only after it has performed,
so that every Soft-Error of a load, a store or an atomic is precise (R361, R362; DEDUCED, log 120). -/
def State.markWaits (s : State) (a : Nat) : Bool :=
  s.pend.any fun x => x.2.kind.checkedMarks && ((match x.2.kind with
    | .layered .. => true
    | _ => false) || ({ first := a % sliceCopy / 8 * 8, len := 8 } : Run).hits x.2.addr x.2.size)

/-- ERROR INJECTION (R362): the issuing team's write of %einj with ARM set marks the word, or nothing when it fails a check. -/
def execErrorInjection (site : BitVec 3) (addr : BitVec 56) (s : State) : Host.Outcome State Fault Refusal :=
  match s.current with
  | none => .next s
  | some (_, tm) =>
    if s.debugOk (s.vfOf tm) then
      match s.injectTarget tm site.toNat (addr.setWidth 64) with
      | .ok (a, code) => .next (if s.markWaits a then s else s.mark a code)
      | .error _ => .next s
    else .next s

/-! ### SRD and SWR (R9, R10, R130) -/

/-- The numbers of R9 that SWR may write. -/
def writable (n : Nat) : Bool := [1, 2, 4, 5, 6, 9, 10].contains n

/-- A special register as a team reads it (R9, R10), %wid aside. -/
def State.special (s : State) (tm : Team) (n : Nat) : Word64 :=
  match n with
  | 0 => tm.pc
  | 1 => tm.status.setWidth 64
  | 2 => BitVec.ofNat 64 (tm.rm.toNat + if tm.skipnf then 8 else 0)
  | 4 => tm.trapcause
  | 5 => tm.trappc
  | 6 => if tm.masked then 1 else 0
  | 7 => s.beacon
  | 8 => BitVec.ofNat 64 (tabGet s.bwmon (s.teamDie tm) 0)
  | 9 => tm.pickthr.setWidth 64
  | 10 => if s.debugOk (s.vfOf tm) then BitVec.ofNat 64 (tm.einjSite.toNat * 2 ^ 60 + tm.einjAddr.toNat) else 0
  | 11 => ((s.groupOfTeam tm).elim 0 (·.batch)).setWidth 64
  | _ => 0

/-- The use of SRD. -/
def usesSrd (t : Ty) (w : RWord) : List Use :=
  [spUse .a w.a w.ma w.fea, unused .b w.mb w.feb, unused .c w.mc w.fec, dUse t w.d]

/-- SRD (R130): %wid is that of each lane. -/
def execSrd (p : Pred) (t : Ty) (w : RWord) (s : State) : Host.Outcome State Fault Refusal :=
  let n := w.a.num.toNat
  s.alu p (usesSrd t w) (fun _ => decide (n ≤ 11)) fun r =>
    let w0 := (s.launchOf r.tm).elim 0 fun la => nth 0 la.widths 0
    .ok ((r.results w.d).foldl (fun tm l =>
      tm.put t w.d l (if n = 3 then r.tm.laneWid w0 l else s.special r.tm n).toNat) r.tm)

/-- The uses of SWR: the special register is in the D position, and a v source is read in the lowest active lane (R97, which
speaks only of an s destination; DEDUCED, log 96). -/
def usesSwr (t : Ty) (w : RWord) : List Use :=
  [{ srcUse .a t w.a w.ma w.fea with who := .lowest }, unused .b w.mb w.feb, unused .c w.mc w.fec, spUse .d w.d .plain false]

/-- A rounding mode that %fpmode may hold (R10). -/
def legalMode (rm : Nat) : Bool := decide (1 ≤ rm) && decide (rm ≤ 5)

/-- The write of a special register by the issuing team (R10, R130). -/
def State.writeSpecial (s : State) (r : Ready) (n : Nat) (x : Word64) : Result :=
  match n with
  | 1 => .ok (s.setTeam r.t { r.tm.advance with status := x.setWidth 8 })
  | 2 => do
    ensure (legalMode (x.toNat % 8)) .illegalOperand
    .ok (s.setTeam r.t { r.tm.advance with rm := x.setWidth 3, skipnf := x.getLsbD 3 })
  | 4 => .ok (s.setTeam r.t { r.tm.advance with trapcause := x })
  | 5 => .ok (s.setTeam r.t { r.tm.advance with trappc := x })
  | 6 => .ok (s.setTeam r.t (r.tm.setMasked (x.getLsbD 0)).advance)
  | 9 => .ok (s.setTeam r.t { r.tm.advance with pickthr := BitVec.ofNat 9 (Nat.min x.toNat 256) })
  | 10 => do
    ensure (s.debugOk (s.vfOf r.tm)) .illegalOperand
    let site := x.extractLsb' 60 3
    let addr := x.extractLsb' 0 56
    let tm := { r.tm.advance with einjSite := site, einjAddr := addr }
    if x.getLsbD 63 then
      match s.injectTarget r.tm site.toNat (addr.setWidth 64) with
      | .ok (a, code) => do
        waitFor (!s.markWaits a) .other
        .ok ((s.setTeam r.t tm).mark a code)
      | .error e => stop e
    else .ok (s.setTeam r.t tm)
  | _ => trapPlain .illegalOperand

/-- SWR (R130). -/
def execSwr (p : Pred) (t : Ty) (w : RWord) (s : State) : Host.Outcome State Fault Refusal :=
  let n := w.d.num.toNat
  s.instruct p (usesSwr t w) (fun _ => writable n) fun r =>
    s.writeSpecial r n (BitVec.ofNat 64 (r.tm.bitsOf t w.a w.ma r.low))

/-! ### ECLW (R366) -/

/-- The uses of ECLW: a limit in A, or none, and the status word in D. -/
def usesEclw (w : RWord) : List Use :=
  [{ letter := .a, opd := w.a, want := wantSN, read := true }, { letter := .d, opd := w.d, want := wantS, write := true }]

/-- ECLW (R366): it waits for the declaration of its die or of the package, or for its limit; the events of R365 and of the
limit leave the status word. -/
def execEclw (p : Pred) (pkg : Bool) (w : RWord) (s : State) : Host.Outcome State Fault Refusal :=
  s.instruct p (usesEclw w) (fun _ => true) fun r => do
      match r.tm.stall with
      | .eclw a b (some word) =>
        if r.tm.isEmpty (.s w.d.num.toNat) then stop (.wait (.eclw a b (some word)))
        else .ok ((s.setTeam r.t (r.tm.sSet w.d.num.toNat word).advance).clearRegMarks r.tm [.s w.d.num.toNat])
      | _ => stop (.wait (.eclw pkg (w.a.cls == .s && r.tm.sGet w.a.num.toNat != 0) none))

/-! ### LAUNCH (R345) -/

/-- The registers of a queue of a context. -/
def State.queue (s : State) (vf q : Nat) : LaunchQueue := tabGet (s.ctx vf).queues q {}

/-- The virtual address of ring entry i (R330). -/
def LaunchQueue.slotVa (q : LaunchQueue) (i : Nat) : Word64 := q.qbase.setWidth 64 + BitVec.ofNat 64 (16 * (i % 2 ^ q.qlog.toNat))

/-- The ring has room for an entry (R345). -/
def LaunchQueue.room (q : LaunchQueue) : Bool := decide ((q.qtail - q.qhead).toNat < 2 ^ q.qlog.toNat)

/-- A ring entry (R330). -/
def ringEntry (hdr : Word64) (serial : Bool) : List Byte := toBytesLE 8 hdr.toNat ++ toBytesLE 8 (if serial then 1 else 0)

/-- The queue that a LAUNCH names. -/
def State.launchQueue (s : State) (tm : Team) (w : XWord) : Nat :=
  if w.imm 6 6 = 1 then w.imm 5 0 else (s.launchOf tm).elim 0 (·.headerQueue)

/-- LAUNCH (R345): a release at package scope, and one move at the queue. -/
def execLaunch (p : Pred) (w : XWord) (s : State) : Host.Outcome State Fault Refusal :=
  s.instruct p (usesInOut w) (fun _ => true) fun r => do
      let a := r.tm.sGet w.a.num.toNat
      let vf := s.vfOf r.tm
      let k := s.launchQueue r.tm w
      let q := s.queue vf k
      if a.toNat % 128 ≠ 0 ∨ a.toNat / 2 ^ 56 ≠ 0 then stop (Stop.at .misaligned a)
      else do
        ensure q.qen .illegalOperand
        waitFor (s.drained r.t) .other
        waitFor q.room (.launch k)
        match s.storeTarget vf r.tm.group .global (q.slotVa q.qtail.toNat) 16 .n64 0 with
        | .error e => stop e
        | .ok (.byte b) => do
          waitFor (!s.swapping b 16) .other
          destsReady r.tm [.s w.d.num.toNat]
          let s1 := (s.writeMem (.team r.t) none [] b (ringEntry a (w.imm 7 7 == 1))).unmark b 16
          let q1 := { q with
            qtail := q.qtail + 1
            rel := viewJoin q.rel ((s1.pv (.team r.t)).released .package) }
          let s2 := s1.onCtx vf fun c => { c with queues := tabSet c.queues k q1 }
          let s3 := s2.onTeam r.t fun tm => (tm.sSet w.d.num.toNat (q.qtail.setWidth 64)).number.finish true
          .ok (s3.clearRegMarks r.tm [.s w.d.num.toNat])
        | .ok _ => stop (Stop.at .access (q.slotVa q.qtail.toNat))

/-! ### YIELD (R346) -/

/-- YIELD (R346): the group's unit gives up its slots at the next boundaries; held while traps are masked. -/
def execYield (p : Pred) (w : RWord) (s : State) : Host.Outcome State Fault Refusal :=
  s.instruct p (usesNone w) (fun _ => true) fun r =>
    .ok ((s.setTeam r.t r.tm.advance).requestLeave (s.unitOf r.tm.group) .yield)

end Sys2Proof.Machine
end

