-- ==== Sys2Proof/Machine/Memory.lean ====
section
/-! DEFINITION. Loads, stores, gathers, tile elements, atomics, reductions and fences (R128, R240 to R251). -/

namespace Sys2Proof.Machine

/-! ### Format M (R75) -/

/-- The base and the index of a format M word. -/
def usesAB (w : MWord) (want : Want) (who : Who) : List Use :=
  [{ letter := .a, opd := w.a, want := wantS, read := true, fe := w.fea },
    { letter := .b, opd := w.b, want := want, read := true, fe := w.feb, who := who }]

def wantIndex : Want := { v := true, s := true, none := true }

/-- The index of a lane: a v register as I32, an s register whole, none as zero (R75). -/
def Team.index (tm : Team) (o : Opd) (l : Nat) : Word64 :=
  match o.cls with
  | .v => (tm.vGet o.num.toNat l).signExtend 64
  | .s => tm.sGet o.num.toNat
  | _ => 0

/-- The effective address A + sext(B) + sext(OFF20), modulo 2^64 (R75). -/
def Team.effective (tm : Team) (w : MWord) (l : Nat) : Word64 :=
  tm.sGet w.a.num.toNat + tm.index w.b l + w.off.signExtend 64

/-- The address of an indexed element: A + zext(B) × (n/8) + sext(OFF20); none for the null index (R242). -/
def Team.indexed (tm : Team) (t : Ty) (w : MWord) (l : Nat) : Option Word64 :=
  let b := tm.vGet w.b.num.toNat l
  if b = 0xFFFFFFFF then none
  else some (tm.sGet w.a.num.toNat + b.setWidth 64 * BitVec.ofNat 64 (t.bits / 8) + w.off.signExtend 64)

/-- The destination reference of a result in lane l. -/
def destRef (d : Opd) (l : Nat) : RegRef :=
  match d.cls with
  | .s => .s d.num.toNat
  | _ => .v d.num.toNat l

/-- The group of the issuing team as the spaces of format M name it. -/
def State.space (s : State) (r : Ready) : Nat × Nat := (s.vfOf r.tm, r.tm.group)

/-- A load issued for one lane: its producer, and its access unless the lane is null. -/
def State.issueLoad (s : State) (r : Ready) (t : Ty) (d : Opd) (sp : Space) (ord : Sys2Proof.Ord) (scope : Scope)
    (l : Nat) : Option (Word64 × Target) → State
  | none => (s.addProducer r.t (destRefs t d [l]) (.value (destRef d l) t 0) 0).2
  | some (va, tg) =>
    let (k, s1) := s.addProducer r.t (destRefs t d [l]) (.elem (destRef d l) t (.ty t) 0 false false) 1
    s1.addAccess (s1.teamAccess r sp l va tg (t.bits / 8) .read ord scope (some (k, 0)))

/-- LD and LDG: addr gives a lane's address, none for a null lane; checked holds the lanes that are checked. An LDG into an s register
checks every active lane, and issues the access of the lowest one alone (R97, R242; DEDUCED, log 35). -/
def State.load (s : State) (r : Ready) (t : Ty) (w : MWord) (checked : List Nat) (addr : Nat → Option Word64) :
    Result := do
  let (vf, g) := s.space r
  let tgs ← eachLane (fun l => match addr l with
    | none => .ok none
    | some va => (s.loadTarget vf g w.space va (t.bits / 8) t).map fun tg => some (va, tg)) checked
  let lanes := r.results w.d
  destsReady r.tm (destRefs t w.d lanes)
  let s1 := (lanes.zip tgs).foldl (fun s x => s.issueLoad r t w.d w.space w.ord w.scope x.1 x.2) s
  s1.issued r false

/-- LD (R128). -/
def execLd (p : Pred) (t : Ty) (w : MWord) (s : State) : Host.Outcome State Fault Refusal :=
  s.instruct p (usesAB w wantIndex .active ++ [{ dUse t w.d with fe := w.fed }]) (fun _ => true) fun r =>
    s.load r t w (r.results w.d) fun l => some (r.tm.effective w l)

/-- LDG (R242): it acts in each active lane, an s destination takes the lowest (R241). -/
def execLdg (p : Pred) (t : Ty) (w : MWord) (s : State) : Host.Outcome State Fault Refusal :=
  s.instruct p (usesAB w wantV .eachActive ++ [{ dUse t w.d with fe := w.fed }]) (fun _ => true) fun r =>
    s.load r t w r.lanes fun l => r.tm.indexed t w l

/-- The data of a store: the low bits of D. -/
def Team.storeData (tm : Team) (t : Ty) (d : Opd) (l : Nat) : Word64 := BitVec.ofNat 64 (tm.bitsOf t d .plain l)

/-- ST and STG in the active lanes. -/
def State.store (s : State) (r : Ready) (t : Ty) (w : MWord) (addr : Nat → Option Word64) : Result := do
  let (vf, g) := s.space r
  let n := t.bits / 8
  let tgs ← eachLane (fun l => match addr l with
    | none => .ok none
    | some va => (s.storeTarget vf g w.space va n t (r.tm.storeData t w.d l)).map fun tg => some (va, tg)) r.lanes
  let s1 := (r.lanes.zip tgs).foldl (fun s x => match x.2 with
    | none => s
    | some (va, tg) =>
      let x64 := r.tm.storeData t w.d x.1
      let data := toBytesLE n x64.toNat
      s.addAccess (s.teamAccess r w.space x.1 va tg n (tg.storeKind t x64 data (List.replicate n 0xFF)) w.ord w.scope
        none)) s
  s1.issued r false

/-- A source D of a store. -/
def dSrc (t : Ty) (d : Opd) (fe : Bool) : Use :=
  { letter := .d, opd := d, want := wantVS, read := true, pair := t.is64, fe := fe, who := .eachActive }

/-- ST (R128). -/
def execSt (p : Pred) (t : Ty) (w : MWord) (s : State) : Host.Outcome State Fault Refusal :=
  s.instruct p (usesAB w wantIndex .active ++ [dSrc t w.d w.fed]) (fun _ => true) fun r =>
    s.store r t w fun l => some (r.tm.effective w l)

/-- STG (R242). -/
def execStg (p : Pred) (t : Ty) (w : MWord) (s : State) : Host.Outcome State Fault Refusal :=
  s.instruct p (usesAB w wantV .eachActive ++ [dSrc t w.d w.fed]) (fun _ => true) fun r =>
    s.store r t w fun l => r.tm.indexed t w l

/-- The uses of PREF: its D field names nothing and has no FE bit (R80, R85). -/
def usesPref (w : MWord) : List Use := usesAB w wantIndex .active ++ [{ unused .d with opd := w.d, fe := w.fed }]

/-- PREF (R246): it changes nothing that a program sees, and raises nothing after step 4; it waits for its sources unless
their FE bits say otherwise. -/
def execPref (p : Pred) (t : Ty) (w : MWord) (s : State) : Host.Outcome State Fault Refusal :=
  let _ := t
  let us := usesPref w
  s.run fun k tm => do
    ensure (us.all (Use.ok (s.counts tm))) .illegalOperand
    let lanes := lanesOf tm.lanes (tm.active p)
    let empty := if lanes = [] then []
      else ((us.filter fun u => u.read && !u.fe).flatMap fun u => u.refs lanes).filter tm.isEmpty
    waitFor (empty == []) (.regs empty)
    .ok (s.setTeam k tm.advance)

/-! ### Atomics (R247, R248, R250) -/

/-- The operand after D: the comparand of .cas, the mask of .ins (R247, R250). -/
def Team.after (tm : Team) (t : Ty) (d : Opd) (l : Nat) : Word64 :=
  match d.cls with
  | .v => if t.is64 then tm.pairGet (d.num.toNat + 2) l else (tm.vGet (d.num.toNat + 1) l).setWidth 64
  | _ => BitVec.ofNat 64 ((tm.sGet (d.num.toNat + 1)).toNat % 2 ^ t.bits)

/-- The uses of ATOM and BFA: D is read and then written; two says that the register after it is read as well. -/
def usesAtom (t : Ty) (w : MWord) (two : Bool) : List Use :=
  usesAB w wantIndex .eachActive ++
    [{ dSrc t w.d w.fed with span := if two then 2 else 1 }, dUse t w.d]

/-- ATOM and BFA: one access for each active lane; D receives the value of its lane, an s register the lowest lane's. -/
def State.atomic (s : State) (r : Ready) (t : Ty) (w : MWord) (kind : Nat → AccKind) : Result := do
  let (vf, g) := s.space r
  let n := t.bits / 8
  let tgs ← eachLane (fun l => s.atomTarget vf g w.space (r.tm.effective w l) n false) r.lanes
  destsReady r.tm (destRefs t w.d (r.results w.d))
  let s1 := (r.lanes.zip tgs).foldl (fun s x =>
    let acc (s : State) (prod : Option (Nat × Nat)) : State :=
      s.addAccess (s.teamAccess r w.space x.1 (r.tm.effective w x.1) x.2 n (kind x.1) w.ord w.scope prod)
    if (r.results w.d).contains x.1 then
      let (k, s2) := s.addProducer r.t (destRefs t w.d [x.1]) (.value (destRef w.d x.1) t 0) 1
      acc s2 (some (k, 0))
    else acc s none) s
  s1.issued r true

/-- ATOM (R247, R248). -/
def execAtom (p : Pred) (op : AtomOp) (t : Ty) (w : MWord) (s : State) : Host.Outcome State Fault Refusal :=
  s.instruct p (usesAtom t w (op == .cas)) (fun _ => true) fun r =>
    s.atomic r t w fun l => .atom op t (r.tm.storeData t w.d l) (if op = .cas then r.tm.after t w.d l else 0)

/-- BFA.ins (R250). -/
def execBfaIns (p : Pred) (w : MWord) (s : State) : Host.Outcome State Fault Refusal :=
  s.instruct p (usesAtom .n64 w true) (fun _ => true) fun r =>
    s.atomic r .n64 w fun l => .bfaIns (r.tm.storeData .n64 w.d l) (r.tm.after .n64 w.d l)

/-- BFA.ffcs (R250). -/
def execBfaFfcs (p : Pred) (w : MWord) (s : State) : Host.Outcome State Fault Refusal :=
  s.instruct p (usesAtom .n64 w false) (fun _ => true) fun r => s.atomic r .n64 w fun _ => .bfaFfcs

/-- BFA.plset (R250). -/
def execBfaPlset (p : Pred) (w : MWord) (s : State) : Host.Outcome State Fault Refusal :=
  s.instruct p (usesAtom .n64 w false) (fun _ => true) fun r =>
    s.atomic r .n64 w fun l => .bfaPlset (r.tm.storeData .n64 w.d l)

/-- One reduction for each location that the lanes name, its operand combined in ascending lanes (R249): target, address
and lane of the first one, operand. -/
def combineLanes (op : RedOp) (t : Ty) : List (Target × Word64 × Nat × Nat) → List (Target × Word64 × Nat × Nat)
  | [] => []
  | x :: rest =>
    let same := rest.filter fun y => y.1.addr == x.1.addr
    let v := same.foldl (fun v y => (RedOp.combine op t v y.2.2.2).1) x.2.2.2
    (x.1, x.2.1, x.2.2.1, v) :: (combineLanes op t rest).filter fun y => y.1.addr != x.1.addr

/-- RED (R249): nothing returns; each location receives one reduction. -/
def execRed (p : Pred) (op : RedOp) (t : Ty) (w : MWord) (s : State) : Host.Outcome State Fault Refusal :=
  s.instruct p (usesAB w wantIndex .active ++ [dSrc t w.d w.fed]) (fun _ => true) fun r => do
    let (vf, g) := s.space r
    let n := t.bits / 8
    let tgs ← eachLane (fun l => s.atomTarget vf g w.space (r.tm.effective w l) n true) r.lanes
    let items := (r.lanes.zip tgs).map fun x =>
      (x.2, r.tm.effective w x.1, x.1, (r.tm.storeData t w.d x.1).toNat)
    let s1 := (combineLanes op t items).foldl (fun s x =>
      s.addAccess (s.teamAccess r w.space x.2.2.1 x.2.1 x.1 n (.red op t (BitVec.ofNat 64 x.2.2.2)) w.ord w.scope
        none)) s
    s1.issued r true

/-! ### Fences (R226, R227, R251) -/

/-- The operand positions of a format M word that names no operand (R80, R81). -/
def usesNoneM (w : MWord) : List Use := [unused .a .plain w.fea, unused .b .plain w.feb, unused .d .plain w.fed]

/-- What a FENCE.acq follows: the earlier reads of the team, whose choices it takes, and the entry of its reductions and
memory-side commands into their queues (R222, R226). -/
def State.fenceReady (s : State) (t : Nat) (seq : Nat) : Bool :=
  (s.pend.all fun a => (a.2.places.all fun x => x.1 != .team t) || !(a.2.kind.reads || a.2.kind.enters)) &&
    !s.commandBefore t seq

/-- FENCE (R226, R251): it waits for the earlier accesses that it must follow, then makes its moves. -/
def execFence (p : Pred) (w : MWord) (s : State) : Host.Outcome State Fault Refusal :=
  s.instruct p (usesNoneM w) (fun _ => true) fun r => do
    waitFor (if Ord.releases w.ord then s.drained r.t else s.fenceReady r.t r.tm.seq) .other
    let i := s.instOf (.team r.t) w.scope
    let v := if Ord.acquires w.ord then r.tm.pv.fenceAcq i else r.tm.pv
    let v := if Ord.releases w.ord then v.fenceRel i else v
    .ok (s.setTeam r.t { r.tm.advance with pv := v })

/-- FENCESC (R227): drained, it waits for a beacon tick, which makes its SC move. -/
def execFencesc (p : Pred) (w : MWord) (s : State) : Host.Outcome State Fault Refusal :=
  s.instruct p (usesNoneM w) (fun _ => true) fun r =>
    match r.tm.stall with
    | .fence _ true => .ok (s.setTeam r.t r.tm.advance)
    | .fence sc false => stop (.wait (.fence sc false))
    | _ => if !s.drained r.t then stop (.wait .other) else stop (.wait (.fence w.scope false))

/-! ### Tile elements (R243 to R245) -/

/-- The handle that an instruction of a team uses, as read now by the team, with its entry's byte address (R207, R215);
checking refuses an entry that fails R209. -/
def State.useHandle (s : State) (p : Party) (vf l n : Nat) : Except Stop (Handle × Nat × State) :=
  match tabGet? s.launches l with
  | none => .error (invalidHandle n)
  | some la =>
    if la.htb = 0 then .error (invalidHandle n)
    else match s.translate vf (la.entryVa n) 64 .load false with
      | .ok (.byte a) =>
        if s.swapping a 64 then .error (.wait .other)
        else match s.markAt a 64 with
        | some m => .error (s.softErrorAt m (la.entryVa n))
        | none =>
          let (bs, s1) := s.readEntry p none a
          let h := Handle.ofBytes bs
          if h.ok then .ok (h, a, s1) else .error (invalidHandle n)
      | .ok _ => .error (Stop.at .access (la.entryVa n))
      | .error e => .error e

/-- A use of a handle at step 7 of an instruction, once no acquire of the team is pending (R222). -/
def State.teamHandle (s : State) (r : Ready) (n : Nat) : Except (LaneSet × Stop) (Handle × Nat × State) := do
  waitFor (!s.hasAcquire r.t) .other
  match s.useHandle (.team r.t) (s.vfOf r.tm) r.tm.launch n with
  | .ok x => .ok x
  | .error e => stop e

/-- The pairing of a type with a format is accepted (R244). -/
def ldtPair (t : Ty) (e : Elem) (h : Handle) (store : Bool) : Bool :=
  match e with
  | .i4 => t == .i32
  | .b1 => t == .n32
  | .ty u =>
    t == u || (!store && t == .f32 &&
      (match u with
        | .f16 | .bf16 => h.blkl == 0
        | .e4m3 | .e5m2 | .tap8 | .tap6 | .i8 => true
        | _ => false))

/-- The block scale applies: an F32 result from a scaled format (R244). -/
def ldtScaled (t : Ty) (e : Elem) (h : Handle) : Bool := t == .f32 && e != .ty .f32 && h.blkl == 5

/-- The coordinates of a lane. -/
def Team.coords (tm : Team) (a : Opd) (rank l : Nat) : List Nat :=
  (List.range rank).map fun d => (tm.vGet (a.num.toNat + d) l).toNat

/-- The pieces that hold an element: virtual address, size, first bit wanted and its bits, in the order of the parts. -/
def Handle.pieces (h : Handle) (e : Elem) (xs : List Nat) : List (Word64 × Nat × Nat) × Nat :=
  if h.type = 2 then
    let x := nth 0 xs 0
    ((List.range e.bits).map fun i => let q := planeSpot e.bits x i; (h.base + BitVec.ofNat 64 q.1, 1, q.2), x % 8)
  else
    let q := e.spot (h.index xs)
    let va := h.base + BitVec.ofNat 64 q.off
    (if q.bytes = 2 ∧ e.bits < 8 then [(va, 1, q.shift), (va + 1, 1, 0)] else [(va, q.bytes, q.shift)], q.shift)

/-- The two bytes that an element of less than a byte spans, as one piece where they lie side by side: it moves in one access (R245). -/
def joinBytes : List (Word64 × Target × Nat) → List (Word64 × Target × Nat)
  | (va, .byte a, 1) :: (vb, .byte b, 1) :: rest =>
    if vb = va + 1 ∧ b = a + 1 then (va, .byte a, 2) :: rest else (va, .byte a, 1) :: (vb, .byte b, 1) :: rest
  | ps => ps

/-- A lane of LDT: nothing outside the extents, else its pieces with their targets, and the scale's. -/
def State.ldtLane (s : State) (vf : Nat) (t : Ty) (h : Handle) (e : Elem) (xs : List Nat) :
    Except Stop (List (Word64 × Target × Nat)) := do
  let ps := (h.pieces e xs).1
  let main ← ps.mapM fun p => (s.loadTarget vf 0 .global p.1 p.2.1 (if e == .ty t then t else .n32)).map fun tg =>
    (p.1, tg, p.2.1)
  let main := if h.type = 2 then main else joinBytes main
  if ldtScaled t e h then do
    let va := h.ptr + BitVec.ofNat 64 (h.scaleOff xs)
    let tg ← s.loadTarget vf 0 .global va 1 .n8
    .ok (main ++ [(va, tg, 1)])
  else .ok main

/-- The ordering and scope of layout P (R240). -/
def ordP (w : XWord) : Sys2Proof.Ord := Sys2Proof.Ord.ofCode (w.cimm.extractLsb' 0 2)

def scopeP (w : XWord) : Scope := (Scope.ofCode (w.cimm.extractLsb' 2 3)).getD .team

/-- The uses of LDT and STT: the data and the first coordinate register. -/
def usesTile (t : Ty) (w : XWord) (store : Bool) : List Use :=
  [{ letter := .a, opd := w.a, want := wantV, read := true },
    { letter := .d, opd := w.d, want := wantV, read := store, write := !store, pair := t.is64 }]

/-- The coordinate registers of the entry's rank exist, are full, and hold no marked word (R243, R361). -/
def coordsReady (s : State) (r : Ready) (a : Opd) (rank : Nat) : Except (LaneSet × Stop) Unit := do
  ensure (decide (a.num.toNat + rank ≤ r.tm.vcount)) .illegalOperand
  let refs := (List.range rank).flatMap fun d => r.lanes.map fun l => RegRef.v (a.num.toNat + d) l
  destsReady r.tm refs
  unmarked s (s.regMark r.tm refs)

/-- The format of a handle known to be valid. -/
def Handle.elem (h : Handle) : Elem := (Elem.ofCode h.fmt).getD (.ty .n8)

/-! ### Layered handles (R212 to R214) -/

/-- A value in the accumulation format of R213 added and rounded. -/
def layerAdd (wide : Bool) (sum c : FNum) : FNum :=
  let f := if wide then fmtF64 else fmtF32
  f.decode (f.round .rn false (FNum.add .rn sum c).1).1

/-- The value that a sparse-coordinate layer stores for (i, j): in a list that breaks the order, zero or the value of some
entry with the coordinate, as a free value picks (R212, log 3). -/
def sparseValue (s : State) (i j : Nat) (bs : List Byte) (count : Nat) : Word32 × State :=
  let entry (k : Nat) : Nat × Nat × Word32 :=
    (field bs (128 * k) 32, field bs (128 * k + 32) 32, BitVec.ofNat 32 (field bs (128 * k + 64) 32))
  let es := (List.range count).map entry
  let before (x y : Nat × Nat × Word32) : Bool := decide (x.1 < y.1) || (x.1 == y.1 && decide (x.2.1 < y.2.1))
  let ordered := (es.zip (es.drop 1)).all fun p => before p.1 p.2
  let hits := (es.filter fun e => e.1 == i && e.2.1 == j).map (·.2.2)
  if ordered then (hits.headD 0, s)
  else (nth 0 (0 :: hits) ((Config.freeWord s.freeCtr).toNat % (hits.length + 1)), { s with freeCtr := s.freeCtr + 1 })

/-- The dot product of a low-rank layer: fused, ascending (R213). -/
def lowRank (c : Word32) : List (Word32 × Word32) → Word32
  | [] => c
  | (u, v) :: rest => lowRank (fmaRn u v c).1 rest

/-- The words of a run of bytes. -/
def words32 (bs : List Byte) (n : Nat) : List Word32 := (List.range n).map fun i => BitVec.ofNat 32 (field bs (32 * i) 32)

/-- What one layer adds to element (i, j) before its scale (R212, R213). -/
def State.layerValue (s : State) (p : Party) (vf : Nat) (h : Handle) (d : Layer) (i j : Nat) : Except Stop (Word32 × State) :=
  let rd (s : State) (va : Word64) (n : Nat) : Except Stop (List Byte × State) := s.readLineVa p none vf va n
  match d.kind with
  | 0 => do
    let (bs, s1) ← rd s d.addr (16 * d.count)
    .ok (sparseValue s1 i j bs d.count)
  | 1 => do
    let k := i * h.extent 0 + j
    let (bs, s1) ← rd s d.addr (k / 8 + 1)
    let ones := countOnes (ofBytesLE bs) k
    if !(ofBytesLE bs).testBit k || decide (d.cap ≤ ones) then .ok (0, s1)
    else
      let bits := h.extent 0 * h.extent 1
      let (v, s2) ← rd s1 (d.addr + BitVec.ofNat 64 ((bits + 511) / 512 * 64 + 4 * ones)) 4
      .ok (BitVec.ofNat 32 (ofBytesLE v), s2)
  | _ => do
    let (u, s1) ← rd s (d.addr + BitVec.ofNat 64 (4 * i * d.lrank)) (4 * d.lrank)
    let (v, s2) ← rd s1 (d.addr + BitVec.ofNat 64 (4 * (h.extent 1 * d.lrank + j * d.lrank))) (4 * d.lrank)
    .ok (lowRank 0 ((words32 u d.lrank).zip (words32 v d.lrank)), s2)

/-- The first n layers of a list, read and checked before any of their storage is (R211); handle number num for the fault. -/
def State.layerList (s : State) (p : Party) (vf num : Nat) (h : Handle) (n : Nat) : Except Stop (List Layer × State) :=
  (List.range n).foldlM (fun (acc : List Layer × State) t => do
    let (bs, s1) ← acc.2.readLineVa p none vf (h.ptr + BitVec.ofNat 64 (32 * t)) 32
    if (Layer.ofBytes bs).ok then .ok (acc.1 ++ [Layer.ofBytes bs], s1) else .error (invalidHandle num)) ([], s)

/-- The sum of R213 over layers, before the last rounding. -/
def State.layerSum (s : State) (p : Party) (vf : Nat) (h : Handle) (i j : Nat) (sum : FNum) :
    List Layer → Except Stop (FNum × State)
  | [] => .ok (sum, s)
  | d :: rest => do
    let (c, s1) ← s.layerValue p vf h d i j
    let scaled := f32 (mulRn d.alpha c).1
    s1.layerSum p vf h i j (layerAdd (h.fmt == 5) sum scaled) rest

/-- The element of a layered handle at row i, column j, from its layers, as bits of its format (R213). -/
def State.layeredElem (s : State) (p : Party) (acq : Option Inst) (vf : Nat) (h : Handle) (ls : List Layer) (i j : Nat) :
    Except Stop (Nat × State) := do
  let t := Ty.ofCode (BitVec.ofNat 4 h.fmt)
  let va := h.base + BitVec.ofNat 64 (t.bits / 8 * (j + i * h.step 1))
  let (bs, s1) ← s.readLineVa p acq vf va (t.bits / 8)
  let (sum, s2) ← s1.layerSum p vf h i j ((tyFmt t).decode (ofBytesLE bs)) ls
  .ok (((tyFmt t).round .rn false sum).1, s2)

/-- The pending elements of one instruction that lie in the line of one of them: they are formed under one triple (R214,
R238). -/
def State.lineMates (s : State) (a : Access) : List (Nat × Access) :=
  s.pend.filter fun b => b.2.party == a.party && b.2.seq == a.seq && b.2.va.toNat / 64 == a.va.toNat / 64 &&
    (match b.2.kind with
      | .layered .. => true
      | _ => false)

/-- The base of an element of a layered handle alone (log 36). -/
def State.performBase (s : State) (id : Nat) (a : Access) : State :=
  let (bs, s1) := s.readOnce a.party (s.acqOf a) a.addr a.size
  (s1.feed a.prod bs).performed id

/-- One element of a layered handle, formed from the layers as they were read (R213); none while it must wait. Layer storage that no
longer translates, or is marked, gives the base alone (DESIGN CHOICE, log 36). -/
def State.performElement (s : State) (h : Handle) (ls : List Layer) (id : Nat) (a : Access) : Option State :=
  match a.kind with
  | .layered _ row col =>
    match s.layeredElem a.party (s.acqOf a) a.vf h ls row col with
    | .ok (w, s2) => some ((s2.feed a.prod (toBytesLE a.size w)).performed id)
    | .error (.wait _) => none
    | .error _ => some (s.performBase id a)
  | _ => some s

/-- The elements of a line formed, all of them or none yet: under the triple that one read of the entry returns, with one reading of the
list (R214, R238). An entry that no longer names a list gives the base alone (DESIGN CHOICE, log 36). -/
def State.formLine (s : State) (a : Access) (num : Nat) (mates : List (Nat × Access)) : Option State :=
  let base := mates.foldl (fun s m => s.performBase m.1 m.2) s
  match s.useHandle a.party a.vf a.launch num with
  | .ok (h, e, s1) => match (s1.underEntry a.party e).layerList a.party a.vf num h (if h.type = 4 then h.lcount else 0) with
    | .ok (ls, s2) => mates.foldlM (fun s m => s.performElement h ls m.1 m.2) s2
    | .error (.wait _) => none
    | .error _ => some base
  | .error (.wait _) => none
  | .error _ => some base

/-- The elements of one line perform in one move. The elements of the load that are still to perform read every byte that these have
read as they did (R137). -/
def State.performLayered (s : State) (a : Access) (num : Nat) : State :=
  let mates := s.lineMates a
  if mates.all fun m => s.pend.all fun b => mates.any (fun c => c.1 == b.1) || !b.2.precedes m.2 then
    match ({ s with formed := a.formed } : State).formLine a num mates with
    | none => s
    | some s1 =>
      { s1 with
        formed := []
        under := none
        pend := s1.pend.map fun b =>
          if b.2.party == a.party && b.2.seq == a.seq then (b.1, { b.2 with formed := s1.formed }) else b }
  else s

/-- A lane of LDT issued. -/
def State.issueTile (s : State) (r : Ready) (t : Ty) (w : XWord) (h : Handle) (e : Elem) (l : Nat)
    (ps : Option (List (Word64 × Target × Nat))) : State :=
  match ps with
  | none => (s.addProducer r.t (destRefs t w.d [l]) (.value (destRef w.d l) t 0) 0).2
  | some ps =>
    let xs := r.tm.coords w.a h.rank l
    let form := Form.elem (destRef w.d l) t e (if h.type = 4 then 0 else (h.pieces e xs).2) (h.type == 2)
      (ldtScaled t e h)
    let (k, s1) := s.addProducer r.t (destRefs t w.d [l]) form ps.length
    (List.range ps.length).foldl (fun s i =>
      match ps[i]? with
      | none => s
      | some (va, tg, n) =>
        let kind := if h.type = 4 then AccKind.layered w.handle.toNat (nth 0 xs 1) (nth 0 xs 0) else .read
        s.addAccess (s.teamAccess r .global l va tg n kind (ordP w) (scopeP w) (some (k, i)))) s1

/-- LDT (R243 to R245). -/
def execLdt (p : Pred) (t : Ty) (w : XWord) (s : State) : Host.Outcome State Fault Refusal :=
  s.instruct p (usesTile t w false) (fun _ => true) fun r => do
    let num := w.handle.toNat
    let (h, a, s1) ← s.teamHandle r num
    if h.type = 3 then stop (invalidHandle num)
    else
      let e := h.elem
      ensure (ldtPair t e h false) .illegalOperand
      coordsReady s r w.a h.rank
      let vf := s.vfOf r.tm
      let su := s1.underEntry (.team r.t) a
      let ls ← match su.layerList (.team r.t) vf num h (if h.type = 4 then h.lcount else 0) with
        | .ok x => Except.ok x.1
        | .error e => stop e
      let ps ← eachLane (fun l =>
        let xs := r.tm.coords w.a h.rank l
        if !h.inside xs then .ok none
        else if h.type = 4 then do
          -- every byte that the element is formed from is checked now
          let _ ← su.layeredElem (.team r.t) none vf h ls (nth 0 xs 1) (nth 0 xs 0)
          (s1.ldtLane vf t h e xs).map some
        else (s1.ldtLane vf t h e xs).map some) r.lanes
      destsReady r.tm (destRefs t w.d r.lanes)
      ((r.lanes.zip ps).foldl (fun s x => s.issueTile r t w h e x.1 x.2) s1).issued r false

/-- The bits of an element as STT writes them: value and mask for piece i, of n bytes (R245). -/
def pieceData (e : Elem) (plane : Bool) (pieces : List (Word64 × Nat × Nat)) (x : Nat) (i n : Nat) :
    List Byte × List Byte :=
  match pieces[i]? with
  | none => ([], [])
  | some (_, _, shift) =>
    if plane then (toBytesLE 1 ((x / 2 ^ i % 2) * 2 ^ shift), toBytesLE 1 (2 ^ shift))
    else if i = 0 then
      (toBytesLE n (x % 2 ^ e.bits * 2 ^ shift), toBytesLE n ((2 ^ e.bits - 1) * 2 ^ shift))
    else
      -- the second byte of an element that spans two
      let first := (pieces[0]?).elim 0 (·.2.2)
      (toBytesLE 1 (x % 2 ^ e.bits * 2 ^ first / 256), toBytesLE 1 ((2 ^ e.bits - 1) * 2 ^ first / 256))

/-- STT (R243 to R245). -/
def execStt (p : Pred) (t : Ty) (w : XWord) (s : State) : Host.Outcome State Fault Refusal :=
  s.instruct p (usesTile t w true) (fun _ => true) fun r => do
    let num := w.handle.toNat
    let (h, _, s1) ← s.teamHandle r num
    if h.type = 3 then stop (invalidHandle num)
    else if h.ro || (h.type == 4 && h.lcount != 0) then
      stop (Stop.at .access (((s.launchOf r.tm).elim 0 (·.htb)) + BitVec.ofNat 64 (64 * num)))
    else
      let e := h.elem
      ensure (ldtPair t e h true) .illegalOperand
      coordsReady s r w.a h.rank
      let vf := s.vfOf r.tm
      let ps ← eachLane (fun l =>
        let xs := r.tm.coords w.a h.rank l
        let x := r.tm.storeData t w.d l
        if !h.inside xs then .ok []
        else (((h.pieces e xs).1).mapM fun q =>
          (s1.storeTarget vf 0 .global q.1 q.2.1 (if e == .ty t then t else .n8) x).map fun tg => (q.1, tg, q.2.1)).map
            fun ps => if h.type = 2 then ps else joinBytes ps)
        r.lanes
      let s2 := (r.lanes.zip ps).foldl (fun s lp =>
        let l := lp.1
        let xs := r.tm.coords w.a h.rank l
        let x := r.tm.storeData t w.d l
        (List.range lp.2.length).foldl (fun s i => match lp.2[i]? with
          | none => s
          | some (va, tg, n) =>
            let dm := pieceData e (h.type == 2) (h.pieces e xs).1 x.toNat i n
            s.addAccess (s.teamAccess r .global l va tg n (tg.storeKind t x dm.1 dm.2) (ordP w) (scopeP w) none)) s) s1
      s2.issued r false

end Sys2Proof.Machine
end

