-- ==== Sys2Proof/Machine/Copy.lean ====
section
/-! DEFINITION. Collective copies: CPY, CPYS, CPYR and DRAIN, and the moves of the copy engine (R230, R231, R290 to R295, R316
to R320, R378, R380). -/

namespace Sys2Proof.Machine

/-! ### The slice words (R291, R293, R294) -/

/-- Source and destination space of a copy (R316). -/
def spaceOf (n : Nat) : Space :=
  match n with
  | 1 => .spad
  | 2 => .cwin
  | _ => .global

def Copy.ss (c : Copy) : Space := spaceOf (c.cimm.toNat % 16)

def Copy.ds (c : Copy) : Space := spaceOf (c.cimm.toNat / 16 % 16)

def lo32 (w : Word64) : Nat := w.toNat % 2 ^ 32

def hi32 (w : Word64) : Nat := w.toNat / 2 ^ 32

/-- A stride-pattern entry (R378). -/
structure Stride where
  valid : Bool
  esz : Nat
  rows : Nat
  cols : Nat
  spitch : Nat
  dpitch : Nat
  clean : Bool
deriving DecidableEq, Repr

def Stride.ofBits (b : BitVec 256) : Stride :=
  let f (lo n : Nat) : Nat := b.toNat / 2 ^ lo % 2 ^ n
  { valid := f 0 1 == 1
    esz := 2 ^ f 1 2
    rows := f 32 16 + 1
    cols := f 48 16 + 1
    spitch := f 64 32
    dpitch := f 96 32
    clean := f 3 29 == 0 && f 128 128 == 0 }

/-- The conditions of R378 for a copy from a to b. -/
def Stride.ok (p : Stride) (a b : Word64) : Bool :=
  p.valid && p.clean && decide (p.cols * p.esz ≤ p.spitch) && decide (p.rows * p.esz ≤ p.dpitch) &&
    p.spitch % p.esz == 0 && p.dpitch % p.esz == 0 && a.toNat % p.esz == 0 && b.toNat % p.esz == 0

/-- Bytes of an element of CPYR's destination kind (R319). -/
def destBytes (dk : Nat) : Nat :=
  match dk with
  | 1 => 8
  | 2 => 2
  | _ => 4

/-- The format of CPYR's destination. -/
def destTy (dk : Nat) : Ty :=
  match dk with
  | 0 => .f32
  | 1 => .f64
  | 2 => .bf16
  | _ => .i32

/-- The rows that a slice writes: how many, bytes of each, pitch. An empty slice has none. -/
structure Rows where
  count : Nat
  len : Nat
  pitch : Nat
deriving DecidableEq, Repr

/-- The rows of a slice's destination. A CPYS with size code 11 has 8-byte elements, and w3[31:18] does not matter (DESIGN CHOICE, log 128:
R293 gives 00, 01 and 10). -/
def Copy.rows (c : Copy) (x : Slice) : Rows :=
  let r : Rows := match c.mode with
    | .plain => ⟨lo32 (x.w2 >>> 32) % 65536 + 1, lo32 x.w2, hi32 x.w3⟩
    | .tile =>
      let h := Handle.ofBytes c.entry
      ⟨hi32 x.w2, (lo32 x.w2 * h.elem.bits + 7) / 8, lo32 x.w3⟩
    | .tr =>
      let p := Stride.ofBits x.pattern
      ⟨p.cols, p.rows * p.esz, p.dpitch⟩
    | .mcast => ⟨x.members.length, x.w2.toNat, 0⟩
    | .flash => ⟨hi32 x.w2, 2 ^ 21, 2 ^ 21⟩
    | .rows => ⟨x.w3.toNat % 65536, 32 * 2 ^ (x.w3.toNat / 2 ^ 16 % 4), hi32 x.w3⟩
    | .reduce _ dk _ => ⟨if lo32 x.w2 = 0 then 0 else 1, lo32 x.w2 * destBytes dk, 0⟩
  if r.len = 0 || r.count = 0 then ⟨0, 0, 0⟩ else r

/-- The first address of a row of the destination. -/
def Copy.rowVa (c : Copy) (x : Slice) (r : Nat) : Word64 := x.w1 + BitVec.ofNat 64 (r * (c.rows x).pitch)

/-! ### Places -/

/-- Member m of the gang of a group, bound or not: a started copy runs to completion while its gang is evicted (R356). -/
def State.anyMember (s : State) (g m : Nat) : Option Nat :=
  (tabGet? s.groups g).bind fun gr =>
    if gr.packed then none
    else (s.groups.find? fun h => h.2.launch == gr.launch && h.2.gang == gr.gang && !h.2.packed && h.2.gidx == m).map (·.1)

/-- Live member m of the gang of a group, bound or not (R146, R291, R356). -/
def State.liveMember (s : State) (g m : Nat) : Option (Nat × Group) :=
  (s.anyMember g m).bind fun h => (tabGet? s.groups h).bind fun gr => if gr.retired then none else some (h, gr)

/-- The place that a copy reaches with n bytes at an address of a space; the row check is made unless rows is false. -/
def State.copyTarget (s : State) (c : Copy) (sp : Space) (va : Word64) (store rows : Bool) (n : Nat := 1) : Except Stop Target :=
  match sp with
  | .global => match s.translate c.vf va 1 .engine store rows with
    | .ok (.viaAlias ..) => .error (Stop.at .access va)
    | .ok (.byte a) => if s.hostSpan c.vf a n then .ok (.byte a) else .error (Stop.at .access va)
    | r => r
  | .spad => .ok (.byte (spadByte c.group va.toNat))
  | .cwin => match s.anyMember c.group (va.toNat / 2 ^ 20) with
    | some h => .ok (.byte (spadByte h (va.toNat % 2 ^ 20)))
    | none => .error (Stop.at .access va)

/-- The group-relative or window range that a start checks: its first byte, or the cause of R292. -/
def State.rangeOk (s : State) (g : Nat) (sp : Space) (va : Word64) (n : Nat) : Except Cause (Option Nat) :=
  let inGroup (h : Nat) (gr : Group) (off : Nat) : Except Cause (Option Nat) :=
    if off + n ≤ gr.spadLen then .ok (some (spadByte h off))
    else if gr.spadBase + off < 2 ^ 20 then .error .scratchpadBounds
    else .error .access
  match sp with
  | .global => .ok none
  | .spad => match tabGet? s.groups g with
    | some gr => inGroup g gr va.toNat
    | none => .error .access
  | .cwin =>
    if va.toNat / 2 ^ 25 ≠ 0 then .error .access
    else match s.liveMember g (va.toNat / 2 ^ 20) with
      | some (h, gr) => inGroup h gr (va.toNat % 2 ^ 20)
      | none => .error .access

/-- The path of a global destination at a physical address (R295, R316). -/
def pathOf (pa : Nat) : Path :=
  if pa / 2 ^ 44 = 0xE then .host
  else if pa / 2 ^ 44 = 0xF then
    if pa.testBit 43 then if pa / 2 ^ 40 % 8 = 1 ∨ pa / 2 ^ 40 % 8 = 2 then .rwin else .glob
    else if pa / 2 ^ 30 % 8 = 0 then .spad
    else if pa / 2 ^ 30 % 8 = 1 then .acc
    else .glob
  else .glob

/-- The path of a global address as it now translates, or none. -/
def State.pathAt (s : State) (vf : Nat) (va : Word64) : Option Path :=
  match s.walk vf (va.toNat % 2 ^ 56) with
  | .found pa _ _ => some (pathOf pa)
  | _ => none

/-- The paths of a copy's destinations, page by page, as they now translate; none for a page that does not (R295, R316). -/
def State.destPaths (s : State) (c : Copy) : List (Option Path) :=
  match c.mode, c.ds with
  | .flash, _ => [some .flash]
  | _, .spad => [some .spad]
  | _, .cwin => [some .clus]
  | _, .global => c.slices.flatMap fun x => s.pathAt c.vf x.w1 ::
      (List.range (c.rows x).count).flatMap fun r =>
        let lo := (c.rowVa x r).toNat
        (List.range ((lo + (c.rows x).len + 65535) / 65536 - lo / 65536)).map fun i =>
          s.pathAt c.vf (BitVec.ofNat 64 (65536 * (lo / 65536 + i)))

/-- DRAIN of a path waits for a copy: its writes have taken the path, or may still take it. -/
def State.copyInPath (s : State) (c : Copy) (path : Path) : Bool :=
  c.paths.contains path || (c.phase != .complete && (s.destPaths c).any fun q => match q with
    | some p => p == path
    | none => path != .flash && path != .clus)

/-- The copy has written in a path. -/
def State.tookPath (s : State) (k : Nat) (path : Path) : State :=
  { s with copies := tabModify s.copies k fun c => { c with paths := if c.paths.contains path then c.paths else path :: c.paths } }

/-! ### Supplying a slice (R290, R316 to R319) -/

/-- The uses of a copy command: four s registers from a multiple of four. -/
def usesCopy (w : XWord) : List Use := [{ letter := .a, opd := w.a, want := wantS, read := true, span := 4 }]

/-- The copies of a group, and those started on a core and not yet complete. -/
def State.copyOf (s : State) (g k : Nat) : Option (Nat × Copy) := s.copies.find? fun c => c.2.group == g && c.2.ordinal == k

def State.collecting (s : State) (g : Nat) : Nat := (s.copies.filter fun c => c.2.group == g && c.2.phase == .collecting).length

def State.copying (s : State) (core : Nat) : Nat :=
  (s.copies.filter fun c => c.2.core == core && (c.2.phase == .starting || c.2.phase == .running)).length

/-- Every team of the group has supplied a slice, or has exited (R290). -/
def State.allSupplied (s : State) (g : Group) (idxs : List Nat) : Bool :=
  g.teams.all fun t => (tabGet? s.teams t).elim true fun tm =>
    idxs.contains tm.idx || tm.phase == .ended || tm.phase == .retired

/-- A slice in its place. -/
def insertSlice (x : Slice) : List Slice → List Slice
  | [] => [x]
  | y :: rest => if x.idx < y.idx then x :: y :: rest else y :: insertSlice x rest

/-- The copy starts (R230): it takes the views of its slices, and what the launches before its own released (R337); the reading in
follows. -/
def State.startCopy (s : State) (c : Copy) (core : Nat) : Copy :=
  { c with
    phase := .starting
    order := s.nextId
    core := core
    pv := { acq := [⟨.group c.group, c.slices.foldl (fun v x => viewJoin v x.view) []⟩,
      ⟨.package, (tabGet? s.launches c.launch).elim [] (·.start)⟩] } }

/-- One copy command of a team (R290): its slice, and the start when it is the last. -/
def State.supply (s : State) (p : Pred) (w : XWord) (mode : CopyMode) : Host.Outcome State Fault Refusal :=
  s.instruct p (usesCopy w) (fun tm => w.a.num.toNat % 4 == 0 && barOk s w tm) fun r =>
    match s.groupOfTeam r.tm with
    | none => trapPlain .illegalOperand
    | some g => do
      let k := r.tm.copies
      let reg (i : Nat) : Word64 := r.tm.sGet (w.a.num.toNat + i)
      let bar := if w.be then some w.bn.toNat else none
      let x : Slice := {
        team := r.t, idx := r.tm.idx, w0 := reg 0, w1 := reg 1, w2 := reg 2, w3 := reg 3
        view := r.tm.pv.released (.group r.tm.group), members := [], masks := [], pattern := 0, tags := [] }
      let (id, c) := match s.copyOf r.tm.group k with
        | some (id, c) => (id, { c with
            slices := insertSlice x c.slices
            differ := c.differ || c.mode != mode || c.handle != w.handle.toNat || c.bar != bar || c.cimm != w.cimm })
        | none => (s.nextId, {
            group := r.tm.group, launch := r.tm.launch, vf := s.vfOf r.tm, ordinal := k, mode := mode
            handle := w.handle.toNat, bar := bar, cimm := w.cimm, phase := .collecting, slices := [x], differ := false
            order := 0, core := 0, paths := [], pv := {}, fault := none, reported := false, told := false, entry := [], lines := []
            extent := (0, 0), checked := false, turns := [], blocked := none, pc := r.tm.pc })
      let last := s.allSupplied g (c.slices.map (·.idx))
      waitFor (decide (id ≠ s.nextId || s.collecting r.tm.group < 16) &&
        (!last || decide (s.copying (g.core.getD 0) < 64))) .collect
      let c1 := if last then s.startCopy c (g.core.getD 0) else c
      .ok ({ s with copies := tabSet s.copies id c1, nextId := s.nextId + 1 }.onTeam r.t fun tm =>
        { tm.number.finish true with copies := k + 1 })

/-- CPY.plain (R291, R317). -/
def execCpyPlain (p : Pred) (w : XWord) (s : State) : Host.Outcome State Fault Refusal := s.supply p w .plain

/-- CPY.tile (R291, R317). -/
def execCpyTile (p : Pred) (w : XWord) (s : State) : Host.Outcome State Fault Refusal := s.supply p w .tile

/-- CPY.tr (R291, R317). -/
def execCpyTr (p : Pred) (w : XWord) (s : State) : Host.Outcome State Fault Refusal := s.supply p w .tr

/-- CPY.mcast (R291, R317). -/
def execCpyMcast (p : Pred) (w : XWord) (s : State) : Host.Outcome State Fault Refusal := s.supply p w .mcast

/-- CPY.flash (R291, R317). -/
def execCpyFlash (p : Pred) (w : XWord) (s : State) : Host.Outcome State Fault Refusal := s.supply p w .flash

/-- CPYS (R293, R318). -/
def execCpys (p : Pred) (w : XWord) (s : State) : Host.Outcome State Fault Refusal := s.supply p w .rows

/-- CPYR (R294, R319). -/
def execCpyr (p : Pred) (t : Ty) (w : XWord) (s : State) : Host.Outcome State Fault Refusal :=
  s.supply p w (.reduce t (w.imm 9 8) (w.imm 14 10))

/-! ### Reading in (R292, R317) -/

/-- How a move of a copy or a command ends when it does not succeed: it waits for a translation, or while a swap holds a region
(R196), it meets a fatal row check, or it faults with a cause and the bits that R347 adds. -/
inductive CopyStop where
  | wait (va : Word64)
  | held
  | fatal (va : Word64)
  | fault (c : Cause) (extra : Nat)
deriving DecidableEq, Repr

/-- The move is tried again later. -/
def CopyStop.waits : CopyStop → Bool
  | .wait _ | .held => true
  | _ => false

def Stop.copy : Stop → CopyStop
  | .trap c _ _ => .fault c 0
  | .park va _ => .wait va
  | .fatal va => .fatal va
  | .wait _ => .held

def copyFault {α : Type} (c : Cause) (extra : Nat := 0) : Except CopyStop α := .error (.fault c extra)

def copyNeed (b : Bool) (c : Cause) : Except CopyStop Unit := if b then .ok () else copyFault c

/-- A result of an access as a copy takes it. -/
def viaStop {α : Type} : Except Stop α → Except CopyStop α
  | .ok a => .ok a
  | .error e => .error e.copy

/-- No swap holds the bytes (R196). -/
def State.copyFree (s : State) (a n : Nat) : Except CopyStop Unit := if s.swapping a n then .error .held else .ok ()

/-- Every page of n bytes at a virtual address translates to main memory through code 0x0 (R317). -/
def State.mainOnly (s : State) (c : Copy) (va : Word64) (n : Nat) (store : Bool) : Except CopyStop Unit :=
  (List.range (n / 65536 + 2)).foldlM (fun _ i =>
    let off := if i = 0 then 0 else i * 65536 - va.toNat % 65536
    if n ≤ off then .ok ()
    else do
      let a := va + BitVec.ofNat 64 off
      let tg ← viaStop (s.translate c.vf a 1 .engine store)
      match tg with
      | .byte b => copyNeed (decide (b < 2 ^ 40)) .illegalOperand
      | _ => copyFault .illegalOperand) ()

/-- The handle of a .tile copy as read at the start, its list checked, by the copy's party. -/
def State.copyHandle (s : State) (k : Nat) (c : Copy) : Except CopyStop (List Byte × State) := do
  let bad : Except CopyStop (List Byte × State) := copyFault .handleInvalid
  match tabGet? s.launches c.launch with
  | none => bad
  | some la =>
    if la.htb = 0 then bad
    else do
      let tg ← viaStop (s.translate c.vf (la.entryVa c.handle) 64 .engine false)
      match tg with
      | .byte a =>
        s.copyFree a 64
        copyNeed (s.markAt a 64).isNone .softError
        let (bs, s1) := s.readEntry (.copy k) none a
        let h := Handle.ofBytes bs
        if !h.ok || h.type = 3 then bad
        else do
          copyNeed (h.rank == 2) .illegalOperand
          let s2 ← (List.range (if h.type = 4 then h.lcount else 0)).foldlM (fun (s : State) i => do
            let (d, s2) ← viaStop (s.readVa (.copy k) none c.vf (h.ptr + BitVec.ofNat 64 (32 * i)) 32 .engine)
            if (Layer.ofBytes d).ok then .ok s2 else copyFault .handleInvalid) (s1.underEntry (.copy k) a)
          .ok (bs, { s2 with under := none })
      | _ => copyFault .access

/-- The alignment that R209 gives a format, in bytes. -/
def Elem.align : Elem → Nat
  | .ty .tap6 => 8
  | .ty t => t.bits / 8
  | .b1 => 4
  | .i4 => 1

/-- What the start reads for one slice, and the checks of its words (R291 to R294, R317 to R319, R378, R380). -/
def State.readSlice (s : State) (k : Nat) (c : Copy) (x : Slice) : Except CopyStop (Slice × State) := do
  match c.mode with
  | .tile => do
    let e := (Handle.ofBytes c.entry).elem
    let len := (lo32 x.w2 * e.bits + 7) / 8
    copyNeed (x.w1.toNat % e.align == 0 && lo32 x.w3 % e.align == 0 && decide (len ≤ lo32 x.w3)) .illegalOperand
    .ok (x, s)
  | .tr => do
    let n := x.w2.toNat % 256
    copyNeed (x.w2.toNat / 256 == 0 && x.w3 == 0) .illegalOperand
    let b := tabGet (s.ctx c.vf).patterns n 0
    let p := Stride.ofBits b
    if p.ok x.w0 x.w1 then do
      (List.range p.rows).foldlM (fun _ i => s.mainOnly c (x.w0 + BitVec.ofNat 64 (p.spitch * i)) (p.cols * p.esz) false) ()
      .ok ({ x with pattern := b }, s)
    else copyFault .stridePattern n
  | .mcast => .ok ({ x with members :=
      ((List.range 32).filter fun i => x.w3.getLsbD i).filterMap fun i => (s.liveMember c.group i).map (·.1) }, s)
  | .flash => do
    let count := hi32 x.w2
    copyNeed (x.w1.toNat % 4096 == 0 && x.w3.toNat % 4096 == 0) .illegalOperand
    match tabGet? s.flash (x.w0.toNat / 2 ^ 48) with
    | none => copyFault .access
    | some f => do
      copyNeed f.blocks4k .illegalOperand
      copyNeed (f.grants.getLsbD c.vf) .access
      s.mainOnly c x.w1 (2 ^ 21 * count) true
      let (ts, s1) ← (List.range count).foldlM (fun (acc : List Nat × State) i => do
        let (t, s1) ← viaStop (acc.2.readVa (.copy k) none c.vf (x.w3 + BitVec.ofNat 64 (32 * (lo32 x.w2 + i))) 32 .engine)
        .ok (ofBytesLE t :: acc.1, s1)) ([], s)
      .ok ({ x with tags := ts.reverse }, s1)
  | .reduce .. => do
    copyNeed (hi32 x.w2 == 0 && x.w3 == 0) .illegalOperand
    .ok (x, s)
  | _ => .ok (x, s)

/-- The source range of a row that a start can check. -/
def Copy.sourceRow (c : Copy) (x : Slice) (r : Nat) : Option (Word64 × Nat) :=
  match c.mode with
  | .plain => some (x.w0 + BitVec.ofNat 64 (r * lo32 x.w3), lo32 x.w2)
  | .mcast => some (x.w0, x.w2.toNat)
  -- the packed values are checked once the masks are known
  | .rows => some (x.w2 + BitVec.ofNat 64 (4 * r), 4)
  | .reduce t _ _ => some (x.w0, if t = .tap6 then (lo32 x.w2 * 6 + 7) / 8 else lo32 x.w2 * (t.bits / 8))
  | _ => none

/-- The runs of a row of the destination, page by page: the first column of each, its byte address where its page translates now, its
length. -/
def State.rowRuns (s : State) (c : Copy) (x : Slice) (r : Nat) : List (Nat × Option Nat × Nat) :=
  let n := (c.rows x).len
  let place (sp : Space) (va : Word64) : Option Nat := (s.copyTarget c sp va true false).toOption.map (·.addr)
  match c.mode, c.ds with
  | .mcast, _ => [(0, some (spadByte (nth 0 x.members r) x.w1.toNat), n)]
  | _, .global =>
    let lo := (c.rowVa x r).toNat
    (List.range ((lo + n + 65535) / 65536 - lo / 65536)).map fun i =>
      let a := Nat.max lo (65536 * (lo / 65536 + i))
      (a - lo, place .global (BitVec.ofNat 64 a), Nat.min (lo + n) (65536 * (lo / 65536 + i + 1)) - a)
  | _, sp => [(0, place sp (c.rowVa x r), n)]

/-- The bytes of a row of the destination that are known at the start: a range of a scratchpad, or the runs that a global
address now translates to. -/
def State.destRuns (s : State) (c : Copy) (x : Slice) (r : Nat) : Except Cause (List (Nat × Nat)) :=
  let n := (c.rows x).len
  match c.mode with
  | .mcast => match x.members[r]? with
    | none => .ok []
    | some h => match s.rangeOk h .spad x.w1 n with
      | .ok (some a) => .ok [(a, n)]
      | .ok none => .ok []
      | .error e => .error e
  | _ => match s.rangeOk c.group c.ds (c.rowVa x r) n with
    | .ok (some a) => .ok [(a, n)]
    | .ok none => match s.span c.vf (c.rowVa x r) n .engine true with
      | .ok runs => .ok (runs.map (·.2))
      | .error _ => .ok []
    | .error e => .error e

/-- A write of the copy there would meet a region that was moored before the copy started (R273, R292). -/
def State.copyMoored (s : State) (c : Copy) (a n : Nat) : Bool :=
  decide (2 ^ 48 ≤ a) && decide ((a - 2 ^ 48) / 2 ^ 20 % 2 = 0) &&
    ((tabGet? s.groups ((a - 2 ^ 48) / 2 ^ 20 / 2)).elim false fun g => g.moors.any fun m =>
      decide (m.order ≤ c.order) && runsMeet (m.rb, m.len) ((a - 2 ^ 48) % 2 ^ 20, n))

/-- The bounds and the moored regions of a slice, checked before any access (R292). -/
def State.checkSlice (s : State) (c : Copy) (x : Slice) : Except CopyStop Unit :=
  (List.range (c.rows x).count).foldlM (fun _ r => do
    match c.sourceRow x r with
    | some (va, n) => match s.rangeOk c.group c.ss va n with
      | .ok _ => .ok ()
      | .error e => copyFault e
    | none => .ok ()
    match s.destRuns c x r with
    | .error e => copyFault e
    | .ok runs => copyNeed (runs.all fun a => !s.copyMoored c a.1 a.2) .mooredWrite) ()

/-- The reading in of a copy: its slices as they will be moved. -/
def State.readCopy (s : State) (k : Nat) (c : Copy) : Except CopyStop (Copy × State) := do
  copyNeed (!c.differ) .illegalOperand
  let (entry, s1) ← match c.mode with
    | .tile => s.copyHandle k c
    | _ => .ok ([], s)
  let c1 := { c with entry := entry }
  let (xs, s2) ← c1.slices.foldlM (fun (acc : List Slice × State) x => do
    let (x1, s2) ← acc.2.readSlice k c1 x
    .ok (acc.1 ++ [x1], s2)) ([], s1)
  let c2 := { c1 with slices := xs }
  let _ ← xs.foldlM (fun (_ : Unit) x => s2.checkSlice c2 x) ()
  .ok (c2, s2)

/-- An access of a copy for its slice at a place in the list. -/
def Copy.access (c : Copy) (k pos : Nat) (kind : AccKind) : Access where
  party := .copy k
  seq := pos
  path := .glob
  vf := c.vf
  launch := c.launch
  pc := c.pc
  lane := 0
  va := 0
  loc := bindLoc (2 ^ 60 + k)
  size := 0
  kind := kind
  ord := .relaxed
  scope := .team
  prod := none

/-- The units of a slice: bytes of its rows, or elements. -/
def Copy.units (c : Copy) (x : Slice) : Nat :=
  match c.mode with
  | .reduce .. => lo32 x.w2
  | _ => (c.rows x).count * (c.rows x).len

/-- The member that a slice of a CPYR to a peer reaches. -/
def Slice.peer (x : Slice) : Nat := x.w1.toNat / 2 ^ 20 % 32

/-- The members whose turn a CPYR takes: that of each slice, or of its first when all are empty. -/
def Copy.peers (c : Copy) : List Nat :=
  match c.mode, c.ds with
  | .reduce .., .cwin =>
    let ms := (c.slices.filter fun x => c.units x != 0).map Slice.peer
    (if ms = [] then c.slices.take 1 |>.map Slice.peer else ms).eraseDups
  | _, _ => []

/-- The accesses of a copy that has been read in. -/
def State.launchCopy (s : State) (k : Nat) (c : Copy) : State :=
  let s1 := { s with copies := tabSet s.copies k { c with phase := .running, turns := c.peers.map fun m => (m, false) } }
  (List.range c.slices.length).foldl (fun s i => match c.slices[i]? with
    | none => s
    | some x =>
      if c.units x = 0 then s
      else match c.mode with
        | .flash => s
        | .rows => s.addAccess (c.access k i .copyMasks)
        | _ => s.addAccess (c.access k i (.copyRun [(0, c.units x)]))) s1

/-- The copy faults (R292): it stops, and what it has not moved is dropped. -/
def State.faultCopy (s : State) (k : Nat) (cause extra : Nat) : State :=
  { s with
    pend := s.pend.filter fun a => a.2.party != .copy k
    copies := tabModify s.copies k fun c => { c with
      phase := .running
      turns := if c.phase = .starting then c.peers.map fun m => (m, false) else c.turns
      fault := if c.fault.isSome then c.fault else some (cause, extra) } }

/-- The copy meets a fatal row check (R199). -/
def State.fatalCopy (s : State) (k : Nat) (c : Copy) (va : Word64) : State :=
  (s.faultCopy k Cause.access.code 0).fatal ((c.slices.head?).elim 0 (·.team)) c.pc va

/-- The copy waits for a translation, which is reported once (R292, R374). -/
def State.blockCopy (s : State) (k : Nat) (c : Copy) (va : Word64) : State :=
  if c.blocked = some va then s
  else
    let s1 := { s with copies := tabSet s.copies k { c with blocked := some va } }
    s1.report c.vf va 4 ((tabGet? s.launches c.launch).elim 0 (·.lnum))

/-- A stop of a copy acted on. -/
def State.stopCopy (s : State) (k : Nat) (c : Copy) : CopyStop → State
  | .wait va => s.blockCopy k c va
  | .held => s
  | .fatal va => s.fatalCopy k c va
  | .fault e extra => s.faultCopy k e.code extra

/-! ### Moving one unit (R230, R291, R293) -/

/-- The intervals without the units from a, n of them. -/
def cutUnits (a n : Nat) : List (Nat × Nat) → List (Nat × Nat)
  | [] => []
  | (lo, hi) :: rest =>
    (if lo < a then [(lo, Nat.min hi a)] else []) ++ (if a + n < hi then [(Nat.max lo (a + n), hi)] else []) ++
      cutUnits a n rest

/-- A unit is still to move. -/
def hasUnit (todo : List (Nat × Nat)) (u : Nat) : Bool := todo.any fun i => decide (i.1 ≤ u) && decide (u < i.2)

/-- The unit at a place among those still to move. -/
def nthUnit : List (Nat × Nat) → Nat → Option Nat
  | [], _ => none
  | (lo, hi) :: rest, n => if n < hi - lo then some (lo + n) else nthUnit rest (n - (hi - lo))

def countUnits (todo : List (Nat × Nat)) : Nat := todo.foldl (fun n i => n + (i.2 - i.1)) 0

/-- The unit that the next move takes: the first one left, or the one that a pick names. -/
def State.pickUnit (s : State) (todo : List (Nat × Nat)) : Option Nat × State :=
  match s.picks with
  | [] => (nthUnit todo 0, s)
  | n :: rest => (nthUnit todo (n % Nat.max 1 (countUnits todo)), { s with picks := rest })

/-- One byte read by a copy; a marked one is consumed. -/
def State.copyByte (s : State) (k : Nat) (c : Copy) (sp : Space) (va : Word64) : Except CopyStop (Byte × State) := do
  let tg ← viaStop (s.copyTarget c sp va false true)
  s.copyFree tg.addr 1
  copyNeed (s.markAt tg.addr 1).isNone .softError
  let (bs, s1) := s.readAt (.copy k) none tg.addr 1
  .ok (bs.headD 0, s1)

/-- The handle under which a .tile copy reads the line of an element of a slice: the entry as that line has read it, each line
separately (R238). Line and format are those of the start; an entry that is no dense one of that format and rank 2 any more leaves the
entry of the start (DESIGN CHOICE, log 36). -/
def State.lineEntry (s : State) (k : Nat) (cp : Copy) (idx : Nat) (xs : List Nat) : Except CopyStop (Handle × State) :=
  let h0 := Handle.ofBytes cp.entry
  let key := idx * 2 ^ 58 + (h0.base + BitVec.ofNat 64 (h0.elem.spot (h0.index xs)).off).toNat / 64
  let keep (s : State) (bs : List Byte) : Handle × State :=
    (Handle.ofBytes bs, { s with copies := tabModify s.copies k fun c => { c with lines := tabSet c.lines key bs } })
  match tabGet? ((tabGet? s.copies k).elim [] (·.lines)) key with
  | some bs => .ok (Handle.ofBytes bs, s)
  | none => match s.useHandle (.copy k) cp.vf cp.launch cp.handle with
    | .ok (h, a, s1) =>
      .ok (keep s1 (if h.type ≤ 2 ∧ h.rank = 2 ∧ h.fmt = h0.fmt then (s.readEntry (.copy k) none a).1 else cp.entry))
    | .error (.trap .handleInvalid _ _) => .ok (keep s cp.entry)
    | .error e => .error e.copy

/-- The bits of element (c, r) of a tile as a .tile copy reads them: zero outside the extents. -/
def State.tileElem (s : State) (k : Nat) (cp : Copy) (idx : Nat) (xs : List Nat) : Except CopyStop (Nat × State) := do
  let (h, s0) ← s.lineEntry k cp idx xs
  if !h.inside xs then .ok (0, s0)
  else do
    let q := h.elem.spot (h.index xs)
    let (bs, s1) ← (List.range q.bytes).foldlM (fun (acc : List Byte × State) i => do
      let (b, s1) ← acc.2.copyByte k cp .global (h.base + BitVec.ofNat 64 (q.off + i))
      .ok (acc.1 ++ [b], s1)) ([], s0)
    .ok (ofBytesLE bs / 2 ^ q.shift % 2 ^ h.elem.bits, s1)

/-- Byte col of row r of a tile of a handle that is not layered: the bits of the elements that lie in it. -/
def State.tileByte (s : State) (k : Nat) (cp : Copy) (x : Slice) (r col : Nat) : Except CopyStop (Byte × State) :=
  let h := Handle.ofBytes cp.entry
  let w := h.elem.bits
  let at_ (e : Nat) : List Nat := [lo32 x.w0 + e, hi32 x.w0 + r]
  if 8 ≤ w then do
    let e := col / (w / 8)
    let (h, s0) ← s.lineEntry k cp x.idx (at_ e)
    if !h.inside (at_ e) then .ok (0, s0)
    else s0.copyByte k cp .global (h.base + BitVec.ofNat 64 ((h.elem.spot (h.index (at_ e))).off + col % (w / 8)))
  else do
    let first := 8 * col / w
    let last := Nat.min ((8 * col + 7) / w) (lo32 x.w2 - 1)
    let (n, s1) ← (List.range (last + 1 - first)).foldlM (fun (acc : Nat × State) i => do
      let e := first + i
      let (v, s1) ← acc.2.tileElem k cp x.idx (at_ e)
      .ok (acc.1 + (if 8 * col ≤ w * e then v * 2 ^ (w * e - 8 * col) else v / 2 ^ (8 * col - w * e)), s1)) (0, s)
    .ok (BitVec.ofNat 8 n, s1)

/-- The elements of the masks before bit i of row r that are set (R293). -/
def Slice.packed (x : Slice) (r i : Nat) : Nat :=
  (List.range r).foldl (fun n j => n + countOnes (nth 0 x.masks j) 32) (countOnes (nth 0 x.masks r) i)

/-- The byte that a copy writes at byte col of row r of a slice. -/
def State.copyValue (s : State) (k : Nat) (c : Copy) (x : Slice) (r col : Nat) : Except CopyStop (Byte × State) :=
  match c.mode with
  | .plain => s.copyByte k c c.ss (x.w0 + BitVec.ofNat 64 (r * lo32 x.w3 + col))
  | .tile => s.tileByte k c x r col
  | .tr =>
    let p := Stride.ofBits x.pattern
    s.copyByte k c .global (x.w0 + BitVec.ofNat 64 (col / p.esz * p.spitch + r * p.esz + col % p.esz))
  | .mcast => s.copyByte k c c.ss (x.w0 + BitVec.ofNat 64 col)
  | .rows =>
    let es := 2 ^ (x.w3.toNat / 2 ^ 16 % 4)
    let i := col / es
    if (nth 0 x.masks r).testBit i then s.copyByte k c c.ss (x.w0 + BitVec.ofNat 64 (x.packed r i * es + col % es))
    else .ok (0, s)
  | .flash =>
    let f := tabGet? s.flash (x.w0.toNat / 2 ^ 48)
    .ok (f.elim 0 fun f => memGet f.bytes (4096 * (x.w0.toNat % 2 ^ 48 + 512 * r) + col), s)
  | .reduce .. => .ok (0, s)

/-- Where byte col of row r of a slice is written. -/
def State.copyDest (s : State) (c : Copy) (x : Slice) (r col : Nat) : Except CopyStop Target :=
  match c.mode with
  | .mcast => .ok (.byte (spadByte (nth 0 x.members r) (x.w1.toNat + col)))
  | _ => viaStop (s.copyTarget c c.ds (c.rowVa x r + BitVec.ofNat 64 col) true true)

/-- Some of n units from a are still to move. -/
def hasUnits (todo : List (Nat × Nat)) (a n : Nat) : Bool := todo.any fun i => decide (i.1 < a + n) && decide (a < i.2)

/-- A slice of a lower team is still to read what it writes at the byte of an address, or in a page that does not translate yet: a write
of a higher one waits, and so prevails (R290). -/
def State.lowerWrites (s : State) (c : Copy) (pend : List Access) (pos a : Nat) : Bool :=
  pend.any fun b => decide (b.seq < pos) && (match b.kind, c.slices[b.seq]? with
    | .copyRun todo, some y =>
      let q := c.rows y
      (List.range q.count).any fun r => (s.rowRuns c y r).any fun run => match run.2.1 with
        | some b => decide (b ≤ a) && decide (a < b + run.2.2) && hasUnit todo (r * q.len + run.1 + (a - b))
        | none => hasUnits todo (r * q.len + run.1) run.2.2
    | .copyMasks, some _ => true
    | _, _ => false)

/-- How many bytes one write of a copy takes at a destination: a marked word, a register word of an image, or one byte. -/
def State.chunk (s : State) (tg : Target) : Nat × Nat :=
  if (s.markAt tg.addr 1).isSome then (8, tg.addr % 8)
  else match tg with
  | .image a _ => match s.imageOwner a with
    | some (_, tm) => match tm.imagePart (a - tm.image) with
      | .s _ => (8, a % 8)
      | _ => (4, a % 4)
    | none => (1, 0)
  | _ => (1, 0)

/-- The path of a place that a copy other than .flash writes in a space (R295, R316). -/
def Target.copyPath (sp : Space) (tg : Target) : Path :=
  match sp with
  | .spad => .spad
  | .cwin => .clus
  | .global => match tg with
    | .image .. => .rwin
    | .byte a => if 2 ^ 48 ≤ a then if (a - 2 ^ 48) / 2 ^ 20 % 2 = 1 then .acc else .spad
        else if hostByte 0 ≤ a then .host else .glob
    | _ => .glob

/-- The path in which a write of a copy counts (R295). -/
def Copy.pathOf (c : Copy) (tg : Target) : Path := if c.mode == .flash then .flash else tg.copyPath c.ds

/-- The write of the bytes of one chunk enters the path buffer of its destination path (R222, R230). -/
def State.copyWrite (s : State) (k : Nat) (c : Copy) (pos : Nat) (tg : Target) (bs : List Byte) : Except CopyStop State :=
  let enter (kind : AccKind) : State :=
    s.addAccess { c.access k pos kind with path := c.pathOf tg, loc := byteLoc tg.addr, size := bs.length }
  match tg with
  | .image a e => match s.windowCheck a bs.length true e 0 with
    | some x => .error x.copy
    | none => .ok (enter (if e then .windowEmpty else .windowWrite bs))
  | .light _ | .viaAlias .. => copyFault .access
  | .byte a => do
    copyNeed (!s.copyMoored c a bs.length) .mooredWrite
    .ok (enter (.write bs (List.replicate bs.length 0xFF)))

/-- The elements of a layered tile, by row and column, that lie in the line of the element at byte col of row r. -/
def Copy.lineElems (c : Copy) (x : Slice) (r col : Nat) : List (Nat × Nat) :=
  let h := Handle.ofBytes c.entry
  let es := h.elem.bits / 8
  let line (r e : Nat) : Nat := (h.base + BitVec.ofNat 64 (es * h.index [lo32 x.w0 + e, hi32 x.w0 + r])).toNat / 64
  let here := line r (col / es)
  (List.range (c.rows x).count).flatMap fun r1 =>
    ((List.range (lo32 x.w2)).filter fun e => line r1 e == here).map fun e => (r1, e)

/-- The bytes that those elements fill, by row and column. -/
def Copy.lineBytes (c : Copy) (x : Slice) (r col : Nat) : List (Nat × Nat) :=
  let es := (Handle.ofBytes c.entry).elem.bits / 8
  (c.lineElems x r col).flatMap fun q => (List.range es).map fun b => (q.1, q.2 * es + b)

/-- The writes of the bytes of a line that has been formed: each a write of its own, but the bytes of a marked word one, where they
replace it whole; elsewhere a marked word faults the copy (R361). -/
def State.lineWrites (s : State) (k : Nat) (c : Copy) (x : Slice) (pos : Nat) : List ((Nat × Nat) × Byte) → Except CopyStop State
  | [] => .ok s
  | (q, b) :: rest => do
    let a := (← s.copyDest c x q.1 q.2).addr
    let s1 ← s.lineWrites k c x pos rest
    let write (n : Nat) (data : List Byte) : State := s1.addAccess { c.access k pos (.write data (List.replicate n 0xFF)) with
      path := c.pathOf (.byte a), loc := byteLoc a, size := n }
    if (s.markAt a 1).isNone then .ok (write 1 [b])
    else
      let data := ((q, b) :: rest).take 8
      if a % 8 = 0 then
        if data.map (·.1) == (List.range 8).map (fun i => (q.1, q.2 + i)) then .ok (write 8 (data.map (·.2)))
        else copyFault .softError
      else .ok s1

/-- Every marked word that the bytes of a line reach is reached from its first byte on. -/
def State.lineWhole (s : State) (c : Copy) (x : Slice) (qs : List (Nat × Nat)) : Bool :=
  qs.all fun q => match s.copyDest c x q.1 q.2 with
    | .ok tg => (s.markAt tg.addr 1).isNone || (decide (tg.addr % 8 ≤ q.2) && qs.contains (q.1, q.2 - tg.addr % 8))
    | .error _ => true

/-- The bytes of one line of a layered tile, formed under one triple in one move (R213, R214). -/
def State.layeredLine (s : State) (k : Nat) (c : Copy) (x : Slice) (pos id r col : Nat) (todo : List (Nat × Nat)) :
    Except CopyStop State := do
  let h0 := Handle.ofBytes c.entry
  let es := h0.elem.bits / 8
  let elems := c.lineElems x r col
  let (n, s0) ← match s.useHandle (.copy k) c.vf c.launch c.handle with
    | .ok (h, a, s1) => .ok (if h.type = 4 ∧ h.fmt = h0.fmt then (h, h.lcount) else (h0, 0), s1.underEntry (.copy k) a)
    | .error (.trap .handleInvalid _ _) => .ok ((h0, 0), s)
    | .error e => .error e.copy
  let (ls, s1) ← viaStop (s0.layerList (.copy k) c.vf c.handle n.1 n.2)
  let (bs, s2) ← elems.foldlM (fun (acc : List ((Nat × Nat) × Byte) × State) q => do
    let (v, s2) ← if n.1.inside [lo32 x.w0 + q.2, hi32 x.w0 + q.1] then
        viaStop (acc.2.layeredElem (.copy k) none c.vf n.1 ls (hi32 x.w0 + q.1) (lo32 x.w0 + q.2))
      else .ok (0, acc.2)
    Except.ok (ε := CopyStop) (acc.1 ++ (List.range es).map (fun b => ((q.1, q.2 * es + b), BitVec.ofNat 8 (v / 2 ^ (8 * b)))), s2))
    ([], s1)
  copyNeed (s2.lineWhole c x (bs.map (·.1))) .softError
  let s3 ← s2.lineWrites k c x pos bs
  let len := (c.rows x).len
  .ok { s3 with
    formed := []
    under := none
    pend := tabModify s3.pend id fun a => { a with
      kind := .copyRun (elems.foldl (fun t q => cutUnits (q.1 * len + q.2 * es) es t) todo) } }

/-- The units of an access after some have been moved; the last one ends it. -/
def State.unitsDone (s : State) (id : Nat) (todo : List (Nat × Nat)) (a n : Nat) : State :=
  let rest := cutUnits a n todo
  if rest = [] then s.performed id
  else { s with pend := tabModify s.pend id fun x => { x with kind := .copyRun rest } }

/-- The other pending accesses of a copy. -/
def State.copyPend (s : State) (k : Nat) : List Access := (s.pend.filter fun a => a.2.party == .copy k).map (·.2)

/-- A write of a copy stands behind a slice of a lower team that is still to read what it writes there (R290). -/
def State.copyBehind (s : State) (k : Nat) (a : Access) : Bool :=
  match tabGet? s.copies k with
  | none => false
  | some c => a.loc % 3 == 0 && (List.range a.size).any fun i => s.lowerWrites c (s.copyPend k) a.seq (a.addr + i)

/-- A copy of bytes reads a unit, and its write enters the path buffer (R230, R291, R293). -/
def State.moveByte (s : State) (k : Nat) (c : Copy) (id : Nat) (a : Access) (x : Slice) (todo : List (Nat × Nat))
    (u : Nat) : Except CopyStop State := do
  let q := c.rows x
  let r := u / q.len
  let col := u % q.len
  let tg ← s.copyDest c x r col
  if c.mode == .rows && (s.copyPend k).any fun b => b.kind == .copyMasks then .ok s
  else if c.mode == .tile && (Handle.ofBytes c.entry).type == 4 then s.layeredLine k c x a.seq id r col todo
  else
    let (n, back) := s.chunk tg
    let col0 := col - back
    let whole := decide (back ≤ col) && decide (col0 + n ≤ q.len) &&
      (List.range n).all fun i => hasUnit todo (r * q.len + col0 + i)
    if !whole then copyFault (if (s.markAt tg.addr 1).isSome then .softError else .misaligned)
    else do
      let tg0 ← s.copyDest c x r col0
      let (bs, s1) ← (List.range n).foldlM (fun (acc : List Byte × State) i => do
        let (b, s1) ← acc.2.copyValue k c x r (col0 + i)
        .ok (acc.1 ++ [b], s1)) ([], s)
      let s2 ← s1.copyWrite k c a.seq tg0 bs
      .ok ((s2.unitsDone id todo (r * q.len + col0) n).tookPath k (c.pathOf tg0))

/-! ### Reduce-stores (R294) -/

/-- The value of a destination element after one addition: one rounding, or a wrap. -/
def reduceAdd (t : Ty) (dk old x : Nat) : Nat :=
  if dk = 3 then wrapBits 32 (intOf true 32 old + intOf true t.bits x)
  else
    let f := tyFmt (destTy dk)
    (f.round .rn false (FNum.add .rn (f.decode old) (tyValue t x)).1).1

/-- Source element i of a CPYR. -/
def State.reduceSource (s : State) (k : Nat) (c : Copy) (x : Slice) (t : Ty) (i : Nat) : Except CopyStop (Nat × State) := do
  let q : Spot := match t with
    | .tap6 => (Elem.ty .tap6).spot i
    | _ => ⟨t.bits / 8 * i, t.bits / 8, 0⟩
  let va := x.w0 + BitVec.ofNat 64 q.off
  if va.toNat % q.bytes = 0 then do
    let tg ← viaStop (s.copyTarget c c.ss va false true q.bytes)
    s.copyFree tg.addr q.bytes
    copyNeed (s.markAt tg.addr q.bytes).isNone .softError
    let (bs, s1) := s.readAt (.copy k) none tg.addr q.bytes
    .ok (ofBytesLE bs / 2 ^ q.shift % 2 ^ (Elem.ty t).bits, s1)
  else do
    let (bs, s1) ← (List.range q.bytes).foldlM (fun (acc : List Byte × State) j => do
      let (b, s1) ← acc.2.copyByte k c c.ss (va + BitVec.ofNat 64 j)
      .ok (acc.1 ++ [b], s1)) ([], s)
    .ok (ofBytesLE bs / 2 ^ q.shift % 2 ^ (Elem.ty t).bits, s1)

/-- The place of barrier bk of member m in a turn: it may begin when so many have been applied, no other has begun, and none
of a lower turn, or an earlier one of the same turn, is pending there (R294). -/
def State.turnMay (s : State) (k : Nat) (c : Copy) (m turn : Nat) : Bool :=
  match s.anyMember c.group m with
  | none => true
  | some h =>
    let bk := c.bar.getD 0
    let n := ((tabGet? s.groups h).elim (Barrier.fresh 1) (·.barrier bk)).turns
    decide (turn ≤ n) && s.copies.all fun d => d.1 == k || d.2.phase != .running || d.2.bar != c.bar ||
      d.2.turns.all fun q => s.anyMember d.2.group q.1 != some h || (!q.2 && (match d.2.mode with
        | .reduce _ _ t2 => decide (turn < t2) || (turn == t2 && decide (c.order < d.2.order))
        | _ => true))

/-- The turn of a copy at a member has begun, or begins now. -/
def State.inTurn (s : State) (k : Nat) (c : Copy) (m : Nat) : Bool :=
  match c.mode with
  | .reduce _ _ turn => c.turns.any fun q => q.1 == m && (q.2 || s.turnMay k c m turn)
  | _ => true

/-- The copy with its turn at a member begun. -/
def State.beginTurn (s : State) (k m : Nat) : State :=
  { s with copies := tabModify s.copies k fun c => { c with turns := c.turns.map fun q => if q.1 = m then (m, true) else q } }

/-- An element of a CPYR is read, and its addition enters the path buffer (R230, R294). -/
def State.moveElement (s : State) (k : Nat) (c : Copy) (id : Nat) (a : Access) (x : Slice) (t : Ty) (dk : Nat) (todo : List (Nat × Nat))
    (u : Nat) : Except CopyStop State := do
  let n := destBytes dk
  let va := x.w1 + BitVec.ofNat 64 (u * n)
  let tg ← viaStop (s.copyTarget c c.ds va true false n)
  copyNeed (c.ds != .global || decide (va.toNat % 65536 + n ≤ 65536)) .misaligned
  let (v, s1) ← s.reduceSource k c x t u
  .ok ((s1.addAccess { c.access k a.seq (.copyAdd t dk v) with path := c.pathOf tg, va := va, loc := byteLoc tg.addr, size := n })
    |>.unitsDone id todo u 1)

/-- The addition of one element, one indivisible move (R294). A row check or a marked word met at a slice discards it with a
Deferred record (R360); a marked word elsewhere faults the copy (R292). -/
def State.addElement (s : State) (k : Nat) (c : Copy) (id : Nat) (a : Access) (x : Slice) (t : Ty) (dk v : Nat) :
    Except CopyStop State := do
  let n := destBytes dk
  let tg ← viaStop (s.copyTarget c c.ds a.va true false n)
  s.copyFree tg.addr n
  let add (old : List Byte) : List Byte := toBytesLE n (reduceAdd t dk (ofBytesLE old) v)
  let past (s : State) : State := (s.performed id).tookPath k (c.pathOf tg)
  match tg with
  | .byte b => do
    copyNeed (!s.copyMoored c b n) .mooredWrite
    if b < 2 ^ 40 then
      match s.sliceFault c.vf b n with
      | some e => .ok (past (s.deferred x.team e.code c.pc a.va))
      | none => .ok (past (s.modifyMem (.copy k) b n add))
    else do
      copyNeed (s.markAt b n).isNone .softError
      .ok (past (s.modifyMem (.copy k) b n add))
  | .image b false => match s.windowCheck b n true false a.va, s.sliceFault c.vf b n with
    | some e, _ => .error e.copy
    | none, some e => .ok (past (s.deferred x.team e.code c.pc a.va))
    | none, none => if s.imageHeld none b n then .ok s else .ok (past (s.modifyImage (.copy k) b n add))
  | .image b true => match s.sliceFault c.vf b n with
    | some e => .ok (past (s.deferred x.team e.code c.pc a.va))
    | none => copyFault .access
  | _ => copyFault .access

/-- An addition of a CPYR: after the slices of lower teams, and in its turn (R294, R319). -/
def State.moveReduce (s : State) (k : Nat) (c : Copy) (id : Nat) (a : Access) (x : Slice) (t : Ty) (dk v : Nat) :
    Except CopyStop State :=
  if (s.copyPend k).any fun b => decide (b.seq < a.seq) then .ok s
  else if c.ds = .cwin then
    if s.inTurn k c x.peer then (s.beginTurn k x.peer).addElement k c id a x t dk v else .ok s
  else s.addElement k c id a x t dk v

/-! ### Performing -/

/-- The masks of a CPYS slice are read, each as one word, and the range of its packed values is checked; its bytes may move once
the masks of every slice are read (R292, R293, R318). -/
def State.readMasks (s : State) (k : Nat) (c : Copy) (id : Nat) (a : Access) (x : Slice) : Except CopyStop State := do
  let (ms, s1) ← (List.range (c.rows x).count).foldlM (fun (acc : List Nat × State) r => do
    let va := x.w2 + BitVec.ofNat 64 (4 * r)
    if va.toNat % 4 = 0 then do
      let tg ← viaStop (acc.2.copyTarget c c.ss va false true 4)
      s.copyFree tg.addr 4
      copyNeed (acc.2.markAt tg.addr 4).isNone .softError
      let (bs, s1) := acc.2.readAt (.copy k) none tg.addr 4
      .ok (acc.1 ++ [ofBytesLE bs], s1)
    else do
      let (bs, s1) ← (List.range 4).foldlM (fun (acc : List Byte × State) j => do
        let (b, s1) ← acc.2.copyByte k c c.ss (va + BitVec.ofNat 64 j)
        .ok (acc.1 ++ [b], s1)) ([], acc.2)
      .ok (acc.1 ++ [ofBytesLE bs], s1)) ([], s)
  let values := ms.foldl (fun n m => n + countOnes m 32) 0 * 2 ^ (x.w3.toNat / 2 ^ 16 % 4)
  match if values = 0 then .ok none else s.rangeOk c.group c.ss x.w0 values with
  | .error e => copyFault e
  | .ok _ => .ok { s1 with
    copies := tabModify s1.copies k fun c => { c with
      slices := c.slices.map fun y => if y.idx = x.idx then { y with masks := ms } else y }
    pend := tabModify s1.pend id fun _ => c.access k a.seq (.copyRun [(0, c.units x)]) }

/-- An access of a copy makes its next move. -/
def State.performCopy (s : State) (id : Nat) (a : Access) : State :=
  match a.party with
  | .copy k =>
    match tabGet? s.copies k with
    | none => s.performed id
    | some c =>
      match c.slices[a.seq]? with
      | none => s.performed id
      | some x =>
        let res := match a.kind with
          | .copyMasks => s.readMasks k c id a x
          | .copyRun todo =>
            let (u, s1) := s.pickUnit todo
            match u, c.mode with
            | none, _ => .ok (s1.performed id)
            | some u, .reduce t dk _ => s1.moveElement k c id a x t dk todo u
            | some u, _ => s1.moveByte k c id a x todo u
          | .copyAdd t dk v => s.moveReduce k c id a x t dk v
          | _ => .ok (s.performed id)
        match res with
        | .ok s1 => s1
        | .error e => s.stopCopy k c e
  | _ => s.performed id

/-! ### Completion (R230, R290, R292, R294) -/

/-- The bits [55:8] that DRAIN reports of a copy's fault (R347). -/
def Copy.detail (c : Copy) (extra : Nat) : Nat :=
  c.ordinal % 65536 + extra * 65536

/-- The barriers that the copy names are those of its peers (R294, R319). -/
def Copy.reachesPeers (c : Copy) : Bool :=
  match c.mode, c.ds with
  | .reduce .., .cwin => true
  | _, _ => false

/-- A barrier of a group that has not retired receives the fault of a copy (R292). -/
def State.tellCopy (s : State) (k h : Nat) (c : Copy) : State :=
  if c.fault.isSome && (tabGet? s.groups h).elim false (fun g => !g.retired) then
    { s with copies := tabModify s.copies k fun c => { c with told := true } }
  else s

/-- A copy is done: its arrival, the record of a fault that nothing has reported or will report once its group is over (R292,
R360), and what it leaves to its launch. -/
def State.finishCopy (s : State) (k : Nat) (c : Copy) : State :=
  let paths := if c.paths = [] then ((s.destPaths c).map (·.getD .glob)).eraseDups else c.paths
  let s1 := { s with copies := tabSet s.copies k { c with phase := .complete, paths := paths } }
  let s2 := match c.bar with
    | some b =>
      if c.reachesPeers then s1
      else (s1.tellCopy k c.group c).arrive c.group b c.pv.o c.fault.isSome
    | none => s1
  let s3 := s2.onLaunch c.launch fun l => { l with done := viewJoin l.done c.pv.o }
  match c.fault with
  | some (e, extra) =>
    if (tabGet? s3.groups c.group).elim false (·.retired) && !c.reported && !(tabGet? s3.copies k).elim false (·.told) then
      let s4 := s3.teamRecord ((c.slices.head?).elim 0 (·.team)) e 3 (BitVec.ofNat 64 (e + c.detail extra * 256)) c.pc 0
      { s4 with copies := tabModify s4.copies k fun c => { c with reported := true } }
    else s3
  | none => s3

/-- A CPYR to a peer arrives at that member's barrier once its additions there are applied (R294). -/
def State.endTurn (s : State) (k : Nat) (c : Copy) (m : Nat) : State :=
  let s1 := { s with copies := tabSet s.copies k { c with turns := c.turns.filter fun q => q.1 != m } }
  match s1.anyMember c.group m with
  | none => s1
  | some h =>
    let b := c.bar.getD 0
    ((s1.tellCopy k h c).onGroup h fun g => g.setBarrier b { g.barrier b with turns := (g.barrier b).turns + 1 }).arrive h b c.pv.o
      c.fault.isSome

/-- The arrival that a copy makes next, at its own group's barrier or at that of the member whose turn is due, is held (R196). -/
def State.copyArrivalHeld (s : State) (c : Copy) : Bool :=
  c.bar.elim false fun b => (match c.turns with
    | (m, _) :: _ => s.anyMember c.group m
    | [] => some c.group).elim false fun g => s.arrivalHeld g b

/-- The next extent of a .flash copy: the one after the current, or the first of a later slice that has any. -/
def Copy.nextExtent (c : Copy) (pos i : Nat) : Option (Nat × Nat) :=
  match c.slices[pos]? with
  | none => none
  | some x =>
    if i < hi32 x.w2 then some (pos, i)
    else (((List.range c.slices.length).filter fun p => decide (pos < p)).find? fun p =>
      (c.slices[p]?).elim false fun y => hi32 y.w2 != 0).map fun p => (p, 0)

/-- The bytes of an extent begin to move. -/
def State.beginExtent (s : State) (k : Nat) (c : Copy) (e : Nat × Nat) : State :=
  let s1 := { s with copies := tabSet s.copies k { c with extent := e, checked := false } }
  s1.addAccess (c.access k e.1 (.copyRun [(e.2 * 2 ^ 21, (e.2 + 1) * 2 ^ 21)]))

/-- COPY COMPLETION (R290): a copy whose missing teams have exited starts; one that has started is read in; one whose writes
have all performed, or that has faulted, arrives at its barrier and is done. -/
def execCopyCompletion (k : Nat) (s : State) : Host.Outcome State Fault Refusal :=
  match tabGet? s.copies k with
  | none => .next s
  | some c =>
    match c.phase with
    | .collecting =>
      match tabGet? s.groups c.group with
      | none => .next s
      | some g => match g.core with
        | none => .next s
        | some core =>
          if s.allSupplied g (c.slices.map (·.idx)) && decide (s.copying core < 64) then
            .next { s with copies := tabSet s.copies k (s.startCopy c core), nextId := s.nextId + 1 }
          else .next s
    | .starting => match s.readCopy k c with
      | .ok (c1, s1) => .next (match c1.mode with
        | .flash =>
          let c2 := { c1 with pv := s1.pv (.copy k), phase := .running }
          let s2 := { s1 with copies := tabSet s1.copies k c2 }
          match c2.nextExtent 0 0 with
          | some e => s2.beginExtent k c2 e
          | none => s2
        | _ => s1.launchCopy k { c1 with pv := s1.pv (.copy k) })
      | .error e => .next (s.stopCopy k c e)
    | .running =>
      if s.copyPend k ≠ [] || s.copyArrivalHeld c then .next s
      else match c.turns with
        | (m, _) :: _ => .next (if s.inTurn k c m then (s.beginTurn k m).endTurn k c m else s)
        | [] =>
          match c.mode with
          | .flash =>
            if c.fault.isSome then .next (s.finishCopy k c)
            else match c.nextExtent 0 0 with
              | none => .next (s.finishCopy k c)
              | some _ =>
                if !c.checked then .next s
                else match c.nextExtent c.extent.1 (c.extent.2 + 1) with
                  | some e => .next (s.beginExtent k c e)
                  | none => .next (s.finishCopy k c)
          | _ => .next (s.finishCopy k c)
    | .complete => .next s

/-! ### Flash extents (R380) -/

/-- The writes that zero eight bytes of an extent's destination: one of a marked word, which it replaces whole, else one of each byte
(R292, R361). -/
def State.zeroWord (s : State) (k : Nat) (c : Copy) (x : Slice) (i col : Nat) : State :=
  match s.copyDest c x i col with
  | .ok (.byte a) =>
    let n := if (s.markAt a 8).isSome then 8 else 1
    (List.range (8 / n)).foldl (fun s j => s.addAccess { c.access k c.extent.1
      (.write (List.replicate n 0) (List.replicate n 0xFF)) with loc := byteLoc (a + j), size := n }) s
  | _ => s

/-- FLASH EXTENT (R380): the extent that a .flash copy now loads has been read and hashed. A tag that does not match, or a
command that ended in error, zeroes its destination and faults the copy (R292). -/
def execFlashExtent (k extent : Nat) (err : Bool) (s : State) : Host.Outcome State Fault Refusal :=
  match tabGet? s.copies k with
  | none => .next s
  | some c =>
    match c.slices[c.extent.1]? with
    | none => .next s
    | some x =>
      let i := c.extent.2
      if c.mode != .flash || c.phase != .running || c.checked || c.fault.isSome || extent != lo32 x.w2 + i ||
          !decide (i < hi32 x.w2) then .next s
      else
        let f := tabGet? s.flash (x.w0.toNat / 2 ^ 48)
        let bytes := (List.range (2 ^ 21)).map fun j =>
          f.elim 0 fun f => memGet f.bytes (4096 * (x.w0.toNat % 2 ^ 48 + 512 * i) + j)
        if !err && (sha3 bytes).toNat == nth 0 x.tags i then
          .next { s with copies := tabSet s.copies k { c with checked := true } }
        else
          let s1 := s.faultCopy k (if err then Cause.access.code else Cause.containerTag.code) (if err then 0 else extent)
          .next ((List.range (2 ^ 18)).foldl (fun s j => s.zeroWord k c x i (8 * j)) s1)

/-! ### DRAIN (R231, R320) -/

/-- The copies that a DRAIN of a path covers: those of the team, and those started on its core. -/
def State.drained? (s : State) (r : Ready) (path : Path) : List Nat :=
  let core := (s.groupOfTeam r.tm).bind Group.core
  (s.copies.filter fun c => s.copyInPath c.2 path &&
    ((c.2.slices.any fun x => x.team == r.t) || (c.2.phase != .collecting && some c.2.core == core))).map (·.1)

/-- The covered copy of the group that faulted and started first, not yet reported. -/
def State.drainFault (s : State) (g : Nat) (ks : List Nat) : Option (Nat × Copy) :=
  ks.foldl (fun best k => match tabGet? s.copies k with
    | none => best
    | some c =>
      if c.group != g || c.fault.isNone || c.reported then best
      else match best with
        | none => some (k, c)
        | some b => if c.order < b.2.order then some (k, c) else some b) none

/-- DRAIN (R320). -/
def execDrain (p : Pred) (path : Path) (s : State) : Host.Outcome State Fault Refusal :=
  s.instruct p [] (fun _ => true) fun r => do
    let ks := match r.tm.stall with
      | .drain ks => ks
      | _ => s.drained? r path
    waitFor (ks.all fun k => (tabGet? s.copies k).elim true fun c => c.phase == .complete) (.drain ks)
    let ks := ks.filter fun k => (tabGet? s.copies k).elim false fun c => c.paths.contains path
    let s1 := s.onTeam r.t fun tm => { tm with
      pv := ks.foldl (fun v k => (tabGet? s.copies k).elim v fun c => v.joinO c.pv.o) tm.pv }
    match s1.drainFault r.tm.group ks with
    | none => .ok (s1.onTeam r.t Team.advance)
    | some (k, c) =>
      let (e, extra) := c.fault.getD (0, 0)
      let s2 := { s1 with copies := tabSet s1.copies k { c with reported := true } }
      .ok (s2.takeTrap r.t (Cause.ofCode e) (c.detail extra) 0 0 r.tm.pc)

/-- A copy that started before a region was marked may still write into the bytes: the MOOR waits for it (R273, R305). A copy not yet
read in, and one that writes a page that does not translate yet, are waited for in any case. -/
def State.copyReaches (s : State) (k : Nat) (c : Copy) (order a n : Nat) : Bool :=
  decide (c.order < order) && (c.phase == .starting || (c.phase == .running && (s.copyPend k != [] || c.turns != []) &&
    c.slices.any fun x => (List.range (c.rows x).count).any fun r => (s.rowRuns c x r).any fun run =>
      run.2.1.elim true fun b => runsMeet (a, n) (b, run.2.2)))

end Sys2Proof.Machine
end

