-- ==== Sys2Proof/Machine/Matrix.lean ====
section
/-! DEFINITION. The matrix engine: mooring, matrix loops, their queues, batches and shares, and the accumulators (R271 to
R289, R303 to R315). -/

namespace Sys2Proof.Machine

/-! ### Formats and tiles (R276) -/

/-- The element format of a moored or activation type: TY 0 reads as I4, TY 1 as B1 (R303). -/
def moorElem (t : Ty) : Elem :=
  match t with
  | .i32 => .i4
  | .n32 => .b1
  | _ => .ty t

/-- K and N of the native tile. -/
def tileK (t : Ty) : Nat :=
  match t with
  | .f64 | .f32 => 16
  | .n32 => 128
  | _ => 32

def tileN (t : Ty) : Nat :=
  match t with
  | .f64 | .f32 => 16
  | .bf16 | .f16 => 32
  | .i32 | .n32 => 128
  | _ => 64

/-- The bytes of n elements, a multiple of eight of them. -/
def moorBytes (t : Ty) (n : Nat) : Nat := n * (moorElem t).bits / 8

def tileBytes (t : Ty) : Nat := moorBytes t (tileK t * tileN t)

/-- Accumulator tiles that a step writes. -/
def tilesWritten (t : Ty) : Nat := (tileN t + 31) / 32

/-- What an accumulator element holds. -/
inductive AccForm where
  | paired | f64 | f32 | i32
deriving DecidableEq, Repr

/-- One of the five formats that take block scales; I8 only when it is scaled. -/
def blockScaled (t : Ty) (sc : Bool) : Bool :=
  match t with
  | .tap8 | .tap6 | .e4m3 | .e5m2 => true
  | .i8 => sc
  | _ => false

/-- The row of R276 that a semiring and two formats form; each I8 operand is scaled by its own bit (R308). -/
def accForm (sr : Semiring) (m : Ty) (msc : Bool) (a : Ty) (asc : Bool) : Option AccForm :=
  match sr with
  | .plusTimes =>
    if blockScaled m msc && blockScaled a asc then some .paired
    else if blockScaled m msc || blockScaled a asc || m != a then none
    else match m with
      | .f64 | .f32 => some .f64
      | .bf16 | .f16 => some .paired
      | .i8 | .i32 => some .i32
      | _ => none
  | .orAnd => if m == .n32 && a == .n32 then some .i32 else none
  | _ => if m == a && (m == .f32 || m == .bf16 || m == .f16) then some .f32 else none

/-- The value of an element with its block scale, which applies to a block-scaled format only (R52). -/
def moorValue (t : Ty) (scaled : Bool) (w scale : Nat) : FNum :=
  let v : FNum := match t with
    | .i32 => let x := intOf true 4 w; .fin (decide (x < 0)) x.natAbs 1
    | .n32 => .fin false w 1
    | _ => tyValue t w
  if scaled then scaledValue v (fmtScale.decode scale) else v

/-- Element k of bytes packed as a tile or an activation row (R41, R49, R50). -/
def moorCode (t : Ty) (bs : List Byte) (k : Nat) : Nat :=
  let q := (moorElem t).spot k
  ofBytesLE ((List.range q.bytes).map fun i => nth 0 bs (q.off + i)) / 2 ^ q.shift % 2 ^ (moorElem t).bits

/-! ### MOOR and UNMOOR (R271 to R275, R305, R306) -/

/-- The region that MOOR asks for, marked before the copies that start later than so many (R273). -/
def Moor.asked (t : Ty) (w : XWord) (sa : Word64) (order : Nat) : Moor where
  rb := sa.toNat % 2 ^ 32
  macros := w.imm 4 0
  ty := t
  scaled := w.imm 5 5 == 1
  scb := sa.toNat / 2 ^ 32
  order := order
  converting := true
  flags := []
  scales := []

/-- The number of tiles of a region (R305). -/
def Moor.tiles (m : Moor) : Nat := m.len / tileBytes m.ty

/-- The bytes moored in these groups. -/
def moored (gs : List Group) : Nat := gs.foldl (fun n g => g.moors.foldl (fun n m => n + m.len) n) 0

/-- The groups bound to the core of a group. -/
def State.coreMates (s : State) (g : Group) : List Group :=
  (s.groups.map (·.2)).filter fun h => !h.retired && h.core.isSome && h.core == g.core

/-- The core of a group may moor so many bytes more (R271, R273). -/
def State.moorFits (s : State) (g : Group) (n : Nat) : Bool := decide (moored (s.coreMates g) + n ≤ 524288)

/-- The conditions of R271, and those of R305 on the scale area, for a region of a group. -/
def Group.mayMoor (g : Group) (m : Moor) : Bool :=
  (g.spadBase + m.rb) % 32768 == 0 && decide (m.rb + m.len ≤ g.spadLen) && !g.mooredAt m.rb m.len &&
    decide (moored [g] + m.len ≤ 524288) &&
    (if m.scaled then
      let n := 64 * m.tiles
      decide (m.scb + n ≤ g.spadLen) && !g.mooredAt m.scb n &&
        (decide (m.scb + n ≤ m.rb) || decide (m.rb + m.len ≤ m.scb))
     else m.scb == 0)

/-- The uses of an instruction whose only operand is the s register A. -/
def usesA (w : XWord) : List Use := [{ letter := .a, opd := w.a, want := wantS, read := true }]

/-- What the issuing team waits for. -/
def State.curStall (s : State) : Stall := s.current.elim .none fun c => c.2.stall

/-- The uses of MOOR: sA has been read once the region is marked. -/
def usesMoor (w : XWord) (w0 : Stall) : List Use :=
  match w0 with
  | .moor .. => [{ letter := .a, opd := w.a, want := wantS }]
  | _ => usesA w

/-- MOOR (R273, R305): step 1 marks the region; the conversion is an event; then the instruction completes. -/
def execMoor (p : Pred) (t : Ty) (w : XWord) (s : State) : Host.Outcome State Fault Refusal :=
  s.instruct p (usesMoor w s.curStall) (fun _ => true) fun r =>
    match r.tm.stall with
    | .moor _ true none => .ok (s.setTeam r.t (r.tm.number.finish true))
    | .moor _ true (some a) => stop (s.softErrorAt ((s.markAt a 1).getD (a, 3)) (BitVec.ofNat 64 (s.physOf a)))
    | .moor rb false e => stop (.wait (.moor rb false e))
    | _ =>
      match s.groupOfTeam r.tm with
      | none => trapPlain .illegalOperand
      | some g => do
        let m := Moor.asked t w (r.tm.sGet w.a.num.toNat) s.nextId
        ensure (g.mayMoor m) .illegalOperand
        waitFor (s.moorFits g m.len) (.capacity m.len)
        .ok ((s.onGroup r.tm.group fun g => { g with moors := g.moors ++ [m] }).setTeam r.t
          { r.tm with stall := .moor m.rb false none })

/-- A range of bytes of a group's scratchpad meets another. -/
def meetsRange (a n b k : Nat) : Bool := decide (a < b + k) && decide (b < a + n)

/-- A pending access that must perform before the conversion of a region at byte address a: one of the group's teams to the region, by
whichever path, and any write to it already accepted, a started copy's among them (R273, R275, R305). -/
def Access.holdsConversion (x : Access) (teams : List Nat) (a n : Nat) : Bool :=
  (x.runs.any fun r => r.hits a n) && (x.kind.writes || x.places.any fun q => teams.any fun t => q.1 == .team t)

/-- The offsets that a loop reads in its group's scratchpad at row i of step t, without unfold. -/
def LoopParams.rowAt (p : LoopParams) (t i : Nat) : Int := p.ab + t * p.ai + (i * p.ap : Nat)

/-- A loop reads bytes of the region as activations or as their scales. -/
def LoopParams.readsRange (p : LoopParams) (b n : Nat) : Bool :=
  (List.range p.steps).any fun t => (List.range 32).any fun i =>
    (if p.unf then
      let size := p.ty.bits / 8
      meetsRange (field p.desc 0 32) (field p.desc 32 16 * field p.desc 48 16 * field p.desc 64 16 * size) b n
     else meetsRange (p.rowAt t i).toNat (moorBytes p.ty (tileK p.ty)) b n) ||
      (p.asc && meetsRange (p.sb + 32 * t + i) 1 b n)

/-- The loop parameters of a queue entry. -/
def QueueWork.loop? : QueueWork → Option LoopParams
  | .loop p _ => some p
  | .share _ p => some p
  | .held _ p => some p
  | _ => none

/-- The queue holds no work that reads the region (R273). -/
def Group.readsRegion (g : Group) (m : Moor) : Bool :=
  (g.queue ++ g.shares).any fun e => e.fault.isNone && (e.work.loop?).elim false fun p => p.readsRange m.rb m.len

/-- The scale of tile q and column j, 1.0 where none is captured (R305, R307). -/
def Moor.scale (m : Moor) (q j : Nat) : Nat := if m.scaled then (nth 0 m.scales (64 * q + j)).toNat else 0x78

/-- Column j of tile q holds what R273 flags: a value that is not finite, its scale included. -/
def Moor.columnFlag (m : Moor) (bs : List Byte) (q j : Nat) : Bool :=
  (List.range (tileK m.ty)).any fun k =>
    !(moorValue m.ty (blockScaled m.ty m.scaled) (moorCode m.ty bs (k * tileN m.ty + j)) (m.scale q j)).isFinite

/-- The region as it is converted: its bytes, with the writes that they were taken from, its scales captured and its flags formed. -/
def Moor.convert (m : Moor) (data scales : List Byte) (took : View) : Moor :=
  let m1 := { m with converting := false, scales := scales, data := data, took := took }
  { m1 with flags := (List.range m.tiles).flatMap fun q =>
      let bs := (data.drop (q * tileBytes m.ty)).take (tileBytes m.ty)
      ((List.range (tileN m.ty)).filter fun j => m1.columnFlag bs q j).map fun j => (q, j) }

/-- The n bytes at a, each read by party p in a move of its own, none below a floor (R223). -/
def State.readBytes (s : State) (p : Party) (fl : Nat → Nat) (a n : Nat) : List Byte × State :=
  let (bs, s1) := (List.range n).foldl (fun (acc : List Byte × State) j =>
    let (b, s1) := acc.2.readFloor p none (fun l => Nat.max (acc.2.readFloorAt p l) (fl l)) (a + j) 1
    (b ++ acc.1, s1)) ([], s)
  (bs.reverse, s1)

/-- The write is one that a MOOR waited for: of a team of the group, or of a copy that had started before it (R273, R305). -/
def State.takenIn (s : State) (g : Group) (m : Moor) (w : WriteRef) : Bool :=
  (tabGet? s.writes w.id).elim false fun i => match i.party with
    | .team t => g.teams.contains t
    | .copy k => (tabGet? s.copies k).elim false fun c => decide (c.order < m.order)
    | _ => false

/-- The index of the latest write of a byte that a MOOR waited for: its conversion takes no older one. -/
def State.landedIn (s : State) (g : Group) (m : Moor) (l : Nat) : Nat :=
  ((s.orderOf l).dropWhile fun w => !s.takenIn g m w).length

/-- MOOR CONVERSION DONE (R273, R370): steps 2 to 5 of the MOOR that a team waits in; its bytes and scales are reads of the team,
which follow its acquires and, for the scales, its own accesses to them (R222). A marked byte leaves the region unmoored. -/
def execMoorConversionDone (t : Nat) (s : State) : Host.Outcome State Fault Refusal :=
  match tabGet? s.teams t with
  | none => .next s
  | some tm =>
    match tm.stall, tabGet? s.groups tm.group with
    | .moor rb false none, some g =>
      match g.moors.find? fun m => m.rb == rb && m.converting with
      | none => .next s
      | some m =>
        let a := spadByte tm.group rb
        if g.place.isNone || (s.pend.any fun x => x.2.holdsConversion g.teams a m.len) || g.readsRegion m ||
            (s.copies.any fun c => s.copyReaches c.1 c.2 m.order a m.len) || s.hasAcquire t ||
            (m.scaled && s.ownBefore t tm.seq (spadByte tm.group m.scb) (64 * m.tiles)) then .next s
        else
          let rest := g.moors.filter fun n => n.rb != rb
          let scaleAt := spadByte tm.group m.scb
          let bad := match s.markAt a m.len with
            | some b => some b.1
            | none => if m.scaled then (s.markAt scaleAt (64 * m.tiles)).map (·.1) else none
          match bad with
          | some b => .next ((s.onGroup tm.group fun g => { g with moors := rest }).setTeam t
              { tm with stall := .moor rb true (some b) })
          | none =>
            let (data, s1) := s.readBytes (.team t) (s.landedIn g m) a m.len
            let took := (List.range m.len).map fun j => (byteLoc (a + j), viewAt (s1.pv (.team t)).o (byteLoc (a + j)))
            let (scales, s2) := if m.scaled then s1.readBytes (.team t) (fun _ => 0) scaleAt (64 * m.tiles) else ([], s1)
            .next ((s2.onGroup tm.group fun g => { g with moors := rest ++ [m.convert data scales took] }).onTeam t fun tm =>
              { tm with stall := .moor rb true none })
    | _, _ => .next s

/-- UNMOOR (R274, R306); a region whose conversion is not finished is not yet moored here (DEDUCED, log 119). -/
def execUnmoor (p : Pred) (w : XWord) (s : State) : Host.Outcome State Fault Refusal :=
  s.instruct p (usesA w) (fun _ => true) fun r =>
    match s.groupOfTeam r.tm with
    | none => trapPlain .illegalOperand
    | some g => do
      let sa := (r.tm.sGet w.a.num.toNat).toNat
      match g.moors.find? fun m => m.rb == sa && !m.converting with
      | none => trapPlain .illegalOperand
      | some m => do
        waitFor ((g.queue ++ g.shares).all fun e => (e.work.loop?).elim true fun p => !meetsRange m.rb m.len p.mb 1) .other
        .ok ((s.onGroup r.tm.group fun g => { g with moors := g.moors.filter fun n => n.rb != sa }).setTeam r.t
          (r.tm.number.finish true))

/-! ### The parameters of a loop (R277, R285, R307 to R309) -/

/-- The uses of MLOOP, and those of MLOOPG with its mask. -/
def usesLoop (w : XWord) (gang : Bool) : List Use :=
  [{ letter := .a, opd := w.a, want := wantS, read := true },
    { letter := .b, opd := w.b, want := wantS, read := true },
    { letter := .c, opd := w.c, want := wantS, read := true }] ++
    (if gang then [{ letter := .d, opd := w.d, want := wantS, read := true }] else [])

/-- The parameters as the registers and the word hold them. -/
def Team.loopParams (tm : Team) (sr : Semiring) (unf : Bool) (t : Ty) (w : XWord) : LoopParams :=
  let a := tm.sGet w.a.num.toNat
  let b := tm.sGet w.b.num.toNat
  let c := tm.sGet w.c.num.toNat
  { semiring := sr
    unf := unf
    ty := t
    mb := (a.extractLsb' 0 32).toNat
    mi := (a.extractLsb' 32 32).toNat
    ab := (b.extractLsb' 0 32).toNat
    ai := (b.extractLsb' 32 32).toInt
    asc := c.getLsbD 41
    c0 := c.getLsbD 40
    sb := (c.extractLsb' 20 20).toNat
    ap := (c.extractLsb' 0 20).toNat
    steps := w.imm 11 0 + 1
    zt := w.imm 15 12
    desc := [] }

/-- The checks of R308 that need neither a region nor a range; high is sC[63:42], nacc the accumulator count. -/
def LoopParams.ok (p : LoopParams) (high nacc : Nat) : Bool :=
  high == 0 &&
    ([Ty.f64, .f32, .f16, .bf16, .tap8, .tap6, .e4m3, .e5m2, .i8, .i32, .n32].any fun m =>
      (accForm p.semiring m false p.ty p.asc).isSome || (accForm p.semiring m true p.ty p.asc).isSome) &&
    (if p.asc then blockScaled p.ty true else p.sb == 0) &&
    (!p.c0 || tileN p.ty == 16) &&
    (if p.unf then p.ap == 0 && !p.asc && p.ty != .tap6 && p.ty != .i32 && p.ty != .n32
     else decide (moorBytes p.ty (tileK p.ty) ≤ p.ap) && p.ap % 4 == 0) &&
    decide (p.zt + tilesWritten p.ty ≤ nacc)

/-- The region of a group that a loop's tiles lie in, when R308 accepts them: the region and the first tile's number. -/
def Group.loopRegion (g : Group) (p : LoopParams) : Option (Moor × Nat) :=
  match g.moors.find? fun m => decide (m.rb ≤ p.mb) && decide (p.mb < m.rb + m.len) with
  | none => none
  | some m =>
    let b := tileBytes m.ty
    let q := (p.mb - m.rb) / b
    if (accForm p.semiring m.ty m.scaled p.ty p.asc).isSome && (p.mb - m.rb) % b == 0 && p.mi % b == 0 &&
        decide (q + (p.steps - 1) * (p.mi / b) < m.tiles) then some (m, q)
    else none

/-- The fields of an unfold descriptor (R285). -/
structure Unfold where
  xb : Nat
  h : Nat
  w : Nat
  c : Nat
  ow : Nat
  kw : Nat
  kh : Nat
  sy : Nat
  sx : Nat
  dy : Nat
  dx : Nat
  py : Nat
  px : Nat
  p0 : Nat
  k0 : Nat
deriving DecidableEq, Repr

def Unfold.ofBytes (bs : List Byte) : Unfold where
  xb := field bs 0 32
  h := field bs 32 16
  w := field bs 48 16
  c := field bs 64 16
  ow := field bs 80 16
  kw := field bs 96 8
  kh := field bs 104 8
  sy := field bs 112 4
  sx := field bs 116 4
  dy := field bs 120 4
  dx := field bs 124 4
  py := field bs 128 8
  px := field bs 136 8
  p0 := field bs 160 32
  k0 := field bs 192 32

/-- The limits of R285, for elements of so many bytes in a range of len bytes. -/
def unfoldOk (bs : List Byte) (size len : Nat) : Bool :=
  let u := Unfold.ofBytes bs
  u.h != 0 && u.w != 0 && u.kw != 0 && u.kh != 0 && u.sy != 0 && u.sx != 0 && u.dy != 0 && u.dx != 0 &&
    field bs 144 16 == 0 && field bs 224 32 == 0 && decide (u.xb + u.h * u.w * u.c * size ≤ len)

/-- The descriptor of an unfolding loop as it can be read: aligned and inside the range (R285). -/
def LoopParams.descOk (p : LoopParams) (len : Nat) : Bool := p.ab % 32 == 0 && decide (p.ab + 32 ≤ len)

/-- The first address beyond a group's limit that a step reads: the cause of R308. -/
def Group.loopFault (g : Group) (p : LoopParams) : Option Cause :=
  let len : Int := (g.spadLen : Nat)
  let kb : Int := (moorBytes p.ty (tileK p.ty) : Nat)
  let cause (a n : Int) : Option Cause :=
    if 0 ≤ a && decide (a + n ≤ len) then none
    else if 0 ≤ a + (g.spadBase : Int) && decide (a + (g.spadBase : Int) < 2 ^ 20) then some .scratchpadBounds
    else some .access
  let at_ (t i : Nat) : Option Cause :=
    match if p.unf then none else cause (p.rowAt t i) kb with
    | some c => some c
    | none => if p.asc then cause ((p.sb + 32 * t + i : Nat) : Int) 1 else none
  if [0, p.steps - 1].all fun t => [0, 31].all fun i => (at_ t i).isNone then none
  else (List.range p.steps).findSome? fun t => (List.range 32).findSome? (at_ t)

/-! ### Queues (R280, R288) -/

/-- A team's own entry finds room: the queue has less than 16, and no share waits before it. -/
def Group.queueRoom (g : Group) : Bool := decide (g.queue.length < 16) && g.shares == []

/-- The share that has waited longest enters the queue where an entry is free (R288). -/
def Group.admitShare (g : Group) : Group :=
  match g.shares with
  | [] => g
  | x :: rest => if g.queue.length < 16 then { g with queue := g.queue ++ [x], shares := rest } else g

/-- The head of the queue has left it. -/
def Group.popQueue (g : Group) : Group := { g with queue := g.queue.drop 1 }.admitShare

/-- The number of the batch that the next MFENCE closes. -/
def Group.openBatch (g : Group) : Nat := (g.batch + 1).toNat

def Batch.fresh : Batch := ⟨0, false, {}, []⟩

def Group.batchAt (g : Group) (n : Nat) : Batch := tabGet g.batches n Batch.fresh

def Group.onBatch (g : Group) (n : Nat) (f : Batch → Batch) : Group := { g with batches := tabSet g.batches n (f (g.batchAt n)) }

/-- A fault of a loop kept for MWAIT, earliest loop first. -/
def insertFault (f : EngineFault) : List EngineFault → List EngineFault
  | [] => [f]
  | x :: rest => if f.num < x.num then f :: x :: rest else x :: insertFault f rest

/-- The entry of a team. -/
def Ready.entry (r : Ready) (num : Nat) (gate : Option Gate) (work : QueueWork) (fault : Option Cause) : QueueEntry where
  team := r.t
  seq := r.tm.seq
  num := num
  gate := gate
  work := work
  step := 0
  fault := fault.map fun c => (c.code, 0)
  pc := r.tm.pc

/-- An entry of the issuing team placed at the end of its group's queue. -/
def State.enqueue (s : State) (r : Ready) (e : QueueEntry) : State :=
  s.onGroup r.tm.group fun g => { g with queue := g.queue ++ [e], entryNo := g.entryNo + 1 }

/-! ### MLOOP, MLOOPG, OPRDY (R282, R286 to R288, R308 to R310) -/

/-- The descriptor read at issue by the issuing team, after its own earlier accesses to it (R285). -/
def State.readDescriptor (s : State) (r : Ready) (p : LoopParams) (g : Group) :
    Except (LaneSet × Stop) (LoopParams × State) :=
  if !p.unf then .ok (p, s)
  else do
    ensure (p.descOk g.spadLen) .illegalOperand
    let a := spadByte r.tm.group p.ab
    waitFor (!s.hasAcquire r.t && s.pend.all fun x => x.2.party != .team r.t || x.2.loc % 3 != 0 ||
      !meetsRange x.2.addr x.2.size a 32) .other
    match s.markAt a 32 with
    | some m => stop (s.softErrorAt m (BitVec.ofNat 64 p.ab))
    | none =>
      let (bs, s1) := s.readMem (.team r.t) none a 32
      ensure (unfoldOk bs (p.ty.bits / 8) g.spadLen) .illegalOperand
      .ok ({ p with desc := bs }, s1)

/-- MLOOP (R307, R308). -/
def execMloop (p : Pred) (sr : Semiring) (unf : Bool) (t : Ty) (w : XWord) (s : State) : Host.Outcome State Fault Refusal :=
  s.instruct p (usesLoop w false) (fun _ => true) fun r =>
    match s.groupOfTeam r.tm with
    | none => trapPlain .illegalOperand
    | some g => do
      let lp := r.tm.loopParams sr unf t w
      ensure (lp.ok ((r.tm.sGet w.c.num.toNat).toNat / 2 ^ 42) g.nacc && (g.loopRegion lp).isSome) .illegalOperand
      let (lp, s1) ← s.readDescriptor r lp g
      waitFor g.queueRoom .other
      let n := g.openBatch
      let fault := g.loopFault lp
      let s2 := s1.enqueue r (r.entry g.entryNo r.tm.gate (.loop lp n) fault)
      let view := (s1.pv (.team r.t)).floor
      let s3 := s2.onGroup r.tm.group fun g => g.onBatch n fun b => { b with
        pv := b.pv.joinO view
        unfinished := b.unfinished + if fault.isSome then 0 else 1
        faults := match fault with
          | some c => insertFault ⟨g.entryNo, c.code, r.t, r.tm.pc⟩ b.faults
          | none => b.faults }
      .ok (s3.onTeam r.t fun tm => { tm.number.finish true with gate := none })

/-- The members that a gang mask names. -/
def maskMembers (m : Nat) : List Nat := (List.range 32).filter fun i => m.testBit i

/-- The shares that may reach a member's buffer are fewer than 32 (R288). -/
def Group.shareRoom (g : Group) : Bool := decide (g.shares.length + g.reserved < 32)

/-- The live members that a mask names, seen from a group: number, group, and what it holds. -/
def State.liveMembers (s : State) (g : Nat) (gr : Group) (mask : Nat) : List (Nat × Nat × Group) :=
  (maskMembers mask).filterMap fun m => if m = gr.gidx then some (m, g, gr) else (s.member g m).map fun h => (m, h)

/-- MLOOPG finds room in the queue of its own group and in the buffer of every live member named (R288, R304). -/
def State.gangRoom (s : State) (g : Nat) (gr : Group) (mask : Nat) : Bool :=
  gr.queueRoom && (s.liveMembers g gr mask).all fun h => h.2.2.shareRoom

/-- MLOOPG (R287, R288, R309). One with a zero mask sends nothing, and leaves the team's gate for the next loop (DESIGN CHOICE, log 129). -/
def execMloopg (p : Pred) (sr : Semiring) (unf : Bool) (t : Ty) (w : XWord) (s : State) : Host.Outcome State Fault Refusal :=
  s.instruct p (usesLoop w true) (fun tm => decide (w.bn.toNat < s.barCount tm)) fun r =>
    match s.groupOfTeam r.tm with
    | none => trapPlain .illegalOperand
    | some g => do
      let mask := (r.tm.sGet w.d.num.toNat).toNat
      let lp := r.tm.loopParams sr unf t w
      ensure (decide (mask < 2 ^ 32) && lp.ok ((r.tm.sGet w.c.num.toNat).toNat / 2 ^ 42) g.nacc) .illegalOperand
      let d := RegRef.s w.d.num.toNat
      if mask = 0 then
        .ok ((s.setTeam r.t (((r.tm.sSet w.d.num.toNat 0).number).finish true)).clearRegMarks r.tm [d])
      else do
        let ms := maskMembers mask
        let own := ms.contains g.gidx
        waitFor (s.gangRoom r.tm.group g mask) (.share mask)
        let view := r.tm.pv.floor
        let others := (s.liveMembers r.tm.group g mask).filter fun h => h.1 != g.gidx
        let (k, s1) := s.addProducer r.t [d] (.value d .n64 0) 1
        let i := s1.nextId
        let x : Issue := {
          team := r.t, group := r.tm.group, params := lp, bar := w.bn.toNat, gate := r.tm.gate, toSend := ms
          unsettled := ms, reserved := others.map (·.1), faulted := 0, missed := 0, prod := k
          seq := r.tm.seq, pc := r.tm.pc, pvs := ms.map fun m => (m, { o := view }) }
        let s2 := { s1 with nextId := i + 1, issues := tabSet s1.issues i x }
        let s3 := others.foldl (fun s h => s.onGroup h.2.1 fun g => { g with reserved := g.reserved + 1 }) s2
        let s4 := if own then s3.enqueue r (r.entry g.entryNo none (.held i lp) none) else s3
        .ok (s4.onTeam r.t fun tm => { tm.number.finish true with gate := none })

/-- OPRDY (R282, R310): its arrival follows the team's earlier accesses, and the team goes on with its gate set. -/
def execOprdy (p : Pred) (w : XWord) (s : State) : Host.Outcome State Fault Refusal :=
  s.instruct p [] (fun tm => decide (w.bn.toNat < s.barCount tm)) fun r => do
    let k := w.bn.toNat
    let id := s.nextId
    let x : Access := {
      party := .team r.t, seq := r.tm.seq, path := .spad, vf := s.vfOf r.tm, launch := r.tm.launch, pc := r.tm.pc
      lane := 0, va := 0, loc := bindLoc (spadByte r.tm.group (2 ^ 19 + k)), size := 0, kind := .ready k, ord := .release
      scope := .group, prod := none }
    .ok ((s.addAccess x).onTeam r.t fun tm => { tm.number.finish true with gate := some ⟨k, id, none⟩ })

/-- A gate whose arrival has performed, with its target. -/
def Gate.settle (id : Nat) (target : BitVec 32) (o : Option Gate) : Option Gate :=
  o.map fun x => if x.arrival = id then { x with target := some target } else x

/-- The arrival of OPRDY performs: GEN + 1 is the target of the gate it set, wherever that gate now stands (R282). -/
def State.performReady (s : State) (id : Nat) (a : Access) (k : Nat) : State :=
  match a.party with
  | .team t =>
    match tabGet? s.teams t with
    | none => s.performed id
    | some tm =>
      if s.arrivalHeld tm.group k then s else
      let gen := ((s.groupOfTeam tm).elim (Barrier.fresh 1) (·.barrier k)).gen + 1
      let set (e : QueueEntry) : QueueEntry := { e with gate := Gate.settle id gen e.gate }
      let s1 := (s.onTeam t fun tm => { tm with gate := Gate.settle id gen tm.gate }).onGroup tm.group fun g =>
        { g with queue := g.queue.map set }
      let s2 := { s1 with issues := s1.issues.map fun (x : Nat × Issue) => (x.1, { x.2 with gate := Gate.settle id gen x.2.gate }) }
      (s2.arrive tm.group k (tm.pv.released (.group tm.group)) false).performed id
  | _ => s.performed id

/-- The gate is open: none, or GEN of its barrier has reached the target (R282). -/
def Group.gateOpen (g : Group) (o : Option Gate) : Bool :=
  match o with
  | none => true
  | some x => x.target.elim false fun t => reached (g.barrier x.bar).gen t

/-- The phase view that an open gate gives (R232). -/
def Group.gateView (g : Group) (o : Option Gate) : View :=
  match o with
  | none => []
  | some x => x.target.elim [] fun t => (((g.barrier x.bar).phases.find? fun p => p.1 == t).map (·.2)).getD []

/-! ### MFENCE and MWAIT (R281, R286, R311, R312) -/

/-- MFENCE (R311). -/
def execMfence (p : Pred) (w : XWord) (s : State) : Host.Outcome State Fault Refusal :=
  let d : Use := if w.d == .zero then unused .d else { letter := .d, opd := w.d, want := wantS, write := true }
  s.instruct p [d] (fun _ => true) fun r =>
    match s.groupOfTeam r.tm with
    | none => trapPlain .illegalOperand
    | some g => do
      destsReady r.tm (d.refs [])
      let s1 := s.onGroup r.tm.group fun g =>
        { (g.onBatch g.openBatch fun b => { b with closed := true }) with batch := g.batch + 1 }
      let s2 := s1.onTeam r.t fun tm =>
        ((if d.write then tm.sSet w.d.num.toNat ((g.batch + 1).setWidth 64) else tm).number).finish true
      .ok (s2.clearRegMarks r.tm (writeRefs [d] []))

/-- The batches of a group numbered up to n, those whose number is not ahead of it. -/
def Group.batchesTo (g : Group) (n : BitVec 32) : List (Nat × Batch) :=
  g.batches.filter fun b => b.2.closed && reached n (BitVec.ofNat 32 b.1)

/-- The earliest faulted loop among batches, with the number of its batch. -/
def earliestFault (bs : List (Nat × Batch)) : Option (Nat × EngineFault) :=
  bs.foldl (fun best b => match b.2.faults with
    | [] => best
    | f :: _ => match best with
      | none => some (b.1, f)
      | some x => if f.num < x.2.num then some (b.1, f) else some x) none

/-- The uses of MWAIT: sA has been read once it waits. -/
def usesMwait (w : XWord) (w0 : Stall) : List Use :=
  [{ letter := .a, opd := w.a, want := wantSN, read := match w0 with
      | .mwait _ => false
      | _ => true }]

/-- Every batch of a group up to n has completed (R281). -/
def Group.batchesDone (g : Group) (n : BitVec 32) : Bool := (g.batchesTo n).all fun b => b.2.unfinished == 0

/-- MWAIT (R312). -/
def execMwait (p : Pred) (w : XWord) (s : State) : Host.Outcome State Fault Refusal :=
  s.instruct p (usesMwait w s.curStall) (fun _ => true) fun r =>
    match s.groupOfTeam r.tm with
    | none => trapPlain .illegalOperand
    | some g => do
      let n : BitVec 32 := match r.tm.stall, w.a.cls with
        | .mwait n, _ => n
        | _, .s => (r.tm.sGet w.a.num.toNat).setWidth 32
        | _, _ => g.batch
      ensure (decide ((n - g.batch).toInt ≤ 0)) .illegalOperand
      let bs := g.batchesTo n
      waitFor (g.batchesDone n) (.mwait n)
      let s1 := s.onTeam r.t fun tm => { tm with pv := bs.foldl (fun v b => v.joinO b.2.pv.o) tm.pv }
      match earliestFault bs with
      | none => .ok (s1.onTeam r.t Team.advance)
      | some (k, f) =>
        let s2 := s1.onGroup r.tm.group fun g => g.onBatch k fun b => { b with faults := b.faults.drop 1 }
        .ok (s2.takeTrap r.t (Cause.ofCode f.cause) k 0 0 r.tm.pc)

/-! ### The accumulators (R313 to R315) -/

/-- The uses of ACCZ. -/
def usesAccz (w : XWord) : List Use := [{ letter := .d, opd := w.d, want := { z := true } }]

/-- ACCZ (R313). -/
def execAccz (p : Pred) (w : XWord) (s : State) : Host.Outcome State Fault Refusal :=
  let n := w.imm 3 0 + 1
  s.instruct p (usesAccz w) (fun tm => decide (w.d.num.toNat + n ≤ s.accCount tm)) fun r => do
    waitFor ((s.groupOfTeam r.tm).elim true Group.queueRoom) .other
    .ok ((s.enqueue r (r.entry 0 none (.fill w.d.num.toNat n (w.imm 5 4)) none)).onTeam r.t fun tm => tm.number.finish true)

/-- The element of a lane: its offset in the group's accumulators (R192, R314). -/
def Team.accOffset (tm : Team) (w : XWord) (z l : Nat) : Nat :=
  let b := match w.b.cls with
    | .s => (tm.sGet w.b.num.toNat).toNat % 32
    | _ => 0
  8192 * z + 8 * (32 * ((w.imm 4 0 + b + l / 32) % 32) + l % 32)

/-- A kind of accumulator element other than the pair, as the type its bytes hold. -/
def accKindTy (kind : Nat) : Ty :=
  match kind with
  | 1 => .f64
  | 2 => .f32
  | _ => .i32

/-- What ACCRD delivers of an element (R69, R314). -/
def accRead (t : Ty) (kind : Nat) (sat : Bool) (e : Nat) : Nat × Flags :=
  if kind = 0 then
    let (v, f) := FNum.add .rn (f32 (BitVec.ofNat 32 e)) (f32 (BitVec.ofNat 32 (e / 2 ^ 32)))
    let (c, g) := tyFromNum t .rn sat v
    (c, f ||| g)
  else convert (accKindTy kind) t .rn sat (if kind = 1 then e else e % 2 ^ 32)

/-- What ACCWR writes of a value (R315). -/
def accWrite (t : Ty) (kind : Nat) (sat : Bool) (x : Nat) : Nat × Flags :=
  convert t (if kind = 0 then .f32 else accKindTy kind) .rn sat x

/-- The uses of ACCRD and ACCWR. -/
def usesAccrd (t : Ty) (w : XWord) : List Use :=
  [{ letter := .a, opd := w.a, want := { z := true } }, { letter := .b, opd := w.b, want := wantSN, read := true },
    { letter := .d, opd := w.d, want := wantV, write := true, pair := t.is64 }]

def usesAccwr (t : Ty) (w : XWord) : List Use :=
  [{ letter := .a, opd := w.a, want := wantV, read := true, pair := t.is64, who := .eachActive },
    { letter := .b, opd := w.b, want := wantSN, read := true }, { letter := .d, opd := w.d, want := { z := true } }]

/-- ACCRD (R314). -/
def execAccrd (p : Pred) (t : Ty) (w : XWord) (s : State) : Host.Outcome State Fault Refusal :=
  s.instruct p (usesAccrd t w) (fun _ => true) fun r => do
    let at_ (l : Nat) : Nat := accByte r.tm.group (r.tm.accOffset w w.a.num.toNat l)
    let _ ← eachLane (fun l => match s.markAt (at_ l) 8 with
      | some m => .error (s.softErrorAt m 0)
      | none => .ok ()) r.lanes
    destsReady r.tm (destRefs t w.d r.lanes)
    let s1 := r.lanes.foldl (fun s l =>
      let (k, s2) := s.addProducer r.t (destRefs t w.d [l]) (.value (destRef w.d l) t 0) 1
      s2.addAccess (s2.teamAccess r .global l 0 (.byte (at_ l)) 8 (.accRead t (w.imm 7 6) (w.imm 8 8 == 1)) .relaxed .team
        (some (k, 0)))) s
    s1.issued r false

/-- ACCRD reads its element (R232, R279). -/
def State.performAccRead (s : State) (id : Nat) (a : Access) (t : Ty) (kind : Nat) (sat : Bool) : State :=
  let (bs, s1) := s.readFloor a.party none (s.accFloor a.party) a.addr 8
  let (w, f) := accRead t kind sat (ofBytesLE bs)
  (s1.settleValue a.prod w f []).performed id

/-- ACCWR (R315). -/
def execAccwr (p : Pred) (t : Ty) (w : XWord) (s : State) : Host.Outcome State Fault Refusal :=
  s.instruct p (usesAccwr t w) (fun _ => true) fun r => do
    waitFor ((s.groupOfTeam r.tm).elim true Group.queueRoom) .other
    let val (l : Nat) : Nat × Flags := accWrite t (w.imm 7 6) (w.imm 8 8 == 1) (r.tm.bitsOf t w.a .plain l)
    let cells := r.lanes.map fun l => (r.tm.accOffset w w.d.num.toNat l, toBytesLE 8 (val l).1)
    .ok ((s.enqueue r (r.entry 0 none (.put cells) none)).onTeam r.t fun tm =>
      (r.lanes.foldl (fun tm l => tm.raise (val l).2) tm).number.finish true)

/-! ### Performing (R278 to R281, R284 to R287) -/

/-- A write by an entry of the queue. -/
def State.writeQueued (s : State) (p : Party) (a : Nat) (data : List Byte) : State :=
  let w := s.nextWrite
  let s1 := (s.writeMem p none [] a data).unmark a data.length
  { s1 with writes := tabModify s1.writes w fun x => { x with queued := true } }

/-- The accumulator element at a, as a step reads it at its start: a write that no entry of the queue made may be missed, and
is then overwritten (R279). -/
def State.readElement (s : State) (p : Party) (a : Nat) : Word64 × State :=
  let (bs, s1) := s.readFloor p none (s.accFloor p) a 8
  (BitVec.ofNat 64 (ofBytesLE bs), s1)

/-- The update of an accumulator element by one product or semiring step (R64 to R67). -/
def accStep (f : AccForm) (sr : Semiring) (acc : Word64) (a b : FNum) : Word64 :=
  let int : FNum → Int
    | .fin neg n _ => signedNum neg n
    | _ => 0
  let low : Word32 := acc.extractLsb' 0 32
  match f with
  | .paired => pairedStep acc (a.mul b).1
  | .f64 => doubleStep acc a b
  | .f32 => match sr with
    | .minPlus => (semiringPick false low (rn32 (FNum.add .rn a b)).1).setWidth 64
    | _ => (semiringPick true low (rn32 (a.mul b)).1).setWidth 64
  | .i32 => match sr with
    | .orAnd => if low ≠ 0 || (!a.isZero && !b.isZero) then 1 else 0
    | _ => BitVec.ofNat 64 (wrapBits 32 (intOf true 32 low.toNat + int a * int b))

/-- An element of the unfolded tensor: padding; at an offset in the scratchpad; or of no stated place, since C is zero. -/
inductive Unfolded where
  | zero
  | at (off : Nat)
  | free
deriving DecidableEq, Repr

/-- The element of row i and column k of step t (R285); free holds the quotient and the remainder by an OW of zero (log 3). AI is
signed, and div and mod of a negative q round down (DEDUCED, log 101). -/
def unfoldAt (u : Unfold) (size : Nat) (ai : Int) (free : Nat × Nat) (t i k : Nat) : Unfolded :=
  let p := u.p0 + i
  let oy : Int := ((if u.ow = 0 then free.1 else p / u.ow : Nat) : Int)
  let ox : Int := ((if u.ow = 0 then free.2 else p % u.ow : Nat) : Int)
  let q : Int := (u.k0 : Int) + (t : Int) * ai + (k : Int)
  if ((u.kh * u.kw * u.c : Nat) : Int) ≤ q then .zero
  else if u.c = 0 then .free
  else
    let c := (Int.fmod q u.c).toNat
    let kx := Int.fmod (Int.fdiv q u.c) u.kw
    let ky := Int.fdiv q ((u.c * u.kw : Nat) : Int)
    let y : Int := oy * u.sy - u.py + ky * u.dy
    let x : Int := ox * u.sx - u.px + kx * u.dx
    if y < 0 || (u.h : Int) ≤ y || x < 0 || (u.w : Int) ≤ x then .zero
    else .at (u.xb + ((y.toNat * u.w + x.toNat) * u.c + c) * size)

/-- The places of the elements of activation row i at step t: first byte, bytes and first bit of each; none for padding (R41, R49,
R50, R285). -/
def LoopParams.elementSpots (p : LoopParams) (g : Nat) (free : Nat × Nat) (t i : Nat) : List (Option Spot ⊕ Unit) :=
  let u := Unfold.ofBytes p.desc
  let size := p.ty.bits / 8
  (List.range (tileK p.ty)).map fun k =>
    if p.unf then match unfoldAt u size p.ai free t i k with
      | .zero => .inl none
      | .at off => .inl (some ⟨spadByte g off, size, 0⟩)
      | .free => .inr ()
    else
      let q := (moorElem p.ty).spot k
      .inl (some { q with off := spadByte g (p.rowAt t i).toNat + q.off })

/-- One activation element as the engine's party reads it, in one read (R232, R283): its code. -/
def State.activationAt (s : State) (pt : Party) (bits : Nat) (x : Option Spot ⊕ Unit) : Nat × State :=
  match x with
  | .inl none => (0, s)
  | .inl (some q) =>
    let (bs, s1) := s.readMem pt none q.off q.bytes
    (ofBytesLE bs / 2 ^ q.shift % 2 ^ bits, s1)
  | .inr () => ((Config.freeWord s.freeCtr).toNat % 2 ^ bits, { s with freeCtr := s.freeCtr + 1 })

/-- The activation row i of step t as the engine's party reads it: codes of K elements. -/
def State.activation (s : State) (pt : Party) (g : Nat) (p : LoopParams) (t i : Nat) : List Nat × State :=
  let free := ((Config.freeWord s.freeCtr).toNat, (Config.freeWord (s.freeCtr + 1)).toNat)
  let s0 := if p.unf && (Unfold.ofBytes p.desc).ow == 0 then { s with freeCtr := s.freeCtr + 2 } else s
  let (xs, s1) := (p.elementSpots g free t i).foldl (fun (acc : List Nat × State) x =>
    let (c, s1) := acc.2.activationAt pt (moorElem p.ty).bits x
    (c :: acc.1, s1)) ([], s0)
  (xs.reverse, s1)

/-- The bytes of the scratchpad that activation row i of a step and its scale are read from: each first byte and length (R286). -/
def LoopParams.rowReads (p : LoopParams) (g t i : Nat) : List (Nat × Nat) :=
  (if p.unf then
    (p.elementSpots g (0, 0) t i).filterMap fun x => match x with
      | .inl (some q) => some (q.off, q.bytes)
      | _ => none
   else [(spadByte g (p.rowAt t i).toNat, moorBytes p.ty (tileK p.ty))]) ++
    (if p.asc then [(spadByte g (p.sb + 32 * t + i), 1)] else [])

/-- The offset of output column j of row i in the group's accumulators (R276). -/
def LoopParams.element (p : LoopParams) (i j : Nat) : Nat :=
  let col := j + if p.c0 then 16 else 0
  8192 * (p.zt + col / 32) + 8 * (32 * i + col % 32)

/-- What a row that is not skipped reads besides: the moored tile, and its own output elements (R286). -/
def LoopParams.blockReads (p : LoopParams) (g : Nat) (m : Moor) (q i : Nat) : List (Nat × Nat) :=
  (spadByte g (m.rb + q * tileBytes m.ty), tileBytes m.ty) ::
    (List.range (tileN p.ty)).map fun j => (accByte g (p.element i j), 8)

/-- The first marked byte of some ranges. -/
def State.marked (s : State) (rs : List (Nat × Nat)) : Option Nat :=
  match s.marks with
  | [] => none
  | _ => (rs.findSome? fun (r : Nat × Nat) => s.markAt r.1 r.2).map (·.1)

/-- The engine's party takes the bytes of a moored tile: those that the MOOR converted, so that it has read the writes that the MOOR took
(R232, R370; DEDUCED, log 121). -/
def State.takeTile (s : State) (pt : Party) (a n : Nat) (m : Moor) : State :=
  let v := s.pv pt
  s.setPv pt { v with o := viewJoin v.o (m.took.filter fun x => decide (byteLoc a ≤ x.1) && decide (x.1 < byteLoc (a + n))) }

/-- One activation row of a step: nothing when its block is skipped, else every output element in turn (R278, R284); or the marked byte
that stops it. -/
def State.matrixRow (s : State) (pt : Party) (g : Nat) (p : LoopParams) (m : Moor) (f : AccForm) (q t i : Nat) : Except Nat State :=
  match s.marked (p.rowReads g t i) with
  | some b => .error b
  | none =>
    let (codes, s1) := s.activation pt g p t i
    let (sc, s2) := if p.asc then
        let (b, s2) := s1.readMem pt none (spadByte g (p.sb + 32 * t + i)) 1
        (ofBytesLE b, s2)
      else (0x78, s1)
    let xs := codes.map fun c => moorValue p.ty (blockScaled p.ty p.asc) c sc
    if p.semiring == .plusTimes && xs.all FNum.isZero && m.flags.all fun x => x.1 != q then .ok s2
    else match s2.marked (p.blockReads g m q i) with
      | some b => .error b
      | none =>
        let n := tileBytes m.ty
        let tile := (m.data.drop (q * n)).take n
        .ok ((List.range (tileN p.ty)).foldl (fun s j =>
          let a := accByte g (p.element i j)
          let (old, s3) := s.readElement pt a
          let new := (List.range (tileK p.ty)).foldl (fun acc k =>
            accStep f p.semiring acc (nth (.fin false 0 1) xs k)
              (moorValue m.ty (blockScaled m.ty m.scaled) (moorCode m.ty tile (k * tileN m.ty + j)) (m.scale q j))) old
          s3.writeQueued pt a (toBytesLE 8 new.toNat)) (s2.takeTile pt (spadByte g (m.rb + q * n)) n m))

/-- One tile step of a loop, or the marked byte that stops it. -/
def State.tileStep (s : State) (pt : Party) (g : Nat) (p : LoopParams) (m : Moor) (q0 t : Nat) : Except Nat State :=
  match accForm p.semiring m.ty m.scaled p.ty p.asc with
  | none => .ok s
  | some f => (List.range 32).foldlM (fun s i => s.matrixRow pt g p m f (q0 + t * (p.mi / tileBytes m.ty)) t i) s

/-- The share of member m of issue i is settled: its arrival at its own group's barrier, and its bit (R287). -/
def State.settleShare (s : State) (i m h : Nat) (fault : Bool) : State :=
  match tabGet? s.issues i with
  | none => s
  | some x =>
    let s1 := { s with issues := tabSet s.issues i { x with
      unsettled := x.unsettled.filter (· != m)
      faulted := if fault then x.faulted ||| BitVec.ofNat 32 (2 ^ m) else x.faulted } }
    s1.arrive h x.bar (s1.pv (.share i m)).o fault

/-- The entry at the head of a group's queue is done: it leaves, and its batch or its issue knows. -/
def State.entryDone (s : State) (g : Nat) (gr : Group) (e : QueueEntry) (fault : Option Nat) : State :=
  let s1 := s.onGroup g Group.popQueue
  match e.work with
  | .loop _ n =>
    if e.fault.isSome then s1
    else s1.onGroup g fun g => g.onBatch n fun b => { b with
      unfinished := b.unfinished - 1
      faults := match fault with
        | some c => insertFault ⟨e.num, c, e.team, e.pc⟩ b.faults
        | none => b.faults }
  | .share i _ => s1.settleShare i gr.gidx g fault.isSome
  | _ => s1

/-- The head of the queue moved on by one step. -/
def Group.stepHead (g : Group) : Group :=
  match g.queue with
  | [] => g
  | e :: rest => { g with queue := { e with step := e.step + 1 } :: rest }

/-- The phase view of an open gate joins the party that it held; the gate is gone. -/
def State.passGate (s : State) (g : Nat) (gr : Group) (pt : Party) (e : QueueEntry) : State :=
  match e.gate with
  | none => s
  | some x =>
    let s1 := s.setPv pt ((s.pv pt).joinO (gr.gateView (some x)))
    s1.onGroup g fun g => match g.queue with
      | [] => g
      | e :: rest => { g with queue := { e with gate := none } :: rest }

/-- One step of a loop or share by its party: the last one ends the entry, a marked byte stops it (R278, R286). -/
def State.loopStep (s : State) (g : Nat) (gr : Group) (e : QueueEntry) (pt : Party) (p : LoopParams) : State :=
  if e.fault.isSome then s.entryDone g gr e none
  else match gr.loopRegion p with
    | none => s.entryDone g gr e (some Cause.illegalOperand.code)
    | some (m, q) =>
      if m.converting then s
      else match (s.passGate g gr pt e).tileStep pt g p m q e.step with
        | .error _ => (s.passGate g gr pt e).entryDone g gr e (some Cause.softError.code)
        | .ok s1 => if e.step + 1 < p.steps then s1.onGroup g Group.stepHead else s1.entryDone g gr e none

/-- A write of a queue entry follows its team's earlier accesses that must precede it (R222). -/
def State.entryMayWrite (s : State) (g : Nat) (e : QueueEntry) : Bool :=
  e.work.writes.all fun w => s.pend.all fun b => !b.2.precedes {
    party := .team e.team, seq := e.seq, path := .acc, vf := 0, launch := 0, pc := 0, lane := 0, va := 0
    loc := byteLoc (accByte g w.1), size := w.2, kind := .read, ord := .relaxed, scope := .team, prod := none }

/-- The eight bytes of an element that ACCZ fills (R313). -/
def fillBytes (kind : Nat) : List Byte := toBytesLE 8 (match kind with | 1 => 0x7F800000 | 2 => 0xFF800000 | _ => 0)

/-- The entry at the head of a group's queue can take its next step now. -/
def State.headAble (s : State) (g : Nat) (gr : Group) : Bool :=
  gr.place.isSome && match gr.queue with
    | [] => false
    | e :: _ => gr.gateOpen e.gate && match e.work with
      | .loop p _ => e.fault.isSome || (gr.loopRegion p).elim true fun m => !m.1.converting
      | .share i p => (e.fault.isSome || (gr.loopRegion p).elim true fun m => !m.1.converting) &&
        !(tabGet? s.issues i).elim false fun x => s.arrivalHeld g x.bar
      | .held i _ => (tabGet? s.issues i).isNone
      | .fill .. | .put _ => s.entryMayWrite g e

/-- Another queue of the core waits for its turn, and this one has stepped since (R280). -/
def State.queueWaits (s : State) (g : Nat) (gr : Group) : Bool :=
  s.groups.any fun h => h.1 != g && h.2.core == gr.core && h.2.passed.contains g && s.headAble h.1 h.2

/-- The queue of a group takes a step: the queues of its core that could take one have been passed once more (R280). -/
def State.passQueue (s : State) (g : Nat) (gr : Group) : State :=
  { s with groups := s.groups.map fun (h : Nat × Group) =>
      if h.1 = g then (h.1, { h.2 with passed := [] })
      else if h.2.core != gr.core then h
      else (h.1, { h.2 with passed := if s.headAble h.1 h.2 then h.2.passed ++ [g] else [] }) }

/-- MATRIX STEP (R278 to R281): the next step of the entry at the head of a group's queue, when the queue's turn has come. -/
def execMatrixStep (g : Nat) (s : State) : Host.Outcome State Fault Refusal :=
  match tabGet? s.groups g with
  | none => .next s
  | some gr =>
    if !s.headAble g gr || s.queueWaits g gr then .next s
    else
      let s1 := s.passQueue g gr
      match gr.queue with
      | [] => .next s
      | e :: _ => match e.work with
        | .loop p n => .next (s1.loopStep g gr e (.batch g n) p)
        | .share i p => .next (s1.loopStep g gr e (.share i gr.gidx) p)
        | .held .. => .next (s1.entryDone g gr e none)
        | .fill z n k =>
          let data := (List.range (1024 * n)).flatMap fun _ => fillBytes k
          .next ((s1.writeQueued (.team e.team) (accByte g (8192 * z)) data).entryDone g gr e none)
        | .put cells =>
          .next ((cells.foldl (fun s c => s.writeQueued (.team e.team) (accByte g c.1) c.2) s1).entryDone g gr e none)

/-! ### Shares (R287, R288) -/

/-- A share placed at its member: in the place held for it, at the end of the queue, or in the buffer. -/
def Group.placeShare (g : Group) (i : Nat) (e : QueueEntry) : Group :=
  if g.queue.any fun x => match x.work with
      | .held j _ => j == i
      | _ => false then
    { g with queue := g.queue.map fun x => match x.work with
        | .held j _ => if j = i then e else x
        | _ => x }
  else if g.queueRoom then { g with queue := g.queue ++ [e] }
  else { g with shares := g.shares ++ [e] }

/-- The place held for an issue's own share given up; a share that waits takes it (R288). -/
def Group.dropHeld (g : Group) (i : Nat) : Group :=
  { g with queue := g.queue.filter fun x => match x.work with
      | .held j _ => j != i
      | _ => true }.admitShare

/-- The checks made at a member as its share arrives (R309): the parameters with the descriptor of that member. -/
def State.shareChecks (s : State) (pt : Party) (h : Nat) (gr : Group) (p : LoopParams) : Except Cause (LoopParams × State) :=
  if (gr.loopRegion p).isNone || !decide (p.zt + tilesWritten p.ty ≤ gr.nacc) then .error .illegalOperand
  else if p.unf && !p.descOk gr.spadLen then .error .illegalOperand
  else if p.unf && (s.markAt (spadByte h p.ab) 32).isSome then .error .softError
  else
    let (bs, s1) := if p.unf then s.readMem pt none (spadByte h p.ab) 32 else ([], s)
    if p.unf && !unfoldOk bs (p.ty.bits / 8) gr.spadLen then .error .illegalOperand
    else match gr.loopFault { p with desc := bs } with
      | some c => .error c
      | none => .ok ({ p with desc := bs }, s1)

/-- The issue i with member m sent, its reservation given back. -/
def State.shareSent (s : State) (i m : Nat) (x : Issue) (h : Option Nat) : State :=
  let s1 := { s with issues := tabSet s.issues i { x with toSend := x.toSend.filter (· != m), reserved := x.reserved.filter (· != m) } }
  match h with
  | some h => if x.reserved.contains m then s1.onGroup h fun g => { g with reserved := g.reserved - 1 } else s1
  | none => s1

/-- SHARE DELIVERY (R287, R288, R309): the share of one member reaches it, once the issuer's gate is open. -/
def execShareDelivery (i m : Nat) (s : State) : Host.Outcome State Fault Refusal :=
  match tabGet? s.issues i with
  | none => .next s
  | some x =>
    match tabGet? s.groups x.group with
    | none => .next s
    | some own =>
      if !x.toSend.contains m || own.place.isNone || !own.gateOpen x.gate then .next s
      else
        let s0 := s.setPv (.share i m) ((s.pv (.share i m)).joinO (own.gateView x.gate))
        match s0.member x.group m with
        | none =>
          let s1 := s0.shareSent i m ((tabGet? s0.issues i).getD x) none
          .next { s1 with issues := tabModify s1.issues i fun y => { y with
            unsettled := y.unsettled.filter (· != m), missed := y.missed ||| BitVec.ofNat 32 (2 ^ m) } }
        | some (h, gr) =>
          let s1 := s0.shareSent i m ((tabGet? s0.issues i).getD x) (some h)
          match s1.shareChecks (.share i m) h gr x.params with
          | .error _ =>
            .next (if s.arrivalHeld h x.bar then s else (s1.onGroup h fun g => g.dropHeld i).settleShare i m h true)
          | .ok (p, s2) =>
            let e : QueueEntry := {
              team := x.team, seq := x.seq, num := 0, gate := none, work := .share i p, step := 0, fault := none, pc := x.pc }
            .next (s2.onGroup h fun g => g.placeShare i e)

/-- The status word of MLOOPG (R287). -/
def Issue.status (x : Issue) : Nat := x.faulted.toNat * 2 ^ 32 + x.missed.toNat

/-- MLOOPG STATUS (R287): every share is settled, and the issuer's register receives the masks. -/
def execMloopgStatus (i : Nat) (s : State) : Host.Outcome State Fault Refusal :=
  match tabGet? s.issues i with
  | none => .next s
  | some x =>
    if x.toSend ≠ [] || x.unsettled ≠ [] then .next s
    else
      let s0 := { s.settleValue (some (x.prod, 0)) x.status 0 [] with issues := tabDel s.issues i }
      let s1 := s0.onLaunch ((tabGet? s.groups x.group).elim 0 (·.launch)) fun la => { la with
        done := x.pvs.foldl (fun v p => viewJoin v p.2.o) la.done }
      match tabGet? s1.prods x.prod with
      | none => .next s1
      | some q => .next (s1.complete x.prod q)

end Sys2Proof.Machine
end

