-- ==== Sys2Proof/Machine/Int.lean ====
section
/-! DEFINITION. Integer and address instructions (R101 to R113). -/

namespace Sys2Proof.Machine

/-! ### The shared shapes -/

/-- The value of bits at an integer type (R101). -/
def valOf (t : Ty) (w : Nat) : Int := intOf t.isSigned t.bits w

/-- D from two sources read as integers. -/
def State.intRI (s : State) (p : Pred) (t : Ty) (w : RI) (f : Int → Int → Nat × Flags) :
    Host.Outcome State Fault Refusal :=
  s.lanewise p t (riD w) (usesRI t w) fun tm l => f (valOf t (tm.first t w l)) (valOf t (tm.second t w l))

/-- D from two sources read as bit patterns. -/
def State.bitsRI (s : State) (p : Pred) (t : Ty) (w : RI) (f : Nat → Nat → Nat × Flags) :
    Host.Outcome State Fault Refusal :=
  s.lanewise p t (riD w) (usesRI t w) fun tm l => f (tm.first t w l) (tm.second t w l)

/-- D from one source, as bits. -/
def State.bitsDA (s : State) (p : Pred) (t : Ty) (w : RWord) (f : Nat → Nat × Flags) :
    Host.Outcome State Fault Refusal :=
  s.lanewise p t w.d (usesDA t w) fun tm l => f (tm.bitsOf t w.a w.ma l)

/-- wrap_T or sat_T of an exact value (R101). -/
def fit (t : Ty) (sat : Bool) (x : Int) : Nat × Flags := fitInt t.isSigned t.bits sat x

/-! ### R101 -/

/-- ADD (R101). -/
def execAdd (p : Pred) (t : Ty) (w : RI) (s : State) : Host.Outcome State Fault Refusal :=
  s.intRI p t w fun a b => fit t (riSat w) (a + b)

/-- SUB (R101). -/
def execSub (p : Pred) (t : Ty) (w : RI) (s : State) : Host.Outcome State Fault Refusal :=
  s.intRI p t w fun a b => fit t (riSat w) (a - b)

/-- MUL (R101). -/
def execMul (p : Pred) (t : Ty) (w : RI) (s : State) : Host.Outcome State Fault Refusal :=
  s.intRI p t w fun a b => fit t (riSat w) (a * b)

/-- MULH (R101): the high half of the product. -/
def execMulh (p : Pred) (t : Ty) (w : RI) (s : State) : Host.Outcome State Fault Refusal :=
  s.intRI p t w fun a b => fit t false (Int.fdiv (a * b) (2 ^ t.bits : Nat))

/-- MAD (R101). -/
def execMad (p : Pred) (t : Ty) (w : RWord) (s : State) : Host.Outcome State Fault Refusal :=
  s.lanewise p t w.d (usesDABC t w) fun tm l =>
    fit t w.sat (valOf t (tm.bitsOf t w.a w.ma l) * valOf t (tm.bitsOf t w.b w.mb l) + valOf t (tm.bitsOf t w.c w.mc l))

/-- The uses of ADDC and SUBB: mC is read and written. -/
def usesCarry (t : Ty) (w : RWord) : List Use :=
  [srcUse .a t w.a w.ma w.fea, srcUse .b t w.b w.mb w.feb, { mUse .c w.c w.mc w.fec with write := true }, dUse t w.d]

/-- ADDC and SUBB (R101): f gives the exact value and the bit of mC from A, B and the bit of mC. -/
def State.carrying (s : State) (p : Pred) (t : Ty) (w : RWord) (f : Int → Int → Int → Int × Bool) :
    Host.Outcome State Fault Refusal :=
  s.alu p (usesCarry t w) (fun _ => true) fun r =>
    let x (l : Nat) := f (valOf t (r.tm.bitsOf t w.a w.ma l)) (valOf t (r.tm.bitsOf t w.b w.mb l))
      (if (r.tm.mask w.c.num.toNat).getLsbD l then 1 else 0)
    let carry := r.lanes.foldl (fun ls l => laneSet ls l (x l).2) (r.tm.mask w.c.num.toNat)
    .ok ((r.results w.d).foldl (fun tm l => tm.put t w.d l (wrapBits t.bits (x l).1))
      (r.tm.setMask w.c.num.toNat carry))

/-- ADDC (R101). -/
def execAddc (p : Pred) (t : Ty) (w : RWord) (s : State) : Host.Outcome State Fault Refusal :=
  s.carrying p t w fun a b c => (a + b + c, decide ((2 ^ t.bits : Nat) ≤ a + b + c))

/-- SUBB (R101). -/
def execSubb (p : Pred) (t : Ty) (w : RWord) (s : State) : Host.Outcome State Fault Refusal :=
  s.carrying p t w fun a b c => (a - b - c, decide (a - b - c < 0))

/-- NEG (R101). -/
def execNeg (p : Pred) (t : Ty) (w : RWord) (s : State) : Host.Outcome State Fault Refusal :=
  s.bitsDA p t w fun a => fit t w.sat (-(valOf t a))

/-- ABS (R101). -/
def execAbs (p : Pred) (t : Ty) (w : RWord) (s : State) : Host.Outcome State Fault Refusal :=
  s.bitsDA p t w fun a => fit t w.sat ((valOf t a).natAbs : Int)

/-- MIN (R101). -/
def execMin (p : Pred) (t : Ty) (w : RI) (s : State) : Host.Outcome State Fault Refusal :=
  s.intRI p t w fun a b => fit t false (Min.min a b)

/-- MAX (R101). -/
def execMax (p : Pred) (t : Ty) (w : RI) (s : State) : Host.Outcome State Fault Refusal :=
  s.intRI p t w fun a b => fit t false (Max.max a b)

/-! ### R102 -/

/-- The quotient and the remainder of R102. -/
def divRem (t : Ty) (a b : Int) : Int × Int :=
  if b = 0 then ((if !t.isSigned then (2 ^ t.bits : Nat) - 1 else if 0 ≤ a then -1 else 1), a)
  else (Int.tdiv a b, a - Int.tdiv a b * b)

/-- DIV (R102). -/
def execDiv (p : Pred) (t : Ty) (w : RI) (s : State) : Host.Outcome State Fault Refusal :=
  s.intRI p t w fun a b => fit t (riSat w) (divRem t a b).1

/-- REM (R102). -/
def execRem (p : Pred) (t : Ty) (w : RI) (s : State) : Host.Outcome State Fault Refusal :=
  s.intRI p t w fun a b => fit t false (divRem t a b).2

/-! ### R103 -/

/-- AND (R103). -/
def execAnd (p : Pred) (t : Ty) (w : RI) (s : State) : Host.Outcome State Fault Refusal :=
  s.bitsRI p t w fun a b => (a &&& b, 0)

/-- OR (R103). -/
def execOr (p : Pred) (t : Ty) (w : RI) (s : State) : Host.Outcome State Fault Refusal :=
  s.bitsRI p t w fun a b => (a ||| b, 0)

/-- XOR (R103). -/
def execXor (p : Pred) (t : Ty) (w : RI) (s : State) : Host.Outcome State Fault Refusal :=
  s.bitsRI p t w fun a b => (a ^^^ b, 0)

/-- ANDN (R103): A and not B. -/
def execAndn (p : Pred) (t : Ty) (w : RI) (s : State) : Host.Outcome State Fault Refusal :=
  s.bitsRI p t w fun a b => (a ^^^ (a &&& b), 0)

/-- SHL (R103); a shift that leaves nothing of A in the type is not carried out bit by bit. -/
def execShl (p : Pred) (t : Ty) (w : RI) (s : State) : Host.Outcome State Fault Refusal :=
  s.bitsRI p t w fun a k => fit t (riSat w) (valOf t a * (2 ^ Nat.min k (2 * t.bits) : Nat))

/-- SHR (R103). -/
def execShr (p : Pred) (t : Ty) (w : RI) (s : State) : Host.Outcome State Fault Refusal :=
  s.bitsRI p t w fun a k => (a / 2 ^ Nat.min k t.bits, 0)

/-- SRA (R103): A read as signed whatever the type. -/
def execSra (p : Pred) (t : Ty) (w : RI) (s : State) : Host.Outcome State Fault Refusal :=
  s.bitsRI p t w fun a k => (wrapBits t.bits (Int.fdiv (intOf true t.bits a) (2 ^ Nat.min k t.bits : Nat)), 0)

/-- ROT (R103). -/
def execRot (p : Pred) (t : Ty) (w : RI) (s : State) : Host.Outcome State Fault Refusal :=
  s.bitsRI p t w fun a k =>
    let j := k % t.bits
    (a * 2 ^ j % 2 ^ t.bits + a / 2 ^ (t.bits - j), 0)

/-- CLZ (R103). -/
def execClz (p : Pred) (t : Ty) (w : RWord) (s : State) : Host.Outcome State Fault Refusal :=
  s.bitsDA p t w fun a => (if a = 0 then t.bits else t.bits - 1 - Nat.log2 a, 0)

/-- POPC (R103). -/
def execPopc (p : Pred) (t : Ty) (w : RWord) (s : State) : Host.Outcome State Fault Refusal :=
  s.bitsDA p t w fun a => (countOnes a t.bits, 0)

/-- The n low bits of a word in reverse order. -/
def reverseBits (w : Nat) : Nat → Nat
  | 0 => 0
  | n + 1 => (w % 2) * 2 ^ n + reverseBits (w / 2) n

/-- BREV (R103). -/
def execBrev (p : Pred) (t : Ty) (w : RWord) (s : State) : Host.Outcome State Fault Refusal :=
  s.bitsDA p t w fun a => (reverseBits a t.bits, 0)

/-! ### R104 and R105 -/

/-- The field of R104: position and length from a control word. -/
def bitField (t : Ty) (a ctl : Nat) : Nat :=
  let pos := ctl % 256
  let len := Nat.min (ctl / 256 % 256) t.bits
  if len = 0 then 0
  else
    -- the bits above n are zeros, or copies of A's sign bit
    let f := wrapBits len (Int.fdiv (valOf t a) (2 ^ pos : Nat))
    wrapBits t.bits (intOf t.isSigned len f)

/-- BFX (R104); a register B of a type narrower than 32 bits is read at 32 bits. -/
def execBfx (p : Pred) (t : Ty) (w : RI) (s : State) : Host.Outcome State Fault Refusal :=
  s.lanewise p t (riD w) (usesRI t w) fun tm l =>
    let ctl := match w with
      | .r w => if t.isWide then tm.bitsOf t w.b w.mb l else (tm.word w.b w.mb l).toNat
      | .i w => w.imm.toNat
    (bitField t (tm.first t w l) ctl, 0)

/-- BFI (R105): B under the mask C, A elsewhere. -/
def execBfi (p : Pred) (t : Ty) (w : RWord) (s : State) : Host.Outcome State Fault Refusal :=
  s.lanewise p t w.d (usesDABC t w) fun tm l =>
    let a := tm.bitsOf t w.a w.ma l
    let b := tm.bitsOf t w.b w.mb l
    let c := tm.bitsOf t w.c w.mc l
    ((a ^^^ (a &&& c)) ||| (b &&& c), 0)

/-! ### R106 and R107 -/

/-- The lowest clear bit of the n low bits, counted up from bit i. -/
def firstClear (a : Nat) : Nat → Nat → Nat
  | _, 0 => 0
  | i, n + 1 => if a.testBit i then firstClear a (i + 1) n else i

/-- FFCS: the result and the new A (R106). -/
def findFirstClear (n a : Nat) : Nat × Nat :=
  if a = 2 ^ n - 1 then (2 ^ n - 1, a)
  else
    let i := firstClear a 0 n
    (i, a + 2 ^ i)

/-- The clear bits set from bit i up, at most as many as left (R107). -/
def setClear (a : Nat) : Nat → Nat → Nat → Nat
  | _, 0, _ => 0
  | i, n + 1, left =>
    if left = 0 then 0
    else if a.testBit i then setClear a (i + 1) n left
    else 2 ^ i + setClear a (i + 1) n (left - 1)

/-- FFCS and PLSET: A is read and written, D and A are distinct (R98); an s register takes the lowest lane's value. -/
def State.setting (s : State) (p : Pred) (t : Ty) (w : RWord) (us : List Use) (f : Team → Nat → Nat × Nat) :
    Host.Outcome State Fault Refusal :=
  s.alu p us (fun _ => w.d != w.a) fun r =>
    .ok ((r.results w.a).foldl (fun tm l => tm.put t w.a l (f r.tm l).2)
      ((r.results w.d).foldl (fun tm l => tm.put t w.d l (f r.tm l).1) r.tm))

/-- The uses of FFCS: A is read and written. -/
def usesFfcs (t : Ty) (w : RWord) : List Use :=
  [{ srcUse .a t w.a w.ma w.fea with write := true }, unused .b w.mb w.feb, unused .c w.mc w.fec, dUse t w.d]

/-- FFCS (R106). -/
def execFfcs (p : Pred) (t : Ty) (w : RWord) (s : State) : Host.Outcome State Fault Refusal :=
  s.setting p t w (usesFfcs t w) fun tm l => findFirstClear t.bits (tm.bitsOf t w.a w.ma l)

/-- The uses of PLSET: A is read and written. -/
def usesPlset (t : Ty) (w : RWord) : List Use :=
  [{ srcUse .a t w.a w.ma w.fea with write := true }, srcUse .b t w.b w.mb w.feb, unused .c w.mc w.fec, dUse t w.d]

/-- PLSET (R107). -/
def execPlset (p : Pred) (t : Ty) (w : RWord) (s : State) : Host.Outcome State Fault Refusal :=
  s.setting p t w (usesPlset t w) fun tm l =>
      let a := tm.bitsOf t w.a w.ma l
      let got := setClear a 0 t.bits (tm.bitsOf t w.b w.mb l)
      (got, a ||| got)

/-! ### R108 to R113 -/

/-- The uses of SEL: mC may be m0. -/
def usesSel (t : Ty) (w : RWord) : List Use :=
  [srcUse .a t w.a w.ma w.fea, srcUse .b t w.b w.mb w.feb, mUse .c w.c w.mc w.fec, dUse t w.d]

/-- SEL (R108). -/
def execSel (p : Pred) (t : Ty) (w : RWord) (s : State) : Host.Outcome State Fault Refusal :=
  s.lanewise p t w.d (usesSel t w) fun tm l =>
    (if (tm.mask w.c.num.toNat).getLsbD l then tm.bitsOf t w.a w.ma l else tm.bitsOf t w.b w.mb l, 0)

/-- The uses of a comparison: a mask destination. -/
def usesCmp (t : Ty) : RI → List Use
  | .r w => [srcUse .a t w.a w.ma w.fea, srcUse .b t w.b w.mb w.feb, unused .c w.mc w.fec, mdUse w.d]
  | .i w => [srcUse .a t w.a w.ma w.fea, mdUse w.d]

/-- CMP (R109). -/
def execCmp (p : Pred) (t : Ty) (cc : Cond) (w : RI) (s : State) : Host.Outcome State Fault Refusal :=
  s.maskwise p (riD w) (usesCmp t w) fun tm l =>
    (intCompare cc (valOf t (tm.first t w l)) (valOf t (tm.second t w l)), 0)

/-- The uses of MOV. -/
def usesMov (t : Ty) : RI → List Use
  | .r w => usesDA t w
  | .i w => [{ unused .a w.ma w.fea with opd := w.a }, dUse t w.d]

/-- MOV (R110). -/
def execMov (p : Pred) (t : Ty) (w : RI) (s : State) : Host.Outcome State Fault Refusal :=
  s.lanewise p t (riD w) (usesMov t w) fun tm l =>
    match w with
    | .r w => (tm.bitsOf t w.a w.ma l, 0)
    | .i w => (if t.isInt then immBits t w.imm else f32Pattern t w.imm, 0)

/-- The destination of a format L word. -/
def lDest (w : LWord) : Opd := ⟨if w.dc then .s else .v, w.dn⟩

/-- MOVI (R111). -/
def execMovi (p : Pred) (t : Ty) (w : LWord) (s : State) : Host.Outcome State Fault Refusal :=
  s.lanewise p t (lDest w) [dUse t (lDest w)] fun _ _ => (w.imm.toNat, 0)

/-- LEA (R112). -/
def execLea (p : Pred) (t : Ty) (w : RI) (s : State) : Host.Outcome State Fault Refusal :=
  s.intRI p t w fun a b => fit t false (match w with
    | .r w => a + b * (2 ^ w.simm.toNat : Nat)
    | .i _ => a + b)

/-- Word j of a mask. -/
def maskWord (l : LaneSet) (j : Nat) : Word32 := l.extractLsb' (32 * j) 32

/-- A mask-word index within the team (R113, R167). -/
def wordIndexOk (tm : Team) (o : Opd) (simm : BitVec 11) : Bool := o.cls != .s || decide (simm.toNat < tm.words)

/-- The mask word that a form of MOVM names: the one of SIMM11 beside an s operand (R113). -/
def movmWord (o : Opd) (simm : BitVec 11) : Option Nat := if o.cls = .s then some simm.toNat else none

/-- The uses of MOVM.tor. -/
def usesMovmTor (w : RWord) : List Use :=
  [{ mUse .a w.a w.ma w.fea with word := movmWord w.d w.simm }, unused .b w.mb w.feb, unused .c w.mc w.fec, dUse .n32 w.d]

/-- MOVM.tor (R113): the s form reads its word of the mask whatever lanes are active. -/
def execMovmTor (p : Pred) (w : RWord) (s : State) : Host.Outcome State Fault Refusal :=
  s.alu p (usesMovmTor w)
    (fun tm => wordIndexOk tm w.d w.simm) fun r =>
      let m := r.tm.mask w.a.num.toNat
      .ok (match w.d.cls with
        | .s => r.tm.put .n32 w.d 0 (maskWord m w.simm.toNat).toNat
        | _ => r.lanes.foldl (fun tm l => tm.put .n32 w.d l (if m.getLsbD l then 1 else 0)) r.tm)

/-- The uses of MOVM.tom. -/
def usesMovmTom (w : RWord) : List Use :=
  [srcUse .a .n32 w.a w.ma w.fea, unused .b w.mb w.feb, unused .c w.mc w.fec,
    { mdUse w.d with word := movmWord w.a w.simm }]

/-- MOVM.tom (R113). -/
def execMovmTom (p : Pred) (w : RWord) (s : State) : Host.Outcome State Fault Refusal :=
  s.alu p (usesMovmTom w) (fun tm => wordIndexOk tm w.a w.simm) fun r =>
    let k := w.d.num.toNat
    let set := r.lanes.foldl (fun ls l => match w.a.cls with
      | .s => if l / 32 = w.simm.toNat then laneSet ls l ((r.tm.sGet w.a.num.toNat).getLsbD (l % 32)) else ls
      | _ => laneSet ls l (r.tm.word w.a w.ma l != 0)) (r.tm.mask k)
    .ok (r.tm.setMask k set)

/-- NOP (R124): the word has no operands and no predicate; it only advances the PC. -/
def execNop (s : State) : Host.Outcome State Fault Refusal :=
  s.run fun t tm => .ok (s.setTeam t tm.advance)

end Sys2Proof.Machine
end

