-- ==== Sys2Proof/Machine/Float.lean ====
section
/-! DEFINITION. Floating-point instructions and conversions (R114 to R123). -/

namespace Sys2Proof.Machine

/-- A rounded result with the flags of the operation and of its one rounding. -/
def rounded (t : Ty) (rm : Rm) (sat : Bool) (v : FNum × Flags) : Nat × Flags :=
  let (c, f) := (tyFmt t).round rm sat v.1
  (c, f ||| v.2)

/-- D from two sources read as values of a floating type. -/
def State.fltRI (s : State) (p : Pred) (t : Ty) (w : RI) (f : Rm → FNum → FNum → FNum × Flags) :
    Host.Outcome State Fault Refusal :=
  s.lanewise p t (riD w) (usesRI t w) fun tm l =>
    let rm := tm.mode (riRm w)
    rounded t rm (riSat w) (f rm (tm.firstNum t w l) (tm.secondNum t w l))

/-- The value of a source of a floating type. -/
def Team.numOf (tm : Team) (t : Ty) (o : Opd) (m : Modifier) (l : Nat) : FNum := (tyFmt t).decode (tm.bitsOf t o m l)

/-- D from one source: f rounds it. -/
def State.fltDA (s : State) (p : Pred) (t : Ty) (w : RWord) (f : Rm → FNum → Nat × Flags) :
    Host.Outcome State Fault Refusal :=
  s.lanewise p t w.d (usesDA t w) fun tm l => f (tm.mode w.rm) (tm.numOf t w.a w.ma l)

/-- FADD (R114). -/
def execFadd (p : Pred) (t : Ty) (w : RI) (s : State) : Host.Outcome State Fault Refusal :=
  s.fltRI p t w fun rm a b => FNum.add rm a b

/-- FSUB (R114). -/
def execFsub (p : Pred) (t : Ty) (w : RI) (s : State) : Host.Outcome State Fault Refusal :=
  s.fltRI p t w fun rm a b => FNum.add rm a b.neg

/-- FMUL (R114). -/
def execFmul (p : Pred) (t : Ty) (w : RI) (s : State) : Host.Outcome State Fault Refusal :=
  s.fltRI p t w fun _ a b => a.mul b

/-- FDIV (R114). -/
def execFdiv (p : Pred) (t : Ty) (w : RI) (s : State) : Host.Outcome State Fault Refusal :=
  s.fltRI p t w fun _ a b => a.div b

/-- FMA (R114). -/
def execFma (p : Pred) (t : Ty) (w : RWord) (s : State) : Host.Outcome State Fault Refusal :=
  s.lanewise p t w.d (usesDABC t w) fun tm l =>
    rounded t (tm.mode w.rm) w.sat (FNum.fma (tm.mode w.rm) (tm.numOf t w.a w.ma l) (tm.numOf t w.b w.mb l)
      (tm.numOf t w.c w.mc l))

/-- FSQRT (R114). -/
def execFsqrt (p : Pred) (t : Ty) (w : RWord) (s : State) : Host.Outcome State Fault Refusal :=
  s.fltDA p t w fun rm a => rounded t rm w.sat a.sqrt

/-- FRSQ (R114). -/
def execFrsq (p : Pred) (t : Ty) (w : RWord) (s : State) : Host.Outcome State Fault Refusal :=
  s.fltDA p t w fun rm a => rounded t rm w.sat a.rsqrt

/-- FEXP2 (R114). -/
def execFexp2 (p : Pred) (t : Ty) (w : RWord) (s : State) : Host.Outcome State Fault Refusal :=
  s.fltDA p t w fun rm a => exp2Round (tyFmt t) rm w.sat a

/-- FLOG2 (R114). -/
def execFlog2 (p : Pred) (t : Ty) (w : RWord) (s : State) : Host.Outcome State Fault Refusal :=
  s.fltDA p t w fun rm a => log2Round (tyFmt t) rm w.sat a

/-- A × 2^b, exact; b beyond every format's range moves nothing further. -/
def scaleBy (a : FNum) (b : Int) : FNum :=
  match a with
  | .fin neg n d =>
    let b := Max.max (-5000) (Min.min 5000 b)
    if b < 0 then .fin neg n (d * 2 ^ b.natAbs) else .fin neg (n * 2 ^ b.natAbs) d
  | v => v

/-- The uses of FSCALE: B is read as I32. -/
def usesFscale (t : Ty) : RI → List Use
  | .r w => [srcUse .a t w.a w.ma w.fea, srcUse .b .i32 w.b w.mb w.feb, unused .c w.mc w.fec, dUse t w.d]
  | .i w => [srcUse .a t w.a w.ma w.fea, dUse t w.d]

/-- FSCALE (R114). -/
def execFscale (p : Pred) (t : Ty) (w : RI) (s : State) : Host.Outcome State Fault Refusal :=
  s.lanewise p t (riD w) (usesFscale t w) fun tm l =>
    let b : Int := match w with
      | .r w => (tm.word w.b w.mb l).toInt
      | .i w => w.imm.toInt
    let a := tm.firstNum t w l
    rounded t (tm.mode (riRm w)) (riSat w) (scaleBy a b, sigFlag a)

/-- The bits of a second source of FMIN and FMAX, an immediate taken as a value of the type (R115). -/
def Team.secondBits (tm : Team) (t : Ty) (w : RI) (l : Nat) : Nat :=
  match w with
  | .r w => tm.bitsOf t w.b w.mb l
  | .i w => f32Pattern t w.imm

/-- FMIN and FMAX (R115); INVALID for a signalling immediate is seen in the F32 pattern. -/
def State.fltPick (s : State) (p : Pred) (t : Ty) (w : RI) (isMax : Bool) : Host.Outcome State Fault Refusal :=
  s.lanewise p t (riD w) (usesRI t w) fun tm l =>
    let (c, f) := floatMinMax (tyFmt t) isMax (tm.first t w l) (tm.secondBits t w l)
    (c, f ||| sigFlag (tm.secondNum t w l))

/-- FMIN (R115). -/
def execFmin (p : Pred) (t : Ty) (w : RI) (s : State) : Host.Outcome State Fault Refusal := s.fltPick p t w false

/-- FMAX (R115). -/
def execFmax (p : Pred) (t : Ty) (w : RI) (s : State) : Host.Outcome State Fault Refusal := s.fltPick p t w true

/-- FCMP (R116). -/
def execFcmp (p : Pred) (t : Ty) (cc : FCond) (sig : Bool) (w : RI) (s : State) : Host.Outcome State Fault Refusal :=
  s.maskwise p (riD w) (usesCmp t w) fun tm l =>
    let a := tm.firstNum t w l
    let b := tm.secondNum t w l
    (floatCompare cc a b, sigFlag a ||| sigFlag b ||| flagIf (sig && (a.isNan || b.isNan)) fInvalid)

/-- The class bit of a value (R117). -/
def classOf (f : Fmt) (c : Nat) : Nat :=
  match f.decode c with
  | .nan .signalling => 8
  | .nan _ => 9
  | .inf neg => if neg then 0 else 7
  | .fin neg n _ =>
    if n = 0 then if neg then 3 else 4
    else if c % 2 ^ f.mag / 2 ^ f.fbits = 0 then if neg then 2 else 5
    else if neg then 1 else 6

/-- The uses of FCLASS. -/
def usesFclass (t : Ty) (w : RWord) : List Use :=
  [srcUse .a t w.a w.ma w.fea, unused .b w.mb w.feb, unused .c w.mc w.fec, dUse .n32 w.d]

/-- FCLASS (R117): an N32 result. -/
def execFclass (p : Pred) (t : Ty) (w : RWord) (s : State) : Host.Outcome State Fault Refusal :=
  s.lanewise p .n32 w.d (usesFclass t w) fun tm l => (2 ^ classOf (tyFmt t) (tm.bitsOf t w.a w.ma l), 0)

/-- FRND (R118). -/
def execFrnd (p : Pred) (t : Ty) (w : RWord) (s : State) : Host.Outcome State Fault Refusal :=
  s.fltDA p t w fun rm a =>
    let r : FNum := match a with
      | .fin neg n d => .fin neg (roundInt rm neg n d) 1
      | v => v
    (((tyFmt t).round rm false r).1, sigFlag a)

/-! ### FUPD (R119, R120) -/

/-- The eight parameters of an optimiser step (R119). -/
structure UpdParams where
  beta1 : Word32
  gamma1 : Word32
  beta2 : Word32
  gamma2 : Word32
  eta : Word32
  eps : Word32
  delta : Word32
deriving DecidableEq, Repr

/-- The parameters in four 64-bit words (R119, R295). -/
def updParams (k : Nat → Word64) : UpdParams where
  beta1 := (k 0).extractLsb' 0 32
  gamma1 := (k 0).extractLsb' 32 32
  beta2 := (k 1).extractLsb' 0 32
  gamma2 := (k 1).extractLsb' 32 32
  eta := (k 2).extractLsb' 0 32
  eps := (k 2).extractLsb' 32 32
  delta := (k 3).extractLsb' 0 32

/-- The new weight and moments, whether they are written, and the flags (R120). -/
structure UpdResult where
  w : Word32
  m : Word32
  v : Word32
  written : Bool
  flags : Flags
deriving DecidableEq, Repr

def finite32 (w : Word32) : Bool := (f32 w).isFinite

/-- The step of R120 on one element. -/
def updStep (adam skipnf : Bool) (q : UpdParams) (w m v g0 : Word32) : UpdResult :=
  let (g, e0) := if adam then fmaRn q.delta w g0 else (g0, 0)
  let (bm, e1) := mulRn q.beta1 m
  let (m1, e2) := fmaRn q.gamma1 g bm
  let (gg, e3) := mulRn g g
  let (bv, e4) := mulRn q.beta2 v
  let (v0, e5) := fmaRn q.gamma2 gg bv
  -- below zero, or the zero with a sign
  let clamp := !(f32 v0).isNan && (f32 v0).negative
  let v1 : Word32 := if clamp then 0 else v0
  let (root, e6) := rn32 (f32 v1).sqrt
  let (den, e7) := addRn root q.eps
  let (u, e8) := rn32 ((f32 m1).div (f32 den))
  let (dw, e9) := if adam then ((0 : Word32), (0 : Flags)) else mulRn q.delta w
  let (w1, e10) := if adam then (w, 0) else subRn w dw
  let (w2, e11) := rn32 (FNum.fma .rn (f32 q.eta).neg (f32 u) (f32 w1))
  let flags := e0 ||| e1 ||| e2 ||| e3 ||| e4 ||| e5 ||| flagIf clamp fNegclamp ||| e6 ||| e7 ||| e8 ||| e9 |||
    e10 ||| e11
  let nf := !(finite32 w && finite32 m && finite32 v && finite32 g && finite32 w2 && finite32 m1 && finite32 v1)
  if nf && skipnf then ⟨w, m, v, false, flags ||| fNanupd⟩
  else ⟨w2, m1, v1, true, flags ||| flagIf (f32 w2).isNan fNanupd⟩

/-- The uses of FUPD: D, A and B are read and written and so admit no view (DEDUCED, log 33); C is read, through its view (R96);
so are the four parameter registers, which have no FE bit. -/
def usesFupd (w : RWord) : List Use :=
  let src (l : Letter) (o : Opd) (fe wr : Bool) : Use :=
    { letter := l, opd := o, want := wantV, read := true, write := wr, fe := fe, views := [] }
  [{ src .a w.a w.fea true with md := w.ma }, { src .b w.b w.feb true with md := w.mb },
    { src .c w.c w.fec false with md := w.mc, views := allViews }, src .d w.d false true,
    { letter := .d, opd := ⟨.s, w.simm.setWidth 8⟩, want := wantS, read := true, span := 4, field := false }]

/-- What FUPD gives for a lane (R119, R120). -/
def fupdStep (adam : Bool) (w : RWord) (tm : Team) (l : Nat) : UpdResult :=
  updStep adam tm.skipnf (updParams fun i => tm.sGet (w.simm.toNat + i)) (tm.vGet w.d.num.toNat l) (tm.vGet w.a.num.toNat l)
    (tm.vGet w.b.num.toNat l) (tm.word w.c w.mc l)

/-- FUPD (R119, R120): every rounding is RN. -/
def execFupd (p : Pred) (adam : Bool) (w : RWord) (s : State) : Host.Outcome State Fault Refusal :=
  s.alu p (usesFupd w) (fun _ => distinct [w.d, w.a, w.b, w.c]) fun r =>
    .ok (r.lanes.foldl (fun tm l =>
      let x := fupdStep adam w r.tm l
      (((tm.vSet w.d.num.toNat l x.w).vSet w.a.num.toNat l x.m).vSet w.b.num.toNat l x.v).raise x.flags) r.tm)

/-! ### Conversions (R121 to R123) -/

/-- The uses of a conversion: A at the source type, D at the destination type. -/
def usesCvt (t src : Ty) (w : RWord) : List Use :=
  [srcUse .a src w.a w.ma w.fea, unused .b w.mb w.feb, unused .c w.mc w.fec, dUse t w.d]

/-- CVT (R121). -/
def execCvt (p : Pred) (t : Ty) (src : Ty) (w : RWord) (s : State) : Host.Outcome State Fault Refusal :=
  s.lanewise p t w.d (usesCvt t src w) fun tm l =>
    convert src t (tm.mode w.rm) w.sat (tm.bitsOf src w.a w.ma l)

/-- The quotient of a value by a block scale, converted (R62). -/
def scaleDown (t : Ty) (rm : Rm) (sat : Bool) (v : FNum) (scale : Nat) : Nat × Flags :=
  let q : FNum × Flags := match fmtScale.decode (scale % 256) with
    | .fin _ c d =>
      if c = 0 then
        match v with
        | .nan k => (.nan k, sigFlag v)
        | .fin _ 0 _ => (qnan, fInvalid)
        | _ => (.inf v.negative, match v with
          | .fin .. => fDivz
          | _ => 0)
      else match v with
        | .fin neg a b => (.fin neg (a * d) (b * c), 0)
        | _ => (v, sigFlag v)
    | _ => (qnan, sigFlag v)
  let (c, f) := if t.isInt then toInteger t rm q.1 else tyFromNum t rm sat q.1
  (c, f ||| q.2)

/-- The uses of CVTS: B holds the scale. -/
def usesCvts (t src : Ty) (w : RWord) : List Use :=
  [srcUse .a src w.a w.ma w.fea, srcUse .b .n32 w.b w.mb w.feb, unused .c w.mc w.fec, dUse t w.d]

/-- CVTS (R122). -/
def execCvts (p : Pred) (t : Ty) (src : Ty) (w : RWord) (s : State) : Host.Outcome State Fault Refusal :=
  s.lanewise p t w.d (usesCvts t src w) fun tm l => scaleDown t (tm.mode w.rm) w.sat (tm.numOf src w.a w.ma l) (tm.word w.b w.mb l).toNat

/-- The larger of a magnitude so far and that of a value, when it is finite (R63). -/
def largerMagnitude (a : Nat × Nat) (v : FNum) : Nat × Nat :=
  match v with
  | .fin _ n d => if a.1 * d < n * a.2 then (n, d) else a
  | _ => a

/-- The scale of the block that lane l lies in, over the active lanes of its mask word (R63, R123). -/
def blockScale (t src : Ty) (w : RWord) (tm : Team) (lanes : List Nat) (l : Nat) : Nat × Flags :=
  let (n, d) := (lanes.filter fun k => k / 32 == l / 32).foldl
    (fun a k => largerMagnitude a (tm.numOf src w.a w.ma k)) (0, 1)
  chooseScale (.fin false n d) (scaleLimit t)

/-- The uses of CVTB: A is read in every active lane, also for an s destination, whose lane is the lowest active one: the block is then
that of its mask word (DEDUCED, log 112: R97 would read a v source in that lane alone). -/
def usesCvtb (src : Ty) (w : RWord) : List Use :=
  [{ srcUse .a src w.a w.ma w.fea with who := .eachActive }, unused .b w.mb w.feb, unused .c w.mc w.fec, dUse .n8 w.d]

/-- CVTB (R123): an N8 scale code. -/
def execCvtb (p : Pred) (t : Ty) (src : Ty) (w : RWord) (s : State) : Host.Outcome State Fault Refusal :=
  s.alu p (usesCvtb src w) (fun _ => true) fun r =>
    .ok ((r.results w.d).foldl (fun tm l =>
      let x := blockScale t src w r.tm r.lanes l
      (tm.put .n8 w.d l x.1).raise x.2) r.tm)

end Sys2Proof.Machine
end

