-- ==== Sys2Proof/Machine/Soft.lean ====
section
/-! DEFINITION. Soft regions: SLD, SST, SEPOCH, HARDEN, SLDA, SSTA, and the moves that their accesses make at the home slice
(R235 to R237, R252 to R261, R269). -/

namespace Sys2Proof.Machine

/-! ### Soft pointers (R240, R252) -/

/-- K and the element index of layout S. -/
def softK (w : XWord) : Nat := w.imm 3 0 + 1

def softElem (w : XWord) : Nat := w.imm 9 4

def softGrad (w : XWord) : Bool := w.imm 15 15 == 1

/-- The index and weight ranges of a soft pointer. -/
def usesPointer (w : XWord) : List Use :=
  [{ letter := .a, opd := w.a, want := wantV, read := true, span := softK w, who := .eachActive },
    { letter := .b, opd := w.b, want := wantV, read := true, span := softK w, who := .eachActive }]

/-- One entry of a lane's soft pointer. -/
structure SoftEntry where
  k : Nat
  slot : Nat
  weight : Word32
deriving DecidableEq, Repr

/-- The entries of a lane that are not skipped, in ascending k. -/
def Team.pointer (tm : Team) (w : XWord) (l : Nat) : List SoftEntry :=
  ((List.range (softK w)).map fun k =>
    ⟨k, (tm.vGet (w.a.num.toNat + k) l).toNat, tm.vGet (w.b.num.toNat + k) l⟩).filter fun e => e.slot != 0xFFFFFFFF

/-- A weight of +0 or −0. -/
def SoftEntry.weightless (e : SoftEntry) : Bool := (f32 e.weight).isZero

/-- The address of an element of a slot (R252). -/
def Handle.slotVa (h : Handle) (slot elem : Nat) : Word64 :=
  h.base + BitVec.ofNat 64 (4 * (slot * h.step 1 + elem))

/-- Two checks of every lane: a lane fails with the first that it fails, and the lowest failing lane gives the cause (R136,
R252, R349). -/
def eachLaneThen {α : Type} (f : Nat → Except Stop Unit) (g : Nat → Except Stop α) (lanes : List Nat) :
    Except (LaneSet × Stop) (List α) :=
  eachLane (fun l => do
    f l
    g l) lanes

/-- A lane's indices lie below the slot count (R252). -/
def Team.slotsOk (tm : Team) (w : XWord) (h : Handle) (l : Nat) : Except Stop Unit :=
  match (tm.pointer w l).find? fun e => decide (h.extent 1 ≤ e.slot) with
  | some e => .error (Stop.at .access (h.slotVa e.slot (softElem w)))
  | none => .ok ()

/-- The handle of a soft instruction: a valid soft region whose slot width holds the element (R252). -/
def State.softHandle (s : State) (r : Ready) (w : XWord) : Except (LaneSet × Stop) (Handle × Nat × State) := do
  let (h, a, s1) ← s.teamHandle r w.handle.toNat
  if h.type ≠ 3 then stop (invalidHandle w.handle.toNat)
  else do
    ensure (decide (softElem w < h.extent 0)) .illegalOperand
    .ok (h, a, s1)

/-- An access at the home slice of a region: it is ordered by the region's binding location, and, where whole says so, as an
access to every slot (R237, R256, R269). -/
def State.sliceAccess (s : State) (r : Ready) (num a : Nat) (h : Handle) (kind : AccKind) (whole : Bool)
    (prod : Option (Nat × Nat)) : Access where
  party := .team r.t
  seq := r.tm.seq
  path := .glob
  vf := s.vfOf r.tm
  launch := r.tm.launch
  pc := r.tm.pc
  lane := 0
  va := (s.launchOf r.tm).elim 0 fun la => la.entryVa num
  loc := bindLoc a
  size := 0
  kind := kind
  ord := .relaxed
  scope := .team
  prod := prod
  range := if whole then s.slotRuns (s.vfOf r.tm) h else []

/-! ### SLD and HARDEN (R253, R259) -/

/-- The slot elements that a lane reads: each entry's address and target. -/
def State.softReads (s : State) (vf : Nat) (h : Handle) (elem : Nat) (es : List SoftEntry) :
    Except Stop (List (SoftEntry × Word64 × Target)) :=
  es.mapM fun e =>
    let va := h.slotVa e.slot elem
    (s.loadTarget vf 0 .global va 4 .f32).map fun tg => (e, va, tg)

/-- SLD (R253). -/
def execSld (p : Pred) (w : XWord) (s : State) : Host.Outcome State Fault Refusal :=
  s.instruct p (usesPointer w ++ [{ letter := .d, opd := w.d, want := wantV, write := true }]) (fun _ => true)
    fun r => do
      let (h, _, s1) ← s.softHandle r w
      let live (l : Nat) : List SoftEntry := (r.tm.pointer w l).filter fun e => !e.weightless
      let rows ← eachLaneThen (r.tm.slotsOk w h) (fun l => s1.softReads (s.vfOf r.tm) h (softElem w) (live l)) r.lanes
      destsReady r.tm (destRefs .f32 w.d r.lanes)
      let s2 := (r.lanes.zip rows).foldl (fun s x =>
        let (k, s3) := s.addProducer r.t (destRefs .f32 w.d [x.1])
          (.soft (destRef w.d x.1) (x.2.map fun e => e.1.weight)) x.2.length
        (List.range x.2.length).foldl (fun s i => match x.2[i]? with
          | none => s
          | some (_, va, tg) => s.addAccess (s.teamAccess r .global x.1 va tg 4 .read .relaxed .team (some (k, i)))) s3) s1
      s2.issued r false

/-- The entry with the larger weight; a tie goes to the lower slot, then the lower k, which comes first (R259). -/
def heavier (a b : SoftEntry) : SoftEntry :=
  if FNum.lt false (f32 a.weight) (f32 b.weight) then b
  else if FNum.lt false (f32 b.weight) (f32 a.weight) then a
  else if b.slot < a.slot then b else a

/-- What HARDEN gives for a lane (R259). -/
def hardest (es : List SoftEntry) : Nat :=
  match es.filter fun e => !e.weightless && !(f32 e.weight).isNan with
  | [] => 0xFFFFFFFF
  | e :: rest => (rest.foldl heavier e).slot

/-- HARDEN (R259). -/
def execHarden (p : Pred) (w : XWord) (s : State) : Host.Outcome State Fault Refusal :=
  let us := usesPointer w ++ [{ letter := .d, opd := w.d, want := wantV, write := true }]
  s.instruct p us (fun _ => true) fun r => do
    let (h, _, s1) ← s.softHandle r w
    let _ ← eachLane (r.tm.slotsOk w h) r.lanes
    s1.writeBack r us (r.lanes.foldl (fun tm l => tm.put .n32 w.d l (hardest (r.tm.pointer w l)))
      ((tabGet? s1.teams r.t).getD r.tm))

/-! ### SST (R254) -/

/-- The targets of the entries of a lane that take part in its blend: the row check is the slice's (R254, R360). -/
def State.blendEntries (s : State) (vf : Nat) (h : Handle) (elem : Nat) (es : List SoftEntry) :
    Except Stop (List (Nat × Nat × Word32 × Nat)) :=
  (es.filter fun e => !e.weightless).mapM fun e =>
    let va := h.slotVa e.slot elem
    match s.translate vf va 4 .store true false with
    | .error x => .error x
    | .ok (.byte a) => if s.isMoored a 4 then .error (Stop.at .mooredWrite va) else .ok (e.slot, e.k, e.weight, a)
    | .ok _ => .error (Stop.at .access va)

/-- SST (R254). -/
def execSst (p : Pred) (w : XWord) (s : State) : Host.Outcome State Fault Refusal :=
  s.instruct p (usesPointer w ++ [{ letter := .d, opd := w.d, want := wantV, read := true, who := .eachActive }])
    (fun _ => true) fun r => do
      let (h, a, s1) ← s.softHandle r w
      let rows ← eachLaneThen (r.tm.slotsOk w h)
        (fun l => s1.blendEntries (s.vfOf r.tm) h (softElem w) (r.tm.pointer w l)) r.lanes
      let bs := (r.lanes.zip rows).map fun x => ({
        team := r.t, launch := r.tm.launch, wid := r.tm.wid, order := r.tm.seq, lane := x.1, tseq := 0
        elem := softElem w, x := r.tm.vGet w.d.num.toNat x.1, entries := x.2, pc := r.tm.pc } : Blend)
      (s1.addAccess (s1.sliceAccess r w.handle.toNat a h (.blend bs w.be) false none)).issued r true

/-- A fault that one of the blends meets at its slice (R254, R360). -/
def State.blendFault (s : State) (vf : Nat) (bs : List Blend) : Option Cause :=
  bs.findSome? fun b => b.entries.findSome? fun e => s.sliceFault vf e.2.2.2 4

/-- BLEND ENTRY (R235, R254): the blends of one SST enter the queue of the open epoch, or are discarded with a Deferred record;
then its arrival, if it sends one. -/
def State.performBlend (s : State) (id : Nat) (x : Access) (bs : List Blend) (sends : Bool) : State :=
  match x.party with
  | .team t =>
    match s.blendFault x.vf bs with
    | some c => (s.deferAccess x.self c).performed id
    | none =>
      let a := x.loc / 3
      let q := tabGet s.soft a Soft.empty
      let n := tabGet q.counts t 0
      let q1 := { q with blends := q.blends ++ bs.map (fun b => { b with tseq := n }), counts := tabSet q.counts t (n + 1) }
      let s1 := { s with soft := tabSet s.soft a q1 }
      if sends then
        let (b, s2) := s1.readBinding x.party a
        match s2.boundLive b with
        | some (g, k) => if s2.arrivalHeld g k then s else (s2.arrive g k (s2.pv x.party).o false).performed id
        | none => (s2.deferAccess x.self .illegalOperand).performed id
      else s1.performed id
  | _ => s.performed id

/-! ### SEPOCH (R256) -/

/-- SEPOCH (R256): a use of the handle, and the close that follows at the home slice. -/
def execSepoch (p : Pred) (w : XWord) (s : State) : Host.Outcome State Fault Refusal :=
  let d : Use := if w.d == .zero then unused .d else { letter := .d, opd := w.d, want := wantS, write := true }
  s.instruct p [d] (fun _ => true) fun r => do
    let (h, a, s1) ← s.teamHandle r w.handle.toNat
    if h.type ≠ 3 then stop (invalidHandle w.handle.toNat)
    else
      let kind := AccKind.close w.handle.toNat (w.imm 2 2 == 1)
      if d.write then do
        destsReady r.tm (d.refs [])
        let (k, s2) := s1.addProducer r.t (d.refs []) (.value (destRef w.d 0) .n32 0) 1
        (s2.addAccess (s2.sliceAccess r w.handle.toNat a h kind true (some (k, 0)))).issued r true
      else (s1.addAccess (s1.sliceAccess r w.handle.toNat a h kind true none)).issued r true

/-- SEPOCH.bind and SEPOCH.unbind, with the binding they write. -/
def State.rebind (s : State) (p : Pred) (w : XWord) (more : Team → Bool) (bar : Team → Option (Nat × Nat)) :
    Host.Outcome State Fault Refusal :=
  s.instruct p [] more fun r => do
    let (h, a, s1) ← s.teamHandle r w.handle.toNat
    if h.type ≠ 3 then stop (invalidHandle w.handle.toNat)
    else
      (s1.addAccess (s1.sliceAccess r w.handle.toNat a h (.bindTo (bar r.tm)) true none)).issued r true

/-- SEPOCH.bind (R256). -/
def execSepochBind (p : Pred) (w : XWord) (s : State) : Host.Outcome State Fault Refusal :=
  s.rebind p w (barOk s w) fun tm => some (tm.group, w.bn.toNat)

/-- SEPOCH.unbind (R256). -/
def execSepochUnbind (p : Pred) (w : XWord) (s : State) : Host.Outcome State Fault Refusal :=
  s.rebind p w (fun _ => true) fun _ => none

/-- The soft region of a pending access, as its entry now reads, or none when the entry has stopped being one. -/
def State.regionAt (s : State) (a : Nat) : Option Handle :=
  let h := Handle.ofBytes (s.entryNow a)
  if h.type = 3 then some h else none

/-- The close of SEPOCH performs (R237, R256, R258). An entry that has stopped being a soft region is closed no more, and sD receives
the epoch that the slice last counted (DEDUCED, log 117). -/
def State.performClose (s : State) (id : Nat) (x : Access) (jrst : Bool) : State :=
  let a := x.loc / 3
  match s.regionAt a with
  | none => (s.settleValue x.prod (tabGet s.soft a Soft.empty).epoch.toNat 0 []).performed id
  | some h =>
    if s.regionHeld x.vf h then s else
    let (s1, _, n) := s.closeEpoch x.party (s.partyDie x.party) ((s.partyTeam x.party).getD 0, x.pc) x.vf a h jrst
    (s1.settleValue x.prod n.toNat 0 []).performed id

/-- The write of the binding performs (R269). -/
def State.performBinding (s : State) (id : Nat) (x : Access) (bar : Option (Nat × Nat)) : State :=
  (s.writeBinding x.party (x.loc / 3) (s.boundLive bar)).performed id

/-! ### SLDA (R260) -/

/-- The handle after the region's: a dense F32 tensor that covers the slots (R260, R261). Its RO does not matter: the reductions of SLDA
and the gradient writes of SSTA are taken not to be the stores of R208 (DESIGN CHOICE, log 126). -/
def gradientOk (g h : Handle) : Bool :=
  g.type == 1 && g.fmt == 4 && g.rank == 2 && decide (h.extent 0 ≤ g.extent 0) && decide (h.extent 1 ≤ g.extent 1)

/-- The gradient tensor of a soft region of handle n. -/
def State.gradHandle (s : State) (r : Ready) (n : Nat) (h : Handle) : Except (LaneSet × Stop) (Handle × State) := do
  let (g, _, s1) ← s.teamHandle r (n + 1)
  if gradientOk g h then .ok (g, s1) else stop (invalidHandle (n + 1))

/-- The ranges that SLDA writes and reads do not meet (R260). -/
def sldaDistinct (w : XWord) : Bool :=
  let k := softK w
  let d := w.d.num.toNat
  let apart (x n : Nat) : Bool := decide (x + n ≤ d) || decide (d + k ≤ x)
  apart w.a.num.toNat k && apart w.b.num.toNat k && apart w.c.num.toNat 1

/-- The uses of SLDA. -/
def usesSlda (w : XWord) : List Use :=
  usesPointer w ++
    [{ letter := .c, opd := w.c, want := wantV, read := true, who := .eachActive },
      { letter := .d, opd := w.d, want := wantV, write := true, span := softK w }]

/-- The reductions of a lane: target, address, lane, operand. -/
def State.sldaReds (s : State) (vf : Nat) (tm : Team) (w : XWord) (g : Handle) (l : Nat) :
    Except Stop (List (Target × Word64 × Nat × Nat)) :=
  ((tm.pointer w l).filter fun e => !e.weightless).mapM fun e =>
    let va := g.base + BitVec.ofNat 64 (4 * (softElem w + e.slot * g.step 1))
    (s.atomTarget vf 0 .global va 4 true).map fun tg =>
      (tg, va, l, (mulRn e.weight (tm.vGet w.c.num.toNat l)).1.toNat)

/-- SLDA (R260). -/
def execSlda (p : Pred) (w : XWord) (s : State) : Host.Outcome State Fault Refusal :=
  let grd := softGrad w
  s.instruct p (usesSlda w) (fun _ => sldaDistinct w && (!grd || w.handle != 0xFFF)) fun r => do
    let (h, _, s1) ← s.softHandle r w
    let vf := s.vfOf r.tm
    let (g, s2) ← if grd then s1.gradHandle r w.handle.toNat h else .ok (h, s1)
    let rows ← eachLaneThen (r.tm.slotsOk w h) (fun l => do
      let reads ← s2.softReads vf h (softElem w) (r.tm.pointer w l)
      let reds ← if grd then s2.sldaReds vf r.tm w g l else .ok []
      .ok (reads, reds)) r.lanes
    destsReady r.tm ((List.range (softK w)).flatMap fun k => r.lanes.map fun l => RegRef.v (w.d.num.toNat + k) l)
    let s3 := (r.lanes.zip rows).foldl (fun s x =>
      (List.range (softK w)).foldl (fun s k =>
        let q := RegRef.v (w.d.num.toNat + k) x.1
        match x.2.1.find? fun e => e.1.k == k with
        | none => (s.addProducer r.t [q] (.value q .f32 0) 0).2
        | some (_, va, tg) =>
          let (n, s4) := s.addProducer r.t [q] (.grad q (r.tm.vGet w.c.num.toNat x.1)) 1
          s4.addAccess (s4.teamAccess r .global x.1 va tg 4 .read .relaxed .team (some (n, 0)))) s) s2
    let s5 := (combineLanes .add .f32 (rows.flatMap fun x => x.2)).foldl (fun s x =>
      s.addAccess (s.teamAccess r .global x.2.2.1 x.2.1 x.1 4 (.red .add .f32 (BitVec.ofNat 64 x.2.2.2)) .relaxed .team
        none)) s3
    s5.issued r grd

/-! ### SSTA (R261) -/

/-- SSTA (R261): the uses of both handles are checked at issue. The epoch number is sA[31:0], and the bits above are ignored (DESIGN
CHOICE, log 127: R261 says no more than that sA holds it). -/
def execSsta (p : Pred) (w : XWord) (s : State) : Host.Outcome State Fault Refusal :=
  s.instruct p (usesInOut w) (fun tm => barOk s w tm && w.handle != 0xFFF) fun r => do
    let (h, a, s1) ← s.teamHandle r w.handle.toNat
    if h.type ≠ 3 then stop (invalidHandle w.handle.toNat)
    else do
      let (_, s2) ← s1.gradHandle r w.handle.toNat h
      destsReady r.tm [.s w.d.num.toNat]
      let (k, s3) := s2.addProducer r.t [.s w.d.num.toNat] (.value (.s w.d.num.toNat) .n64 0) 1
      let kind := AccKind.adjoint w.handle.toNat ((r.tm.sGet w.a.num.toNat).setWidth 32) (w.imm 0 0 == 1)
        (if w.be then some w.bn.toNat else none)
      (s3.addAccess (s3.sliceAccess r w.handle.toNat a h kind true (some (k, 0)))).issued r true

/-- The adjoints of one record: DX, DW and the new gradient (R261). -/
def adjoints (w x pre gs : Word32) : Word32 × Word32 × Word32 :=
  let finite := (f32 gs).isFinite
  let dw := if finite && (f32 x).isFinite && (f32 pre).isFinite then
      (rn32 ((FNum.add .rn (f32 x) (f32 pre).neg).1.mul (f32 gs))).1
    else (mulRn (subRn x pre).1 gs).1
  let one : Word32 := 0x3F800000
  let dg := if finite && (f32 w).isFinite then
      (rn32 ((FNum.add .rn (f32 one) (f32 w).neg).1.mul (f32 gs))).1
    else (mulRn (subRn one w).1 gs).1
  ((mulRn w gs).1, dw, dg)

/-- What an SSTA has done so far: the state, the O of its party, the records processed; or the address that stopped it. -/
structure Adjoint where
  s : State
  /-- The die for which its writes count (R367). -/
  die : Option Nat
  view : View
  count : Nat
  fail : Option (Nat × Word64)

/-- The byte address of n bytes that SSTA reads, or the cause and address that stop it; cause 0 stands for a swap that holds them, for
which the whole move waits (R196). -/
def Adjoint.place (x : Adjoint) (vf : Nat) (va : Word64) (n : Nat) : Except (Nat × Word64) Nat :=
  match x.s.translate vf va n .engine false with
  | .ok (.byte a) =>
    if x.s.swapping a n then .error (0, va) else if (x.s.markAt a n).isSome then .error (Cause.softError.code, va) else .ok a
  | .ok _ => .error (Cause.access.code, va)
  | .error (.wait _) => .error (0, va)
  | .error e => .error (e.code, va)

/-- A read by SSTA, not below its floor; its O rises to the writes chosen (R223, R261). -/
def Adjoint.read (x : Adjoint) (floor : View) (vf : Nat) (va : Word64) (n : Nat) : Except (Nat × Word64) (List Byte × Adjoint) := do
  let a ← x.place vf va n
  let idx := x.s.readIdx (viewAt (viewJoin floor x.view)) a n
  .ok ((List.range n).map fun i => x.s.byteAt (a + i) (nth 0 idx i),
    { x with
      s := { x.s with picks := x.s.picks.drop n }
      view := (List.range n).foldl (fun o i => viewRaise o (byteLoc (a + i)) (nth 0 idx i)) x.view })

/-- A journal record as it stands: SSTA is one move with the journal (R261). -/
def Adjoint.journal (x : Adjoint) (vf : Nat) (va : Word64) : Except (Nat × Word64) (List Byte × Adjoint) := do
  let a ← x.place vf va 64
  .ok (memGets x.s.mem a 64, { x with view := x.s.raiseLatest x.view a 64 })

/-- Bytes written by SSTA for its party, a command of its issuer (R217, R261). -/
def Adjoint.write (x : Adjoint) (vf : Nat) (va : Word64) (bs : List Byte) : Except (Nat × Word64) Adjoint :=
  match x.s.translate vf va 4 .engine true with
  | .ok (.byte a) =>
    if x.s.swapping a bs.length then .error (0, va)
    else if (x.s.partMark a bs.length).isSome then .error (Cause.softError.code, va)
    else
      let s1 := ((x.s.writeMem .watch none [] a bs).unmark a bs.length).countFor x.s.nextWrite x.die
      .ok { x with s := s1, view := s1.raiseLatest x.view a bs.length }
  | .ok _ => .error (Cause.access.code, va)
  | .error (.wait _) => .error (0, va)
  | .error e => .error (e.code, va)

/-- One record of the epoch, as its 64 bytes were read (R261). -/
def Adjoint.record (x1 : Adjoint) (floor : View) (vf : Nat) (h g : Handle) (rwd : Bool) (va : Word64) (bs : List Byte) :
    Except (Nat × Word64) Adjoint := do
  let slot := field bs 32 32
  let elem := field bs 80 8
  let word (b : Nat) : Word32 := BitVec.ofNat 32 (field bs (8 * b) 32)
  let gva := g.base + BitVec.ofNat 64 (4 * (elem + slot * g.step 1))
  let (gs, x2) ← x1.read floor vf gva 4
  let (dx, dw, dg) := adjoints (word 0x1C) (word 0x20) (word 0x18) (BitVec.ofNat 32 (ofBytesLE gs))
  let x3 ← x2.write vf (va + 0x28) (toBytesLE 4 dx.toNat ++ toBytesLE 4 dw.toNat ++ toBytesLE 4 1)
  let x4 ← x3.write vf gva (toBytesLE 4 dg.toNat)
  let x5 ← if rwd then x4.write vf (h.slotVa slot elem) (toBytesLE 4 (word 0x18).toNat) else .ok x4
  .ok { x5 with count := x5.count + 1 }

/-- The records of an epoch, from record n − 1 down to record 0; a failure ends the walk. -/
def Adjoint.records (x : Adjoint) (floor : View) (vf : Nat) (h g : Handle) (rwd : Bool) (epoch : Word32) : Nat → Adjoint
  | 0 => x
  | n + 1 =>
    let va := h.ptr + BitVec.ofNat 64 (64 * (1 + n))
    match x.journal vf va with
    | .error e => { x with fail := some e }
    | .ok (bs, x1) =>
      if BitVec.ofNat 32 (field bs 0 32) = epoch then
        match x1.record floor vf h g rwd va bs with
        | .ok x2 => x2.records floor vf h g rwd epoch n
        | .error e => { x1 with fail := some e }
      else x1.records floor vf h g rwd epoch n

/-- The O of an SSTA once it has read HEAD, OVF and OVFEP of the journal (R223, R261). -/
def State.readHeaderView (s : State) (vf : Nat) (j : Journal) : View :=
  match s.journalAddr vf j.base 64 false with
  | .ok a => s.raiseLatest (s.raiseLatest [] a 8) (a + 12) 8
  | .error _ => []

/-- SSTA delivers its status word, with the join of its O, then arrives at its barrier (R229, R261). -/
def State.endAdjoint (s : State) (id : Nat) (a : Access) (status : Nat) (view : View) (bar : Option Nat) : State :=
  let s1 := s.settleValue a.prod status 0 view
  (match bar, s1.partyGroup a.party with
    | some k, some g => s1.arrive g k view false
    | _, _ => s1).performed id

/-- The arrival of an SSTA is held. -/
def State.adjointHeld (s : State) (a : Access) (bar : Option Nat) : Bool :=
  match bar, s.partyGroup a.party with
  | some k, some g => s.arrivalHeld g k
  | _, _ => false

/-- The move of SSTA (R261). A read or write of it that fails translation or permission ends the walk there, with a Deferred
record of its team and the count so far; a region or a gradient entry that can no longer be used gives MISSING and no record; the
arrival is made all the same (DESIGN CHOICE, log 23: the spec gives no fault of this move). The whole move waits for a swap that holds
something that it works on, or that the closes of its arrival do (R196). -/
def State.performAdjoint (s : State) (id : Nat) (a : Access) (num : Nat) (epoch : Word32) (rwd : Bool)
    (bar : Option Nat) : State :=
  if s.adjointHeld a bar then s
  else match a.party, s.regionAt (a.loc / 3), s.useHandle a.party a.vf a.launch (num + 1) with
  | _, _, .error (.wait _) => s
  | .team t, some h, .ok (g, _, s1) =>
    if s.regionHeld a.vf h then s else
    let floor := (s.pv a.party).floor
    let j := s1.journal a.vf h (tabGet s1.soft (a.loc / 3) Soft.empty)
    let x0 : Adjoint := ⟨s1, s1.partyDie a.party, if j.known then s1.readHeaderView a.vf j else [], 0, none⟩
    let trunc := j.known && j.ovf && decide (j.ovfep.toNat ≤ epoch.toNat)
    let x : Adjoint := if !j.known then { x0 with fail := j.fail }
      else if trunc then x0 else x0.records floor a.vf h g rwd epoch (Nat.min j.head j.cap)
    match x.fail with
    | some (0, _) => s
    | fail =>
      (fail.elim x.s fun f => x.s.deferred t f.1 a.pc f.2).endAdjoint id a (x.count + (if trunc then 2 ^ 32 else if x.count = 0 then 2 ^ 33 else 0)) x.view bar
  | _, _, _ => s.endAdjoint id a (2 ^ 33) [] bar

end Sys2Proof.Machine
end

