-- ==== Sys2Proof/Machine/HandleOps.lean ====
section
/-! DEFINITION. HGET, HSET, HATT and HDET (R262 to R266). -/

namespace Sys2Proof.Machine

/-! ### HGET (R262) -/

/-- The use of HGET: eight s registers from a multiple of 8. -/
def usesHget (w : XWord) : List Use := [{ letter := .d, opd := w.d, want := wantS, write := true, span := 8 }]

/-- HGET (R262): an entry of any TYPE; without a table there is none (R215). -/
def execHget (p : Pred) (w : XWord) (s : State) : Host.Outcome State Fault Refusal :=
  s.instruct p (usesHget w) (fun _ => w.d.num.toNat % 8 == 0) fun r =>
    match s.launchOf r.tm with
    | none => stop (invalidHandle w.handle.toNat)
    | some la =>
      if la.htb = 0 then stop (invalidHandle w.handle.toNat)
      else
        let va := la.entryVa w.handle.toNat
        match s.loadTarget la.vf r.tm.group .global va 64 .n64 with
        | .error e => stop e
        | .ok (.byte a) => do
          let dests := (List.range 8).map fun i => RegRef.s (w.d.num.toNat + i)
          destsReady r.tm dests
          let (k, s1) := s.addProducer r.t dests (.words w.d.num.toNat) 1
          let acc := s1.teamAccess r .global r.low va (.byte a) 64 .entry (ordP w) (scopeP w) (some (k, 0))
          (s1.addAccess { acc with loc := entryLoc a }).issued r false
        | .ok _ => stop (Stop.at .access va)

/-! ### Changing an entry (R263 to R266) -/

/-- A FOLD holds the entry: other changes of it wait (R266, R297). -/
def State.foldHolds (s : State) (a : Nat) : Bool := s.commands.any fun c => c.2.holds == some a

/-- The byte address of the entry that a change names, checked as a store. -/
def State.entryToChange (s : State) (r : Ready) (n : Nat) : Except (LaneSet × Stop) Nat :=
  match s.launchOf r.tm with
  | none => stop (invalidHandle n)
  | some la =>
    if la.htb = 0 then stop (invalidHandle n)
    else match s.storeTarget la.vf r.tm.group .global (la.entryVa n) 64 .n64 0 with
      | .error e => stop e
      | .ok (.byte a) => .ok a
      | .ok _ => stop (Stop.at .access (la.entryVa n))

/-- The issuing team once every earlier access of it has performed and no FOLD holds the entry; the change itself is then one
move of its step 7. A change that starts from the entry's bytes consumes their marks (R361). -/
def State.changing (s : State) (r : Ready) (n : Nat) (reads : Bool) : Except (LaneSet × Stop) Nat := do
  let a ← s.entryToChange r n
  waitFor (s.drained r.t && !s.swapping a 64) .other
  waitFor (!s.foldHolds a) (.held a)
  unmarked s (if reads then s.markAt a 64 else none) ((s.launchOf r.tm).elim 0 fun la => la.entryVa n)
  .ok a

/-- A read by the issuing team at a virtual address, at step 7. -/
def State.readNow (s : State) (r : Ready) (va : Word64) (n : Nat) : Except (LaneSet × Stop) (List Byte × State) :=
  match s.readVa (.team r.t) none (s.vfOf r.tm) va n .load with
  | .ok x => .ok x
  | .error e => stop e

/-- The team past a change of an entry, with its new LVER in D. -/
def State.changed (s : State) (r : Ready) (d : Option Nat) (lver : Nat) : State :=
  (s.onTeam r.t fun tm => ((match d with
    | some k => tm.sSet k (BitVec.ofNat 64 lver)
    | none => tm).number.finish true)).clearRegMarks r.tm (d.elim [] fun k => [.s k])

/-- The contents that HSET may publish: a valid entry, or all zeros, which retires the handle (R263). -/
def publishable (bs : List Byte) : Bool := (Handle.ofBytes bs).ok || bs.all (· == 0)

/-- The use of HSET: the address of the new entry, or none. -/
def usesHset (w : XWord) : List Use := [{ letter := .a, opd := w.a, want := wantSN, read := true }]

/-- HSET (R263). The close of the region that the entry was waits for a swap that holds what it works on (R196). -/
def execHset (p : Pred) (w : XWord) (s : State) : Host.Outcome State Fault Refusal :=
  let n := w.handle.toNat
  s.instruct p (usesHset w) (fun _ => true) fun r => do
    let src := r.tm.sGet w.a.num.toNat
    if w.a.cls == .s && src.toNat % 64 != 0 then stop (Stop.at .misaligned src)
    else do
      let a ← s.changing r n (w.a.cls != .s)
      let (new, s1) ← if w.a.cls == .s then s.readNow r src 64 else .ok (memGets s.mem a 64, s)
      if !publishable new then stop (invalidHandle n)
      else
        let old := s1.entryNow a
        let before := Handle.ofBytes old
        let closes := before.type == 3 && before.ok
        waitFor (!(closes && s1.regionHeld (s1.vfOf r.tm) before)) .other
        let s3 := if closes then
            (s1.closeEpoch (.team r.t) (s1.partyDie (.team r.t)) (r.t, r.tm.pc) (s1.vfOf r.tm) a before false).1
          else s1
        let rel := some (s3.instOf (.team r.t) (scopeP w))
        let s4 := if w.a.cls == .s then s3.changeEntry (.team r.t) rel a new
          else s3.publish (.team r.t) rel a old new
        .ok (s4.changed r none 0)

/-- An entry with its count and version replaced (R208, R214). -/
def withList (bs : List Byte) (count lver : Nat) : List Byte :=
  (List.range 64).map fun i =>
    if i = 0x2F then BitVec.ofNat 8 count
    else if 0x38 ≤ i ∧ i < 0x3C then BitVec.ofNat 8 (lver / 2 ^ (8 * (i - 0x38)))
    else nth 0 bs i

/-- HATT (R264). The descriptor at sA is read, and its faults are taken, before the entry and the descriptor are checked (DEDUCED,
log 116). -/
def execHatt (p : Pred) (w : XWord) (s : State) : Host.Outcome State Fault Refusal :=
  let n := w.handle.toNat
  s.instruct p (usesInOut w) (fun _ => true) fun r => do
      let src := r.tm.sGet w.a.num.toNat
      if src.toNat % 32 ≠ 0 then stop (Stop.at .misaligned src)
      else do
        let a ← s.changing r n true
        let e := s.entryNow a
        let h := Handle.ofBytes e
        let (d, s1) ← s.readNow r src 32
        if h.type ≠ 4 || !h.ok || !(Layer.ofBytes d).ok then stop (invalidHandle n)
        else if h.lcount = 8 then stop (.trap .listOverflow (n + h.lver.toNat * 2 ^ 12) 0)
        else
          let va := h.ptr + BitVec.ofNat 64 (32 * h.lcount)
          match s1.storeTarget (s1.vfOf r.tm) r.tm.group .global va 32 .n64 0 with
          | .error x => stop x
          | .ok (.byte b) => do
            destsReady r.tm [.s w.d.num.toNat]
            waitFor (!s1.swapping b 32) .other
            let lver := (h.lver.toNat + 1) % 2 ^ 32
            let s2 := (s1.writeMem (.team r.t) none [] b d).unmark b 32
            let s3 := s2.changeEntry (.team r.t) (some (s2.instOf (.team r.t) (scopeP w))) a
              (withList e (h.lcount + 1) lver)
            .ok (s3.changed r (some w.d.num.toNat) lver)
          | .ok _ => stop (Stop.at .access va)

/-- HDET (R265). -/
def execHdet (p : Pred) (w : XWord) (s : State) : Host.Outcome State Fault Refusal :=
  let n := w.handle.toNat
  s.instruct p [{ letter := .d, opd := w.d, want := wantS, write := true }] (fun _ => true) fun r => do
    let a ← s.changing r n true
    let e := s.entryNow a
    let h := Handle.ofBytes e
    if h.type ≠ 4 || !h.ok then stop (invalidHandle n)
    else do
      ensure (h.lcount != 0) .illegalOperand
      destsReady r.tm [.s w.d.num.toNat]
      let lver := (h.lver.toNat + 1) % 2 ^ 32
      let s1 := s.changeEntry (.team r.t) (some (s.instOf (.team r.t) (scopeP w))) a (withList e (h.lcount - 1) lver)
      .ok (s1.changed r (some w.d.num.toNat) lver)

end Sys2Proof.Machine
end

