-- ==== Sys2Proof/Machine/MemSide.lean ====
section
/-! DEFINITION. Memory-side commands: FOLD, EMB and UPD, their entry, their moves and their completion words (R233, R296, R297,
R300, R301, R321 to R324, R327). -/

namespace Sys2Proof.Machine

/-! ### Issue (R321 to R323) -/

/-- The completion word that a command names, checked like a store: its place, and whether it empties that register (R188). -/
def State.completionPlace (s : State) (r : Ready) (cw : Word64) : Except (LaneSet × Stop) (Nat × Bool) :=
  if cw.toNat % 8 ≠ 0 then stop (Stop.at .misaligned cw)
  else match s.storeTarget (s.vfOf r.tm) r.tm.group .global cw 8 .n64 0 with
    | .error e => stop e
    | .ok (.byte a) => .ok (a, false)
    | .ok (.image a empties) => .ok (a, empties)
    | .ok _ => stop (Stop.at .access cw)

/-- A command of the issuing team placed in its queue. -/
def State.addCommand (s : State) (r : Ready) (kind : CommandKind) (place : Nat × Bool) (tag : Word32)
    (todo : List (Nat × Nat)) (final : Bool) : State :=
  { s with
    nextId := s.nextId + 1
    commands := tabSet s.commands s.nextId {
      kind := kind, team := r.t, seq := r.tm.seq, launch := r.tm.launch, vf := s.vfOf r.tm, cwAt := place.1
      cwEmpties := place.2, tag := tag, die := s.partyDie (.team r.t), entered := false, since := 0, todo := todo
      final := final, flags := 0, fault := none, holds := none, blocked := none, pv := {}, pc := r.tm.pc } }

/-- The completion address and the tag in sD and s(D+1). -/
def cwUse (w : XWord) : Use := { letter := .d, opd := w.d, want := wantS, read := true, span := 2 }

/-- The uses of FOLD. -/
def usesFold (w : XWord) : List Use :=
  [{ letter := .a, opd := w.a, want := wantS, read := true }, { letter := .b, opd := w.b, want := wantS, read := true }, cwUse w]

/-- FOLD (R297, R321). -/
def execFold (p : Pred) (w : XWord) (s : State) : Host.Outcome State Fault Refusal :=
  s.instruct p (usesFold w) (fun _ => true) fun r => do
      let place ← s.completionPlace r (r.tm.sGet w.d.num.toNat)
      let kind := CommandKind.fold w.handle.toNat (w.imm 3 0) (r.tm.sGet w.a.num.toNat) (r.tm.sGet w.b.num.toNat) []
      (s.addCommand r kind place ((r.tm.sGet (w.d.num.toNat + 1)).setWidth 32) [] true).issued r true

/-- The uses of EMB. -/
def usesEmb (w : XWord) : List Use :=
  [{ letter := .a, opd := w.a, want := wantV, read := true, pair := true, who := .eachActive },
    { letter := .b, opd := w.b, want := wantV, read := true, pair := true, who := .eachActive },
    { letter := .c, opd := w.c, want := wantV, read := true, who := .eachActive }, cwUse w]

/-- The lines of 64 bytes that n bytes at an address meet. -/
def linesMet (a n : Nat) : Nat := if n = 0 then 0 else (a + n - 1) / 64 - a / 64 + 1

/-- The lines that a row of a table may meet, wherever it begins. -/
def rowLines (h : Handle) : Nat := (h.elem.bits / 8 * h.extent 0 + 126) / 64

/-- A bag of EMB as it is issued, with every line still to do. -/
def Bag.start (h : Handle) (lane : Nat) (indices out : Word64) (count : Word32) : Bag where
  lane := lane
  indices := indices
  out := out
  count := count
  todo := [(0, linesMet indices.toNat (4 * count.toNat) + count.toNat * rowLines h + linesMet out.toNat (4 * h.extent 0))]

/-- The table of EMB (R300, R322). -/
def embTable (h : Handle) : Bool := h.type == 1 && h.rank == 2 && (h.fmt == 4 || h.fmt == 6 || h.fmt == 7)

/-- EMB (R300, R322). -/
def execEmb (p : Pred) (mean : Bool) (w : XWord) (s : State) : Host.Outcome State Fault Refusal :=
  s.instruct p (usesEmb w) (fun _ => true) fun r => do
    let place ← s.completionPlace r (r.tm.sGet w.d.num.toNat)
    let (h, a, s1) ← s.teamHandle r w.handle.toNat
    if !embTable h then stop (invalidHandle w.handle.toNat)
    else do
      let bags ← eachLane (fun l =>
        let ia := r.tm.pairGet w.a.num.toNat l
        let oa := r.tm.pairGet w.b.num.toNat l
        if ia.toNat % 4 ≠ 0 then .error (Stop.at .misaligned ia)
        else if oa.toNat % 4 ≠ 0 then .error (Stop.at .misaligned oa)
        else .ok (Bag.start h l ia oa (r.tm.vGet w.c.num.toNat l))) r.lanes
      let kind := CommandKind.emb mean (s.readEntry (.team r.t) none a).1 bags
      (s1.addCommand r kind place ((r.tm.sGet (w.d.num.toNat + 1)).setWidth 32) (r.lanes.map fun l => (l, l + 1)) false).issued
        r true

/-- The targets of the loads of n bytes by the issuing team, 8 bytes at a time (R323). -/
def State.loadsAt (s : State) (r : Ready) (va : Word64) (n : Nat) : Except Stop (List Target) :=
  (List.range (n / 8)).mapM fun i => s.loadTarget (s.vfOf r.tm) r.tm.group .global (va + BitVec.ofNat 64 (8 * i)) 8 .n64

/-- Loads by the issuing team at its step 7, after its own earlier accesses to the bytes (R23, R222, R323). -/
def State.readOrdered (s : State) (r : Ready) (va : Word64) (n : Nat) : Except (LaneSet × Stop) (List Byte × State) :=
  match s.loadsAt r va n with
  | .error e => stop e
  | .ok tgs => do
    waitFor (!s.hasAcquire r.t && tgs.all fun tg => !s.ownBefore r.t r.tm.seq tg.addr 8 && !s.swapping tg.addr 8) .other
    .ok (tgs.foldl (fun (x : List Byte × State) tg =>
      let (bs, s1) := x.2.readAt (.team r.t) none tg.addr 8
      (x.1 ++ bs, s1)) ([], s))

/-- The uses of UPD. -/
def usesUpd (w : XWord) : List Use := [{ letter := .a, opd := w.a, want := wantS, read := true }]

/-- The first of these addresses that is not a multiple of n. -/
def misaligned (as : List Word64) (n : Nat) : Option Word64 := as.find? fun a => a.toNat % n != 0

/-- UPD (R301, R323). -/
def execUpd (p : Pred) (adam : Bool) (w : XWord) (s : State) : Host.Outcome State Fault Refusal :=
  s.instruct p (usesUpd w) (fun _ => true) fun r => do
    let sa := r.tm.sGet w.a.num.toNat
    if sa.toNat % 64 ≠ 0 then stop (Stop.at .misaligned sa)
    else do
      let (d, s1) ← s.readOrdered r sa 64
      let u (off : Nat) : Word64 := BitVec.ofNat 64 (field d (8 * off) 64)
      let count := field d 256 32
      match misaligned [u 0, u 8, u 16, u 24] 4, misaligned [u 0x28] 32 with
      | some a, _ => stop (Stop.at .misaligned a)
      | none, some a => stop (Stop.at .misaligned a)
      | none, none => do
        ensure (decide (1 ≤ count) && decide (count ≤ 16777216) && field d 288 32 == 0 && field d 480 32 == 0) .illegalOperand
        let place ← s1.completionPlace r (u 0x30)
        let (q, s2) ← s1.readOrdered r (u 0x28) 32
        let params := (List.range 4).map fun i => BitVec.ofNat 64 (field q (64 * i) 64)
        let kind := CommandKind.upd adam r.tm.skipnf (u 0) (u 8) (u 16) (u 24) count params
        (s2.addCommand r kind place (BitVec.ofNat 32 (field d 448 32)) [(0, count)] false).issued r true

/-! ### Faults and waits of a command (R296) -/

def State.onCommand (s : State) (k : Nat) (f : Command → Command) : State := { s with commands := tabModify s.commands k f }

/-- The bags of a command that wait for a translation are over. -/
def Command.endWaits (c : Command) : Command :=
  match c.kind with
  | .emb _ _ bags => { c with todo := (bags.filter (·.waits)).foldl (fun t b => cutUnits b.lane 1 t) c.todo }
  | _ => c

/-- A command faults: the cause of its word. -/
def State.faultCommand (s : State) (k : Nat) (cause : Cause) : State :=
  s.onCommand k fun c => { c with fault := if c.fault.isSome then c.fault else some cause.code, holds := none }

/-- A stop of a command acted on: it waits for the translation, which is reported once; a row check is a Deferred record as
well (R199); anything else is in the word. -/
def State.stopCommand (s : State) (k : Nat) (c : Command) : CopyStop → State
  | .wait va =>
    if c.blocked = some va then s
    else (s.onCommand k fun c => { c with blocked := some va }).report c.vf va 4
      ((tabGet? s.launches c.launch).elim 0 (·.lnum))
  | .held => s
  | .fatal va => (s.deferred c.team Cause.access.code c.pc va).faultCommand k .access
  | .fault e _ => s.faultCommand k e

/-- The place of n bytes that a command writes. -/
def State.commandDest (s : State) (c : Command) (va : Word64) (n : Nat) : Except CopyStop Nat := do
  let tg ← viaStop (s.translate c.vf va n .engine true)
  match tg with
  | .byte a =>
    s.copyFree a n
    copyNeed (!s.isMoored a n) .mooredWrite
    copyNeed (s.partMark a n).isNone .softError
    .ok a
  | _ => copyFault .access

/-- Bytes that a command reads at an aligned address; not older than the write with identifier since. -/
def State.commandRead (s : State) (k : Nat) (c : Command) (since : Nat) (va : Word64) (n : Nat) :
    Except CopyStop (List Byte × Nat × State) := do
  let tg ← viaStop (s.translate c.vf va n .engine false)
  match tg with
  | .byte a =>
    s.copyFree a n
    copyNeed (s.markAt a n).isNone .softError
    let (bs, s1) := s.readFloor (.command k) none (fun l => Nat.max (s.readFloorAt (.command k) l) (s.indexSince since l)) a n
    .ok (bs, a, s1)
  | _ => copyFault .access

/-- A write of a command. -/
def State.commandWrite (s : State) (k : Nat) (a : Nat) (bs : List Byte) : State :=
  (s.writeMem (.command k) none [] a bs).unmark a bs.length

/-! ### Entry (R233, R327) -/

/-- The issuing team has an earlier write that has not performed, or an acquire that must come first (R222, R327). -/
def State.earlierWrite (s : State) (c : Command) : Bool :=
  (s.pend.any fun x => x.2.places.any fun q => q.1 == .team c.team && decide (q.2.1 < c.seq) &&
    (x.2.kind.writes || Ord.acquires q.2.2)) || s.queuedWrites c.team c.seq != []

/-- The entry that a FOLD starts from, checked as R297 says: its byte address, its bytes, and the state after the read. -/
def State.foldStart (s : State) (k : Nat) (c : Command) (n p : Nat) (nb nl : Word64) : Except CopyStop (Nat × List Byte × State) := do
  match tabGet? s.launches c.launch with
  | none => copyFault .handleInvalid
  | some la =>
    copyNeed (la.htb != 0) .handleInvalid
    let a ← s.commandDest c (la.entryVa n) 64
    copyNeed (s.markAt a 64).isNone .softError
    let (bs, s1) := s.readEntry (.command k) none a
    let h := Handle.ofBytes bs
    copyNeed (h.ok && h.type == 4) .handleInvalid
    copyNeed (decide (1 ≤ p) && decide (p ≤ h.lcount)) .illegalOperand
    copyNeed (nb.toNat / 2 ^ 56 == 0 && nl.toNat / 2 ^ 56 == 0 && ({ h with base := nb, ptr := nl, lcount := h.lcount - p } : Handle).ok)
      .handleInvalid
    .ok (a, bs, s1)

/-- The byte address of the entry that a FOLD names, as it now translates. -/
def State.foldEntry (s : State) (c : Command) : Option Nat :=
  match c.kind, tabGet? s.launches c.launch with
  | .fold n _ _ _ _, some la => match s.translate c.vf (la.entryVa n) 64 .engine true with
    | .ok (.byte a) => some a
    | _ => none
  | _, _ => none

/-- COMMAND ENTRY (R327): the command takes its issuer's floor views and enters its queues; a FOLD holds its entry from here. -/
def execCommandEntry (k : Nat) (s : State) : Host.Outcome State Fault Refusal :=
  match tabGet? s.commands k with
  | none => .next s
  | some c =>
    if c.entered || s.earlierWrite c || (s.foldEntry c).elim false s.foldHolds then .next s
    else
      let s1 := s.onCommand k fun c => { c with
        entered := true
        since := s.nextWrite - 1
        pv := { o := (s.pv (.team c.team)).floor } }
      match c.kind with
      | .fold n p nb nl _ => match s1.foldStart k c n p nb nl with
        | .ok (a, bs, s2) =>
          let h := Handle.ofBytes bs
          .next (s2.onCommand k fun c => { c with
            kind := .fold n p nb nl bs, holds := some a, blocked := none, todo := [(0, h.extent 0 * h.extent 1)] })
        | .error e => .next (if e.waits then s.stopCommand k c e else s1.stopCommand k c e)
      | _ => .next s1

/-! ### FOLD (R297) -/

/-- An entry after its fold (R297). -/
def foldedEntry (bs : List Byte) (p : Nat) (nb nl : Word64) : List Byte :=
  let h := Handle.ofBytes bs
  let e := withList bs (h.lcount - p) ((h.lver.toNat + 1) % 2 ^ 32)
  (List.range 64).map fun i =>
    if 0x28 ≤ i ∧ i < 0x2F then nb.extractLsb' (8 * (i - 0x28)) 8
    else if 0x30 ≤ i ∧ i < 0x37 then nl.extractLsb' (8 * (i - 0x30)) 8
    else nth 0 e i

/-- One element written at the new base (R297, step 2). -/
def State.foldElement (s : State) (k : Nat) (c : Command) (n p : Nat) (nb : Word64) (h : Handle) (u : Nat) : Except CopyStop State := do
  let es := h.elem.bits / 8
  let i := u / h.extent 0
  let j := u % h.extent 0
  let (ls, s0) ← viaStop ((s.underEntry (.command k) (c.holds.getD 0)).layerList (.command k) c.vf n h p)
  let (w, s1) ← viaStop (s0.layeredElem (.command k) none c.vf h ls i j)
  let a ← s1.commandDest c (nb + BitVec.ofNat 64 (es * h.index [j, i])) es
  .ok ({ s1 with formed := [], under := none }.commandWrite k a (toBytesLE es w))

/-- The rest of the list, and the move that names the new base and list (R297, steps 3 and 4). -/
def State.foldFinal (s : State) (k : Nat) (c : Command) (p : Nat) (nb nl : Word64) (bs : List Byte) : Except CopyStop State := do
  let h := Handle.ofBytes bs
  let places ← (List.range (h.lcount - p)).mapM fun i => s.commandDest c (nl + BitVec.ofNat 64 (32 * i)) 32
  let s1 ← (places.zip (List.range places.length)).foldlM (fun s q => do
    let (d, s1) ← viaStop (s.readVa (.command k) none c.vf (h.ptr + BitVec.ofNat 64 (32 * (p + q.2))) 32 .engine)
    Except.ok (ε := CopyStop) (s1.commandWrite k q.1 d)) (s.underEntry (.command k) (c.holds.getD 0))
  s1.copyFree (c.holds.getD 0) 64
  .ok ({ s1 with under := none }.changeEntry (.command k) (some .package) (c.holds.getD 0) (foldedEntry bs p nb nl))

/-- FOLD MOVE (R297): the next element of the new base; after the last one the list and the triple, in one move. -/
def execFoldMove (k : Nat) (s : State) : Host.Outcome State Fault Refusal :=
  match tabGet? s.commands k with
  | none => .next s
  | some c =>
    if !c.entered || c.fault.isSome || !c.final then .next s
    else match c.kind with
      | .fold n p nb nl bs =>
        match s.pickUnit c.todo with
        | (some u, s1) => match s1.foldElement k c n p nb (Handle.ofBytes bs) u with
          | .ok s2 => .next (s2.onCommand k fun c => { c with todo := cutUnits u 1 c.todo, blocked := none })
          | .error e => .next (s.stopCommand k c e)
        | (none, _) => match s.foldFinal k c p nb nl bs with
          | .ok s2 => .next (s2.onCommand k fun c => { c with final := false, holds := none, blocked := none })
          | .error e => .next (s.stopCommand k c e)
      | _ => .next s

/-! ### EMB (R300) -/

/-- The row that index x names (R300). -/
def embRow (h : Handle) (x : Nat) : Nat := Nat.min x (h.extent 1)

/-- The elements of n of a size from an address that lie in line w of those it meets. -/
def lineOf (a size n w : Nat) : List Nat := (List.range n).filter fun j => (a + size * j) / 64 == a / 64 + w

/-- A line of a bag's index array read. -/
def State.bagIndices (s : State) (k : Nat) (c : Command) (b : Bag) (w : Nat) : Except CopyStop (Bag × State) :=
  (lineOf b.indices.toNat 4 b.count.toNat w).foldlM (fun (x : Bag × State) i => do
    let (bs, _, s1) ← x.2.commandRead k c 0 (b.indices + BitVec.ofNat 64 (4 * i)) 4
    Except.ok (ε := CopyStop) ({ x.1 with idx := tabSet x.1.idx i (ofBytesLE bs) }, s1)) (b, s)

/-- A line of row i of a bag read, once its index is known; the row counts as read with its first element. -/
def State.bagRow (s : State) (k : Nat) (c : Command) (h : Handle) (b : Bag) (i w : Nat) : Except CopyStop (Option (Bag × State)) :=
  match tabGet? b.idx i with
  | none => .ok none
  | some x => do
    let es := h.elem.bits / 8
    let va := h.base + BitVec.ofNat 64 (es * h.index [0, embRow h x])
    let y ← (lineOf va.toNat es (h.extent 0) w).foldlM (fun (y : Bag × State) j => do
      let (bs, a, s1) ← y.2.commandRead k c c.since (va + BitVec.ofNat 64 (es * j)) es
      let b1 := { y.1 with rows := tabSet y.1.rows (i * h.extent 0 + j) (BitVec.ofNat 32 (h.elem.f32 (ofBytesLE bs) none)) }
      let s2 := if j = 0 then { s1 with embRows := tabSet s1.embRows (a / 2 ^ 36) (tabGet s1.embRows (a / 2 ^ 36) 0 + 1) } else s1
      Except.ok (ε := CopyStop) (b1, s2)) (b, s)
    .ok (some y)

/-- The sum of R300 in array order, each step rounded, and its mean. -/
def poolValue (mean : Bool) (xs : List Word32) : Word32 :=
  let sum := xs.foldl (fun acc x => (addRn acc x).1) 0
  if mean && xs.length != 0 then (rn32 ((f32 sum).div (.fin false xs.length 1))).1 else sum

/-- Column j of a bag, once every row element of it has been read. -/
def Bag.column (b : Bag) (h : Handle) (j : Nat) : Option (List Word32) :=
  (List.range b.count.toNat).mapM fun i => tabGet? b.rows (i * h.extent 0 + j)

/-- The output elements given written one by one, up to the first that faults. -/
def State.writePooled (s : State) (k : Nat) (c : Command) (oa : Word64) : List (Nat × Word32) → Except (CopyStop × State) State
  | [] => .ok s
  | (j, x) :: rest =>
    match s.commandDest c (oa + BitVec.ofNat 64 (4 * j)) 4 with
    | .ok a => (s.commandWrite k a (toBytesLE 4 x.toNat)).writePooled k c oa rest
    | .error e => .error (e, s)

/-- A line of a bag's output written, once its columns are known: the bag, the state, and the fault that ended it. -/
def State.bagOutput (s : State) (k : Nat) (c : Command) (mean : Bool) (h : Handle) (b : Bag) (w : Nat) :
    Option (Bag × State × Option CopyStop) :=
  let js := lineOf b.out.toNat 4 (h.extent 0) w
  (js.mapM fun j => (b.column h j).map fun xs => (j, poolValue mean xs)).map fun out =>
    match s.writePooled k c b.out out with
    | .ok s1 => ({ b with begun := true }, s1, none)
    | .error (e, s1) => (b, if e.waits then s else s1, some e)

/-- One unit of a bag: a line of its index array, of a row, or of its output; none while what it needs is still to be read. -/
def State.bagUnit (s : State) (k : Nat) (c : Command) (mean : Bool) (h : Handle) (b : Bag) (u : Nat) :
    Option (Bag × State × Option CopyStop) :=
  let n := linesMet b.indices.toNat (4 * b.count.toNat)
  let m := n + b.count.toNat * rowLines h
  if u < n then match s.bagIndices k c b u with
    | .ok x => some (x.1, x.2, none)
    | .error e => some (b, s, some e)
  else if u < m then match s.bagRow k c h b ((u - n) / rowLines h) ((u - n) % rowLines h) with
    | .ok x => x.map fun x => (x.1, x.2, none)
    | .error e => some (b, s, some e)
  else s.bagOutput k c mean h b (u - m)

/-- The bag of a lane replaced; a bag with nothing left to do, or one that has faulted, is done. -/
def Command.setBag (c : Command) (b : Bag) (last : Bool) : Command :=
  match c.kind with
  | .emb mean bs bags => { c with
      kind := .emb mean bs (bags.map fun x => if x.lane = b.lane then b else x)
      todo := if last then cutUnits b.lane 1 c.todo else c.todo }
  | _ => c

/-- EMB BAG (R233, R300, R322): one line of one bag of a command enters its slice queue and performs. A bag that faults is over; the other
bags of a command that has faulted are written whole where their output is begun, and not at all where it is not. -/
def execEmbBag (k lane : Nat) (s : State) : Host.Outcome State Fault Refusal :=
  match tabGet? s.commands k with
  | none => .next s
  | some c =>
    match c.kind with
    | .emb mean bs bags =>
      match bags.find? fun b => b.lane == lane with
      | none => .next s
      | some b =>
        if !c.entered || (c.fault.isSome && !b.begun) || !hasUnit c.todo lane then .next s
        else if 64 < b.count.toNat then .next ((s.faultCommand k .illegalOperand).onCommand k (·.setBag b true))
        else match s.pickUnit b.todo with
          | (none, s1) => .next (s1.onCommand k (·.setBag b true))
          | (some u, s1) => match s1.bagUnit k c mean (Handle.ofBytes bs) b u with
            | none => .next s1
            | some (b1, s2, some e) =>
              .next ((s2.stopCommand k c e).onCommand k (·.setBag { b1 with waits := e.waits } (!e.waits)))
            | some (b1, s2, none) =>
              let rest := cutUnits u 1 b1.todo
              .next (s2.onCommand k fun c =>
                { c.setBag { b1 with todo := rest, waits := false } (rest == []) with blocked := none })
    | _ => .next s

/-! ### UPD (R301) -/

/-- One element, in one move (R233, R301), its operands read as R223 permits: the state and the flags. -/
def State.updElement (s : State) (k : Nat) (c : Command) (adam skipnf : Bool) (arrays : List Word64) (params : List Word64) (i : Nat) :
    Except CopyStop (State × Flags) := do
  let va (n : Nat) : Word64 := nth 0 arrays n + BitVec.ofNat 64 (4 * i)
  let places ← (List.range 3).mapM fun n => s.commandDest c (va n) 4
  let (vals, s1) ← (List.range 4).foldlM (fun (x : List Word32 × State) n => do
    let (bs, _, s1) ← x.2.commandRead k c 0 (va n) 4
    Except.ok (ε := CopyStop) (x.1 ++ [BitVec.ofNat 32 (ofBytesLE bs)], s1)) ([], s)
  let val (n : Nat) : Word32 := nth 0 vals n
  let x := updStep adam skipnf (updParams fun n => nth 0 params n) (val 0) (val 1) (val 2) (val 3)
  if x.written then
    .ok ((places.zip [x.w, x.m, x.v]).foldl (fun s q => s.commandWrite k q.1 (toBytesLE 4 q.2.toNat)) s1, x.flags)
  else .ok (s1, x.flags)

/-- UPD ELEMENT (R301). -/
def execUpdElement (k elem : Nat) (s : State) : Host.Outcome State Fault Refusal :=
  match tabGet? s.commands k with
  | none => .next s
  | some c =>
    match c.kind with
    | .upd adam skipnf w m v g _ params =>
      if !c.entered || c.fault.isSome || !hasUnit c.todo elem then .next s
      else match s.updElement k c adam skipnf [w, m, v, g] params elem with
        | .ok (s1, f) => .next (s1.onCommand k fun c => { c with
            todo := cutUnits elem 1 c.todo, flags := c.flags ||| f, blocked := none })
        | .error e => .next (s.stopCommand k c e)
    | _ => .next s

/-! ### Completion (R296, R324) -/

/-- The completion word (R296). -/
def Command.word (c : Command) : Nat :=
  c.tag.toNat * 2 ^ 32 + c.flags.toNat * 2 ^ 16 + (c.fault.getD 0) * 2 ^ 8 + (if c.fault.isSome then 2 else 1)

/-- COMPLETION WORD (R296): a release at package scope that carries the command's O; the command is over. In an image it waits for
a producer that is pending on the register (R186, R188), in a region for a swap that holds it (R196). -/
def execCompletionWord (k : Nat) (s : State) : Host.Outcome State Fault Refusal :=
  match tabGet? s.commands k with
  | none => .next s
  | some c =>
    if !c.inQueues || (s.inImage c.cwAt && s.imageHeld none c.cwAt 8) || s.swapping c.cwAt 8 then .next s
    else
      let s1 := if c.cwEmpties then s.imageEmpty c.cwAt 8
        else s.writeAt (.command k) (some .package) [] c.cwAt (toBytesLE 8 c.word)
      let s2 := s1.onLaunch c.launch fun l => { l with done := viewJoin l.done (s1.pv (.command k)).o }
      .next { s2 with commands := tabDel s2.commands k }

end Sys2Proof.Machine
end

