-- ==== Sys2Proof/Machine/Work.lean ====
section
/-! DEFINITION. Teams and groups from their creation to their retirement: distribution, the packer, retirement, completion (R24, R127,
R143, R148 to R153, R333, R335 to R337, R342, R343). -/

namespace Sys2Proof.Machine

/-! ### Creation (R24, R143 to R145) -/

/-- A team in the state of R24; its group's number is set when the group is made. -/
def Team.fresh (l : Nat) (la : Launch) (idx lanes vcount : Nat) (entry wid : Word64) : Team where
  launch := l
  group := 0
  idx := idx
  lanes := lanes
  vcount := vcount
  v := []
  vEmpty := []
  s := [la.argp]
  sEmpty := 0
  m := []
  pc := entry
  entered := true
  checked := true
  status := 0
  rm := 1
  skipnf := false
  trapcause := 0
  trappc := 0
  masked := false
  pickthr := 0xC0
  einjSite := 0
  einjAddr := 0
  wid := wid
  packed := none
  e := firstLanes lanes
  x := 0
  stack := []
  regpc := 0
  rvalid := false
  regcnt := 0
  closed := false
  targets := []
  gate := none
  copies := 0
  seq := 0
  recorded := false
  rep := none
  stall := .none
  phase := .running
  passed := []
  preheld := false
  forced := false
  parkedOut := false
  image := 0
  ctl := {}
  halted := false
  steps := 0
  pv := { acq := [⟨.package, la.start⟩] }

/-- A group not yet bound. -/
def Group.fresh (l gang gidx : Nat) (packed : Bool) (spad nacc nbar teams : Nat) : Group where
  launch := l
  gang := gang
  gidx := gidx
  packed := packed
  teams := []
  place := none
  last := none
  started := false
  retired := false
  stopped := false
  spad := spad
  nacc := nacc
  nbar := nbar
  barriers := List.replicate nbar (Barrier.fresh teams)
  moors := []
  queue := []
  shares := []
  reserved := 0
  batch := 0
  batches := []
  entryNo := 0
  passed := []
  leave := none
  prio := 0

/-- A group made with its teams. -/
def State.addGroup (s : State) (g : Group) (ts : List Team) : State :=
  let id := s.nextId
  let ids := (List.range ts.length).map fun i => id + 1 + i
  { s with
    nextId := id + 1 + ts.length
    groups := tabSet s.groups id { g with teams := ids }
    teams := (ids.zip ts).foldl (fun m x => tabSet m x.1 { x.2 with group := id }) s.teams }

/-- The work identifier of lane 0 of a team: the index of each level at the place of its field, when that has a width (R143). -/
def workId (widths levels : List Nat) : Word64 :=
  BitVec.ofNat 64 ((List.range 6).foldl (fun n i =>
    if nth 0 widths i = 0 then n else n + nth 0 levels i * 2 ^ ((widths.take i).foldl (· + ·) 0)) 0)

/-- The grid indices of gang k. -/
def Launch.grid (la : Launch) (k : Nat) : List Nat :=
  let c3 := nth 1 la.counts 0
  let c4 := nth 1 la.counts 1
  [k % c3, k / c3 % c4, k / (c3 * c4)]

/-- The groups of a launch, gang by gang. -/
def State.makeGroups (s : State) (l : Nat) (la : Launch) : State :=
  (List.range la.units).foldl (fun s k => (List.range la.gpg).foldl (fun s g =>
    s.addGroup (Group.fresh l k g false la.spad la.nacc la.nbar la.tpg)
      ((List.range la.tpg).map fun t =>
        Team.fresh l la t (2 ^ la.logn) la.vregs la.entry (workId la.widths ([0, t, g] ++ la.grid k)))) s) s

/-- DISTRIBUTION (R335 to R337): no edge stands and SERIAL is satisfied; the groups become eligible for binding. -/
def execDistribution (l : Nat) (s : State) : Host.Outcome State Fault Refusal :=
  match tabGet? s.launches l with
  | none => .next s
  | some la =>
    if la.life == .admitted && la.edges == [] && la.serialOn.isNone then
      .next ((s.onLaunch l fun la => { la with life := .distributed }).makeGroups l la)
    else .next s

/-! ### The packer (R150 to R153) -/

/-- The team of the items of a filling team: lane k receives the k-th item (R153), and the team acquires what their SPAWNs released
(R172). -/
def packedTeam (l : Nat) (la : Launch) (q : SpawnQueue) (pc : Word64) (items : List Item) : Team :=
  let n := 2 ^ q.logn
  let tm := Team.fresh l la 0 n q.vregs pc ((items.head?).elim 0 (·.seq))
  { tm with
    packed := some (items.map (·.seq))
    v := (List.range 8).map fun i => items.map fun it => nth 0 it.payload i
    x := firstLanes n &&& ~~~ firstLanes items.length
    pv := items.foldl (fun v it => v.acquire .package it.rel) tm.pv }

/-- A filling team released: a group of one team and no gang (R152). -/
def State.releasePacked (s : State) (l : Nat) (q : SpawnQueue) (pc : Word64) (items : List Item) : State :=
  match tabGet? s.launches l with
  | none => s
  | some la =>
    (s.addGroup (Group.fresh l 0 0 true q.spad q.nacc q.nbar 1) [packedTeam l la q pc items]).onLaunch l fun la =>
      { la with life := if la.life = .retired then .resident else la.life }

/-- The filling teams of a queue, and the one of them that a new item joins or opens; a full one leaves. -/
def placeItem (it : Item) : List (Word64 × List Item) → List (Word64 × List Item)
  | [] => [(it.pc, [it])]
  | f :: rest => if f.1 = it.pc then (f.1, f.2 ++ [it]) :: rest else f :: placeItem it rest

/-- Spawn queue q of a launch set. -/
def State.setSpawn (s : State) (l q : Nat) (x : SpawnQueue) : State :=
  s.onLaunch l fun la => { la with spawn := tabSet la.spawn q x }

/-- One item packed (R151): the oldest filling team goes first when there is no place for a new one, a full team goes at once. -/
def State.pack (s : State) (l q : Nat) (x : SpawnQueue) (it : Item) : State :=
  let joins := x.filling.any fun f => f.1 == it.pc
  let (s1, open1) := match joins || decide (x.filling.length < 8), x.filling with
    | false, f :: rest => (s.releasePacked l x f.1 f.2, rest)
    | _, fs => (s, fs)
  let fs := placeItem it open1
  let full (f : Word64 × List Item) : Bool := decide (2 ^ x.logn ≤ f.2.length)
  let s2 := (fs.filter full).foldl (fun s f => s.releasePacked l x f.1 f.2) s1
  s2.setSpawn l q { x with items := x.items.drop 1, filling := fs.filter fun f => !full f }

/-- Every group of a launch has retired. -/
def State.allRetired (s : State) (l : Nat) : Bool := s.groups.all fun g => g.2.launch != l || g.2.retired

/-- A queue that has drained gives up its filling teams: every team of the launch has retired and no item is left
(R151; DEDUCED, log 97). -/
def State.drainSpawn (s : State) (l : Nat) : State :=
  match tabGet? s.launches l with
  | none => s
  | some la =>
    if !s.allRetired l then s
    else la.spawn.foldl (fun s q => if q.2.items = [] then
        (q.2.filling.foldl (fun s f => s.releasePacked l q.2 f.1 f.2) s).setSpawn l q.1 { q.2 with filling := [] }
      else s) s

/-- The launch retires with the last of its groups and packed teams (R335). -/
def State.settleLaunch (s : State) (l : Nat) : State :=
  let s1 := s.drainSpawn l
  if s1.allRetired l then
    s1.onLaunch l fun la =>
      if (la.life = .resident || la.life = .distributed) && la.spawn.all fun q => q.2.items == [] && q.2.filling == [] then
        { la with life := .retired }
      else la
  else s1

/-- PACKER TAKE (R151): the next item of a spawn queue, in sequence order. -/
def execPackerTake (l q : Nat) (s : State) : Host.Outcome State Fault Refusal :=
  match (tabGet? s.launches l).bind fun la => tabGet? la.spawn q with
  | none => .next s
  | some x => match x.items with
    | [] => .next s
    | it :: _ => .next ((s.pack l q x it).settleLaunch l)

/-- FILLING TEAM TIMEOUT (R151): the oldest filling team of a queue has waited long enough. -/
def execFillingTeamTimeout (l q : Nat) (s : State) : Host.Outcome State Fault Refusal :=
  match (tabGet? s.launches l).bind fun la => tabGet? la.spawn q with
  | none => .next s
  | some x => match x.filling with
    | [] => .next s
    | f :: rest => .next ((s.releasePacked l x f.1 f.2).setSpawn l q { x with filling := rest })

/-! ### Retirement (R127, R256, R274, R286, R292, R360) -/

/-- An access is one that leaves its core: a store, a reduction or a soft-region operation outside the group's own arrays, from which
its team asks nothing back (R127, R342, R360). -/
def Access.leaves (a : Access) : Bool :=
  a.path != .spad && a.path != .acc && (match a.kind with
    | .write .. | .red .. | .windowOp .. | .windowWrite _ | .windowEmpty | .blend .. | .close .. | .bindTo _ => a.prod.isNone
    | _ => false)

/-- A producer of the team, or an access that has not left the core, is still to come. An access that leaves the core may have left it
at once (R127, R360; DEDUCED, log 72). -/
def State.teamBusy (s : State) (t : Nat) : Bool :=
  (s.pend.any fun a => !a.2.leaves && a.2.places.any fun p => p.1 == .team t) || s.prods.any fun p => p.2.team == t

/-- The group's engine work is over: its queue and share buffer are empty, no share is on its way to it or from it, and no copy of it
still collects. -/
def State.groupIdle (s : State) (g : Nat) (gr : Group) : Bool :=
  gr.queue == [] && gr.shares == [] && gr.reserved == 0 && (s.issues.all fun x => x.2.group != g) && s.collecting g == 0

/-- The record of an engine fault that nothing has reported (R360). -/
def State.engineRecord (s : State) (t cause detail : Nat) (pc : Word64) : State :=
  s.teamRecord t cause 3 (BitVec.ofNat 64 (cause + detail * 256)) pc 0

/-- The records that a group leaves: faults of batches that no MWAIT reported, and of copies that no DRAIN or barrier did. -/
def State.leftFaults (s : State) (g : Nat) (gr : Group) : State :=
  let s1 := gr.batches.foldl (fun s b => b.2.faults.foldl (fun s f => s.engineRecord f.team f.cause b.1 f.pc) s) s
  (s1.copies.filter fun c => c.2.group == g).foldl (fun s c => match c.2.fault with
    | some (e, extra) =>
      if c.2.phase == .complete && !c.2.told && !c.2.reported then
        { s.engineRecord ((c.2.slices.head?).elim 0 (·.team)) e (c.2.detail extra) c.2.pc with
          copies := tabSet s.copies c.1 { c.2 with reported := true } }
      else s
    | none => s) s1

/-- A group retires: its regions are unmoored, its bindings end, its slot is free, and what its batches know is its launch's. -/
def State.retireGroup (s : State) (g : Nat) (gr : Group) : State :=
  let s1 := ((s.leftFaults g gr).endBindings g).joinDone g gr
  (s1.onGroup g fun gr => { gr with
    retired := true, last := gr.place.or gr.last, place := none, moors := [], batches := [], leave := none }).settleLaunch gr.launch

/-- TEAM RETIREMENT (R127): every lane has ended, and nothing that the team issued is still to come; the last team of a group takes
the group with it. -/
def execTeamRetirement (t : Nat) (s : State) : Host.Outcome State Fault Refusal :=
  match tabGet? s.teams t with
  | none => .next s
  | some tm =>
    match tabGet? s.groups tm.group with
    | none => .next s
    | some gr =>
      let last := gr.teams.all fun u => u == t || (tabGet? s.teams u).elim true fun x => x.phase == .retired
      if tm.phase != .ended || s.teamBusy t || (last && !s.groupIdle tm.group gr) then .next s
      else
        let s1 := (s.retireTeam t).onLaunch tm.launch fun la => { la with done := viewJoin la.done tm.pv.o }
        .next (if last then s1.retireGroup tm.group gr else s1)

/-! ### Completion (R239, R337, R342, R343) -/

/-- An access, copy or command of a launch is outstanding, or a write that the watch core makes for it; a merged reduction is every
launch's that it stands for (R342, R343). -/
def State.outstanding (s : State) (l : Nat) : Bool :=
  (tabGet? s.launches l).elim false (fun la => la.waiting != []) ||
  (s.pend.any fun a => a.2.members.any fun m => m.launch == l) ||
    (s.copies.any fun c => c.2.launch == l && (c.2.phase == .starting || c.2.phase == .running)) ||
    s.commands.any fun c => c.2.launch == l

/-- The completion word (R343). -/
def Launch.word (la : Launch) : Nat :=
  la.qpos * 2 ^ 32 + Nat.min la.drop 255 * 2 ^ 24 + la.firstCause * 2 ^ 8 + (if la.records = 0 && !la.terminated then 1 else 2)

/-- The instance of the completion write: the die of the word's home slice, the package or the system (R343). A word in host
memory or a scratchpad has no home slice, and takes the package; one of a register image has that of its place in main memory (DESIGN
CHOICE, log 131). -/
def completionInst (sc : Scope) (a : Nat) : Inst :=
  match sc with
  | .die => if a < 2 ^ 40 then .die (homeSlice a).1 else .package
  | .system => .system
  | _ => .package

/-- A word written by a party at a place that was checked as a store: a release at the instance given. -/
def State.writeWord (s : State) (p : Party) (vf : Nat) (va : Word64) (inst : Nat → Inst) (w : Nat) : State :=
  match s.translate vf va 8 .store true with
  | .ok (.byte a) => (s.writeMem p (some (inst a)) [] a (toBytesLE 8 w)).unmark a 8
  | .ok (.image a false) => s.writeImage p (some (inst a)) [] a (toBytesLE 8 w)
  | .ok (.image a true) => s.imageEmpty a 8
  | _ => s

/-- A producer is pending on the register that a completion word goes to, or a swap holds its region: the write waits (R186, R196). -/
def State.wordHeld (s : State) (vf : Nat) (va : Word64) : Bool :=
  match s.translate vf va 8 .store true with
  | .ok (.image a _) => s.imageHeld none a 8 || s.swapping a 8
  | .ok (.byte a) => s.swapping a 8
  | .error (.wait _) => true
  | _ => false

/-- The launches that waited for l go on: they start from what its completion released (R336, R337). -/
def State.releaseLaunches (s : State) (l : Nat) (v : View) : State :=
  { s with launches := s.launches.map fun w =>
      (w.1, if w.2.edges.contains l || w.2.serialOn == some l then
        { w.2 with
          edges := w.2.edges.filter (· != l)
          serialOn := if w.2.serialOn = some l then none else w.2.serialOn
          start := viewJoin w.2.start v }
      else w.2) }

/-- The launch receives what each of its teams knows, for the accesses that performed after their team had ended (R239, R342). -/
def State.joinTeams (s : State) (l : Nat) : State :=
  let v := (s.teams.filter fun t => t.2.launch == l).foldl (fun (v : View) t => viewJoin v t.2.pv.o) []
  s.onLaunch l fun la => { la with done := viewJoin la.done v }

/-- LAUNCH COMPLETION (R343): the completion word is written once, a release that carries what every party of the launch knows. -/
def execLaunchCompletion (l : Nat) (s : State) : Host.Outcome State Fault Refusal :=
  match tabGet? s.launches l with
  | none => .next s
  | some la =>
    if la.life != .retired || s.outstanding l || s.wordHeld la.vf la.cwadr then .next s
    else
      let s1 := (s.joinTeams l).writeWord (.launch l) la.vf la.cwadr (completionInst la.cscope) la.word
      let v := ((tabGet? s1.launches l).elim la (·)).done
      .next ((s1.onLaunch l fun la => { la with life := .completed }).releaseLaunches l v)

end Sys2Proof.Machine
end

