-- ==== Sys2Proof/Machine/Admit.lean ====
section
/-! DEFINITION. Queues and admission: queue writes, the choice of the next entry, the checks of a header, refusals and drops, edges
(R329 to R336). -/

namespace Sys2Proof.Machine

/-! ### Queue writes (R329, R330, R339) -/

def State.setQueue (s : State) (vf q : Nat) (x : LaunchQueue) : State :=
  s.onCtx vf fun c => { c with queues := tabSet c.queues q x }

/-- The index b lies ahead of a, counted modulo 2^32. -/
def ahead (a b : Word32) : Bool := b != a && !(b - a).getLsbD 31

/-- QTAIL written (R330, R389): a write that raises it is an acquire at system scope of the host's earlier writes; it returns the
device from S1 to P0. -/
def State.tailWrite (s : State) (vf q : Nat) (tail : Word32) : State :=
  let x := s.queue vf q
  if vf < 64 ∧ q < 64 ∧ s.power ≠ .s3 then
    let s1 := s.setQueue vf q { x with
      qtail := tail
      rel := if ahead x.qtail tail then viewJoin x.rel (s.hostView.released .system) else x.rel }
    { s1 with power := if s.power = .s1 then .p0 else s.power }
  else s

/-- QUEUE WRITE (R330). -/
def execQueueWrite (vf q : Nat) (tail : BitVec 32) (s : State) : Host.Outcome State Fault Refusal := .next (s.tailWrite vf q tail)

/-- QPRIO written (R339): the base priority of the queue's launches; a bound group keeps the one it was bound with. -/
def State.prioWrite (s : State) (vf q : Nat) (prio : BitVec 3) : State :=
  if vf < 64 ∧ q < 64 then
    let s1 := s.setQueue vf q { s.queue vf q with qprio := prio }
    { s1 with launches := s1.launches.map fun l =>
      (l.1, if l.2.vf = vf ∧ l.2.queue = q then { l.2 with base := prio.toNat } else l.2) }
  else s

/-- QPRIO WRITE (R339). -/
def execQprioWrite (vf q : Nat) (prio : BitVec 3) (s : State) : Host.Outcome State Fault Refusal := .next (s.prioWrite vf q prio)

/-! ### The choice of an entry (R330) -/

/-- An enabled queue holds an entry not yet taken. -/
def LaunchQueue.holds (x : LaunchQueue) : Bool := x.qen && x.qhead != x.qtail

/-- The first number after the one served last, or the first of all. -/
def roundRobin (served : Option Nat) (ns : List Nat) : Option Nat :=
  match served with
  | none => ns.head?
  | some k => (ns.find? fun n => decide (k < n)).or ns.head?

/-- The queues that hold entries: priority, context, number. -/
def State.holding (s : State) : List (Nat × Nat × Nat) :=
  s.ctxs.flatMap fun c => (c.2.queues.filter fun q => q.2.holds).map fun q => (q.2.qprio.toNat, c.1, q.1)

/-- The queue whose entry the watch core takes next: its priority, its context, its number; one whose entry waits for a translation
stays the chosen one (R330). -/
def State.nextQueue (s : State) : Option (Nat × Nat × Nat) :=
  let all := s.holding
  (all.find? fun x => (s.queue x.2.1 x.2.2).blocked.isSome).or <|
  let top := all.foldl (fun m x => Nat.max m x.1) 0
  let at_ := all.filter fun x => x.1 == top
  (roundRobin (tabGet? s.served top) (at_.map (·.2.1)).eraseDups).bind fun vf =>
    (roundRobin (tabGet? (s.ctx vf).servedQueue top) ((at_.filter fun x => x.2.1 == vf).map (·.2.2))).map fun q => (top, vf, q)

/-! ### Reading an entry, its header and its auxiliary block (R330, R331, R333) -/

/-- How a read of the watch core for an entry ends when it does not succeed: it waits for a translation or for a swap (R196), or it
fails. -/
inductive ReadEnd where
  | wait (va : Word64)
  | held
  | failed
deriving DecidableEq, Repr

/-- n bytes at a virtual address as the watch core reads them, not below the floor of the queue write. -/
def State.watchRead (s : State) (vf : Nat) (floor : View) (va : Word64) (n : Nat) : Except ReadEnd (List Byte × State) :=
  match s.span vf va n .load false with
  | .error (.park a _) => .error (.wait a)
  | .error (.wait _) => .error .held
  | .error _ => .error .failed
  | .ok runs => if runs.any fun x => s.swapping x.2.1 x.2.2 then .error .held else runs.foldlM (fun (acc : List Byte × State) x =>
      if (acc.2.markAt x.2.1 x.2.2).isSome then Except.error ReadEnd.failed
      else
        let (bs, s1) := acc.2.peek floor x.2.1 x.2.2
        Except.ok (acc.1 ++ bs, s1)) ([], s)

/-- How an entry ends (R334). -/
inductive EntryEnd where
  | wait (va : Word64)
  | held
  | drop (code : Nat)
  | refuse (cw : Word64) (reason : Nat)
deriving DecidableEq, Repr

/-- A read whose failure, or whose translation once the replay threshold has passed for it, ends the entry with e. -/
def entryRead {α : Type} (expired : Option Word64) (e : EntryEnd) : Except ReadEnd α → Except EntryEnd α
  | .ok x => .ok x
  | .error (.wait va) => if expired = some va then .error e else .error (.wait va)
  | .error .held => .error .held
  | .error .failed => .error e

def entryNeed (b : Bool) (e : EntryEnd) : Except EntryEnd Unit := if b then .ok () else .error e

/-! ### Groups on the cores (R145, R147, R340) -/

/-- The groups bound to a core. -/
def State.boundOn (s : State) (core : Nat) : List Group := (s.groups.filter fun g => !g.2.retired && g.2.core == some core).map (·.2)

/-- 4 KiB units of the scratchpad of a core that no bound group holds, in rising order (R189). -/
def State.freeUnits (s : State) (core : Nat) : List Nat :=
  let gs := s.boundOn core
  (List.range 256).filter fun u => gs.all fun g => g.place.elim true fun p =>
    decide (u < p.spb) || decide (p.spb + g.spadLen / 4096 ≤ u)

/-- How many ranges of n units fit one after another into these units, each at a multiple of so many units; one of 0 units always
does. -/
def rangesOf (n align : Nat) : List Nat → Nat → Nat → Nat
  | [], _, _ => 0
  | u :: rest, next, run =>
    let run := if u = next && run != 0 then run + 1 else if u % align = 0 then 1 else 0
    if run = n then 1 + rangesOf n align rest (u + 1) 0 else rangesOf n align rest (u + 1) run

/-- How many groups of so many scratchpad bytes and teams fit on a core as it now stands (R145, R340, R368). -/
def State.fitsOn (s : State) (core spad teams : Nat) : Nat :=
  let units := (spad + 4095) / 4096
  let gs := s.boundOn core
  let used := gs.foldl (fun n g => n + g.teams.length) 0
  let n := Nat.min (8 - gs.length) ((32 - used) / Nat.max 1 teams)
  if !s.cores.getLsbD core then 0 else if units = 0 then n else Nat.min n (rangesOf units (if spad < 32768 then 1 else 8) (s.freeUnits core) 0 0)

/-- How many gangs of k groups fit into a cluster whose cores take so many groups each: each member on a core of its own. -/
def gangsIn (k : Nat) (fits : List Nat) : Nat :=
  ((List.range 257).filter fun m => decide (m * k ≤ fits.foldl (fun n c => n + Nat.min c m) 0)).getLastD 0

/-- How many gangs of k groups fit into the package (R146, R147). -/
def State.gangsFit (s : State) (k spad teams : Nat) : Nat :=
  (List.range 32).foldl (fun n c => n + gangsIn k ((List.range 32).map fun i => s.fitsOn (32 * c + i) spad teams)) 0

/-- The device with no group bound. -/
def State.empty (s : State) : State := { s with groups := [] }

/-! ### The checks of a header (R143, R331 to R334) -/

/-- The values of CSCOPE (R331). -/
def completionScope (n : Nat) : Option Scope :=
  match n with
  | 0 => some .package
  | 3 => some .die
  | 4 => some .package
  | 5 => some .system
  | _ => none

/-- The zero-fields of a header (R331). -/
def headerClean (f : Nat → Nat → Nat) : Bool :=
  f (0x28 * 8 + 63) 1 == 0 && f (0x3C * 8 + 31) 1 == 0 && f (0x40 * 8 + 34) 30 == 0 && f (0x48 * 8 + 8) 56 == 0

/-- A width is out of its range, or a count does not fit its width (R143, R334). -/
def widthsOk (logn : Nat) (ws counts : List Nat) : Bool :=
  let w (i : Nat) : Nat := nth 0 ws i
  (w 0 == 0 || (decide (logn ≤ w 0) && decide (w 0 ≤ 10))) && decide (w 1 ≤ 5) && decide (w 2 ≤ 5) &&
    ((List.range 3).all fun i => decide (w (3 + i) ≤ 64)) && decide (ws.foldl (· + ·) 0 ≤ 64) &&
    (List.range 6).all fun i =>
      if w i = 0 then decide (i < 3) || nth 1 counts i == 1 else decide (nth 1 counts i ≤ 2 ^ w i)

/-- A region entry: base, length, mark (R332); none when it is contrary to the rule. -/
def regionEntry (f : Nat → Nat → Nat) (k : Nat) : Option (Nat × Nat × Nat) :=
  let b := 8 * (0x50 + 12 * k)
  let base := f b 56
  let mark := f (b + 56) 8
  let len := f (b + 64) 32
  if mark = 0 then if base = 0 ∧ len = 0 then some (0, 0, 0) else none
  else if mark < 4 ∧ 1 ≤ len ∧ base + len ≤ 2 ^ 56 then some (base, len, mark) else none

/-- A spawn-queue descriptor (R333); none when it is out of range. -/
def spawnDescriptor (d : Nat) : Option SpawnQueue :=
  let logn := d % 16
  let vregs := d / 2 ^ 4 % 2 ^ 8 + 1
  let spad := d / 2 ^ 12 % 2 ^ 21
  let acc := d / 2 ^ 33 % 32
  let bar := d / 2 ^ 38 % 32
  if d / 2 ^ 43 = 0 ∧ 5 ≤ logn ∧ logn ≤ 10 ∧ 8 ≤ vregs ∧ spad ≤ 0x100000 ∧ acc ≤ 16 ∧ bar ≤ 16 then
    some { logn := logn, vregs := vregs, spad := spad, nacc := acc, nbar := bar, counter := 0, items := [], filling := [] }
  else none

/-- The auxiliary block and the spawn-queue descriptors of a header: image table, fault queue and capacity, queues (R333). The block is
checked before the descriptors that it names, so that 0x09 goes before an 0x08 of theirs (DESIGN CHOICE, log 73). -/
def State.readAux (s : State) (vf : Nat) (floor : View) (expired : Option Word64) (cw auxp : Word64) (spen : Nat) :
    Except EntryEnd ((Word64 × Word64 × Nat × Tab SpawnQueue) × State) := do
  let bad := EntryEnd.refuse cw 0x09
  entryNeed (spen == 0 || auxp != 0) (.refuse cw 0x08)
  if auxp = 0 then .ok ((0, 0, 0, []), s)
  else do
    entryNeed (auxp.toNat % 64 == 0) bad
    let (bs, s1) ← entryRead expired bad (s.watchRead vf floor auxp 64)
    let f (b n : Nat) : Nat := field bs b n
    entryNeed (f 0 3 == 0 && f 64 6 == 0 && f 128 32 != 0 && f 160 32 == 0 && f 256 256 == 0) bad
    let (qs, s2) ← (List.range 16).foldlM (fun (acc : Tab SpawnQueue × State) q =>
      if !spen.testBit q then .ok acc
      else do
        let (d, s2) ← entryRead expired bad (acc.2.watchRead vf floor (BitVec.ofNat 64 (f 192 64 + 8 * q)) 8)
        match spawnDescriptor (ofBytesLE d) with
        | some x => .ok (acc.1 ++ [(q, x)], s2)
        | none => .error (.refuse cw 0x08)) ([], s1)
    .ok ((BitVec.ofNat 64 (f 0 64), BitVec.ofNat 64 (f 64 64), f 128 32, qs), s2)

/-- The launch that a header describes, with its checks in the order of their codes (R334). -/
def State.readHeader (s : State) (vf q qpos : Nat) (floor : View) (expired : Option Word64) (cw : Word64) (hd : List Byte) :
    Except EntryEnd (Launch × State) := do
  let f (b n : Nat) : Nat := field hd b n
  let no (c : Nat) : EntryEnd := .refuse cw c
  let logn := f 0x140 8
  let vregs := f 0x148 8 + 1
  let tpg := f 0x150 8
  let gpg := f 0x158 8
  let ws := [f 0x160 4, f 0x164 3, f 0x167 3, f 0x16A 7, f 0x171 7, f 0x178 7]
  let counts := [f 0x180 32 + 1, f 0x1A0 32 + 1, f 0x1C0 32 + 1]
  let spad := f 0x1E0 21
  let acc := f 0x1F5 5
  let bar := f 0x1FA 5
  let co := f 0x209 1 == 1
  let units := nth 1 counts 0 * nth 1 counts 1 * nth 1 counts 2
  entryNeed (f 0x240 8 == 1 && headerClean f) (no 0x01)
  entryNeed (!badPc (BitVec.ofNat 64 (f 0 64))) (no 0x02)
  entryNeed (decide (5 ≤ logn) && decide (logn ≤ 10) && decide (8 ≤ vregs) && decide (1 ≤ tpg) && decide (tpg ≤ 32) &&
    decide (1 ≤ gpg) && decide (gpg ≤ 32)) (no 0x03)
  entryNeed (!co || decide (0x100000 < spad) || decide (units ≤ s.empty.gangsFit gpg spad tpg)) (no 0x03)
  entryNeed (widthsOk logn ws ([2 ^ logn, tpg, gpg] ++ counts)) (no 0x04)
  entryNeed (decide (spad ≤ 0x100000) && decide (acc ≤ 16) && decide (bar ≤ 16) && s.cores != 0) (no 0x05)
  match completionScope (f 0x206 3) with
  | none => .error (no 0x06)
  | some sc => do
    let rs ← (List.range 4).foldlM (fun rs k => match regionEntry f k with
      | none => Except.error (no 0x07)
      | some r => Except.ok (if r.2.2 = 0 then rs else rs ++ [r])) []
    let ((imgt, fq, cap, spawn), s1) ← s.readAux vf floor expired cw (BitVec.ofNat 64 (f 0x100 64)) (f 0x212 16)
    .ok ({
      vf := vf, lnum := 0, queue := q, qpos := qpos, serialOn := none, entry := BitVec.ofNat 64 (f 0 64)
      argp := BitVec.ofNat 64 (f 0x40 64), htb := BitVec.ofNat 64 (f 0x80 64), cwadr := cw, imgt := imgt, fq := fq
      fqcap := cap, logn := logn, vregs := vregs, tpg := tpg, gpg := gpg, widths := ws, counts := counts, spad := spad
      nacc := acc, nbar := bar, headerQueue := f 0x200 6, cscope := sc, coResident := co, domain := f 0x20A 8
      regions := rs, spawn := spawn, life := .admitted, edges := [], start := [], base := 0, units := units
      records := 0, written := 0, drop := 0, firstCause := 0, terminated := false, done := [] }, s1)

/-- One entry read and checked (R330, R334): how it ends, and the state after the reads. -/
def State.readRing (s : State) (vf q : Nat) (x : LaunchQueue) (expired : Option Word64) : Except EntryEnd ((Launch × Bool) × State) := do
  let (e, s1) ← entryRead expired (.drop 0x0D) (s.watchRead vf x.rel (x.slotVa x.qhead.toNat) 16)
  entryNeed (field e 56 8 == 0 && field e 65 63 == 0) (.drop 0x0C)
  entryNeed (field e 0 7 == 0) (.drop 0x0A)
  let (hd, s2) ← entryRead expired (.drop 0x0A) (s1.watchRead vf x.rel (BitVec.ofNat 64 (field e 0 56)) 128)
  let cw : Word64 := BitVec.ofNat 64 (field hd 0xC0 64)
  entryNeed (cw.toNat % 8 == 0) (.drop 0x0B)
  match s2.translate vf cw 8 .store true with
  | .error (.park va _) => if expired = some va then .error (.drop 0x0B) else .error (.wait va)
  | .error (.wait _) => .error .held
  | .error _ => .error (.drop 0x0B)
  | .ok (.light _) => .error (.drop 0x0B)
  | .ok (.viaAlias ..) => .error (.drop 0x0B)
  | .ok _ => do
    let (la, s3) ← s2.readHeader vf q x.qhead.toNat x.rel expired cw hd
    .ok ((la, field e 64 1 == 1), s3)

/-! ### Edges (R336) -/

/-- Two region lists share a byte that one of them marks as written. -/
def regionsMeet (a b : List (Nat × Nat × Nat)) : Bool :=
  a.any fun r => b.any fun t => decide (r.1 < t.1 + t.2.1) && decide (t.1 < r.1 + r.2.1) && (decide (2 ≤ r.2.2) || decide (2 ≤ t.2.2))

/-- The launches from which an edge to a new one forms. -/
def State.edgesTo (s : State) (la : Launch) : List Nat :=
  (s.launches.filter fun l => l.2.vf == la.vf && l.2.domain == la.domain && l.2.life != .completed &&
    regionsMeet l.2.regions la.regions).map (·.1)

/-! ### Taking an entry (R330, R334) -/

/-- QHEAD past the entry, with what the queue keeps of it: the launch that it became, or what its refusal released; context and queue are the ones served last at the priority (R330). -/
def State.entryTaken (s : State) (vf q : Nat) (qerr : Option Nat) (last : Option Nat) (refused : View := []) : State :=
  let x := s.queue vf q
  let prio := x.qprio.toNat
  let s1 := s.setQueue vf q { x with
    qhead := x.qhead + 1
    qerr := qerr.elim x.qerr fun c => BitVec.ofNat 8 c
    last := last
    refused := refused
    blocked := none }
  { s1.onCtx vf fun c => { c with servedQueue := tabSet c.servedQueue prio q } with served := tabSet s1.served prio vf }

/-- A launch admitted: its number, its edges, its priority. -/
def State.admitLaunch (s : State) (vf q : Nat) (la : Launch) (serial : Bool) : State :=
  let x := s.queue vf q
  let id := s.nextId
  let c := s.ctx vf
  let before := if serial then x.last.filter fun k => (tabGet? s.launches k).elim false fun l => l.life != .completed else none
  let done := if serial then x.last.elim x.refused fun k => (tabGet? s.launches k).elim [] fun l =>
      if l.life = .completed then l.done else []
    else []
  let la := { la with
    lnum := c.admitted + 1
    serialOn := before
    edges := s.edgesTo la
    start := done
    base := x.qprio.toNat }
  let s1 := { s with launches := tabSet s.launches id la, nextId := id + 1 }
  (s1.onCtx vf fun c => { c with admitted := c.admitted + 1 }).entryTaken vf q none (some id)

/-- What the write of a refused entry's completion word releases: that write itself, for the watch core is no party (R337, R343). -/
def State.wordSeen (s : State) (vf : Nat) (cw : Word64) : View :=
  match s.translate vf cw 8 .store true with
  | .ok (.byte a) | .ok (.image a _) => s.raiseAt [] a 8 0
  | _ => []

/-- The entry at QHEAD of a queue taken, or waited for; expired is the address whose translation is waited for no longer. -/
def State.takeEntry (s : State) (vf q : Nat) (expired : Option Word64) : State :=
  let x := s.queue vf q
  match s.readRing vf q x expired with
  | .ok ((la, serial), s1) => s1.admitLaunch vf q la serial
  | .error (.wait va) =>
    if x.blocked = some va then s
    else (s.setQueue vf q { x with blocked := some va }).report vf va AccessKind.load.code 0
  | .error .held => s
  | .error (.drop c) => s.entryTaken vf q (some c) none
  | .error (.refuse cw c) =>
    if s.wordHeld vf cw then s
    else
      let s1 := s.writeWord .watch vf cw (fun _ => .system) (x.qhead.toNat * 2 ^ 32 + c * 2 ^ 16 + 3)
      s1.entryTaken vf q none none (s1.wordSeen vf cw)

/-- ENTRY TAKE (R330, R334): the next entry of the queue that is to be served now. -/
def execEntryTake (vf q : Nat) (s : State) : Host.Outcome State Fault Refusal :=
  match s.nextQueue with
  | none => .next s
  | some (_, v, k) =>
    if v ≠ vf ∨ k ≠ q then .next s else .next (s.takeEntry vf q none)

end Sys2Proof.Machine
end

