-- ==== Sys2Proof/Machine/Alias.lean ====
section
/-! DEFINITION. Alias operations and plane operations at the base dies, their bursts, and the swaps of the remapper (R196, R202,
R233, R298, R299). -/

namespace Sys2Proof.Machine

/-! ### When an alias operation may perform (R196, R222, R233) -/

/-- An access to main memory lies in a region that a swap holds (R196). -/
def State.swapHeld (s : State) (a : Access) : Bool :=
  ({ first := a.addr, len := Nat.max 1 a.size } :: a.range).any fun r => s.swapping r.first r.len

/-- Every earlier write of the team has performed: an alias operation is a memory-side command (R217, R233). -/
def State.writesBefore (s : State) (a : Access) : Bool :=
  match a.party with
  | .team t => (s.pend.all fun b => b.2.places.all fun q =>
      q.1 != .team t || decide (a.seq ≤ q.2.1) || (b.2.kind == .read && !Ord.acquires q.2.2)) && s.queuedWrites t a.seq == []
  | _ => true

/-- A swap holds the row that a row copy reads (R196). -/
def State.sourceHeld (s : State) (a : Access) : Bool :=
  match a.kind with
  | .windowOp code _ x => code == 8 && s.swapping (x.toNat % 2 ^ 40) 1024
  | _ => false

/-- An alias operation may perform. -/
def State.aliasMay (s : State) (id : Nat) (a : Access) : Bool :=
  s.canPerform id a && s.writesBefore a && !s.swapHeld a && !s.sourceHeld a

/-! ### What it may touch (R199, R360, R361) -/

/-- A row of main memory that an alias operation of a context reads, or reads and writes: the cause for which it is refused. -/
def State.rowFault (s : State) (vf a n : Nat) (reads writes : Bool) : Option Cause :=
  if !s.stackHas a || s.isImage a || (reads && !s.rowAllowed vf a false) || (writes && !s.rowAllowed vf a true) then some .access
  else if reads && (s.markAt a n).isSome then some .softError
  else none

/-! ### Its effect -/

/-- The new element of codes 0x1 to 0x6 (R202). -/
def aliasCombine (code : Nat) (t : Ty) (old x : Nat) : Nat :=
  let op : RedOp := match code with
    | 1 => .add
    | 2 => .min
    | 3 => .max
    | 4 => .and
    | 5 => .or
    | _ => .xor
  (RedOp.combine op t old x).1

/-- The views of an alias operation, a party of its own, when it begins: it starts from its issuer's floor (R217, R233). -/
def State.aliasView (s : State) (a : Access) : PView := { o := (s.pv a.party).floor }

/-- The bytes written by an alias operation with views v: a write of the operation's own party, which carries the message of its store
when that is a release (R217, R224, R233). What the operation knows is its launch's (R239). -/
def State.aliasWrite (s : State) (id : Nat) (a : Access) (v : PView) (addr : Nat) (data : List Byte) : State :=
  let o := s.raiseNext v.o addr data.length
  let own := match s.relOf a with
    | none => []
    | some i => [⟨i, o⟩]
  let s1 := ((s.writeMem (.command id) none own addr data).unmark addr data.length).countFor s.nextWrite (s.partyDie a.party)
  { s1 with
    launches := tabModify s1.launches a.launch fun la => { la with done := viewJoin la.done o } }

/-- The read by an alias operation with views v of a row (R223, R233): the bytes, its views, and the state with those picks taken. -/
def State.aliasRead (s : State) (v : PView) (row n : Nat) : List Byte × PView × State :=
  let x := s.readView v none v.floorAt row n
  (x.1, x.2, { s with picks := s.picks.drop n })

/-- The indivisible read of the bytes that an alias operation replaces. -/
def State.aliasTake (s : State) (v : PView) (addr n : Nat) : List Byte × PView :=
  (memGets s.mem addr n, { v with o := s.raiseLatest v.o addr n })

/-- An alias operation of code lo to hi makes its move: refused at its base die, it is discarded with a Deferred record (R360). -/
def State.performAlias (s : State) (id lo hi : Nat) (check : Nat → Access → Word64 → Option Cause)
    (move : Nat → Access → Ty → Word64 → State) : State :=
  match tabGet? s.pend id with
  | none => s
  | some a =>
    match a.kind with
    | .windowOp code t x =>
      if decide (lo ≤ code) && decide (code ≤ hi) && s.aliasMay id a then
        match check code a x with
        | some c => (s.deferAccess a.self c).performed id
        | none => (move code a t x).performed id
      else s
    | _ => s

/-- A store through codes 0x1 to 0x6 (R202). -/
def State.aliasElement (s : State) (id lo hi : Nat) : State :=
  s.performAlias id lo hi (fun _ a _ => s.rowFault a.vf a.addr a.size true true) fun code a t x =>
    let (old, v) := s.aliasTake (s.aliasView a) a.addr a.size
    s.aliasWrite id a v a.addr (toBytesLE a.size (aliasCombine code t (ofBytesLE old) x.toNat))

/-- ALIAS ADD (R202). -/
def execAliasAdd (acc : Nat) (s : State) : Host.Outcome State Fault Refusal := .next (s.aliasElement acc 1 1)

/-- ALIAS MIN MAX (R202). -/
def execAliasMinMax (acc : Nat) (s : State) : Host.Outcome State Fault Refusal := .next (s.aliasElement acc 2 3)

/-- ALIAS BITWISE (R202). -/
def execAliasBitwise (acc : Nat) (s : State) : Host.Outcome State Fault Refusal := .next (s.aliasElement acc 4 6)

/-- ROW FILL (R202): every element of the 1 KiB row becomes the value. -/
def execRowFill (acc : Nat) (s : State) : Host.Outcome State Fault Refusal :=
  .next (s.performAlias acc 7 7 (fun _ a _ => s.rowFault a.vf a.addr 1024 false true) fun _ a _ x =>
    s.aliasWrite acc a (s.aliasView a) a.addr ((List.range (1024 / a.size)).flatMap fun _ => toBytesLE a.size x.toNat))

/-- The row that a row copy reads. -/
def sourceRow (x : Word64) : Nat := x.toNat % 2 ^ 40

/-- ROW COPY (R202); a swap that holds the source row holds the copy (R196). -/
def execRowCopy (acc : Nat) (s : State) : Host.Outcome State Fault Refusal :=
  .next (s.performAlias acc 8 8
    (fun _ a x => (s.rowFault a.vf (sourceRow x) 1024 true false).or (s.rowFault a.vf a.addr 1024 false true))
    fun _ a _ x =>
      let (bs, v, s1) := s.aliasRead (s.aliasView a) (sourceRow x) 1024
      s1.aliasWrite acc a v a.addr bs)

/-! ### Plane operations (R203, R299) -/

/-- A plane command word: n, the first rows of runs A and B. -/
structure PlaneWord where
  n : Nat
  a : Nat
  b : Nat
deriving DecidableEq, Repr

def PlaneWord.ofWord (x : Word64) : PlaneWord where
  n := 8 * 2 ^ (x.toNat / 2 ^ 46 % 4)
  a := x.toNat % 2 ^ 30 * 1024
  b := ((x.toNat % 2 ^ 30 : Nat) * 1024 + (x.extractLsb' 30 16).toInt * 1024 : Int).toNat

/-- The byte of each bit plane that holds a bit of elements 8q to 8q + 7 of a run, from its rows, lowest plane first. -/
def planeBytes (rows : List (List Byte)) (q : Nat) : List Byte := rows.map fun row => nth 0 row q

/-- Element j of eight, from the bytes of its planes. -/
def planeElement (planes : List Byte) (j : Nat) : Nat :=
  (List.range planes.length).foldl (fun w i => w + (if (nth 0 planes i).getLsbD j then 2 ^ i else 0)) 0

/-- Eight new elements at byte q of the planes of D, from the runs D, A and B. SGN changes nothing: the low n bits of a product do not
depend on it. -/
def planeEight (d a b : List (List Byte)) (n : Nat) (mul : Bool) (q : Nat) : List Nat :=
  (List.range 8).map fun j =>
    (planeElement (planeBytes d q) j + planeElement (planeBytes a q) j * (if mul then planeElement (planeBytes b q) j else 1)) %
      2 ^ n

/-- The n rows of the run D after the operation. -/
def planeRows (d a b : List (List Byte)) (n : Nat) (mul : Bool) : List Byte :=
  let all := (List.range 1024).map (planeEight d a b n mul)
  (List.range n).flatMap fun i => all.map fun es =>
    BitVec.ofNat 8 ((List.range 8).foldl (fun x j => x + (if (nth 0 es j).testBit i then 2 ^ j else 0)) 0)

/-- The rows of a run as an alias operation reads them, one by one. -/
def State.aliasRun (s : State) (v : PView) (r n : Nat) : List (List Byte) × PView × State :=
  (List.range n).foldl (fun (x : List (List Byte) × PView × State) i =>
    let (bs, v1, s1) := x.2.2.aliasRead x.2.1 (r + 1024 * i) 1024
    (x.1 ++ [bs], v1, s1)) ([], v, s)

/-- The rows of the run that a plane operation replaces, taken indivisibly. -/
def State.aliasTakeRun (s : State) (v : PView) (r n : Nat) : List (List Byte) × PView :=
  (List.range n).foldl (fun (x : List (List Byte) × PView) i =>
    let (bs, v1) := s.aliasTake x.2 (r + 1024 * i) 1024
    (x.1 ++ [bs], v1)) ([], v)

/-- The first reason for which a run of n rows is refused. -/
def State.runFault (s : State) (vf r n : Nat) (writes : Bool) : Option Cause :=
  (List.range n).findSome? fun i => s.rowFault vf (r + 1024 * i) 1024 true writes

/-- A plane operation of one code. -/
def State.planeOp (s : State) (id code : Nat) (mul : Bool) : State :=
  s.performAlias id code code
    (fun _ a x =>
      let w := PlaneWord.ofWord x
      (s.runFault a.vf w.a w.n false).or ((if mul then s.runFault a.vf w.b w.n false else none).or
        (s.runFault a.vf a.addr w.n true)))
    fun _ a _ x =>
      let w := PlaneWord.ofWord x
      let (ra, v1, s1) := s.aliasRun (s.aliasView a) w.a w.n
      let (rb, v2, s2) := if mul then s1.aliasRun v1 w.b w.n else ([], v1, s1)
      let (rd, v3) := s2.aliasTakeRun v2 a.addr w.n
      s2.aliasWrite id a v3 a.addr (planeRows rd ra rb w.n mul)

/-- PLANE MULTIPLY ACCUMULATE (R299). -/
def execPlaneMultiplyAccumulate (acc : Nat) (s : State) : Host.Outcome State Fault Refusal := .next (s.planeOp acc 9 true)

/-- PLANE ADD (R299). -/
def execPlaneAdd (acc : Nat) (s : State) : Host.Outcome State Fault Refusal := .next (s.planeOp acc 10 false)

/-- MICROPROGRAM BURST (R298): a burst holds one bank for a while. The operation it belongs to is one move, whatever number of
bursts it takes, so a burst changes nothing by itself. -/
def execMicroprogramBurst (_acc : Nat) (s : State) : Host.Outcome State Fault Refusal := .next s

/-! ### Remapping (R196) -/

/-- The frame of a 2 MiB region, by the region's number in main memory: its own until a swap. -/
def State.frameOf (s : State) (region : Nat) : Nat := tabGet s.frames region (region % 2 ^ 15)

/-- The domain of every row of a region, when they have one in common. -/
def State.regionDomain (s : State) (region : Nat) : Option Nat :=
  let d := (s.rowEntry (region * 2 ^ 21)).toNat % 256
  if (List.range 32).all fun i => (s.rowEntry (region * 2 ^ 21 + i * 65536)).toNat % 256 == d then some d else none

/-- The conditions of a swap: one stack with no swap under way, different channel quads, one trust domain, neither pinned. -/
def State.mayRemap (s : State) (hot cool : Nat) : Bool :=
  hot / 2 ^ 15 == cool / 2 ^ 15 && s.stackHas (hot * 2 ^ 21) && s.stackHas (cool * 2 ^ 21) &&
    (tabGet? s.held (hot / 2 ^ 15)).isNone && s.frameOf hot % 8 != s.frameOf cool % 8 &&
    (s.regionDomain hot).isSome && s.regionDomain hot == s.regionDomain cool &&
    !s.pinned.contains hot && !s.pinned.contains cool

/-- REMAP SWAP (R196): the frames of a hot and a cool region are exchanged, and accesses to both are held. -/
def execRemapSwap (hot cool : Nat) (s : State) : Host.Outcome State Fault Refusal :=
  if s.mayRemap hot cool then
    .next { s with
      frames := tabSet (tabSet s.frames hot (s.frameOf cool)) cool (s.frameOf hot)
      held := tabSet s.held (hot / 2 ^ 15) (hot, cool) }
  else .next s

/-- SWAP HOLD END (R196): the held accesses of a stack proceed, the writes of the watch core at once. -/
def execSwapHoldEnd (stack : Nat) (s : State) : Host.Outcome State Fault Refusal :=
  .next (s.launches.foldl (fun s l => if l.2.waiting = [] then s else s.watchFlush l.1 l.2.waiting)
    { s with held := tabDel s.held stack })

end Sys2Proof.Machine
end

