-- ==== Sys2Proof/Machine/Sched.lean ====
section
/-! DEFINITION. The scheduler: effective priorities, the placing and binding of units, pre-emption and eviction (R145 to R147, R184,
R198, R272, R338 to R341, R352, R354, R356, R357). -/

namespace Sys2Proof.Machine

/-! ### Priorities (R338, R339) -/

/-- The highest effective priority among the launches that wait on a standing edge from l; fuel bounds the length of a chain. -/
def State.inherited (s : State) : Nat → Nat → Nat
  | 0, _ => 0
  | n + 1, l => s.launches.foldl (fun m w =>
      if w.2.edges.contains l && w.2.life == .admitted then Nat.max m (Nat.max w.2.base (s.inherited n w.1)) else m) 0

/-- The priority at which a group runs or waits: its base, raised by inheritance. -/
def State.groupPrio (s : State) (gr : Group) : Nat :=
  let base := if gr.place.isSome then gr.prio else (tabGet? s.launches gr.launch).elim 0 (·.base)
  Nat.max base (s.inherited s.launches.length gr.launch)

/-! ### Units (R341) -/

/-- The live groups of the unit of a group. -/
def State.unitLive (s : State) (g : Nat) : List (Nat × Group) :=
  s.groups.filter fun h => !h.2.retired && (s.unitOf g).contains h.1

/-- A walk that a parked team waits for still fails. -/
def State.stillInvalid (s : State) (tm : Team) : Bool :=
  match tm.phase with
  | .parked va _ _ => s.walk (s.vfOf tm) (va.toNat % 2 ^ 56) == .invalid
  | _ => false

/-- A unit may be bound: its launch is distributed and goes on, none of its groups is bound, and no team evicted while parked still
waits for its translation (R335, R354, R358). -/
def State.unitWaits (s : State) (g : Nat) : Bool :=
  let live := s.unitLive g
  live != [] && live.all fun h => h.2.place.isNone &&
    ((tabGet? s.launches h.2.launch).elim false fun l => !l.terminated && (l.life == .distributed || l.life == .resident)) &&
    h.2.teams.all fun t => (tabGet? s.teams t).elim true fun tm => !(tm.parkedOut && s.stillInvalid tm)

/-- The priority of a unit: that of its highest group. -/
def State.unitPrio (s : State) (g : Nat) : Nat := (s.unitLive g).foldl (fun m h => Nat.max m (s.groupPrio h.2)) 0

/-! ### Rows for images (R184, R197, R198) -/

/-- The region of a stack that now lies in a frame. -/
def State.regionIn (s : State) (stack frame : Nat) : Nat :=
  match s.frames.find? fun f => f.1 / 2 ^ 15 == stack && f.2 == frame with
  | some f => f.1
  | none => stack * 2 ^ 15 + frame

/-- The 64 KiB pages whose rows lie next to those of a page in its banks. -/
def State.rowNeighbours (s : State) (page : Nat) : List Nat :=
  let region := page / 32
  let stack := region / 2 ^ 15
  let frame := s.frameOf region
  let pos := 32 * (frame / 8) + page % 32
  let at_ (p : Nat) : Nat := s.regionIn stack (8 * (p / 32) + frame % 8) * 32 + p % 32
  (if pos = 0 then [] else [at_ (pos - 1)]) ++ [at_ (pos + 1)]

/-- A page may receive a domain: no row next to its rows has another one (R198; a page has two rows in each of its banks). -/
def State.guardOk (s : State) (page domain : Nat) : Bool :=
  domain == 0 || (s.rowNeighbours page).all fun p =>
    let d := (tabGet s.alloc p 0).toNat % 256
    d == 0 || d == domain

/-- n free pages that may become image rows of a domain. -/
def State.imageRoom (s : State) (domain page n : Nat) : Bool :=
  page != 0 && (List.range n).all fun i =>
    s.stackHas ((page + i) * 65536) && s.stackHas ((page + i) * 65536 + 65535) && tabGet s.alloc (page + i) 0 == 0 &&
      s.guardOk (page + i) domain

/-- The pages of the images of a group's teams. -/
def State.imagePages (s : State) (gr : Group) : Nat :=
  gr.teams.foldl (fun n t => n + (tabGet? s.teams t).elim 0 fun tm => imageSize tm.lanes tm.vcount / 65536) 0

/-- The domain of a group's context. -/
def State.groupDomain (s : State) (gr : Group) : Nat :=
  (s.ctx ((tabGet? s.launches gr.launch).elim 0 (·.vf))).domain.toNat

/-- The images of a group's teams assigned from a page on: rows marked, the image table written (R184, R333). -/
def State.assignImages (s : State) (gr : Group) (page : Nat) : State :=
  let e : BitVec 16 := BitVec.ofNat 16 (256 + s.groupDomain gr)
  (gr.teams.foldl (fun (acc : Nat × State) t => match tabGet? acc.2.teams t with
    | none => acc
    | some tm =>
      let n := imageSize tm.lanes tm.vcount
      let s1 := (acc.2.setRows acc.1 n e).setTeam t { tm with image := acc.1 }
      (acc.1 + n, s1.writeImageEntry tm acc.1)) (page * 65536, s)).2

/-! ### Places (R145, R146, R189, R272, R340) -/

/-- A group may be bound at a place: the core exists and has room, the slot and the scratchpad range are free, a range of 32 KiB or
more starts at a macro, a group bound before finds the same base within a macro, and its moored regions have room (R271, R272,
R368). -/
def State.mayPlace (s : State) (gr : Group) (core slot spb : Nat) : Bool :=
  let gs := s.boundOn core
  s.cores.getLsbD core && decide (slot < 8) && decide (spb + gr.spadLen / 4096 ≤ 256) &&
    decide (gs.foldl (fun n h => n + h.teams.length) 0 + gr.teams.length ≤ 32) &&
    (gs.all fun h => h.place.elim true fun p => p.slot != slot &&
      (decide (spb + gr.spadLen / 4096 ≤ p.spb) || decide (p.spb + h.spadLen / 4096 ≤ spb))) &&
    (decide (gr.spad < 32768) || spb % 8 == 0) && spb % 8 == (gr.last.elim spb (·.spb)) % 8 &&
    (gr.moors == [] || decide (moored gs + moored [gr] ≤ 524288))

/-- A team as its group is bound: it starts (R24), or goes on where it was; evicted past the threshold, at its region's entry (R352,
R354). A refused team raises its Access when it runs (R355). -/
def Team.rejoin (tm : Team) : Team :=
  match tm.phase, tm.parkedOut with
  | .parked .., true =>
    let tm1 := { tm with phase := .running, parkedOut := false }
    if tm.rvalid then { tm1.goto tm.regpc false true with closed := true } else tm1
  | _, _ => { tm with parkedOut := false }

/-- One group bound, or none when the place or the image rows are not free. -/
def State.bindGroup (s : State) (g : Nat) (pl : Placement) : Option State :=
  match tabGet? s.groups g with
  | none => none
  | some gr =>
    if !s.mayPlace gr pl.core pl.slot pl.spb then none
    else
      let s1 := if gr.started then some s
        else if s.imageRoom (s.groupDomain gr) pl.image (s.imagePages gr) then some (s.assignImages gr pl.image) else none
      s1.map fun s1 =>
        let s2 := s1.onGroup g fun gr => { gr with
          place := some ⟨pl.core, pl.slot, pl.spb⟩
          started := true
          leave := none
          prio := (tabGet? s.launches gr.launch).elim 0 (·.base) }
        (gr.teams.foldl (fun s t => s.onTeam t Team.rejoin) s2).onLaunch gr.launch fun la =>
          { la with life := if la.life = .distributed then .resident else la.life }

/-- Members of one gang lie on different cores of one cluster (R146). -/
def gangApart (xs : List (Group × Placement)) : Bool :=
  xs.all fun x => (xs.filter fun y => y.1.gang == x.1.gang).all fun y =>
    x.2.core / 32 == y.2.core / 32 && (x.1.gidx == y.1.gidx || x.2.core != y.2.core)

/-- All the groups of a unit bound, or none. -/
def State.bindUnit (s : State) (g : Nat) (places : List Placement) : Option State :=
  let live := s.unitLive g
  if places.length = live.length ∧ gangApart ((live.map (·.2)).zip places) then
    ((live.map (·.1)).zip places).foldlM (fun s x => s.bindGroup x.1 x.2) s
  else none

/-! ### Finding a place -/

/-- A group may share the package with members already placed: those of its gang lie on other cores of the same cluster (R146). -/
def apart (gr : Group) (core : Nat) (placed : List (Group × Nat)) : Bool :=
  placed.all fun x => x.1.gang != gr.gang || (x.2 / 32 == core / 32 && x.2 != core)

/-- The bases at which a group may be bound to a core, the first free slot taken; the start of a macro comes first. One base does
where no other group of its unit can come to the same core. -/
def State.basesOn (s : State) (gr : Group) (core : Nat) (all : Bool) : List (Nat × Nat) :=
  if !s.cores.getLsbD core then []
  else match (List.range 8).find? fun k => (s.boundOn core).all fun h => h.place.elim true fun p => p.slot != k with
  | none => []
  | some slot =>
    let bs := ((List.range 33).map (8 * ·) ++ (List.range 257).filter fun b => b % 8 != 0)
    if all then (bs.filter fun b => s.mayPlace gr core slot b).map fun b => (slot, b)
    else ((bs.find? fun b => s.mayPlace gr core slot b).map fun b => (slot, b)).toList

/-- The first pages for a group's images: at the start of a stack, or after rows already in use, with a row between where the domains
differ (R198). -/
def State.findImage (s : State) (gr : Group) : Option Nat :=
  if gr.started then some 0
  else
    let n := s.imagePages gr
    (((List.range 12).map fun k => k * 2 ^ 20 + 1) ++ s.alloc.flatMap fun (e : Nat × BitVec 16) => [e.1 + 1, e.1 + 2]).find? fun p =>
      s.imageRoom (s.groupDomain gr) p n

/-- Places for the groups of a unit one after another: every core and base is tried for each, and given up where the groups after it
find none. -/
def State.placeAll (s : State) (all : Bool) : List (Nat × Group) → List (Group × Nat) → Option (List Placement)
  | [], _ => some []
  | (g, gr) :: rest, placed =>
    match s.findImage gr with
    | none => none
    | some im => (List.range 1024).findSome? fun core =>
      if !apart gr core placed then none
      else (s.basesOn gr core all).findSome? fun x =>
        let pl : Placement := ⟨core, x.1, x.2, im⟩
        (s.bindGroup g pl).bind fun s1 => (s1.placeAll all rest ((gr, core) :: placed)).map (pl :: ·)

/-- Places for a unit, in the order of its groups, where there are any. -/
def State.placeUnit (s : State) (g : Nat) : Option (List Placement) :=
  let live := s.unitLive g
  s.placeAll ((live.map fun h => h.2.gang).eraseDups.length != 1) live []

/-- A unit can be placed now. -/
def State.canPlace (s : State) (g : Nat) : Bool := (s.placeUnit g).isSome

/-! ### BIND (R340, R341) -/

/-- The mailbox runs a checkpoint or a restore of a context, or the entry to S3: what has left its cores for it stays off them (R383,
R389). -/
def State.bindingHeld (s : State) (vf : Nat) : Bool :=
  let m := s.mailbox
  let a := (nth 0 m.taken 0).toNat
  m.busy && m.result.isNone &&
    ((m.opc == 7 || m.opc == 8) && (a.testBit 6 || a % 64 == vf) || m.opc == 9 && a == 3)

/-- The context of a group. -/
def State.groupVf (s : State) (g : Nat) : Nat :=
  (tabGet? s.groups g).elim 0 fun gr => (tabGet? s.launches gr.launch).elim 0 (·.vf)

/-- The units that wait to be bound and may be, each by its first group. -/
def State.waiting (s : State) : List Nat :=
  (s.groups.map (·.1)).filter fun g =>
    ((s.unitLive g).head?).elim false (fun h => h.1 == g) && s.unitWaits g && !s.bindingHeld (s.groupVf g)

/-- Unit u is considered before unit g: a higher effective priority, or an earlier admission (R341). -/
def State.before (s : State) (u g : Nat) : Bool :=
  let l (x : Nat) : Nat := (tabGet? s.groups x).elim 0 (·.launch)
  decide (s.unitPrio g < s.unitPrio u) || (s.unitPrio g == s.unitPrio u && decide (l u < l g))

/-- The device with the groups that f names off their cores. -/
def State.without (s : State) (f : Nat × Group → Bool) : State :=
  { s with groups := s.groups.map fun (h : Nat × Group) =>
      (h.1, if f h then { h.2 with last := h.2.place.or h.2.last, place := none } else h.2) }

/-- The device once every group that has been asked to leave has left: the room that those free (R341). -/
def State.withLeft (s : State) : State := s.without fun h => h.2.leave.isSome

/-- A unit that waits could use one of these cores, once the groups below it have left: it can be placed then, and one of its groups fits
there (R341). -/
def State.couldUse (s : State) (u : Nat) (places : List Placement) : Bool :=
  let p := s.unitPrio u
  let w := s.without fun h => h.2.leave.isSome || (h.2.place.isSome && decide (s.unitPrio h.1 < p))
  places.any (fun pl => (w.unitLive u).any fun h => w.basesOn h.2 pl.core true != []) && w.canPlace u

/-- BIND (R340, R341): the watch core binds a waiting unit; the slots that a unit considered before it can use, now or once the groups
below that one have left, are not for it. -/
def execBind (unit : Nat) (places : List Placement) (s : State) : Host.Outcome State Fault Refusal :=
  if (s.power == .p0 || s.power == .p1) && s.unitWaits unit && !s.bindingHeld (s.groupVf unit) &&
      !(s.waiting.any fun u => s.before u unit && (s.canPlace u || s.couldUse u places)) then
    match s.bindUnit unit places with
    | some s1 => .next s1
    | none => .next s
  else .next s

/-! ### Leaving (R146, R341, R346, R356, R357) -/

/-- EVICT (R340, R341): the watch core's evict record asks a unit to leave, for a waiting one of higher effective priority that cannot
be placed; no other unit that could leave has a lower priority. A YIELD or a parked team has asked already. -/
def execEvict (unit : Nat) (s : State) : Host.Outcome State Fault Refusal :=
  let p := s.unitPrio unit
  let lower := s.groups.any fun h => !h.2.retired && h.2.place.isSome && h.2.leave.isNone && decide (s.unitPrio h.1 < p)
  let higher := s.waiting.any fun u => decide (p < s.unitPrio u) && !s.withLeft.canPlace u
  if higher && !lower then .next (s.requestLeave (s.unitOf unit) .preempt) else .next s

/-- HELD PRE-EMPTION FORCE (R357): a request held for its longest time takes effect although traps are masked. -/
def execHeldPreEmptionForce (t : Nat) (s : State) : Host.Outcome State Fault Refusal :=
  .next (s.onTeam t fun tm => if tm.preheld then { tm with forced := true } else tm)

/-- The path buffers of a unit's teams have drained: every access in them has performed (R221, R356). -/
def State.pathsDrained (s : State) (live : List (Nat × Group)) : Bool :=
  s.pend.all fun a => !(a.2.places.any fun x => live.any fun h => h.2.teams.any fun t => x.1 == .team t)

/-- PRE-EMPTION (R146, R356): a unit asked to leave, held by no masked team, at its boundaries and with its paths drained, is saved
and leaves its cores. -/
def execPreEmption (unit : Nat) (s : State) : Host.Outcome State Fault Refusal :=
  let live := s.unitLive unit
  if live != [] && (live.all fun h => h.2.place.isSome && h.2.leave.isSome) && !s.held? (live.map (·.1)) && s.pathsDrained live then
    .next (live.foldl (fun s h => s.unbind h.1) s)
  else .next s

end Sys2Proof.Machine
end

