-- ==== Sys2Proof/Machine/Waits.lean ====
section
/-! DEFINITION. Replay of translations, the beacon, and the eclipse tree (R227, R292, R302, R334, R353, R354, R364 to R367). -/

namespace Sys2Proof.Machine

/-! ### Replay (R353, R354) -/

/-- REPLAY WALK (R353): the walk of a parked team is made again; when it no longer meets V = 0 the instruction issues again. -/
def execReplayWalk (t : Nat) (s : State) : Host.Outcome State Fault Refusal :=
  match tabGet? s.teams t with
  | none => .next s
  | some tm =>
    match tm.phase with
    | .parked .. =>
      if ((s.groupOfTeam tm).elim false fun g => g.place.isSome) && !s.stillInvalid tm && !tm.parkedOut then
        .next (s.setTeam t { tm with phase := .running })
      else .next s
    | _ => .next s

/-- The translation that a copy or command waits for still fails. -/
def State.stillBlocked (s : State) (vf : Nat) (b : Option Word64) : Bool :=
  b.elim false fun va => s.walk vf (va.toNat % 2 ^ 56) == .invalid

/-- REPLAY THRESHOLD (R292, R296, R334, R354): a translation has not been resolved in time. A team's unit leaves its cores, with the
team to resume at its region's entry; a copy or command faults; an entry is dropped or refused. -/
def execReplayThreshold (who : Waiter) (s : State) : Host.Outcome State Fault Refusal :=
  match who with
  | .team t => match tabGet? s.teams t with
    | none => .next s
    | some tm =>
      if ((s.groupOfTeam tm).elim false fun g => g.place.isSome) && s.stillInvalid tm then
        .next ((s.setTeam t { tm with parkedOut := true }).requestLeave (s.unitOf tm.group) .park)
      else .next s
  | .copy k => match tabGet? s.copies k with
    | none => .next s
    | some c =>
      if s.stillBlocked c.vf c.blocked && c.phase != .complete then .next (s.faultCopy k Cause.translation.code 0) else .next s
  | .command k => match tabGet? s.commands k with
    | none => .next s
    | some c => if s.stillBlocked c.vf c.blocked then .next ((s.faultCommand k .translation).onCommand k Command.endWaits) else .next s
  | .entry vf q =>
    let b := (s.queue vf q).blocked
    if s.stillBlocked vf b then .next (s.takeEntry vf q b) else .next s

/-! ### The beacon (R227, R302) -/

/-- The enabled channels of the three stacks of a die: those that the channel maps of the enabled ones name (R302, R387). -/
def State.channels (s : State) (die : Nat) : Nat :=
  ((List.range 3).filter fun i => s.stackSet.getLsbD (3 * die + i)).foldl
    (fun n i => n + ((List.range 32).filter fun k => (Config.channelMap (3 * die + i)).getLsbD k).length) 0

/-- %bwmon of a die after a tick, from the channel-cycles that carried a burst since the last one (R302). -/
def State.countBursts (s : State) (die busy : Nat) : State :=
  let c := s.channels die
  let window := (Nat.min busy (c * 128) :: tabGet s.bwWindow die []).take 32
  { s with
    bwWindow := tabSet s.bwWindow die window
    bwmon := tabSet s.bwmon die (if c = 0 then 0 else 256 * window.foldl (· + ·) 0 / (c * 4096)) }

/-- The teams that wait for a tick in FENCESC, by core, slot and index, with the scope of each (R227). -/
def State.fencers (s : State) : List (Nat × Scope) :=
  (List.range 1024).flatMap fun core => (List.range 8).flatMap fun slot =>
    ((s.boundOn core).filter fun g => g.place.elim false fun p => p.slot == slot).flatMap fun g => g.teams.filterMap fun t =>
      (tabGet? s.teams t).bind fun tm => match tm.stall with
        | .fence sc false => some (t, sc)
        | _ => none

/-- The SC move of one FENCESC, which is a FENCE.ar as well (R227). The acquire part comes before the SC move, so that S[I] carries what it
joins, and the release part after it, so that it records what the SC move joined (DESIGN CHOICE, log 130: R227 does not order them). -/
def State.fenceTick (s : State) (t : Nat) (sc : Scope) : State :=
  let p := Party.team t
  let i := s.instOf p sc
  let s1 := s.setPv p ((s.pv p).fenceAcq i)
  let s2 := s1.scMove p i
  (s2.setPv p ((s2.pv p).fenceRel i)).onTeam t fun tm => { tm with stall := .fence sc true }

/-- BEACON TICK (R227, R302): the tick count, %bwmon of each die, and the SC moves of the fences that wait. -/
def execBeaconTick (busy : List Nat) (s : State) : Host.Outcome State Fault Refusal :=
  let s1 := { s with beacon := s.beacon + 1 }
  let s2 := (List.range 4).foldl (fun s d => s.countBursts d (nth 0 busy d)) s1
  .next (s2.fencers.foldl (fun s f => s.fenceTick f.1 f.2) s2)

/-! ### Waits (R154) -/

/-- A team waits no longer: its next pass can issue (R154). A wait for accesses of the team's own counts as over: only the
instruction itself can tell. -/
def State.stallOver (s : State) (tm : Team) : Bool :=
  match tm.stall with
  | .none | .other => true
  | .regs rs => !rs.any tm.isEmpty
  | .barrier _ released => released.isSome
  | .fence _ done => done
  | .moor _ done _ => done
  | .eclw _ _ result => result.isSome
  | .drain ks => ks.all fun k => (tabGet? s.copies k).elim true fun c => c.phase == .complete
  | .spawn q need => (s.spawnQueue tm q).elim true fun x => x.room need
  | .launch q => (s.queue (s.vfOf tm) q).room
  | .capacity n => (s.groupOfTeam tm).elim true fun g => s.moorFits g n
  | .share mask => (s.groupOfTeam tm).elim true fun g => s.gangRoom tm.group g mask
  | .collect => decide (s.collecting tm.group < 16) &&
      decide (s.copying (((s.groupOfTeam tm).bind Group.core).getD 0) < 64)
  | .held a => !s.foldHolds a
  | .mwait n => (s.groupOfTeam tm).elim true fun g => g.batchesDone n

/-! ### The eclipse tree (R364, R365) -/

/-- The team keeps its core's wire low: it is ready and no waiter in ECLW, or it is parked (R154, R364). -/
def State.teamActive (s : State) (tm : Team) : Bool :=
  match tm.phase with
  | .parked .. | .refused .. => true
  | .ended | .retired => false
  | .running => s.stallOver tm && !(tm.halted && tm.steps == 0)

/-- The wire of a core is high. -/
def State.coreIdle (s : State) (core : Nat) : Bool :=
  ((s.boundOn core).all fun g => g.queue == [] && g.shares == [] &&
    g.teams.all fun t => (tabGet? s.teams t).elim true fun tm => !s.teamActive tm) &&
    s.copying core == 0

/-- The die on which a party counts: its own, or every die when it has left its core (R342). -/
def State.countsOn (s : State) (p : Party) (die : Nat) : Bool := (s.partyDie p).elim true fun d => d == die

/-- The bytes of a layer's storage (R212). -/
def Layer.size (h : Handle) (d : Layer) : Nat :=
  match d.kind with
  | 0 => 16 * d.count
  | 1 => (h.extent 0 * h.extent 1 + 511) / 512 * 64 + 4 * d.cap
  | _ => 4 * d.lrank * (h.extent 1 + h.extent 0)

/-- The addresses of what a command that has entered its queues still has to read or write (R233). -/
def State.commandRanges (s : State) (c : Command) : List (Word64 × Nat) :=
  match c.kind with
  | .fold n p nb nl bs =>
    let h := Handle.ofBytes bs
    let whole := h.elem.bits / 8 * (h.index [h.extent 0 - 1, h.extent 1 - 1] + 1)
    let lists := if c.final then [(h.ptr, 32 * h.lcount), (nl, 32 * (h.lcount - p))] else []
    let layers := match s.layerList .watch c.vf n h p with
      | .ok (ls, _) => ls.map fun d => (d.addr, d.size h)
      | .error _ => []
    if c.todo = [] then lists else (h.base, whole) :: (nb, whole) :: layers ++ lists
  | .emb _ bs bags =>
    let h := Handle.ofBytes bs
    let es := h.elem.bits / 8
    (bags.filter fun b => hasUnit c.todo b.lane).flatMap fun b =>
      (b.indices, 4 * b.count.toNat) :: (b.out, 4 * h.extent 0) ::
        b.idx.map fun i => (h.base + BitVec.ofNat 64 (es * h.index [0, embRow h i.2]), es * h.extent 0)
  | .upd _ _ w m v g _ _ => c.todo.flatMap fun t =>
      [w, m, v, g].map fun a => (a + BitVec.ofNat 64 (4 * t.1), 4 * (t.2 - t.1))

/-- The dies at whose slices some of n bytes at a virtual address lie, page by page. -/
def State.diesAt (s : State) (vf : Nat) (va : Word64) (n : Nat) : List Nat :=
  if n = 0 then [] else
  (List.range ((va.toNat + n + 65535) / 65536 - va.toNat / 65536)).filterMap fun i =>
    match s.translate vf (BitVec.ofNat 64 (Nat.max va.toNat (65536 * (va.toNat / 65536 + i)))) 1 .engine false with
    | .ok (.byte a) => if a < 2 ^ 40 then some (homeSlice a).1 else none
    | _ => none

/-- A command keeps the output of a die low: it counts for a core of the die, or its lines stand in queues of the die (R233, R364). -/
def State.commandOn (s : State) (k : Nat) (c : Command) (die : Nat) : Bool :=
  s.countsOn (.command k) die || (decide (c.cwAt < 2 ^ 40) && (homeSlice c.cwAt).1 == die) ||
    (c.entered && (c.holds.elim false (fun a => (homeSlice a).1 == die) ||
      (s.commandRanges c).any fun r => (s.diesAt c.vf r.1 r.2).contains die))

/-- The output of a die is high: its cores are idle, and nothing issued on it, or waiting at its slices, is still to perform. -/
def State.dieIdle (s : State) (die : Nat) : Bool :=
  ((List.range 256).all fun c => s.coreIdle (256 * die + c)) &&
    (s.pend.all fun a => (a.2.members.all fun m => !s.countsOn m.party die) &&
      !(a.2.loc % 3 == 0 && decide (a.2.addr < 2 ^ 40) && (homeSlice a.2.addr).1 == die)) &&
    (s.commands.all fun c => !s.commandOn c.1 c.2 die) && s.issues.all fun x => !s.countsOn (.team x.2.team) die

/-- The package output is high: the dies', the spawn queues empty, and nothing for the I/O die to do. -/
def State.packageIdle (s : State) : Bool :=
  ((List.range 4).all s.dieIdle) && s.nextQueue.isNone && s.puts == [] && s.inbound == [] &&
    s.launches.all fun l => l.2.life != .retired && l.2.waiting == [] && l.2.spawn.all fun q => q.2.items == [] && q.2.filling == []

/-- The latest write of each location that a counted party made, as a view (R367): those of bytes, and those of the words of images, with
the team's own where the team counts. -/
def State.countedWrites (s : State) (counted : WriteInfo → Bool) : View :=
  let bytes : View := s.hist.filterMap fun h =>
    let n := (h.2.takeWhile fun w => !(tabGet? s.writes w.id).elim false counted).length
    if n < h.2.length then some (h.1, h.2.length - n) else none
  s.teams.foldl (fun v (u : Nat × Team) =>
    if u.2.image = 0 then v
    else
      let refs := (u.2.past.map (·.ref)).eraseDups
      let v1 := refs.foldl (fun v q =>
        let ws := u.2.wordOrder q
        let n := (ws.takeWhile fun w => !(tabGet? s.writes w.id).elim false counted).length
        if n < ws.length then viewRaise v (u.2.wordLoc q) (ws.length - n) else v) v
      if counted { party := .team u.1, die := s.partyDie (.team u.1), msgs := [] } then viewRaise v1 u.2.clockLoc u.2.clock else v1) bytes

/-- A declaration reaches the teams that wait for it: the status word, and the writes that they now see (R366, R367). -/
def State.declare (s : State) (v : View) (mine : Team → Bool → Bool) : State :=
  { s with teams := s.teams.map fun (x : Nat × Team) => match x.2.stall with
      | .eclw pkg lim none =>
        if mine x.2 pkg then
          (x.1, { x.2 with
            stall := .eclw pkg lim (some (BitVec.ofNat 64 (2 ^ 63 + s.beacon.toNat % 2 ^ 32)))
            pv := x.2.pv.joinO v })
        else x
      | _ => x }

/-- The die of a bound team. -/
def State.boundDie (s : State) (tm : Team) : Option Nat := ((s.groupOfTeam tm).bind Group.core).map (· / 256)

/-- DIE PHASE END (R365): the die's output has stayed high; its ECLW.die waiters go on. -/
def execDiePhaseEnd (die : Nat) (s : State) : Host.Outcome State Fault Refusal :=
  if decide (die < 4) && s.dieIdle die then
    .next (s.declare (s.countedWrites fun w => w.die == some die || w.more.contains die) fun tm pkg => !pkg && s.boundDie tm == some die)
  else .next s

/-- PACKAGE PHASE END (R365): the package output has stayed high; the ECLW.pkg waiters go on. -/
def execPackagePhaseEnd (s : State) : Host.Outcome State Fault Refusal :=
  if s.packageIdle then
    .next (s.declare (s.countedWrites fun w => w.party != .host) fun tm pkg => pkg && (s.boundDie tm).isSome)
  else .next s

/-- ECLW LIMIT EXPIRY (R366): the limit has passed while the team was bound. -/
def execEclwLimitExpiry (t : Nat) (s : State) : Host.Outcome State Fault Refusal :=
  .next (s.onTeam t fun tm => match tm.stall with
    | .eclw pkg true none =>
      if (s.boundDie tm).isSome then
        { tm with stall := .eclw pkg true (some (BitVec.ofNat 64 (s.beacon.toNat % 2 ^ 32))) }
      else tm
    | _ => tm)

end Sys2Proof.Machine
end

