-- ==== Sys2Proof/Machine/Page.lean ====
section
/-! DEFINITION. The register pages of the host link: a virtual function's context and queue registers, the start of a mailbox command,
invalidations, and refusals of a reported translation (R206, R329, R355, R373, R374, R376). -/

namespace Sys2Proof.Machine

/-! ### Invalidation (R206, R329, R353) -/

/-- Log2 of the size that ISZ names; 64 stands for every translation of the context (R329). -/
def invalSize (isz : Nat) : Nat := match isz with | 0 => 16 | 1 => 21 | 2 => 30 | _ => 64

/-- The page that a value of IVA and ISZ names: base and log2 of the size. -/
def pageNamed (value : Word64) : Nat × Nat := (value.toNat / 2 ^ 16 % 2 ^ 40 * 2 ^ 16, invalSize (value.toNat % 4))

/-- An invalidation started (R329). -/
def State.invalidate (s : State) (vf : Nat) (value : Word64) : State :=
  if vf < 64 then s.onCtx vf fun c => { c with invPending := c.invPending ++ [value] } else s

/-- INVALIDATION (R329): a write to offset 0x010 starts it. -/
def execInvalidation (vf : Nat) (value : Word64) (s : State) : Host.Outcome State Fault Refusal := .next (s.invalidate vf value)

/-- A parked team's walk is made again; when it no longer meets V = 0 the instruction issues again (R353). -/
def State.walkAgain (s : State) (t : Nat) : State :=
  match execReplayWalk t s with
  | .next s1 => s1
  | _ => s

/-- INVALIDATION DONE (R329): INVDONE counts the oldest one, which has taken effect, and the replay buffers walk again (R353). -/
def execInvalidationDone (vf : Nat) (s : State) : Host.Outcome State Fault Refusal :=
  match (s.ctx vf).invPending with
  | [] => .next s
  | v :: rest =>
    let (base, size) := pageNamed v
    let s1 := s.onCtx vf fun c => { c with
      invPending := rest
      invDone := c.invDone + 1
      invals := c.invals ++ [⟨base, size, s.nextWrite⟩] }
    .next ((s1.teams.filter fun t => s1.vfOf t.2 == vf).foldl (fun s t => s.walkAgain t.1) s1)

/-! ### A refused translation (R355) -/

/-- A virtual address lies in the page that a write of FRREF names. -/
def inPage (value va : Word64) : Bool :=
  let (base, size) := pageNamed value
  decide (va.toNat % 2 ^ 56 / 2 ^ size = base / 2 ^ size)

/-- A team's parked access is refused: its Access is raised when it next runs. -/
def Team.refuse (tm : Team) (value : Word64) : Team :=
  match tm.phase with
  | .parked va _ ls => if inPage value va then { tm with phase := .refused va ls, parkedOut := false } else tm
  | _ => tm

/-- What waits for a translation in the page gives up: teams, copies, commands, entries of queues. -/
def State.refusePage (s : State) (vf : Nat) (value : Word64) : State :=
  let hit (b : Option Word64) : Bool := b.elim false (inPage value)
  let s1 := (s.teams.filter fun t => s.vfOf t.2 == vf).foldl (fun s t => s.onTeam t.1 (Team.refuse · value)) s
  let s2 := (s1.copies.filter fun c => c.2.vf == vf && hit c.2.blocked && c.2.phase != .complete).foldl
    (fun s c => s.faultCopy c.1 Cause.access.code 0) s1
  let s3 := (s2.commands.filter fun c => c.2.vf == vf && hit c.2.blocked).foldl (fun s c => s.faultCommand c.1 .access) s2
  (s3.ctx vf).queues.foldl (fun s q => if hit q.2.blocked then s.takeEntry vf q.1 q.2.blocked else s) s3

/-- FRREF WRITE (R355, R374). -/
def execFrrefWrite (vf : Nat) (value : Word64) (s : State) : Host.Outcome State Fault Refusal :=
  .next (if vf < 64 then s.refusePage vf value else s)

/-- FRHEAD written: reports that waited for room go into the ring (R374). -/
def State.headWrite (s : State) (vf : Nat) (value : Word32) : State :=
  if vf < 64 then
    let s1 := s.onCtx vf fun c => { c with frhead := value }
    s1.writeReports vf (s1.ctx vf).reports
  else s

/-- FRHEAD WRITE (R374). -/
def execFrheadWrite (vf : Nat) (value : BitVec 32) (s : State) : Host.Outcome State Fault Refusal := .next (s.headWrite vf value)

/-! ### Writes to a register page (R329, R373, R374, R376) -/

/-- The value of a register after a write of 4 or 8 bytes at its offset: 4 bytes replace its low half. -/
def mergeWrite (old : Word64) (size : Nat) (value : Word64) : Word64 :=
  if size = 8 then value else (old &&& ~~~ 0xFFFFFFFF#64) ||| (value &&& 0xFFFFFFFF#64)

/-- The control word of a queue as the page shows it (R329). -/
def LaunchQueue.control (q : LaunchQueue) : Word64 :=
  BitVec.ofNat 64 (q.qlog.toNat + q.qprio.toNat * 2 ^ 8 + (if q.qen then 2 ^ 16 else 0) + q.qerr.toNat * 2 ^ 24)

/-- A write to the registers of queue q: QBASE and QLOG stay while QEN is 1, and QLOG outside 4 to 16 (R329). -/
def State.writeQueuePage (s : State) (vf q off size : Nat) (value : Word64) : State :=
  let x := s.queue vf q
  match off with
  | 0x00 =>
    if x.qen then s
    else s.setQueue vf q { x with qbase := (mergeWrite (x.qbase.setWidth 64) size value &&& ~~~ 63#64).setWidth 56 }
  | 0x08 =>
    let n := (mergeWrite x.control size value).toNat
    let log := n % 32
    let s1 := s.setQueue vf q { x with
      qen := n.testBit 16
      qlog := if !x.qen && decide (4 ≤ log) && decide (log ≤ 16) then BitVec.ofNat 5 log else x.qlog }
    s1.prioWrite vf q (BitVec.ofNat 3 (n / 2 ^ 8))
  | 0x10 => s.tailWrite vf q (value.setWidth 32)
  | _ => s

/-- A write to the register page of a virtual function (R329, R374). -/
def State.writeVfPage (s : State) (vf off size : Nat) (value : Word64) : State :=
  let c := s.ctx vf
  let w (old : Word64) : Word64 := mergeWrite old size value
  let put (f : Context → Context) : State := s.onCtx vf f
  match off with
  | 0x000 => put fun c => { c with pgroot := (w (c.pgroot.setWidth 64)).setWidth 56 }
  | 0x008 => put fun c => { c with trapvec := w c.trapvec }
  | 0x010 => s.invalidate vf (w 0)
  | 0x020 => put fun c => { c with frbase := w c.frbase &&& ~~~ 63#64 }
  | 0x030 => s.headWrite vf (value.setWidth 32)
  | 0x038 => s.refusePage vf (w 0)
  | 0x040 =>
    let n := (w (c.rthresh.setWidth 64)).toNat % 2 ^ 23
    if 700 ≤ n ∧ n ≤ 7000000 then put fun c => { c with rthresh := BitVec.ofNat 23 n } else s
  | 0x048 => put fun c => { c with fxbase := (w (c.fxbase.setWidth 64) &&& ~~~ 63#64).setWidth 56 }
  | 0x050 =>
    let n := value.toNat % 16
    if 4 ≤ n ∧ n ≤ 12 then put fun c => { c with fxlog := BitVec.ofNat 4 n } else s
  | 0x058 => put fun c => { c with fxdoor := (w (c.fxdoor.setWidth 64) &&& ~~~ 7#64).setWidth 56 }
  | 0x068 => put fun c => { c with consent := value.getLsbD 0 }
  | _ => if 0x1000 ≤ off ∧ off < 0x1800 then s.writeQueuePage vf ((off - 0x1000) / 0x20) ((off - 0x1000) % 0x20) size value else s

/-- A write to the page of the physical function (R376): a command starts, unless one runs, and reads its arguments; or an argument. -/
def State.writePfPage (s : State) (off size : Nat) (value : Word64) : State :=
  let m := s.mailbox
  let v := mergeWrite 0 size value
  if off = 0 then
    if m.busy then s
    else { s with mailbox := { m with
      busy := true
      seq := v.extractLsb' 32 32
      opc := v.setWidth 16
      taken := m.args
      result := none } }
  else if 0x100 ≤ off ∧ off < 0x180 then
    let k := (off - 0x100) / 8
    { s with mailbox := { m with args := putAt 0 m.args k (mergeWrite (nth 0 m.args k) size value) } }
  else s

/-- REGISTER PAGE WRITE (R373, R376): 8-byte-aligned writes of 4 or 8 bytes are accepted, every other one is dropped. The pages of
the virtual functions are there once bring-up is done; in recovery the physical function's mailbox is all that is left (R391). -/
def execRegisterPageWrite (page : Page) (off size : Nat) (value : Word64) (s : State) : Host.Outcome State Fault Refusal :=
  if off % 8 ≠ 0 ∨ (size ≠ 4 ∧ size ≠ 8) then .next s
  else match page with
    | .pf => .next (if s.boot ≠ .reset then s.writePfPage off size value else s)
    | .vf n => .next (if n < 64 ∧ s.boot = .up then s.writeVfPage n off size value else s)

/-! ### Reads of a register page (R329, R373, R374, R376) -/

/-- A virtual function's page as the host reads it, 8 bytes at an offset; undefined offsets and write-only registers read zero. -/
def State.readVfPage (s : State) (vf off : Nat) : Word64 :=
  let c := s.ctx vf
  match off with
  | 0x000 => c.pgroot.setWidth 64
  | 0x008 => c.trapvec
  | 0x018 => c.invDone.setWidth 64
  | 0x020 => c.frbase
  | 0x028 => c.frtail.setWidth 64
  | 0x030 => c.frhead.setWidth 64
  | 0x040 => c.rthresh.setWidth 64
  | 0x048 => c.fxbase.setWidth 64
  | 0x050 => c.fxlog.setWidth 64
  | 0x058 => c.fxdoor.setWidth 64
  | 0x060 => c.fxhead.setWidth 64
  | 0x068 => if c.consent then 1 else 0
  | _ =>
    if 0x1000 ≤ off ∧ off < 0x1800 then
      let x := s.queue vf ((off - 0x1000) / 0x20)
      match (off - 0x1000) % 0x20 with
      | 0x00 => x.qbase.setWidth 64
      | 0x08 => x.control
      | 0x10 => x.qtail.setWidth 64
      | 0x18 => x.qhead.setWidth 64
      | _ => 0
    else 0

/-- The physical function's page as the host reads it (R376). -/
def State.readPfPage (s : State) (off : Nat) : Word64 :=
  let m := s.mailbox
  match off with
  | 0x008 => BitVec.ofNat 64 (m.dseq.toNat * 2 ^ 32 + m.mres.toNat * 2 ^ 8 + if m.busy then 1 else 0)
  | 0x010 => m.mout
  | _ => if 0x100 ≤ off ∧ off < 0x180 ∧ off % 8 = 0 then nth 0 m.args ((off - 0x100) / 8) else 0

end Sys2Proof.Machine
end

