-- ==== Sys2Proof/Machine/Packed.lean ====
section
/-! DEFINITION. Packed subwords (R156 to R161). -/

namespace Sys2Proof.Machine

/-- The views that a source of packed elements admits (R156). -/
def packedViews (t : Ty) : List (BitVec 2) := if t.bits == 16 then [0, 1] else [0, 2]

/-- A v destination. -/
def dvUse (t : Ty) (d : Opd) : Use := { letter := .d, opd := d, want := wantV, write := true, pair := t.is64 }

/-- A 32-bit v or s source with the views given. -/
def packUse (l : Letter) (views : List (BitVec 2)) (o : Opd) (md : Modifier) (fe : Bool) : Use :=
  { letter := l, opd := o, want := wantVS, read := true, md := md, views := views, fe := fe }

/-- Element i of n bits of a word, read at the signedness of a type. -/
def element (t : Ty) (n : Nat) (w : Word32) (i : Nat) : Int := intOf t.isSigned n (w.toNat / 2 ^ (n * i))

/-- The elements of n bits of a result, the first lowest, with the flags of all. -/
def packElems (n : Nat) : List (Nat × Flags) → Nat × Flags
  | [] => (0, 0)
  | (x, f) :: rest =>
    let (y, g) := packElems n rest
    (x % 2 ^ n + 2 ^ n * y, f ||| g)

/-- The uses of the mould of R157. -/
def usesPacked (t : Ty) (w : RWord) : List Use :=
  [packUse .a (packedViews t) w.a w.ma w.fea, packUse .b (packedViews t) w.b w.mb w.feb, unused .c w.mc w.fec,
    dvUse .n32 w.d]

/-- The element-by-element mould of R157. -/
def State.packed (s : State) (p : Pred) (t : Ty) (w : RWord) (f : Int → Int → Nat × Flags) :
    Host.Outcome State Fault Refusal :=
  s.lanewise p .n32 w.d (usesPacked t w) fun tm l =>
      let a := tm.word w.a w.ma l
      let b := tm.word w.b w.mb l
      packElems t.bits ((List.range (32 / t.bits)).map fun i => f (element t t.bits a i) (element t t.bits b i))

/-- PADD (R157). -/
def execPadd (p : Pred) (t : Ty) (w : RWord) (s : State) : Host.Outcome State Fault Refusal :=
  s.packed p t w fun a b => fit t w.sat (a + b)

/-- PSUB (R157). -/
def execPsub (p : Pred) (t : Ty) (w : RWord) (s : State) : Host.Outcome State Fault Refusal :=
  s.packed p t w fun a b => fit t w.sat (a - b)

/-- PMUL (R157). -/
def execPmul (p : Pred) (t : Ty) (w : RWord) (s : State) : Host.Outcome State Fault Refusal :=
  s.packed p t w fun a b => fit t w.sat (a * b)

/-- PMIN (R157). -/
def execPmin (p : Pred) (t : Ty) (w : RWord) (s : State) : Host.Outcome State Fault Refusal :=
  s.packed p t w fun a b => fit t false (Min.min a b)

/-- PMAX (R157). -/
def execPmax (p : Pred) (t : Ty) (w : RWord) (s : State) : Host.Outcome State Fault Refusal :=
  s.packed p t w fun a b => fit t false (Max.max a b)

/-- PCMP (R157): all ones in each element for which the condition holds. -/
def execPcmp (p : Pred) (t : Ty) (cc : Cond) (w : RWord) (s : State) : Host.Outcome State Fault Refusal :=
  s.packed p t w fun a b => (if intCompare cc a b then 2 ^ t.bits - 1 else 0, 0)

/-- The uses of PMAC: C is read whole. -/
def usesPmac (t : Ty) (w : RWord) : List Use :=
  [packUse .a (packedViews t) w.a w.ma w.fea, packUse .b (packedViews t) w.b w.mb w.feb, packUse .c [] w.c w.mc w.fec,
    dvUse .n32 w.d]

/-- PMAC (R158): C and the two products, one clamp to 32 bits. -/
def execPmac (p : Pred) (t : Ty) (w : RWord) (s : State) : Host.Outcome State Fault Refusal :=
  s.lanewise p .n32 w.d (usesPmac t w) fun tm l =>
      let a := tm.word w.a w.ma l
      let b := tm.word w.b w.mb l
      fitInt t.isSigned 32 true (element t 32 (tm.word w.c w.mc l) 0 + element t 16 a 0 * element t 16 b 0 +
        element t 16 a 1 * element t 16 b 1)

/-- A / 2^k rounded to an integer; a count of 32 or more gives 0, or −1 for RD of a negative A and 1 for RU of a positive
one (R159; DEDUCED for RN and RNA, log 22). -/
def shiftRounded (rm : Rm) (a : Int) (k : Nat) : Int :=
  if 32 ≤ k then
    if rm = .rd ∧ a < 0 then -1 else if rm = .ru ∧ 0 < a then 1 else 0
  else
    let n : Int := roundInt rm (decide (a < 0)) a.natAbs (2 ^ k)
    if a < 0 then -n else n

/-- The uses of PSHR: A and B are read whole. -/
def usesPshr : RI → List Use
  | .r w => [packUse .a [0] w.a w.ma w.fea, packUse .b [0] w.b w.mb w.feb, unused .c w.mc w.fec, dvUse .n32 w.d]
  | .i w => [packUse .a [0] w.a w.ma w.fea, dvUse .n32 w.d]

/-- PSHR (R159). -/
def execPshr (p : Pred) (t : Ty) (w : RI) (s : State) : Host.Outcome State Fault Refusal :=
  s.lanewise p t (riD w) (usesPshr w) fun tm l =>
    let (a, k) := match w with
      | .r w => (tm.word w.a w.ma l, (tm.word w.b w.mb l).toNat)
      | .i w => (tm.word w.a w.ma l, w.imm.toNat)
    fit t true (shiftRounded (tm.mode (riRm w)) (element t 32 a 0) k)

/-- The uses of PNAR: words, or pairs of 16-bit elements. -/
def usesPnar (t : Ty) (w : RWord) : List Use :=
  let views : List (BitVec 2) := if t.bits == 16 then [0] else [0, 1]
  [packUse .a views w.a w.ma w.fea, packUse .b views w.b w.mb w.feb, unused .c w.mc w.fec, dvUse .n32 w.d]

/-- PNAR (R160). -/
def execPnar (p : Pred) (t : Ty) (w : RWord) (s : State) : Host.Outcome State Fault Refusal :=
  s.lanewise p .n32 w.d (usesPnar t w) fun tm l =>
      let a := tm.word w.a w.ma l
      let b := tm.word w.b w.mb l
      let n := 2 * t.bits
      let xs := (List.range (32 / n)).map (element t n a) ++ (List.range (32 / n)).map (element t n b)
      packElems t.bits (xs.map (fit t true))

/-- The uses of PWID. -/
def usesPwid (t : Ty) (w : RWord) : List Use :=
  [packUse .a (packedViews t) w.a w.ma w.fea, unused .b w.mb w.feb, unused .c w.mc w.fec, dvUse .n32 w.d]

/-- PWID (R161). -/
def execPwid (p : Pred) (t : Ty) (w : RWord) (s : State) : Host.Outcome State Fault Refusal :=
  s.lanewise p .n32 w.d (usesPwid t w) fun tm l =>
      let a := tm.word w.a w.ma l
      let k := 16 / t.bits        -- elements of the chosen half
      packElems (2 * t.bits) ((List.range k).map fun i =>
        (wrapBits (2 * t.bits) (element t t.bits a (k * w.simm.toNat + i)), 0))

end Sys2Proof.Machine
end

