-- ==== Sys2Proof/Machine/Rep.lean ====
section
/-! DEFINITION. Fetching a slot (R14 to R17, R88) and the repeat prefix REP (R89 to R95). -/

namespace Sys2Proof.Machine

/-! ### Fetching (R14 to R17, R88, R361) -/

/-- The line word is one that R17 accepts: version 1, bits [23:21] and PAIR bit 9 zero. -/
def lineWordOk (lw : Nat) : Bool := lw / 2 ^ 24 == 1 && lw / 2 ^ 21 % 8 == 0 && !lw.testBit 9

/-- The parity of slot k with its PAR bit is even. -/
def slotParityOk (lw : Nat) (slot : Slot) (k : Nat) : Bool := !(oddOnes slot.toNat 96 ^^ lw.testBit (15 + k))

/-- Step 1 of R20: the line word and the slot at a PC; first says that the PC has entered the line (R17). A line word that
breaks several of R17's conditions raises Illegal-Instruction for its form before Soft-Error for its parity (DESIGN CHOICE,
log 92: R17 does not order them). -/
def State.fetchSlot (s : State) (vf : Nat) (pc : Word64) (first : Bool) : Except Stop (Nat × Slot) :=
  match s.fetchLine vf pc with
  | .error e => .error e
  | .ok (a, line) =>
    let lw := lineWord line
    let k := pc.toNat % 8
    let slot := lineSlot line k
    let soft : Stop := .trap .softError (1 + s.physOf a % 2 ^ 48 * 2 ^ 8) (BitVec.ofNat 64 (s.physOf a))
    if first && s.lineMarked a then .error soft
    else if first && !lineWordOk lw then .error (.trap .illegalInstruction 0 0)
    else if first && oddOnes lw 32 then .error soft
    else if !slotParityOk lw slot k then .error soft
    else .ok (lw, slot)

/-! ### Followers (R90 to R92) -/

/-- What REP needs of its follower: predicate, uses, and the check of step 4 that is not one of registers. -/
structure Follower where
  p : Pred
  us : List Use
  more : Team → Bool := fun _ => true

/-- The follower that an instruction makes, or none where R90 refuses it: format R, I or M, and not one of the excluded. -/
def follower : Instr → Option Follower
  | .add p t w | .sub p t w | .mul p t w | .mulh p t w | .div p t w | .rem p t w | .min p t w | .max p t w
  | .and p t w | .or p t w | .xor p t w | .andn p t w | .shl p t w | .shr p t w | .sra p t w | .rot p t w
  | .bfx p t w | .lea p t w | .fadd p t w | .fsub p t w | .fmul p t w | .fdiv p t w | .fmin p t w | .fmax p t w =>
    some { p := p, us := usesRI t w }
  | .mad p t w | .bfi p t w | .fma p t w => some { p := p, us := usesDABC t w }
  | .neg p t w | .abs p t w | .clz p t w | .popc p t w | .brev p t w | .fsqrt p t w | .frsq p t w | .frnd p t w
  | .fexp2 p t w | .flog2 p t w => some { p := p, us := usesDA t w }
  | .addc p t w | .subb p t w => some { p := p, us := usesCarry t w }
  | .ffcs p t w => some { p := p, us := usesFfcs t w, more := fun _ => w.d != w.a }
  | .plset p t w => some { p := p, us := usesPlset t w, more := fun _ => w.d != w.a }
  | .sel p t w => some { p := p, us := usesSel t w }
  | .cmp p t _ w => some { p := p, us := usesCmp t w }
  | .mov p t w => some { p := p, us := usesMov t w }
  | .movmTor p w => some { p := p, us := usesMovmTor w, more := fun tm => wordIndexOk tm w.d w.simm }
  | .movmTom p w => some { p := p, us := usesMovmTom w, more := fun tm => wordIndexOk tm w.a w.simm }
  | .padd p t w | .psub p t w | .pmul p t w | .pmin p t w | .pmax p t w | .pcmp p t _ w =>
    some { p := p, us := usesPacked t w }
  | .pmac p t w => some { p := p, us := usesPmac t w }
  | .pshr p _ w => some { p := p, us := usesPshr w }
  | .pnar p t w => some { p := p, us := usesPnar t w }
  | .pwid p t w => some { p := p, us := usesPwid t w }
  | .fcmp p t _ _ w => some { p := p, us := usesCmp t w }
  | .fclass p t w => some { p := p, us := usesFclass t w }
  | .fscale p t w => some { p := p, us := usesFscale t w }
  | .fupd p _ w => some { p := p, us := usesFupd w, more := fun _ => distinct [w.d, w.a, w.b, w.c] }
  | .cvt p t src w => some { p := p, us := usesCvt t src w }
  | .cvts p t src w => some { p := p, us := usesCvts t src w }
  | .cvtb p _ src w => some { p := p, us := usesCvtb src w }
  | .slide p _ t w => some { p := p, us := usesSlide t w }
  | .shfl p _ t w => some { p := p, us := usesShfl t w }
  | .bcast p t w => some { p := p, us := usesBcast t w, more := bcastOk w }
  | .redl p _ t w => some { p := p, us := usesRedl t w (dUse t w.d) }
  | .scanl p _ _ t w => some { p := p, us := usesRedl t w (scanDest t w) }
  | .vote p op w => some { p := p, us := usesVote op w, more := fun tm => w.d.cls != .s || decide (w.simm.toNat < tm.words) }
  | .elect p w => some { p := p, us := usesElect w }
  | .widf p t w => some { p := p, us := usesWidf t w }
  | .msk p op w => some { p := p, us := usesMsk op w }
  | .ld p t w => some { p := p, us := usesAB w wantIndex .active ++ [{ dUse t w.d with fe := w.fed }] }
  | .ldg p t w => some { p := p, us := usesAB w wantV .eachActive ++ [{ dUse t w.d with fe := w.fed }] }
  | .st p t w => some { p := p, us := usesAB w wantIndex .active ++ [dSrc t w.d w.fed] }
  | .stg p t w => some { p := p, us := usesAB w wantV .eachActive ++ [dSrc t w.d w.fed] }
  | .pref p _ w => some { p := p, us := usesPref w }
  | _ => none

/-- An operand with its number moved. -/
def moveOpd (o : Opd) (k : Int) : Opd := ⟨o.cls, BitVec.ofInt 8 ((o.num.toNat : Int) + k)⟩

/-- How far the numbers of D, A, B and C move. -/
structure Moves where
  d : Int
  a : Int
  b : Int
  c : Int

/-- The moves of iteration i (R91). -/
def movesAt (w : RepWord) (i : Nat) : Moves :=
  ⟨(i : Int) * w.sd.toInt, (i : Int) * w.sa.toInt, (i : Int) * w.sb.toInt, (i : Int) * w.sc.toInt⟩

/-- A word with its register numbers moved. -/
def moveR (k : Moves) (w : RWord) : RWord :=
  { w with d := moveOpd w.d k.d, a := moveOpd w.a k.a, b := moveOpd w.b k.b, c := moveOpd w.c k.c }

def moveRI (k : Moves) : RI → RI
  | .r w => .r (moveR k w)
  | .i w => .i { w with d := moveOpd w.d k.d, a := moveOpd w.a k.a }

def moveM (k : Moves) (w : MWord) : MWord := { w with d := moveOpd w.d k.d, a := moveOpd w.a k.a, b := moveOpd w.b k.b }

/-- The follower of one iteration (R91). -/
def stepped (k : Moves) : Instr → Instr
  | .add p t w => .add p t (moveRI k w) | .sub p t w => .sub p t (moveRI k w) | .mul p t w => .mul p t (moveRI k w)
  | .mulh p t w => .mulh p t (moveRI k w) | .div p t w => .div p t (moveRI k w) | .rem p t w => .rem p t (moveRI k w)
  | .min p t w => .min p t (moveRI k w) | .max p t w => .max p t (moveRI k w) | .and p t w => .and p t (moveRI k w)
  | .or p t w => .or p t (moveRI k w) | .xor p t w => .xor p t (moveRI k w) | .andn p t w => .andn p t (moveRI k w)
  | .shl p t w => .shl p t (moveRI k w) | .shr p t w => .shr p t (moveRI k w) | .sra p t w => .sra p t (moveRI k w)
  | .rot p t w => .rot p t (moveRI k w) | .bfx p t w => .bfx p t (moveRI k w) | .lea p t w => .lea p t (moveRI k w)
  | .fadd p t w => .fadd p t (moveRI k w) | .fsub p t w => .fsub p t (moveRI k w) | .fmul p t w => .fmul p t (moveRI k w)
  | .fdiv p t w => .fdiv p t (moveRI k w) | .fmin p t w => .fmin p t (moveRI k w) | .fmax p t w => .fmax p t (moveRI k w)
  | .mad p t w => .mad p t (moveR k w) | .bfi p t w => .bfi p t (moveR k w) | .fma p t w => .fma p t (moveR k w)
  | .neg p t w => .neg p t (moveR k w) | .abs p t w => .abs p t (moveR k w) | .clz p t w => .clz p t (moveR k w)
  | .popc p t w => .popc p t (moveR k w) | .brev p t w => .brev p t (moveR k w) | .fsqrt p t w => .fsqrt p t (moveR k w)
  | .frsq p t w => .frsq p t (moveR k w) | .frnd p t w => .frnd p t (moveR k w) | .fexp2 p t w => .fexp2 p t (moveR k w)
  | .flog2 p t w => .flog2 p t (moveR k w) | .addc p t w => .addc p t (moveR k w) | .subb p t w => .subb p t (moveR k w)
  | .ffcs p t w => .ffcs p t (moveR k w) | .plset p t w => .plset p t (moveR k w) | .sel p t w => .sel p t (moveR k w)
  | .cmp p t c w => .cmp p t c (moveRI k w) | .mov p t w => .mov p t (moveRI k w) | .movmTor p w => .movmTor p (moveR k w)
  | .movmTom p w => .movmTom p (moveR k w) | .padd p t w => .padd p t (moveR k w) | .psub p t w => .psub p t (moveR k w)
  | .pmul p t w => .pmul p t (moveR k w) | .pmac p t w => .pmac p t (moveR k w) | .pmin p t w => .pmin p t (moveR k w)
  | .pmax p t w => .pmax p t (moveR k w) | .pcmp p t c w => .pcmp p t c (moveR k w) | .pshr p t w => .pshr p t (moveRI k w)
  | .pnar p t w => .pnar p t (moveR k w) | .pwid p t w => .pwid p t (moveR k w)
  | .fcmp p t c g w => .fcmp p t c g (moveRI k w) | .fclass p t w => .fclass p t (moveR k w)
  | .fscale p t w => .fscale p t (moveRI k w) | .fupd p a w => .fupd p a (moveR k w)
  | .cvt p t u w => .cvt p t u (moveR k w) | .cvts p t u w => .cvts p t u (moveR k w) | .cvtb p t u w => .cvtb p t u (moveR k w)
  | .slide p d t w => .slide p d t (moveR k w) | .shfl p x t w => .shfl p x t (moveR k w) | .bcast p t w => .bcast p t (moveR k w)
  | .redl p o t w => .redl p o t (moveR k w) | .scanl p o e t w => .scanl p o e t (moveR k w)
  | .vote p o w => .vote p o (moveR k w) | .elect p w => .elect p (moveR k w) | .widf p t w => .widf p t (moveR k w)
  | .msk p o w => .msk p o (moveR k w) | .ld p t w => .ld p t (moveM k w) | .ldg p t w => .ldg p t (moveM k w)
  | .st p t w => .st p t (moveM k w) | .stg p t w => .stg p t (moveM k w) | .pref p t w => .pref p t (moveM k w)
  | i => i

/-- A field of the follower is used and names a v or s register, so that it may be stepped (R92). -/
def Follower.steppable (f : Follower) (l : Letter) : Bool :=
  f.us.any fun u => u.letter == l && u.field && (u.read || u.write) && (u.opd.cls == .v || u.opd.cls == .s)

/-- The step of each letter is zero or that of a register field (R92). -/
def stepsOk (f : Follower) (w : RepWord) : Bool :=
  (w.sd == 0 || f.steppable .d) && (w.sa == 0 || f.steppable .a) && (w.sb == 0 || f.steppable .b) &&
    (w.sc == 0 || f.steppable .c)

/-- The number of each stepped register stays in its eight bits in every iteration (R92). -/
def numbersOk (f : Follower) (w : RepWord) : Bool :=
  (List.range (w.cnt.toNat + 1)).all fun i => f.us.all fun u =>
    let k : Int := (i : Int) * (match u.letter with
      | .a => w.sa.toInt
      | .b => w.sb.toInt
      | .c => w.sc.toInt
      | .d => if u.field then w.sd.toInt else 0)
    decide (0 ≤ (u.opd.num.toNat : Int) + k) && decide ((u.opd.num.toNat : Int) + k < 256)

/-- The registers that a use names, with their class: the mask register of a class-10 field too. -/
def Use.names (u : Use) : List (Cls × Nat) :=
  match u.opd.cls with
  | .m => [(.m, u.opd.num.toNat)]
  | c => u.nums.map fun n => (c, n)

/-- No register that an iteration writes is read by any iteration, the predicate's register included (R92). -/
def noOverlap (fs : List Follower) : Bool :=
  let reads := fs.flatMap fun f =>
    (if f.p.pm = 0 then [] else [(Cls.m, f.p.pm.toNat)]) ++ (f.us.filter (·.read)).flatMap Use.names
  let writes := fs.flatMap fun f => (f.us.filter (·.write)).flatMap Use.names
  writes.all fun x => !reads.contains x

/-- The followers of every iteration. -/
def iterations (i : Instr) (w : RepWord) : List Follower :=
  (List.range (w.cnt.toNat + 1)).filterMap fun k => follower (stepped (movesAt w k) i)

/-- The fetch of the follower's slot, a part of step 1 of the REP at a PC (R90). -/
def State.fetchFollower (s : State) (vf : Nat) (pc : Word64) : Except Stop (Nat × Slot) :=
  s.fetchSlot vf (nextPc pc) ((nextPc pc).toNat / 64 != pc.toNat / 64)

/-- REP (R89 to R92): it checks the follower's slot, itself and its follower for every iteration; the iterations follow as
instructions of their own, at the PC of the REP. -/
def execRep (w : RepWord) (s : State) : Host.Outcome State Fault Refusal :=
  s.run fun t tm => do
    let pc := nextPc tm.pc
    let (lw, slot) ← match s.fetchFollower (s.vfOf tm) tm.pc with
      | .ok x => .ok x
      | .error e => stop e
    match decode slot with
    | .error _ => trapPlain .illegalInstruction
    | .ok i =>
      match follower i with
      | none => trapPlain .illegalInstruction
      | some f => do
        ensure (!lw.testBit (10 + pc.toNat % 8) && stepsOk f w) .illegalInstruction
        let fs := iterations i w
        ensure (numbersOk f w && fs.all (fun f => f.us.all (Use.ok (s.counts tm)) && f.more tm) && noOverlap fs)
          .illegalOperand
        .ok (s.setTeam t { tm with rep := some (0, w, i), stall := .none })

end Sys2Proof.Machine
end

