-- ==== Sys2Proof/Machine/Mailbox.lean ====
section
/-! DEFINITION. The commands of the system-software mailbox, checkpoints and containers, security and power states, bring-up (R376 to
R383, R388 to R391). -/

namespace Sys2Proof.Machine

/-! ### Results and arguments (R376) -/

/-- The result codes of R376. -/
inductive MailError where
  | unknown | badArgument | refused | guardRows | signature | hostAccess | storage | tag
deriving DecidableEq, Repr

def MailError.code : MailError → BitVec 8
  | .unknown => 0x01 | .badArgument => 0x02 | .refused => 0x03 | .guardRows => 0x04 | .signature => 0x05
  | .hostAccess => 0x06 | .storage => 0x07 | .tag => 0x08

/-- The mailbox runs this command, and its result is not yet known. -/
def State.runs (s : State) (opc : Nat) : Bool := s.mailbox.busy && s.mailbox.result.isNone && s.mailbox.opc.toNat == opc

/-- Argument k as the running command read it. -/
def State.arg (s : State) (k : Nat) : Nat := (nth 0 s.mailbox.taken k).toNat

/-- The result of the running command. -/
def State.answer (s : State) (res : BitVec 8) (out : Nat) : State :=
  { s with mailbox := { s.mailbox with result := some (res, BitVec.ofNat 64 out) } }

def mailNeed (b : Bool) (e : MailError) : Except MailError Unit := if b then .ok () else .error e

/-- The arguments hold nothing outside the masks of the fields that the command names: mask k for argument k. -/
def State.argsClean (s : State) (masks : List Nat) : Bool :=
  (List.range 16).all fun k => s.arg k == s.arg k &&& nth 0 masks k

/-- A command that ends at once: what it makes of the state, with MOUT, or its result code; one that fails changes nothing. -/
def State.mailCommand (s : State) (opc : Nat) (masks : List Nat) (f : Except MailError (Nat × State)) :
    Host.Outcome State Fault Refusal :=
  if !s.runs opc then .next s
  else match mailNeed (s.argsClean masks) .badArgument >>= fun _ => f with
    | .ok (out, s1) => .next (s1.answer 0 out)
    | .error e => .next (s.answer e.code 0)

/-- All 64 bits of an argument. -/
def allBits : Nat := 2 ^ 64 - 1

/-- A buffer of n bytes lies within the 44 bits of the host bus (R375, R376). -/
def hostBuffer (a n : Nat) : Except MailError Unit := mailNeed (decide (a + n ≤ 2 ^ 44)) .badArgument

/-- The requester that the mailbox's accesses have: the physical function (R376). -/
def physicalFunction : Nat := 64

/-- n bytes of host memory as a command reads them. -/
def State.hostRead (s : State) (a n : Nat) : Except MailError (List Byte × State) := do
  hostBuffer a n
  mailNeed (s.hostAnswers physicalFunction a n && (s.markAt (hostByte a) n).isNone) .hostAccess
  .ok (s.peek (s.hostView.released .system) (hostByte a) n)

/-- Bytes that a command writes to host memory. -/
def State.hostPut (s : State) (a : Nat) (data : List Byte) : Except MailError State := do
  hostBuffer a data.length
  mailNeed (s.hostAnswers physicalFunction a data.length) .hostAccess
  .ok ((s.writeMem .watch none [] (hostByte a) data).unmark (hostByte a) data.length)

/-- The context has a launch that has not completed. -/
def State.contextLive (s : State) (vf : Nat) : Bool := s.launches.any fun l => l.2.vf == vf && l.2.life != .completed

/-! ### Domains, masks, rows, pins, patterns, grants (R196 to R201, R377, R378, R380) -/

/-- SETDOM. -/
def execSetdom (s : State) : Host.Outcome State Fault Refusal :=
  let vf := s.arg 0 % 64
  let d := s.arg 0 / 2 ^ 8 % 256
  s.mailCommand 0x0001 [0xFF3F] do
    mailNeed (d != 0 && d != 255) .badArgument
    mailNeed (!s.contextLive vf) .refused
    .ok (0, s.onCtx vf fun c => { c with domain := BitVec.ofNat 8 d })

/-- SETMASK. -/
def execSetmask (s : State) : Host.Outcome State Fault Refusal :=
  let vf := s.arg 0
  s.mailCommand 0x0002 [0x3F, allBits] do
    let (bs, s1) ← s.hostRead (s.arg 1) 64
    let r : BitVec 256 := BitVec.ofNat 256 (ofBytesLE (bs.take 32))
    let w : BitVec 256 := BitVec.ofNat 256 (ofBytesLE (bs.drop 32))
    mailNeed (!r.getLsbD 0 && !r.getLsbD 255 && !w.getLsbD 0 && !w.getLsbD 255) .badArgument
    .ok (0, s1.onCtx vf fun c => { c with readMask := r, writeMask := w })

/-- n pages from a page on are main memory that exists. -/
def State.pagesExist (s : State) (page n : Nat) : Bool :=
  (List.range n).all fun i => s.stackHas ((page + i) * 65536) && s.stackHas ((page + i) * 65536 + 65535)

/-- n pages from a page on may all receive a domain: no row next to them has another one (R198). -/
def State.rangeGuardOk (s : State) (page n domain : Nat) : Bool :=
  domain == 0 || (List.range n).all fun i => (s.rowNeighbours (page + i)).all fun p =>
    (decide (page ≤ p) && decide (p < page + n)) || (let d := (tabGet s.alloc p 0).toNat % 256; d == 0 || d == domain)

/-- ROWSET. -/
def execRowset (s : State) : Host.Outcome State Fault Refusal :=
  let a := s.arg 0
  let n := s.arg 1
  s.mailCommand 0x0003 [allBits, allBits, 0x1FF] do
    mailNeed (decide (a < 2 ^ 40) && a % 65536 == 0 && n % 65536 == 0 && s.pagesExist (a / 65536) (n / 65536)) .badArgument
    mailNeed (s.rangeGuardOk (a / 65536) (n / 65536) (s.arg 2 % 256)) .guardRows
    .ok (n / 8192, s.setRows a n (BitVec.ofNat 16 (s.arg 2)))

/-- PIN: a region in a swap is pinned when the swap ends. -/
def execPin (s : State) : Host.Outcome State Fault Refusal :=
  let region := s.arg 0 / 2 ^ 21
  if s.runs 0x0004 && s.argsClean [allBits, 1] && s.arg 0 % 2 ^ 21 == 0 && s.stackHas (s.arg 0) &&
      s.held.any (fun h => h.2.1 == region || h.2.2 == region) then .next s
  else s.mailCommand 0x0004 [allBits, 1] do
    mailNeed (s.arg 0 % 2 ^ 21 == 0 && s.stackHas (s.arg 0)) .badArgument
    let others := s.pinned.filter (· != region)
    .ok (0, { s with pinned := if s.arg 1 = 1 then region :: others else others })

/-- PATSET. -/
def execPatset (s : State) : Host.Outcome State Fault Refusal :=
  s.mailCommand 0x0005 [0xFF3F, allBits] do
    let (bs, s1) ← s.hostRead (s.arg 1) 32
    .ok (0, s1.onCtx (s.arg 0 % 64) fun c =>
      { c with patterns := tabSet c.patterns (s.arg 0 / 2 ^ 8) (BitVec.ofNat 256 (ofBytesLE bs)) })

/-- The number of the namespace that an argument names, port in bits 1:0 and namespace in bits 15:2: port and namespace as w0[63:48]
of a .flash copy holds them (R291, R377). -/
def flashKey (arg : Nat) : Nat := arg % 4 * 2 ^ 14 + arg / 4 % 2 ^ 14

/-- NSGRANT. -/
def execNsgrant (s : State) : Host.Outcome State Fault Refusal :=
  let k := flashKey (s.arg 0)
  s.mailCommand 0x0006 [0xFFFF, allBits] (match tabGet? s.flash k with
    | none => .error .storage
    | some f => .ok (0, { s with flash := tabSet s.flash k { f with grants := BitVec.ofNat 64 (s.arg 1) } }))

/-! ### Containers (R381, R382) -/

/-- The bytes of a list, cut or padded with zeros to n. -/
def fixedBytes (n : Nat) (bs : List Byte) : List Byte := bs.take n ++ List.replicate (n - bs.length) 0

/-- Bytes of one extent. -/
def extentSize : Nat := 2 ^ 21

/-- The magic of a container. -/
def containerMagic : List Byte := [0x46, 0x45, 0x52, 0x4D, 0x41, 0x53, 0x41, 0x00]

/-- Where the section table stands (DESIGN CHOICE, log 44). -/
def sectionTableAt : Nat := 0x1000

/-- The header of a container of n sections and e extents, 0x100 bytes. -/
def containerHeader (n e : Nat) : List Byte :=
  fixedBytes 0x100 (containerMagic ++ toBytesLE 2 1 ++ toBytesLE 2 0 ++ toBytesLE 4 n ++ toBytesLE 8 sectionTableAt ++
    toBytesLE 8 (extentSize * (1 + e)) ++ toBytesLE 4 e ++ toBytesLE 4 2460 ++ toBytesLE 8 (extentSize * (1 + e) + 32 * e))

/-- The entry of an opaque, required section. -/
def sectionEntry (offset length first : Nat) : List Byte :=
  fixedBytes 128 (toBytesLE 2 3 ++ toBytesLE 2 1 ++ toBytesLE 4 0 ++ toBytesLE 8 offset ++ toBytesLE 8 length ++
    toBytesLE 4 first)

/-- A section's bytes as whole extents, the last one padded. -/
def extentsOf (bs : List Byte) : List (List Byte) :=
  (List.range ((bs.length + extentSize - 1) / extentSize)).map fun i => fixedBytes extentSize (bs.drop (extentSize * i))

/-- The section entries of a list of sections, the first extent of the next being e. -/
def sectionEntries : List (List Byte) → Nat → List Byte
  | [], _ => []
  | x :: rest, e =>
    sectionEntry (extentSize * (1 + e)) x.length e ++ sectionEntries rest (e + (extentsOf x).length)

/-- A container with these opaque sections: header, section table, extents, extent table, manifest (R381). -/
def containerOf (sections : List (List Byte)) : List Byte :=
  let exts := sections.flatMap extentsOf
  let head := containerHeader sections.length exts.length
  let table := sectionEntries sections 0
  let tags := exts.flatMap fun x => toBytesLE 32 (sha3 x).toNat
  let signed := toBytesLE 32 (sha3 (head ++ table ++ tags)).toNat ++ toBytesLE 8 Config.signerKey.toNat
  let front := fixedBytes extentSize (fixedBytes sectionTableAt head ++ table)
  let all := front ++ exts.flatten ++ tags ++ signed ++ fixedBytes 2420 (Config.deviceSign signed)
  fixedBytes ((all.length + 4095) / 4096 * 4096) all

/-! ### Checkpoint and restore (R377, R383) -/

/-- The groups that a checkpoint or a restore concerns: those of a context, or all. -/
def State.concerned (s : State) : List Nat :=
  (s.groups.filter fun g => (s.arg 0).testBit 6 ||
    (tabGet? s.launches g.2.launch).elim false fun l => l.vf == s.arg 0 % 64).map (·.1)

/-- A domain is one of the chosen ones. -/
def State.chosen (s : State) (d : Nat) : Bool := d != 0 && ((s.arg 0).testBit 6 || d == (s.ctx (s.arg 0 % 64)).domain.toNat)

/-- The pages of a stack that the chosen domains own, in rising order. -/
def State.ownedPages (s : State) (stack : Nat) : List Nat :=
  (s.alloc.filter fun (e : Nat × BitVec 16) => e.1 / 2 ^ 20 == stack && s.chosen (e.2.toNat % 256)).map (·.1)

/-- The 64 KiB of a page as they stand: the registers of an image, or memory. -/
def State.pageBytes (s : State) (page : Nat) : List Byte :=
  if s.isImage (page * 65536) then s.imageRead (page * 65536) 65536 else memGets s.mem (page * 65536) 65536

/-- The opaque section of a stack: each page's number and its bytes (DESIGN CHOICE, log 44). -/
def State.stackSection (s : State) (stack : Nat) : List Byte :=
  (s.ownedPages stack).flatMap fun p => toBytesLE 8 p ++ s.pageBytes p

/-- The container of a checkpoint: one section for each enabled stack. -/
def State.checkpoint (s : State) : List Byte :=
  containerOf (((List.range 12).filter s.stackSet.getLsbD).map s.stackSection)

/-- The arguments of a checkpoint or restore, and the namespace that they name: it exists and takes 4,096-byte blocks, the device is not
in S1 or S3, and it is granted to the context (R379, R383). -/
def State.checkpointSpace (s : State) (err : Bool) : Except MailError Flash := do
  mailNeed (s.argsClean [0x7F, 0xFFFF, allBits]) .badArgument
  mailNeed (s.power == .p0 || s.power == .p1) .refused
  match tabGet? s.flash (flashKey (s.arg 1)) with
  | none => .error .storage
  | some f => do
    mailNeed (if (s.arg 0).testBit 6 then f.grants != 0 else f.grants.getLsbD (s.arg 0 % 64)) .refused
    mailNeed (f.blocks4k && !err) .storage
    .ok f

/-- A command that first needs the concerned groups off their cores and the package phase to end (R356, R365, R383); its accesses wait for a swap (R196). -/
def State.whenQuiet (s : State) (opc : Nat) (err : Bool) (f : Flash → BitVec 8 × Nat × State) : Host.Outcome State Fault Refusal :=
  if !s.runs opc then .next s
  else match s.checkpointSpace err with
    | .error e => .next (s.answer e.code 0)
    | .ok ns =>
      if s.concerned.any fun g => (tabGet? s.groups g).elim false fun x => x.place.isSome then
        .next (s.concerned.foldl (fun s g => s.requestLeave (s.unitOf g) .preempt) s)
      else if !s.packageIdle || s.held != [] then .next s
      else
        let (res, out, s1) := f ns
        .next (s1.answer res out)

/-- Where the sections of a container at a place begin: the entries of its section table. -/
def sectionPlaces (mem : List Host.Cell) (base : Nat) : List Nat :=
  (List.range (ofBytesLE (memGets mem (base + 0x0C) 4))).map fun i => base + ofBytesLE (memGets mem (base + 0x10) 8) + 128 * i

/-- The pages that the opaque sections of a container hold: the place of each one's number, and the number (R381; log 44). -/
def pagePlaces (mem : List Host.Cell) (base : Nat) : List (Nat × Nat) :=
  ((sectionPlaces mem base).filter fun k => ofBytesLE (memGets mem k 2) == 3).flatMap fun k =>
    (List.range (ofBytesLE (memGets mem (k + 16) 8) / 65544)).map fun i =>
      let r := base + ofBytesLE (memGets mem (k + 8) 8) + 65544 * i
      (r, ofBytesLE (memGets mem r 8))

/-- The registers of a team that its image holds in 64 KiB at a byte address. -/
def Team.pageRegs (tm : Team) (a : Nat) : List RegRef :=
  ((List.range 64).map RegRef.s ++ (List.range tm.vcount).flatMap fun k => (List.range tm.lanes).map (RegRef.v k)).filter fun q =>
    decide (a ≤ tm.imageAddr q) && decide (tm.imageAddr q < a + 65536)

/-- What a checkpoint keeps of an image page beside its bytes: the full/empty bits, which are stored with its lines (R184), and the stack
that the reconvergence block encodes (R139). -/
def State.asideOf (s : State) (page : Nat) : Option Aside :=
  if !s.isImage (page * 65536) then none
  else (s.imageOwner (page * 65536)).map fun t =>
    { empty := (t.2.pageRegs (page * 65536)).filter t.2.isEmpty, stack := t.2.stack, block := t.2.block }

/-- A flash namespace with a checkpoint written at a place, and what it keeps beside the bytes. -/
def State.keepAsides (s : State) (f : Flash) (base : Nat) (c : List Byte) : Flash :=
  let bytes := memSets f.bytes base c
  let kept := f.asides.filter fun x => !(decide (base ≤ x.1) && decide (x.1 < base + c.length))
  { f with
    bytes := bytes
    asides := (pagePlaces bytes base).foldl (fun m x => (s.asideOf x.2).elim m fun v => tabSet m x.1 v) kept }

/-- A marked word lies in a page that the checkpoint reads: it is never delivered (R361). -/
def State.ckptMarked (s : State) : Bool :=
  s.marks != [] && (((List.range 12).filter s.stackSet.getLsbD).flatMap s.ownedPages).any fun p => (s.markAt (p * 65536) 65536).isSome

/-- CKPT (R383): the container is written from the block that the arguments name; err says that a storage command failed. A marked word
that it would have to deliver fails it like an error of the storage, with nothing written (R361; DESIGN CHOICE, log 124). -/
def execCkpt (err : Bool) (s : State) : Host.Outcome State Fault Refusal :=
  s.whenQuiet 0x0007 err fun f =>
    if s.ckptMarked then (MailError.storage.code, 0, s)
    else
      let c := s.checkpoint
      (0, c.length, { s with flash := tabSet s.flash (flashKey (s.arg 1)) (s.keepAsides f (4096 * s.arg 2) c) })

/-- The REP that a restored team stands in, taken from the code at its PC (R94, R348); none where that is no REP any more. -/
def State.loadRep (s : State) (tm : Team) : Option (Nat × RepWord × Instr) :=
  let next := tm.ctl.bits.toNat / 32 % 64
  if !tm.ctl.bits.getLsbD 4 then none
  else match s.fetchSlot (s.vfOf tm) tm.pc true, s.fetchFollower (s.vfOf tm) tm.pc with
    | .ok x, .ok y => match decode x.2, decode y.2 with
      | .ok (.rep w), .ok f => if next ≤ w.cnt.toNat then some (next, w, f) else none
      | _, _ => none
    | _, _ => none

/-- A team off its cores given the control state of its image (R348): what a save has written there is the team's. One that was saved
while parked goes on at its region's entry (R352, R354). What its instruction had begun while it waited is in no image (DESIGN CHOICE,
log 125). -/
def Team.load (tm : Team) (c : ControlBlock) : Team :=
  let anew := c.bits.getLsbD 3 && c.bits.getLsbD 0
  { tm with
    ctl := c
    pc := if anew then c.regpc else c.spc
    closed := anew
    entered := true
    checked := false
    recorded := false
    stall := .none
    rep := none
    regpc := c.regpc
    regcnt := c.regcnt
    rvalid := c.bits.getLsbD 0
    masked := c.bits.getLsbD 1
    pickthr := c.bits.extractLsb' 16 9
    targets := (List.range 16).map fun k => if c.bits.getLsbD (48 + k) then some (nth 0 c.btgt k) else none
    status := c.status.setWidth 8
    rm := c.fpmode.setWidth 3
    skipnf := c.fpmode.getLsbD 3
    trapcause := c.tcause
    trappc := c.tpc
    e := c.emask
    x := c.xmask
    parkedOut := false
    phase := match tm.phase with
      | .retired => .retired
      | .ended => if c.emask &&& ~~~ c.xmask = 0 then .ended else .running
      | _ => .running }

/-- The control state and the reconvergence block of a team as the first page of its image now gives them. What is as it was changes
nothing; a block that is not the one its stack encodes, nor that of the stack kept with it, has been changed (R348). -/
def State.loadControl (s : State) (tm : Team) (data : List Byte) (kept : Option Aside) : Team :=
  let same (off n : Nat) : Bool := (List.range n).all fun i => nth 0 data (off + i) == tm.imageByte (off + i)
  let tm1 := if same 0xA00 0x200 then tm
    else
      let tm1 := tm.load (ControlBlock.ofBytes ((data.drop 0xA00).take 0x200))
      { tm1 with rep := if tm1.ctl.bits.getLsbD 3 then none else s.loadRep tm1 }
  let block := (data.drop 0xC00).take 0x400
  if same 0xC00 0x400 then tm1
  else match kept with
    | none => { tm1 with block := some block }
    | some k =>
      let tm2 := { tm1 with stack := k.stack, block := k.block }
      if (List.range 0x400).all fun i => nth 0 block i == tm2.blockByte i then tm2 else { tm2 with block := some block }

/-- A page given the bytes of a checkpoint, with what was kept beside them. -/
def State.restorePage (s : State) (page : Nat) (data : List Byte) (kept : Option Aside) : State :=
  let a := page * 65536
  if s.isImage a then
    match s.imageOwner a with
    | none => s.unmark a 65536
    | some (t, tm) =>
      let tm1 := if a = tm.image then s.loadControl tm data kept else tm
      let tm2 := tm1.imagePuts (a - tm.image) data
      (s.setTeam t ((kept.elim [] (·.empty)).foldl (fun tm q => tm.setEmpty q true) tm2)).unmark a 65536
  else (s.writeMem .watch none [] a data).unmark a 65536

/-- Pages restored, memory first, where the chosen domains own them: each with its bytes and what was kept beside them. -/
def State.restorePages (s : State) (ps : List (Nat × List Byte × Option Aside)) : State :=
  let mine := ps.filter fun p => s.chosen ((tabGet s.alloc p.1 0).toNat % 256)
  let (images, rest) := mine.partition fun p => s.isImage (p.1 * 65536)
  (rest ++ images).foldl (fun s p => s.restorePage p.1 p.2.1 p.2.2) s

/-- The row groups of the chosen domains zeroed. -/
def State.zeroChosen (s : State) : State :=
  s.restorePages (((List.range 12).flatMap s.ownedPages).map fun p => (p, List.replicate 65536 0, none))

/-- RESTORE (R377, R382, R383): a container of another major version, or with a required section of unknown type, is refused; a tag that
does not match ends with the row groups of the chosen domains zeroed. -/
def execRestore (err : Bool) (s : State) : Host.Outcome State Fault Refusal :=
  s.whenQuiet 0x0008 err fun f =>
    let base := 4096 * s.arg 2
    let get (off n : Nat) : Nat := ofBytesLE (memGets f.bytes (base + off) n)
    let type (k : Nat) : Nat := ofBytesLE (memGets f.bytes k 2)
    let tagOk (e : Nat) : Bool :=
      (sha3 (memGets f.bytes (base + extentSize * (1 + e)) extentSize)).toNat == get (get 0x18 8 + 32 * e) 32
    if memGets f.bytes base 8 ≠ containerMagic ∨ get 8 2 ≠ 1 ∨
        (sectionPlaces f.bytes base).any (fun k => type k ≠ 1 && type k ≠ 2 && type k ≠ 3 && (type (k + 2)).testBit 0) then
      (MailError.badArgument.code, 0, s)
    else if !(List.range (get 0x20 4)).all tagOk then (MailError.tag.code, 0, s.zeroChosen)
    else
      (0, (get 0x28 8 + get 0x24 4 + 4095) / 4096 * 4096,
        s.restorePages ((pagePlaces f.bytes base).map fun p => (p.2, memGets f.bytes (p.1 + 8) 65536, tabGet? f.asides p.1)))

/-! ### Security (R377, R388, R390) -/

/-- Debug sessions end. -/
def State.endSessions (s : State) : State :=
  { s with
    ctxs := s.ctxs.map fun (c : Nat × Context) => (c.1, { c.2 with claimed := false })
    teams := s.teams.map fun (t : Nat × Team) => (t.1, { t.2 with halted := false, steps := 0 }) }

/-- What a team's image holds, and what of it the core holds, erased; its lanes, its registers' count and its work identifier are none of
that. -/
def Team.erase (tm : Team) : Team :=
  { tm with
    v := [], vEmpty := [], s := [], sEmpty := 0, m := [], ctl := {}, past := []
    pc := 0, status := 0, rm := 0, skipnf := false, trapcause := 0, trappc := 0, masked := false, pickthr := 0
    einjSite := 0, einjAddr := 0, e := 0, x := 0, stack := [], block := some (List.replicate 0x400 0)
    regpc := 0, rvalid := false, regcnt := 0, closed := false, targets := [], rep := none, stall := .none, parkedOut := false }

/-- What a MOOR captured of its region erased. -/
def Moor.erase (m : Moor) : Moor :=
  { m with flags := [], scales := m.scales.map fun _ => 0, data := m.data.map fun _ => 0, took := [] }

/-- The unfold descriptor that a loop read erased. -/
def LoopParams.erase (p : LoopParams) : LoopParams := { p with desc := p.desc.map fun _ => 0 }

/-- The values that a matrix-queue entry holds erased. -/
def QueueEntry.erase (e : QueueEntry) : QueueEntry :=
  { e with work := match e.work with
      | .put cells => .put (cells.map fun c => (c.1, c.2.map fun _ => 0))
      | .loop p n => .loop p.erase n
      | .share i p => .share i p.erase
      | .held i p => .held i p.erase
      | .fill z n k => .fill z n k }

/-- The payload of spawned items erased. -/
def SpawnQueue.erase (q : SpawnQueue) : SpawnQueue :=
  let blank (it : Item) : Item := { it with payload := it.payload.map fun _ => 0 }
  { q with items := q.items.map blank, filling := q.filling.map fun f => (f.1, f.2.map blank) }

/-- The erasure of R388: main memory, slices, scratchpads and register stores, and what is on its way to them, so that nothing written
before it lands after it; what lies in host memory stays. -/
def State.erase (s : State) : State :=
  let outside (a : Nat) : Bool := decide (hostByte 0 ≤ a) && decide (a < 2 ^ 48)
  { s with
    mem := s.mem.filter fun c => outside c.1
    hist := s.hist.filter fun h => outside (h.1 / 3)
    entries := []
    bindings := []
    soft := []
    marks := s.marks.filter fun m => outside (markedByte m.1)
    pend := []
    prods := []
    copies := []
    commands := []
    puts := []
    inbound := []
    held := []
    groups := s.groups.map fun (g : Nat × Group) =>
      (g.1, { g.2 with
        moors := g.2.moors.map Moor.erase
        queue := g.2.queue.map QueueEntry.erase
        shares := g.2.shares.map QueueEntry.erase })
    issues := s.issues.map fun (i : Nat × Issue) => (i.1, { i.2 with params := i.2.params.erase })
    launches := s.launches.map fun (l : Nat × Launch) =>
      (l.1, { l.2 with spawn := l.2.spawn.map fun q => (q.1, q.2.erase), waiting := [] })
    teams := s.teams.map fun (t : Nat × Team) => (t.1, t.2.erase) }

/-- PD becomes PR, with the erasure (R388). -/
def State.leavePd (s : State) : State :=
  if s.security = .pd then { s.endSessions.erase with security := .pr, invasive := false } else s

/-- NONCE. -/
def execNonce (s : State) : Host.Outcome State Fault Refusal :=
  s.mailCommand 0x000A [allBits] do
    let bs := toBytesLE 32 (Config.freshNonce s.freeCtr).toNat
    let s1 ← s.hostPut (s.arg 0) bs
    .ok (0, { s1 with nonce := bs, freeCtr := s.freeCtr + 1 })

/-- DBGAUTH (R388). -/
def execDbgauth (s : State) : Host.Outcome State Fault Refusal :=
  s.mailCommand 0x000B [allBits] do
    hostBuffer (s.arg 0) 2468
    mailNeed (s.security == .pr && !(s.launches.any fun l => l.2.life != .completed)) .refused
    let (bs, s1) ← s.hostRead (s.arg 0) 2468
    let mode := field bs 64 8
    mailNeed ((mode == 1 || mode == 2) && field bs 72 56 == 0) .badArgument
    mailNeed (field bs 0 64 == Config.serial.toNat && s.nonce != [] && (bs.drop 16).take 32 == s.nonce &&
      Config.vendorVerifies (bs.take 48) (bs.drop 48)) .signature
    .ok (0, { s1 with security := .pd, invasive := mode == 2, nonce := [] })

/-- DBGEND (R388). -/
def execDbgend (s : State) : Host.Outcome State Fault Refusal :=
  s.mailCommand 0x000C [] do
    mailNeed (s.security == .pd) .refused
    .ok (0, s.leavePd)

/-- FUSEPR (R388): OD becomes PR, never the reverse. -/
def execFusepr (s : State) : Host.Outcome State Fault Refusal :=
  s.mailCommand 0x0010 [allBits] do
    mailNeed (s.arg 0 == 0x50524F44) .badArgument
    mailNeed (s.security == .od) .refused
    .ok (0, { s with security := .pr })

/-- The fields of a report that are signed (R390). -/
def State.reportFields (s : State) (nonce : List Byte) (vf : Nat) : List Byte :=
  nonce ++ toBytesLE 8 Config.serial.toNat ++ toBytesLE 8 s.security.code ++ toBytesLE 8 s.debugMode ++ s.measured ++
    toBytesLE 8 vf ++ toBytesLE 8 (s.ctx vf).domain.toNat

/-- ATTEST (R390). -/
def execAttest (s : State) : Host.Outcome State Fault Refusal :=
  s.mailCommand 0x000D [0x3F, allBits, allBits] do
    hostBuffer (s.arg 2) 4096
    let (nonce, s1) ← s.hostRead (s.arg 1) 32
    let fields := s.reportFields nonce (s.arg 0)
    let report := fields ++ fixedBytes 2420 (Config.deviceSign fields)
    let s2 ← s1.hostPut (s.arg 2) report
    .ok (report.length, s2)

/-- CHAIN (R390). -/
def execChain (s : State) : Host.Outcome State Fault Refusal :=
  s.mailCommand 0x000E [allBits, allBits] do
    mailNeed (decide (Config.vendorChain.length ≤ s.arg 1)) .badArgument
    let s1 ← s.hostPut (s.arg 0) Config.vendorChain
    .ok (Config.vendorChain.length, s1)

/-- PEER (R384). -/
def execPeer (s : State) : Host.Outcome State Fault Refusal :=
  s.mailCommand 0x000F [0xFFF, 0xFFFFFF, 0xFFFFFFFFFFFF] (.ok (0, { s with
    peers := tabSet s.peers (s.arg 0) (BitVec.ofNat 24 (s.arg 1), BitVec.ofNat 48 (s.arg 2)) }))

/-! ### Power (R389) -/

/-- What only SRAM holds is lost (R389): the blends of open epochs at the slices, the windows of %bwmon, the nonce (DESIGN CHOICE, log
83). -/
def State.dropSram (s : State) : State :=
  { s with
    soft := s.soft.map fun (x : Nat × Soft) => (x.1, { x.2 with blends := [], counts := [] })
    bwWindow := []
    bwmon := []
    nonce := [] }

/-- The power state changed: leaving S3 ends PD, and steps 1 and 3 of bring-up are to run again before anything else does (R388,
R389). -/
def State.toPower (s : State) (p : Power) : State :=
  if s.power = .s3 && p != .s3 then { s.leavePd with power := p, boot := .waking } else { s with power := p }

/-- Every group has been saved and the slices rest: S3 may be entered. -/
def State.mayStop (s : State) : Bool := (s.groups.all fun g => g.2.place.isNone) && (List.range 4).all s.dieIdle

/-- POWER: the entry to S3 first saves every resident group and lets the slices come to rest, for which the clock of S1 runs again;
sessions end. -/
def execPower (s : State) : Host.Outcome State Fault Refusal :=
  if s.runs 0x0009 && s.arg 0 == 3 && s.argsClean [7] && s.power != .s3 && !s.mayStop then
    .next { s.requestLeave (s.groups.map (·.1)) .preempt with power := if s.power = .s1 then .p0 else s.power }
  else s.mailCommand 0x0009 [7] (match s.arg 0 with
    | 0 => .ok (0, s.toPower .p0)
    | 1 => .ok (0, s.toPower .p1)
    | 2 => .ok (0, s.toPower .s1)
    | 3 => .ok (0, if s.power = .s3 then s else { s.endSessions.dropSram with power := .s3 })
    | _ => .error .badArgument)

/-! ### The end of a command, and bring-up (R376, R391) -/

/-- UNKNOWN COMMAND: a code that R377 does not list. -/
def execUnknownCommand (s : State) : Host.Outcome State Fault Refusal :=
  let m := s.mailbox
  if m.busy && m.result.isNone && (m.opc == 0 || decide (0x0010 < m.opc.toNat)) then .next (s.answer MailError.unknown.code 0)
  else .next s

/-- MAILBOX COMPLETION (R376): MOUT, MRES and DSEQ are written, BUSY is cleared, and the physical function's vector 0 is raised. -/
def execMailboxCompletion (s : State) : Host.Outcome State Fault Refusal :=
  let m := s.mailbox
  match m.result with
  | none => .next s
  | some (res, out) =>
    if m.busy then
      .next ({ s with mailbox := { m with mout := out, mres := res, dseq := m.seq, busy := false, result := none } }.raiseMsix 64 0)
    else .next s

/-- BRING UP (R389, R391): a failed verification leaves the mailbox alone, in recovery; otherwise the stacks that trained, the cores
and the ports are those that the Light List reports. It happens once, and out of S3 once more: the stacks are not trained again, and
in PR memory is kept only where the measurements are the old ones. -/
def execBringUp (r : BringUpReport) (s : State) : Host.Outcome State Fault Refusal :=
  match s.boot with
  | .reset =>
    if !r.verified then .next { s with boot := .recovery }
    else .next { s with stackSet := r.stackSet, cores := r.cores, ports := r.ports, firmware := r.firmware, boot := .up }
  | .waking =>
    if !r.verified then .next { s with boot := .recovery }
    else
      let s1 := if s.security = .pr && measurements r.firmware != measurements s.firmware then s.erase else s
      .next { s1 with cores := r.cores, ports := r.ports, firmware := r.firmware, boot := .up }
  | _ => .next s

end Sys2Proof.Machine
end

