-- ==== Sys2Proof/Machine/Fabric.lean ====
section
/-! DEFINITION. The fabric transport, soft errors, port states and the invasive debugger (R129, R296, R361, R374, R384, R385, R387,
R388). -/

namespace Sys2Proof.Machine

/-! ### The doorbell and the send ring (R384) -/

/-- The virtual address of descriptor i in a context's fabric ring. -/
def Context.descVa (c : Context) (i : Nat) : Word64 := c.fxbase.setWidth 64 + BitVec.ofNat 64 (64 * (i % 2 ^ c.fxlog.toNat))

/-- A descriptor taken: FXHEAD advances, and it becomes a put that has acquired what the doorbell released (R385). -/
def State.takeDescriptor (s : State) (vf : Nat) (desc : List Byte) : State :=
  let s1 := s.onCtx vf fun c => { c with fxhead := c.fxhead + 1, fxBlocked := none }
  { s1 with
    nextId := s1.nextId + 1
    puts := tabSet s1.puts s1.nextId {
      vf := vf, desc := desc, sent := false, cw := BitVec.ofNat 64 (field desc (0x30 * 8) 56)
      tag := BitVec.ofNat 32 (field desc (0x38 * 8) 32)
      pv := { acq := [⟨.system, (s1.ctx vf).fxRel⟩] } } }

/-- The descriptors up to the engine's last reading of the doorbell, in ring order; a missing translation holds the ring, reported once, and
so does a swap (R196); a descriptor that cannot be read is reported and passed over. -/
def State.takeDescriptors (s : State) (vf : Nat) : Nat → State
  | 0 => s
  | n + 1 =>
    let c := s.ctx vf
    if c.fxhead = c.fxtail then s
    else
      let va := c.descVa c.fxhead.toNat
      match s.translate vf va 64 .engine false with
      | .error (.wait _) => s
      | .ok (.byte a) =>
        if s.swapping a 64 then s
        else if (s.markAt a 64).isSome then skip s va n
        else
          let (bs, s1) := s.peek c.fxRel a 64
          (s1.takeDescriptor vf bs).takeDescriptors vf n
      | .error (.park va _) =>
        if c.fxBlocked = some va then s
        else (s.onCtx vf fun c => { c with fxBlocked := some va }).report vf va AccessKind.engine.code 0
      | _ => skip s va n
where
  skip (s : State) (va : Word64) (n : Nat) : State :=
    ((s.report vf va AccessKind.engine.code 0).onCtx vf fun c => { c with fxhead := c.fxhead + 1, fxBlocked := none }).takeDescriptors vf n

/-- FABRIC DOORBELL (R384): the engine reads the doorbell word as an acquire at system scope, and takes what it covers; a marked word is
not delivered to it (R361; DEDUCED, log 122). -/
def execFabricDoorbell (vf : Nat) (s : State) : Host.Outcome State Fault Refusal :=
  let c := s.ctx vf
  match s.translate vf (c.fxdoor.setWidth 64) 8 .engine false with
  | .ok (.byte a) =>
    if s.swapping a 8 || (s.markAt a 8).isSome then .next s else
    let idx := s.readIdx (viewAt c.fxRel) a 8
    let (bs, s1) := s.peek c.fxRel a 8
    let got := (s.carried a idx).foldl (fun v m => if m.inst = .system then viewJoin v m.view else v) c.fxRel
    let rel := (List.range 8).foldl (fun o i => viewRaise o (byteLoc (a + i)) (nth 0 idx i)) got
    let tail : Word32 := BitVec.ofNat 32 (ofBytesLE (bs.take 4))
    let s2 := s1.onCtx vf fun c => { c with fxRel := rel, fxtail := if ahead c.fxtail tail then tail else c.fxtail }
    .next (s2.takeDescriptors vf ((s2.ctx vf).fxtail - c.fxhead).toNat)
  | _ => .next s

/-! ### Puts (R385) -/

/-- The fields of a descriptor break no rule of R384. -/
def descriptorOk (d : List Byte) : Bool :=
  let opc := field d 0 2
  let len := field d 0x40 32
  (opc == 1 || opc == 2) && field d 20 44 == 0 && decide (1 ≤ len) && decide (len ≤ 2 ^ 26) && field d 0x100 56 % 8 == 0 &&
    field d 0x180 56 % 8 == 0

/-- A put ends: its completion word, in the layout of R296, is a release at system scope; where it cannot be written, a fault report
stands for it (R384). -/
def State.endPut (s : State) (k : Nat) (q : Put) (cause : Nat) : State :=
  let word := toBytesLE 8 (q.tag.toNat * 2 ^ 32 + cause * 2 ^ 8 + if cause = 0 then 1 else 2)
  let s1 := match s.translate q.vf q.cw 8 .engine true with
    | .ok (.byte a) =>
      if s.isMoored a 8 then s.report q.vf q.cw AccessKind.engine.code 0
      else (s.writeMem (.put k) (some .system) [] a word).unmark a 8
    | .ok (.image a e) => match s.windowCheck a 8 true e q.cw with
      | some _ => s.report q.vf q.cw AccessKind.engine.code 0
      | none => if e then s.imageEmpty a 8 else s.writeImage (.put k) (some .system) [] a word
    | _ => s.report q.vf q.cw AccessKind.engine.code 0
  { s1 with puts := tabDel s1.puts k }

/-- The peer is paired with this device through an enabled port (R384, R385). -/
def State.paired (s : State) (peer : Nat) : Bool := (tabGet? s.peers peer).elim false fun x => x.1 &&& s.ports != 0

/-- The cause with which reading SRC fails (R361, R385). -/
def Stop.putCause : Stop → Nat
  | .park .. => Cause.translation.code
  | .trap .softError .. => Cause.softError.code
  | _ => Cause.access.code

/-- PUT (R385): the oldest put of a context that has not been sent reads SRC after its doorbell acquire, and goes to the peer. -/
def execPut (vf : Nat) (s : State) : Host.Outcome State Fault Refusal :=
  match s.puts.find? fun q => q.2.vf == vf && !q.2.sent with
  | none => .next s
  | some (k, q) =>
    if s.wordHeld vf q.cw then .next s
    else if !descriptorOk q.desc || !s.paired (field q.desc 2 12) then .next (s.endPut k q Cause.access.code)
    else match s.readVa (.put k) none vf (BitVec.ofNat 64 (field q.desc 0x80 56)) (field q.desc 0x40 32) .engine with
      | .ok (_, s1) => .next { s1 with puts := tabModify s1.puts k fun q => { q with sent := true } }
      | .error (.wait _) => .next s
      | .error e => .next (s.endPut k q e.putCause)

/-- PUT ACKNOWLEDGE (R385): the peer has acknowledged, or reported a fault: 0x08 or 0x07, and no other code. -/
def execPutAcknowledge (put : Nat) (res : LinkEnd) (s : State) : Host.Outcome State Fault Refusal :=
  match tabGet? s.puts put with
  | none => .next s
  | some q =>
    if !q.sent || s.wordHeld q.vf q.cw then .next s
    else match res with
      | .good => .next (s.endPut put q 0)
      | .failed c =>
        if c.toNat = Cause.access.code ∨ c.toNat = Cause.translation.code then .next (s.endPut put q c.toNat) else .next s

/-- INCOMING PUT (R385): a peer's put arrives; its writes land in moves of their own. -/
def execIncomingPut (vf : Nat) (dst : BitVec 56) (data : List Byte) (signal : Option (BitVec 56 × Word64)) (s : State) :
    Host.Outcome State Fault Refusal :=
  .next { s with
    nextId := s.nextId + 1
    inbound := tabSet s.inbound s.nextId {
      vf := vf, dst := dst, data := data, todo := if data = [] then [] else [(0, data.length)], signal := signal, o := [] } }

/-- Where the write of offset i of an incoming put goes: its target, first offset and length. It is a byte of memory; or, through a
window, the whole word of a v register or of a mask, or the whole s register, that the byte lies in (R186). None refuses it. -/
def State.landPlace (s : State) (q : Inbound) (i : Nat) : Option (Target × Nat × Nat) :=
  let va : Word64 := q.dst.setWidth 64 + BitVec.ofNat 64 i
  match s.translate q.vf va 1 .engine true with
  | .ok (.byte a) => if s.isMoored a 1 || (s.partMark a 1).isSome then none else some (.byte a, i, 1)
  | .ok (.image a e) =>
    let n := (s.imageOwner a).elim 4 fun t => match t.2.imagePart (a - t.2.image) with
      | .s _ => 8
      | _ => 4
    let r := va.toNat % n
    if i < r || decide (q.data.length < i - r + n) || (s.windowCheck (a - r) n true e (va - BitVec.ofNat 64 r)).isSome then none
    else some (.image (a - r) e, i - r, n)
  | _ => none

/-- The walk of an address waits for a swap (R196). -/
def State.walkHeld (s : State) (vf : Nat) (va : Word64) : Bool :=
  match s.walk vf va.toNat with
  | .held => true
  | _ => false

/-- One write of an incoming put lands, with what the signal will release; one that is refused ends the put, and what has landed
stands; one to a region that a swap holds waits (R196). -/
def State.landAt (s : State) (k : Nat) (q : Inbound) (i : Nat) : State :=
  if s.walkHeld q.vf (q.dst.setWidth 64 + BitVec.ofNat 64 i) then s else
  let past (s1 : State) (i a n : Nat) : State :=
    { s1 with inbound := tabSet s1.inbound k { q with todo := cutUnits i n q.todo, o := s1.raiseLatest q.o a n } }
  match s.landPlace q i with
  | some (.byte a, i, n) =>
    if s.swapping a n then s else past ((s.writeMem .watch none [] a ((q.data.drop i).take n)).unmark a n) i a n
  | some (.image a e, i, n) =>
    if s.imageHeld none a n || s.swapping a n then s
    else past (if e then s.imageEmpty a n else s.writeImage .watch none [] a ((q.data.drop i).take n)) i a n
  | _ => { s with inbound := tabDel s.inbound k }

/-- The signal of an incoming put, once every data write has performed: a release at system scope (R385). -/
def State.landSignal (s : State) (k : Nat) (q : Inbound) : State :=
  let s1 := { s with inbound := tabDel s.inbound k }
  match q.signal with
  | none => s1
  | some (sig, val) =>
    let va : Word64 := sig.setWidth 64
    let word := toBytesLE 8 val.toNat
    if s.walkHeld q.vf va then s
    else match s.translate q.vf va 8 .engine true with
    | .ok (.byte a) => if s.isMoored a 8 then s1 else if s.swapping a 8 then s else (s1.writeMem .watch none [⟨.system, q.o⟩] a word).unmark a 8
    | .ok (.image a e) =>
      if (s.windowCheck a 8 true e va).isSome then s1
      else if s.imageHeld none a 8 || s.swapping a 8 then s
      else if e then s1.imageEmpty a 8 else s1.writeImage .watch none [⟨.system, q.o⟩] a word
    | _ => s1

/-- One write of an incoming put lands, or its signal does: the writes are unordered among themselves (R385). -/
def State.land (s : State) (k i : Nat) : State :=
  match tabGet? s.inbound k with
  | none => s
  | some q =>
    if q.todo = [] then s.landSignal k q
    else if hasUnit q.todo i then s.landAt k q i else s

/-! ### Soft errors, ports (R361, R387) -/

/-- The site code of the storage at a byte address, when there is storage: an image row, main memory, a scratchpad, an accumulator; a
request to host memory may complete with poisoned data (R375). The copies of a word of main memory in its home slice and in an instruction
line are storages of their own. -/
def State.siteOf (s : State) (a : Nat) : Option Nat :=
  if sliceCopy ≤ a then
    let b := a % sliceCopy
    if s.stackHas b && !s.isImage b then (if lineCopy ≤ a then some 1 else some 5) else none
  else if a < 2 ^ 40 then if s.stackHas a then some (if s.isImage a then 2 else 6) else none
  else if 2 ^ 48 ≤ a then
    if (tabGet? s.groups ((a - 2 ^ 48) / 2 ^ 21)).isSome then some (if (a - 2 ^ 48) / 2 ^ 20 % 2 = 0 then 3 else 4) else none
  else if hostByte 0 ≤ a then some 6
  else none

/-- SOFT ERROR (R361): a corrected one is counted in the Light List; an uncorrectable one marks its word. -/
def execSoftError (addr : Nat) (uncorrectable : Bool) (s : State) : Host.Outcome State Fault Refusal :=
  match s.siteOf addr with
  | none => .next s
  | some site =>
    if uncorrectable then .next (if s.markWaits addr then s else s.mark addr site)
    else if 2 ^ 40 ≤ addr && decide (addr < 2 ^ 48) then .next s
    else .next { s with corrected := tabSet s.corrected site (tabGet s.corrected site 0 + 1) }

/-- PORT STATE CHANGE (R387): the state of an enabled port, as the Light List shows it. -/
def execPortStateChange (port : Nat) (up : Bool) (s : State) : Host.Outcome State Fault Refusal :=
  if s.ports.getLsbD port then
    let bit : BitVec 24 := BitVec.ofNat 24 (2 ^ port)
    .next { s with portUp := if up then s.portUp ||| bit else s.portUp &&& ~~~ bit }
  else .next s

/-! ### The invasive debugger (R129, R388) -/

/-- What a debugger's request does to a team. Registers are written while the team is stopped; their full/empty bits stay. -/
def Team.debug (tm : Team) : DebugAsk → Team
  | .halt => { tm with halted := true, steps := 0 }
  | .singleStep => if tm.halted then { tm with steps := tm.steps + 1 } else tm
  | .resume => { tm with halted := false, steps := 0 }
  | .writeV r l x => if tm.halted && decide (r < tm.vcount) && decide (l < tm.lanes) then tm.vSet r l x else tm
  | .writeS r x => if tm.halted && decide (r < 64) then tm.sSet r x else tm
  | .writeM r x => if tm.halted && decide (r < 16) then tm.setMask r x else tm
  | .writePc x => if tm.halted then tm.goto x false true else tm

/-- The register words that a debugger's request replaces whole. -/
def Team.debugRefs (tm : Team) (ask : DebugAsk) : List RegRef :=
  if !tm.halted then []
  else match ask with
    | .writeV r l _ => if decide (r < tm.vcount) && decide (l < tm.lanes) then [.v r l] else []
    | .writeS r _ => if r < 64 then [.s r] else []
    | .writeM r _ => if 0 < r ∧ r < 16 then (List.range tm.words).map fun w => .m r w else []
    | _ => []

/-- INVASIVE DEBUG COMMAND (R388): it claims the team's context, where an invasive debugger may act. -/
def execInvasiveDebugCommand (t : Nat) (ask : DebugAsk) (s : State) : Host.Outcome State Fault Refusal :=
  match tabGet? s.teams t with
  | none => .next s
  | some tm =>
    let vf := s.vfOf tm
    if s.invasiveOk vf && (s.power == .p0 || s.power == .p1) then
      .next (((s.onCtx vf fun c => { c with claimed := true }).setTeam t (tm.debug ask)).clearRegMarks tm (tm.debugRefs ask))
    else .next s

end Sys2Proof.Machine
end

