-- ==== Sys2Proof/Machine/MemEvents.lean ====
section
/-! DEFINITION. The events of the memory system: pending accesses perform, producers complete, register windows are written (R11,
R186, R188, R222 to R228, R235). -/

namespace Sys2Proof.Machine

/-- The access of a team performs while its group is bound, or is over (R221, R356); that of a copy once no slice of a lower team is
still to read what it writes there (R290). -/
def State.onCore (s : State) (a : Access) : Bool :=
  match a.party with
  | .team t => (s.groupOf t).elim true fun g => g.place.isSome || g.retired
  | .copy k => !s.copyBehind k a
  | _ => true

/-- The pending access id makes its move with f when it may (R222), its group is bound, and no swap holds it (R196). -/
def State.onPending (s : State) (id : Nat) (f : Access → State) : State :=
  match tabGet? s.pend id with
  | none => s
  | some a => if s.canPerform id a && s.onCore a && !s.swapHeld a then f a else s

/-- What an access does when it performs; the kinds that have an event of their own are left alone. -/
def State.perform (s : State) (id : Nat) (a : Access) : State :=
  match a.kind with
  | .read => s.performRead id a
  | .write data mask => s.performWrite id a data mask
  | .atom op t v cmp => s.performAtom id a op t v cmp
  | .bfaIns .. | .bfaFfcs | .bfaPlset _ => s.performBfa id a
  | .layered handle _ _ => s.performLayered a handle
  | .entry => s.performEntry id a
  | .close _ jrst => s.performClose id a jrst
  | .bindTo bar => s.performBinding id a bar
  | .adjoint handle epoch rwd bar => s.performAdjoint id a handle epoch rwd bar
  | .accRead t kind sat => s.performAccRead id a t kind sat
  | .ready bar => s.performReady id a bar
  | _ => s

/-- ACCESS PERFORM (R223): a pending access of a party performs; a copy makes its next move in an order of its own (R230). -/
def execAccessPerform (acc : Nat) (s : State) : Host.Outcome State Fault Refusal :=
  match tabGet? s.pend acc with
  | none => .next s
  | some a =>
    match a.kind with
    | .copyRun _ | .copyMasks | .copyAdd .. => .next (s.performCopy acc a)
    | _ => .next (s.onPending acc fun a => s.perform acc a)

/-- REDUCTION ENTRY (R228, R249). One that waits for reductions which wait for it merges with one of them first. -/
def execReductionEntry (acc : Nat) (s : State) : Host.Outcome State Fault Refusal :=
  match (tabGet? s.pend acc).bind fun a => if s.canPerform acc a then none else s.closeCycle acc a with
  | some s1 => .next s1
  | none => .next (s.onPending acc fun a => match a.kind with
    | .red op t v => s.performRed acc a op t v
    | _ => s)

/-- REDUCTION MERGE (R228). -/
def execReductionMerge (acc other : Nat) (s : State) : Host.Outcome State Fault Refusal :=
  match tabGet? s.pend acc, tabGet? s.pend other with
  | some a, some b => .next (s.mergeReds acc a other b)
  | _, _ => .next s

/-- BLEND ENTRY (R235, R254). -/
def execBlendEntry (acc : Nat) (s : State) : Host.Outcome State Fault Refusal :=
  .next (s.onPending acc fun a => match a.kind with
    | .blend bs arrive => s.performBlend acc a bs arrive
    | _ => s)

/-- REGISTER WINDOW WRITE (R186): held while a producer is pending on the register. -/
def execRegisterWindowWrite (acc : Nat) (s : State) : Host.Outcome State Fault Refusal :=
  .next (s.onPending acc fun a => match a.kind with
    | .windowWrite data => s.performWindowWrite acc a data
    | _ => s)

/-- EMPTYING WINDOW WRITE (R188): held in the same way. -/
def execEmptyingWindowWrite (acc : Nat) (s : State) : Host.Outcome State Fault Refusal :=
  .next (s.onPending acc fun a => match a.kind with
    | .windowEmpty => s.performWindowEmpty acc a
    | _ => s)

/-- PRODUCER COMPLETION (R11): a long-latency producer whose accesses have all performed writes its value and fills its register. -/
def execProducerCompletion (prod : Nat) (s : State) : Host.Outcome State Fault Refusal :=
  match tabGet? s.prods prod with
  | none => .next s
  | some q => if q.ready then .next (s.complete prod q) else .next s

end Sys2Proof.Machine
end

