-- ==== Sys2Proof/Machine/Dispatch.lean ====
section
/-! DEFINITION. The dispatch: one arm for every constructor of Instr, each a direct call of that instruction's meaning. -/

namespace Sys2Proof.Machine

def exec (i : Instr) (s : State) : Host.Outcome State Fault Refusal :=
  match i with
  | .nop => Sys2Proof.Machine.execNop s
  | .add p t w => Sys2Proof.Machine.execAdd p t w s
  | .sub p t w => Sys2Proof.Machine.execSub p t w s
  | .addc p t w => Sys2Proof.Machine.execAddc p t w s
  | .subb p t w => Sys2Proof.Machine.execSubb p t w s
  | .mul p t w => Sys2Proof.Machine.execMul p t w s
  | .mulh p t w => Sys2Proof.Machine.execMulh p t w s
  | .mad p t w => Sys2Proof.Machine.execMad p t w s
  | .div p t w => Sys2Proof.Machine.execDiv p t w s
  | .rem p t w => Sys2Proof.Machine.execRem p t w s
  | .neg p t w => Sys2Proof.Machine.execNeg p t w s
  | .abs p t w => Sys2Proof.Machine.execAbs p t w s
  | .min p t w => Sys2Proof.Machine.execMin p t w s
  | .max p t w => Sys2Proof.Machine.execMax p t w s
  | .and p t w => Sys2Proof.Machine.execAnd p t w s
  | .or p t w => Sys2Proof.Machine.execOr p t w s
  | .xor p t w => Sys2Proof.Machine.execXor p t w s
  | .andn p t w => Sys2Proof.Machine.execAndn p t w s
  | .shl p t w => Sys2Proof.Machine.execShl p t w s
  | .shr p t w => Sys2Proof.Machine.execShr p t w s
  | .sra p t w => Sys2Proof.Machine.execSra p t w s
  | .rot p t w => Sys2Proof.Machine.execRot p t w s
  | .clz p t w => Sys2Proof.Machine.execClz p t w s
  | .popc p t w => Sys2Proof.Machine.execPopc p t w s
  | .brev p t w => Sys2Proof.Machine.execBrev p t w s
  | .bfx p t w => Sys2Proof.Machine.execBfx p t w s
  | .bfi p t w => Sys2Proof.Machine.execBfi p t w s
  | .ffcs p t w => Sys2Proof.Machine.execFfcs p t w s
  | .plset p t w => Sys2Proof.Machine.execPlset p t w s
  | .sel p t w => Sys2Proof.Machine.execSel p t w s
  | .cmp p t cc w => Sys2Proof.Machine.execCmp p t cc w s
  | .mov p t w => Sys2Proof.Machine.execMov p t w s
  | .movi p t w => Sys2Proof.Machine.execMovi p t w s
  | .lea p t w => Sys2Proof.Machine.execLea p t w s
  | .movmTor p w => Sys2Proof.Machine.execMovmTor p w s
  | .movmTom p w => Sys2Proof.Machine.execMovmTom p w s
  | .padd p t w => Sys2Proof.Machine.execPadd p t w s
  | .psub p t w => Sys2Proof.Machine.execPsub p t w s
  | .pmul p t w => Sys2Proof.Machine.execPmul p t w s
  | .pmac p t w => Sys2Proof.Machine.execPmac p t w s
  | .pmin p t w => Sys2Proof.Machine.execPmin p t w s
  | .pmax p t w => Sys2Proof.Machine.execPmax p t w s
  | .pcmp p t cc w => Sys2Proof.Machine.execPcmp p t cc w s
  | .pshr p t w => Sys2Proof.Machine.execPshr p t w s
  | .pnar p t w => Sys2Proof.Machine.execPnar p t w s
  | .pwid p t w => Sys2Proof.Machine.execPwid p t w s
  | .fadd p t w => Sys2Proof.Machine.execFadd p t w s
  | .fsub p t w => Sys2Proof.Machine.execFsub p t w s
  | .fmul p t w => Sys2Proof.Machine.execFmul p t w s
  | .fma p t w => Sys2Proof.Machine.execFma p t w s
  | .fdiv p t w => Sys2Proof.Machine.execFdiv p t w s
  | .fsqrt p t w => Sys2Proof.Machine.execFsqrt p t w s
  | .frsq p t w => Sys2Proof.Machine.execFrsq p t w s
  | .fmin p t w => Sys2Proof.Machine.execFmin p t w s
  | .fmax p t w => Sys2Proof.Machine.execFmax p t w s
  | .fcmp p t cc sig w => Sys2Proof.Machine.execFcmp p t cc sig w s
  | .fclass p t w => Sys2Proof.Machine.execFclass p t w s
  | .frnd p t w => Sys2Proof.Machine.execFrnd p t w s
  | .fscale p t w => Sys2Proof.Machine.execFscale p t w s
  | .fexp2 p t w => Sys2Proof.Machine.execFexp2 p t w s
  | .flog2 p t w => Sys2Proof.Machine.execFlog2 p t w s
  | .fupd p adam w => Sys2Proof.Machine.execFupd p adam w s
  | .cvt p t src w => Sys2Proof.Machine.execCvt p t src w s
  | .cvts p t src w => Sys2Proof.Machine.execCvts p t src w s
  | .cvtb p t src w => Sys2Proof.Machine.execCvtb p t src w s
  | .bra p target => Sys2Proof.Machine.execBra p target s
  | .brc p q target a => Sys2Proof.Machine.execBrc p q target a s
  | .brd target a rcv => Sys2Proof.Machine.execBrd target a rcv s
  | .join => Sys2Proof.Machine.execJoin s
  | .jmp p a => Sys2Proof.Machine.execJmp p a s
  | .call p target a => Sys2Proof.Machine.execCall p target a s
  | .ret p a => Sys2Proof.Machine.execRet p a s
  | .loop p target a => Sys2Proof.Machine.execLoop p target a s
  | .exit p => Sys2Proof.Machine.execExit p s
  | .pick p target => Sys2Proof.Machine.execPick p target s
  | .slide p down t w => Sys2Proof.Machine.execSlide p down t w s
  | .shfl p byXor t w => Sys2Proof.Machine.execShfl p byXor t w s
  | .bcast p t w => Sys2Proof.Machine.execBcast p t w s
  | .redl p op t w => Sys2Proof.Machine.execRedl p op t w s
  | .scanl p op excl t w => Sys2Proof.Machine.execScanl p op excl t w s
  | .vote p op w => Sys2Proof.Machine.execVote p op w s
  | .elect p w => Sys2Proof.Machine.execElect p w s
  | .widf p t w => Sys2Proof.Machine.execWidf p t w s
  | .msk p op w => Sys2Proof.Machine.execMsk p op w s
  | .spawn p w => Sys2Proof.Machine.execSpawn p w s
  | .bari p w => Sys2Proof.Machine.execBari p w s
  | .bara p w => Sys2Proof.Machine.execBara p w s
  | .barw p w => Sys2Proof.Machine.execBarw p w s
  | .bars p w => Sys2Proof.Machine.execBars p w s
  | .ld p t w => Sys2Proof.Machine.execLd p t w s
  | .st p t w => Sys2Proof.Machine.execSt p t w s
  | .ldg p t w => Sys2Proof.Machine.execLdg p t w s
  | .stg p t w => Sys2Proof.Machine.execStg p t w s
  | .ldt p t w => Sys2Proof.Machine.execLdt p t w s
  | .stt p t w => Sys2Proof.Machine.execStt p t w s
  | .pref p t w => Sys2Proof.Machine.execPref p t w s
  | .atom p op t w => Sys2Proof.Machine.execAtom p op t w s
  | .red p op t w => Sys2Proof.Machine.execRed p op t w s
  | .bfaIns p w => Sys2Proof.Machine.execBfaIns p w s
  | .bfaFfcs p w => Sys2Proof.Machine.execBfaFfcs p w s
  | .bfaPlset p w => Sys2Proof.Machine.execBfaPlset p w s
  | .fence p w => Sys2Proof.Machine.execFence p w s
  | .fencesc p w => Sys2Proof.Machine.execFencesc p w s
  | .sld p w => Sys2Proof.Machine.execSld p w s
  | .sst p w => Sys2Proof.Machine.execSst p w s
  | .sepoch p w => Sys2Proof.Machine.execSepoch p w s
  | .sepochBind p w => Sys2Proof.Machine.execSepochBind p w s
  | .sepochUnbind p w => Sys2Proof.Machine.execSepochUnbind p w s
  | .harden p w => Sys2Proof.Machine.execHarden p w s
  | .slda p w => Sys2Proof.Machine.execSlda p w s
  | .ssta p w => Sys2Proof.Machine.execSsta p w s
  | .hatt p w => Sys2Proof.Machine.execHatt p w s
  | .hdet p w => Sys2Proof.Machine.execHdet p w s
  | .hset p w => Sys2Proof.Machine.execHset p w s
  | .hget p w => Sys2Proof.Machine.execHget p w s
  | .moor p t w => Sys2Proof.Machine.execMoor p t w s
  | .unmoor p w => Sys2Proof.Machine.execUnmoor p w s
  | .mloop p sr unf t w => Sys2Proof.Machine.execMloop p sr unf t w s
  | .mloopg p sr unf t w => Sys2Proof.Machine.execMloopg p sr unf t w s
  | .oprdy p w => Sys2Proof.Machine.execOprdy p w s
  | .mfence p w => Sys2Proof.Machine.execMfence p w s
  | .mwait p w => Sys2Proof.Machine.execMwait p w s
  | .accz p w => Sys2Proof.Machine.execAccz p w s
  | .accrd p t w => Sys2Proof.Machine.execAccrd p t w s
  | .accwr p t w => Sys2Proof.Machine.execAccwr p t w s
  | .cpyPlain p w => Sys2Proof.Machine.execCpyPlain p w s
  | .cpyTile p w => Sys2Proof.Machine.execCpyTile p w s
  | .cpyTr p w => Sys2Proof.Machine.execCpyTr p w s
  | .cpyMcast p w => Sys2Proof.Machine.execCpyMcast p w s
  | .cpyFlash p w => Sys2Proof.Machine.execCpyFlash p w s
  | .cpys p w => Sys2Proof.Machine.execCpys p w s
  | .cpyr p t w => Sys2Proof.Machine.execCpyr p t w s
  | .drain p path => Sys2Proof.Machine.execDrain p path s
  | .fold p w => Sys2Proof.Machine.execFold p w s
  | .emb p mean w => Sys2Proof.Machine.execEmb p mean w s
  | .upd p adam w => Sys2Proof.Machine.execUpd p adam w s
  | .trap p w => Sys2Proof.Machine.execTrap p w s
  | .eret w => Sys2Proof.Machine.execEret w s
  | .srd p t w => Sys2Proof.Machine.execSrd p t w s
  | .swr p t w => Sys2Proof.Machine.execSwr p t w s
  | .tmaskMask w => Sys2Proof.Machine.execTmaskMask w s
  | .tmaskUnmask w => Sys2Proof.Machine.execTmaskUnmask w s
  | .bkpt p w => Sys2Proof.Machine.execBkpt p w s
  | .eclw p pkg w => Sys2Proof.Machine.execEclw p pkg w s
  | .launch p w => Sys2Proof.Machine.execLaunch p w s
  | .yield p w => Sys2Proof.Machine.execYield p w s
  | .rep w => Sys2Proof.Machine.execRep w s
  | .errorInjection site addr => Sys2Proof.Machine.execErrorInjection site addr s
  | .producerCompletion prod => Sys2Proof.Machine.execProducerCompletion prod s
  | .accessPerform acc => Sys2Proof.Machine.execAccessPerform acc s
  | .reductionEntry acc => Sys2Proof.Machine.execReductionEntry acc s
  | .reductionMerge acc other => Sys2Proof.Machine.execReductionMerge acc other s
  | .blendEntry acc => Sys2Proof.Machine.execBlendEntry acc s
  | .teamRetirement team => Sys2Proof.Machine.execTeamRetirement team s
  | .packerTake launch queue => Sys2Proof.Machine.execPackerTake launch queue s
  | .fillingTeamTimeout launch queue => Sys2Proof.Machine.execFillingTeamTimeout launch queue s
  | .copyCompletion copy => Sys2Proof.Machine.execCopyCompletion copy s
  | .moorConversionDone team => Sys2Proof.Machine.execMoorConversionDone team s
  | .matrixStep group => Sys2Proof.Machine.execMatrixStep group s
  | .shareDelivery issue member => Sys2Proof.Machine.execShareDelivery issue member s
  | .mloopgStatus issue => Sys2Proof.Machine.execMloopgStatus issue s
  | .commandEntry cmd => Sys2Proof.Machine.execCommandEntry cmd s
  | .foldMove cmd => Sys2Proof.Machine.execFoldMove cmd s
  | .embBag cmd lane => Sys2Proof.Machine.execEmbBag cmd lane s
  | .updElement cmd elem => Sys2Proof.Machine.execUpdElement cmd elem s
  | .completionWord cmd => Sys2Proof.Machine.execCompletionWord cmd s
  | .aliasAdd acc => Sys2Proof.Machine.execAliasAdd acc s
  | .aliasMinMax acc => Sys2Proof.Machine.execAliasMinMax acc s
  | .aliasBitwise acc => Sys2Proof.Machine.execAliasBitwise acc s
  | .rowFill acc => Sys2Proof.Machine.execRowFill acc s
  | .rowCopy acc => Sys2Proof.Machine.execRowCopy acc s
  | .planeMultiplyAccumulate acc => Sys2Proof.Machine.execPlaneMultiplyAccumulate acc s
  | .planeAdd acc => Sys2Proof.Machine.execPlaneAdd acc s
  | .microprogramBurst acc => Sys2Proof.Machine.execMicroprogramBurst acc s
  | .remapSwap hot cool => Sys2Proof.Machine.execRemapSwap hot cool s
  | .swapHoldEnd stack => Sys2Proof.Machine.execSwapHoldEnd stack s
  | .registerWindowWrite acc => Sys2Proof.Machine.execRegisterWindowWrite acc s
  | .emptyingWindowWrite acc => Sys2Proof.Machine.execEmptyingWindowWrite acc s
  | .replayWalk team => Sys2Proof.Machine.execReplayWalk team s
  | .replayThreshold who => Sys2Proof.Machine.execReplayThreshold who s
  | .beaconTick busy => Sys2Proof.Machine.execBeaconTick busy s
  | .diePhaseEnd die => Sys2Proof.Machine.execDiePhaseEnd die s
  | .packagePhaseEnd => Sys2Proof.Machine.execPackagePhaseEnd s
  | .eclwLimitExpiry team => Sys2Proof.Machine.execEclwLimitExpiry team s
  | .queueWrite vf q tail => Sys2Proof.Machine.execQueueWrite vf q tail s
  | .entryTake vf q => Sys2Proof.Machine.execEntryTake vf q s
  | .distribution launch => Sys2Proof.Machine.execDistribution launch s
  | .bind unit places => Sys2Proof.Machine.execBind unit places s
  | .evict unit => Sys2Proof.Machine.execEvict unit s
  | .preEmption unit => Sys2Proof.Machine.execPreEmption unit s
  | .heldPreEmptionForce team => Sys2Proof.Machine.execHeldPreEmptionForce team s
  | .launchCompletion launch => Sys2Proof.Machine.execLaunchCompletion launch s
  | .invalidation vf value => Sys2Proof.Machine.execInvalidation vf value s
  | .invalidationDone vf => Sys2Proof.Machine.execInvalidationDone vf s
  | .qprioWrite vf q prio => Sys2Proof.Machine.execQprioWrite vf q prio s
  | .frrefWrite vf value => Sys2Proof.Machine.execFrrefWrite vf value s
  | .registerPageWrite page off size value => Sys2Proof.Machine.execRegisterPageWrite page off size value s
  | .setdom => Sys2Proof.Machine.execSetdom s
  | .setmask => Sys2Proof.Machine.execSetmask s
  | .rowset => Sys2Proof.Machine.execRowset s
  | .pin => Sys2Proof.Machine.execPin s
  | .patset => Sys2Proof.Machine.execPatset s
  | .nsgrant => Sys2Proof.Machine.execNsgrant s
  | .ckpt err => Sys2Proof.Machine.execCkpt err s
  | .restore err => Sys2Proof.Machine.execRestore err s
  | .power => Sys2Proof.Machine.execPower s
  | .nonce => Sys2Proof.Machine.execNonce s
  | .dbgauth => Sys2Proof.Machine.execDbgauth s
  | .dbgend => Sys2Proof.Machine.execDbgend s
  | .attest => Sys2Proof.Machine.execAttest s
  | .chain => Sys2Proof.Machine.execChain s
  | .peer => Sys2Proof.Machine.execPeer s
  | .fusepr => Sys2Proof.Machine.execFusepr s
  | .unknownCommand => Sys2Proof.Machine.execUnknownCommand s
  | .mailboxCompletion => Sys2Proof.Machine.execMailboxCompletion s
  | .bringUp r => Sys2Proof.Machine.execBringUp r s
  | .fabricDoorbell vf => Sys2Proof.Machine.execFabricDoorbell vf s
  | .put vf => Sys2Proof.Machine.execPut vf s
  | .putAcknowledge put res => Sys2Proof.Machine.execPutAcknowledge put res s
  | .flashExtent copy extent err => Sys2Proof.Machine.execFlashExtent copy extent err s
  | .softError addr uncorrectable => Sys2Proof.Machine.execSoftError addr uncorrectable s
  | .frheadWrite vf value => Sys2Proof.Machine.execFrheadWrite vf value s
  | .portStateChange port up => Sys2Proof.Machine.execPortStateChange port up s
  | .incomingPut vf dst data signal => Sys2Proof.Machine.execIncomingPut vf dst data signal s
  | .invasiveDebugCommand team ask => Sys2Proof.Machine.execInvasiveDebugCommand team ask s

end Sys2Proof.Machine
end

