-- ==== Sys2Proof/Machine/Issue.lean ====
section
/-! DEFINITION. A team issues its next instruction: steps 1 to 3 of R20, region entries, the iterations of REP, and the next device event
(R14 to R20, R91, R138, R146, R188, R350, R351, R355, R388, R389). -/

namespace Sys2Proof.Machine

/-- A store of the team into its own image through a window, applied before the team's next instruction (R188). -/
def State.ownWindow (s : State) (t : Nat) (tm : Team) : Bool :=
  s.pend.any fun a => a.2.party == .team t && (match a.2.kind with
    | .windowWrite _ | .windowEmpty => true
    | _ => false) && tm.image != 0 && decide (tm.image ≤ a.2.addr) && decide (a.2.addr < tm.image + imageSize tm.lanes tm.vcount)

/-- The device runs teams and its own work (R389, R391). -/
def State.running (s : State) : Bool := (s.power == .p0 || s.power == .p1) && s.boot == .up

/-- Stopped by an invasive debugger, where one may act, with no step left (R129, R388). -/
def State.stopped (s : State) (tm : Team) : Bool := tm.halted && tm.steps == 0 && s.invasiveOk (s.vfOf tm)

/-- A team may go on at this boundary: it runs, its group is bound, and its unit is not leaving (R146, R356, R357). -/
def State.runnable (s : State) (t : Nat) (tm : Team) : Bool :=
  s.running &&
    (match tm.phase with
      | .running | .refused .. => true
      | _ => false) &&
    ((s.groupOfTeam tm).elim false fun g => g.place.isSome && !g.retired && (g.leave.isNone || s.held? (s.unitOf tm.group))) &&
    !s.stopped tm && !s.ownWindow t tm

/-! ### Turns (R154) -/

/-- A team is ready: it may go on, and what it waited for has come. -/
def State.ready (s : State) (t : Nat) (tm : Team) : Bool := s.runnable t tm && s.stallOver tm

/-- The core on which a team is bound. -/
def State.coreOf (s : State) (tm : Team) : Option Nat := (s.groupOfTeam tm).bind Group.core

/-- Another ready team of the core has been passed by this one already: it issues first (R154). -/
def State.mustYield (s : State) (t : Nat) (tm : Team) : Bool :=
  s.teams.any fun u => u.1 != t && u.2.passed.contains t && s.coreOf u.2 == s.coreOf tm && s.ready u.1 u.2

/-- The turn is another group's, which this team's group has passed since, and which has a ready team whose turn it can be (R154). -/
def State.groupYields (s : State) (tm : Team) : Bool :=
  s.teams.any fun u => u.2.group != tm.group && s.coreOf u.2 == s.coreOf tm &&
    (s.groupOfTeam u.2).elim false (·.waited.contains tm.group) && s.ready u.1 u.2 && !s.mustYield u.1 u.2

/-- A team may issue: it may go on, and it is its group's turn and its own. -/
def State.mayIssue (s : State) (t : Nat) (tm : Team) : Bool := s.runnable t tm && !s.mustYield t tm && !s.groupYields tm

/-- A group has a ready team. -/
def State.groupReady (s : State) (g : Nat) : Bool := s.teams.any fun u => u.2.group == g && s.ready u.1 u.2

/-- The predicate and the operand positions of the instructions that may name v registers or write mask bits. -/
def laneUses : Instr → Option (Pred × List Use)
  | .movi p t w => some (p, [dUse t (lDest w)])
  | .atom p op t w => some (p, usesAtom t w (op == .cas))
  | .red p _ t w => some (p, usesAB w wantIndex .active ++ [dSrc t w.d w.fed])
  | .bfaIns p w => some (p, usesAtom .n64 w true)
  | .bfaFfcs p w | .bfaPlset p w => some (p, usesAtom .n64 w false)
  | .ldt p t w => some (p, usesTile t w false)
  | .stt p t w => some (p, usesTile t w true)
  | .sld p w | .harden p w => some (p, usesPointer w ++ [{ letter := .d, opd := w.d, want := wantV, write := true }])
  | .sst p w => some (p, usesPointer w ++ [{ letter := .d, opd := w.d, want := wantV, read := true }])
  | .slda p w => some (p, usesSlda w)
  | .spawn p w => some (p, usesSpawn w)
  | .accrd p t w => some (p, usesAccrd t w)
  | .accwr p t w => some (p, usesAccwr t w)
  | .emb p _ w => some (p, usesEmb w)
  | .srd p t w => some (p, usesSrd t w)
  | .swr p t w => some (p, usesSwr t w)
  | i => (follower i).map fun f => (f.p, f.us)

/-- The position is a v register, or a mask register that is written (R134). -/
def Use.sweeps (u : Use) : Bool := ((u.read || u.write) && u.opd.cls == .v) || (u.write && u.opd.cls == .m)

/-- How many passes an instruction of the team issues: one for each word of the lanes that has an active one where it sweeps the team,
else one (R134). -/
def Team.passes (tm : Team) (i : Instr) : Nat :=
  match laneUses i with
  | none => 1
  | some (p, us) =>
    if us.any Use.sweeps then
      let act := tm.active p
      Nat.max 1 ((List.range tm.words).filter fun w => act.extractLsb' (32 * w) 32 != 0#32).length
    else 1

/-- The team's instruction has had its pass: it did not wait, or it has just begun to wait for what it began. -/
def Team.hasIssued (old new : Team) : Bool :=
  match new.stall with
  | .none => true
  | .barrier .. | .moor .. => new.stall != old.stall
  | _ => false

/-- Team t, which s let issue, has issued: the teams of its core that were ready then have been passed by it once more, and its own
turn is over; so for the groups (R154). -/
def State.passTurn (s : State) (t : Nat) (tm : Team) (s1 : State) : State :=
  let passed := (tabGet? s1.teams t).elim true tm.hasIssued
  let add (n : Nat) (ns : List Nat) : List Nat := if ns.contains n then ns else ns ++ [n]
  { s1 with
    groups := if !passed then s1.groups else s1.groups.map fun (h : Nat × Group) =>
      if h.1 = tm.group then (h.1, { h.2 with waited := [] })
      else if h.2.core != s.coreOf tm then h
      else (h.1, { h.2 with waited := if s.groupReady h.1 then add tm.group h.2.waited else [] })
    teams := s1.teams.map fun (u : Nat × Team) =>
      if u.1 = t then (u.1, { u.2 with passed := [] })
      else if !passed || s.coreOf u.2 != s.coreOf tm then u
      else (u.1, { u.2 with passed :=
        if (tabGet? s.teams u.1).elim false (s.ready u.1) then add t u.2.passed else [] }) }

/-- Steps 1 and 2 passed: the slot is the team's region entry when it is marked, or when the last instruction closed a region (R19,
R350, R351). -/
def Team.enter (tm : Team) (marked : Bool) : Team :=
  let entry := !tm.recorded && (marked || tm.closed)
  { tm with
    entered := false
    checked := false
    recorded := true
    closed := false
    regpc := if entry then tm.pc else tm.regpc
    rvalid := entry || tm.rvalid
    regcnt := if entry then tm.regcnt + 1 else tm.regcnt }

/-- Step 1 of R20 at the team's PC; that of a REP fetches its follower's slot too (R90). -/
def State.fetchStep (s : State) (vf : Nat) (tm : Team) : Except Stop (Nat × Slot) :=
  match s.fetchSlot vf tm.pc tm.entered with
  | .error e => .error e
  | .ok x =>
    if x.2.toNat / 2 ^ 88 = 0xF0 then match s.fetchFollower vf tm.pc with
      | .error e => .error e
      | .ok _ => .ok x
    else .ok x

/-- Steps 1 to 3 of R20: the instruction at the team's PC, or the next iteration of its REP, and the state that executes it. An
iteration makes steps 5 to 8 alone (R91); a team bound anew inside a REP has its line word checked at the slot after the
follower (R17; DESIGN CHOICE, log 92). -/
def State.nextInstr (s : State) (t : Nat) (tm : Team) : Except (Stop × State) (Instr × State) :=
  let vf := s.vfOf tm
  match tm.rep with
  | some (i, w, f) => .ok (stepped (movesAt w i) f, s)
  | none =>
    match s.fetchStep vf tm with
    | .error e => .error (e, s)
    | .ok (lw, slot) =>
      let k := tm.pc.toNat % 8
      if tm.checked && !lw.testBit k then .error (.trap .branchTarget 0 0, s)
      else
        let s1 := s.setTeam t (tm.enter (lw.testBit (10 + k)))
        match decode slot with
        | .error _ => .error (.trap .illegalInstruction 0 0, s1)
        | .ok i => .ok (i, s1)

/-- A single step of a debugger is over when the instruction did not wait. -/
def Team.stepDone (tm : Team) : Team :=
  if tm.stall = .none && (tm.phase == .running || tm.phase == .ended) then { tm with steps := tm.steps - 1 } else tm

/-- What follows an issue of team t from state s: the turn is over, a team now masked holds a request to leave (R357), and a
debugger's step is taken off. -/
def State.endIssue (s : State) (t : Nat) (tm : Team) (s1 : State) : State :=
  ((s.passTurn t tm s1).holdDue t).onTeam t Team.stepDone

/-- The passes of the instruction just issued that are still to come: none where the instruction waits to issue again (R154). -/
def Team.owe (old : Team) (i : Instr) (new : Team) : Team := { new with owed := if old.hasIssued new then old.passes i - 1 else 0 }

/-! ### The words of its image that an instruction reads and writes (R184, R185, R218, R223, R226, R234) -/

/-- The predicate and the positions of an instruction that names a register, with what step 4 checks besides. -/
def State.regUses (s : State) : Instr → Option Follower
  | .bra p _ | .exit p | .pick p _ | .fence p _ | .fencesc p _ | .oprdy p _ | .drain p _ | .sepochBind p _ | .sepochUnbind p _
  | .accz p _ | .trap p _ | .bkpt p _ | .yield p _ => some { p := p, us := [] }
  | .brc p _ _ a => some { p := p, us := [mUse .a a .plain false] }
  | .brd _ a _ => some { p := ⟨false, 0⟩, us := [mUse .a a .plain false] }
  | .jmp p a | .ret p a => some { p := p, us := [sUse .a a] }
  | .call p _ a => some { p := p, us := [{ letter := .a, opd := a, want := wantS, write := true }] }
  | .loop p _ a => some { p := p, us := [{ sUse .a a with write := true }] }
  | .bari p w => some { p := p, us := usesBari w }
  | .bara p w => some { p := p, us := usesBar w [unused .d] }
  | .barw p w | .bars p w => some { p := p, us := usesBar w [statusUse w] }
  | .hget p w => some { p := p, us := usesHget w }
  | .hset p w => some { p := p, us := usesHset w }
  | .hatt p w | .launch p w => some { p := p, us := usesInOut w }
  | .eclw p _ w => some { p := p, us := usesEclw w }
  | .hdet p w => some { p := p, us := [{ letter := .d, opd := w.d, want := wantS, write := true }] }
  | .sepoch p w | .mfence p w =>
    some { p := p, us := if w.d == .zero then [] else [{ letter := .d, opd := w.d, want := wantS, write := true }] }
  | .ssta p w => some { p := p, us := usesInOut w, more := fun tm => barOk s w tm && w.handle != 0xFFF }
  | .slda p w => some { p := p, us := usesSlda w, more := fun _ => sldaDistinct w && (!softGrad w || w.handle != 0xFFF) }
  | .moor p _ w => some { p := p, us := usesMoor w .none }
  | .unmoor p w => some { p := p, us := usesA w }
  | .mloop p _ _ _ w => some { p := p, us := usesLoop w false }
  | .mloopg p _ _ _ w => some { p := p, us := usesLoop w true, more := fun tm => decide (w.bn.toNat < s.barCount tm) }
  | .mwait p w => some { p := p, us := usesMwait w .none }
  | .cpyPlain p w | .cpyTile p w | .cpyTr p w | .cpyMcast p w | .cpyFlash p w | .cpys p w | .cpyr p _ w =>
    some { p := p, us := usesCopy w, more := fun tm => w.a.num.toNat % 4 == 0 && barOk s w tm }
  | .fold p w => some { p := p, us := usesFold w }
  | .upd p _ w => some { p := p, us := usesUpd w }
  | .spawn p w => some { p := p, us := usesSpawn w, more := fun tm => (s.spawnQueue tm (w.imm 3 0)).isSome }
  | .srd p t w => some { p := p, us := usesSrd t w, more := fun _ => decide (w.a.num.toNat ≤ 11) }
  | .swr p t w => some { p := p, us := usesSwr t w, more := fun _ => writable w.d.num.toNat }
  | i => (follower i).or ((laneUses i).map fun x => { p := x.1, us := x.2 })

/-- The words of an m register that hold lanes, all those of a team, or the one that an index names. -/
def Use.wordsHit (u : Use) (whole : Bool) (words : Nat) (lanes : List Nat) : List RegRef :=
  match u.opd.cls with
  | .m => if u.opd.num = 0 then []
      else ((List.range words).filter fun w => (whole || lanes.any fun l => l / 32 == w) && u.word.elim true (· == w)).map
        (RegRef.m u.opd.num.toNat)
  | _ => u.refs lanes

/-- The register words that an instruction without a wait left behind writes in the lanes given, but for those of its producers. -/
def Team.wordsWritten (tm : Team) (i : Instr) (us : List Use) (lanes : List Nat) : List RegRef :=
  let all (whole : Bool) (lanes : List Nat) : List RegRef := (us.filter (·.write)).flatMap fun u => u.wordsHit whole tm.words lanes
  match i with
  | .vote _ .ballot _ => all true lanes
  | .loop _ _ a => if tm.sGet a.num.toNat = 0 then [] else all false lanes
  | .fupd _ adam w => all false (lanes.filter fun l => (fupdStep adam w tm l).written)
  | _ => all false lanes

/-- The coordinate registers of a tile element, which its handle's rank gives (R243). -/
def State.coordWords (s : State) (t : Nat) (tm : Team) (i : Instr) (lanes : List Nat) : List RegRef :=
  match i with
  | .ldt _ _ w | .stt _ _ w => match s.useHandle (.team t) (s.vfOf tm) tm.launch w.handle.toNat with
    | .ok (h, _, _) => (List.range h.rank).flatMap fun d => lanes.map fun l => RegRef.v (w.a.num.toNat + d) l
    | .error _ => []
  | _ => []

/-- The register words that an instruction reads, when it reads them: its predicate at step 5, its sources at step 6. -/
def State.wordsRead (s : State) (t : Nat) (tm : Team) (i : Instr) (f : Follower) (lanes : List Nat) : List RegRef :=
  if tm.stall.begun || !(f.us.all (Use.ok (s.counts tm)) && f.more tm) then []
  else
    (if f.p.pm = 0 then [] else (List.range tm.words).map fun w => RegRef.m f.p.pm.toNat w) ++
      (if lanes = [] then [] else match s.sources tm f.us (actsOnce f.us) lanes with
        | .error _ => []
        | .ok _ => ((f.us.filter (·.read)).flatMap fun u => u.refs (u.lanesRead (actsOnce f.us) tm.lanes lanes)) ++
            s.coordWords t tm i lanes)

/-- The words that the team reads, and those that it waited for, at the latest write of each where a window has written it: its own writes
it knows of (R223, R234). -/
def Team.chooseWords (old new : Team) (qs : List RegRef) : Team :=
  if old.past.all (·.own != 0) then new
  else
    let ws := qs.filter fun q => (old.wordOrder q).any (·.own == 0)
    { new with pv := { new.pv with o := old.raiseWords new.pv.o ws (old.wordsLatest ws) } }

/-- Team t, which was old, after its instruction i: what the instruction has read and written of the words of its image is in its views
and in their orders. One that waits or traps has written none. -/
def State.enterWords (s : State) (t : Nat) (old : Team) (i : Instr) (new : Team) : Team :=
  if new.image = 0 ∨ old.image ≠ new.image then new
  else match s.regUses i with
  | none => new
  | some f =>
    let lanes := lanesOf old.lanes (old.active f.p)
    let waited := match old.stall with
      | .regs rs => rs.filter fun q => !old.isEmpty q
      | _ => []
    let done := new.stall = .none && !(new.masked && !old.masked) && new.phase == .running && (lanes != [] || old.stall.begun)
    (old.chooseWords new (waited ++ s.wordsRead t old i f lanes)).enterOwn old.pv.rel
      (if done then ((old.wordsWritten i f.us lanes).filter fun q => !new.isEmpty q).map fun q => (q, old.regValue q) else [])

/-- The outcome of an instruction i of team t, with what follows. -/
def afterStep (s : State) (t : Nat) (tm : Team) (i : Instr) : Host.Outcome State Fault Refusal → Host.Outcome State Fault Refusal
  | .next s1 => .next (((s.endIssue t tm s1).onTeam t (tm.owe i)).onTeam t (s.enterWords t tm i))
  | o => o

/-- Team t issues its next pass, when it may: one more of the instruction issued last, whose effects its first pass has brought, or
the first of its next instruction. -/
def issue (t : Nat) (s : State) : Host.Outcome State Fault Refusal :=
  match tabGet? s.teams t with
  | none => .next s
  | some tm =>
    if !s.mayIssue t tm then .next s
    else if tm.owed ≠ 0 then .next (s.passTurn t tm (s.setTeam t { tm with owed := tm.owed - 1 }))
    else
      let s1 := { s with cur := some t }
      match tm.phase with
      | .refused va lanes =>
        .next (s.endIssue t tm ((s1.setTeam t { tm with phase := .running }).settle t lanes (Stop.at .access va)))
      | _ => match s1.nextInstr t tm with
        | .error (e, s2) => .next (s.endIssue t tm (s2.settle t 0 e))
        | .ok (i, s2) => afterStep s t tm i (exec i s2)

/-! ### Events (R373, R389, R391) -/

/-- The events that the host and the surroundings bring, which do not wait for the device's own clock. -/
def outside : Instr → Bool
  | .queueWrite .. | .qprioWrite .. | .invalidation .. | .frrefWrite .. | .frheadWrite .. | .registerPageWrite .. | .setdom | .setmask
  | .rowset | .pin | .patset | .nsgrant | .ckpt _ | .restore _ | .power | .nonce | .dbgauth | .dbgend | .attest | .chain | .peer
  | .fusepr | .unknownCommand | .mailboxCompletion | .bringUp _ | .softError .. | .portStateChange .. => true
  | _ => false

/-- The event reaches a register page of a virtual function. -/
def pageEvent : Instr → Bool
  | .queueWrite .. | .qprioWrite .. | .invalidation .. | .frrefWrite .. | .frheadWrite .. => true
  | _ => false

/-- The surroundings may bring an event: before bring-up only bring-up itself, since the host link does not yet enumerate; in recovery and
out of S3 all but the register pages of the virtual functions (R389, R391). -/
def State.reaches (s : State) (i : Instr) : Bool :=
  match i with
  | .bringUp _ => true
  | _ => match s.boot with
    | .reset => false
    | .up => true
    | _ => !pageEvent i

/-- An event of the table happens, when the power state and bring-up let it. -/
def happen (i : Instr) (s : State) : Host.Outcome State Fault Refusal :=
  if s.running || (outside i && s.reaches i) then exec i s else .next s

end Sys2Proof.Machine
end

