-- ==== Sys2Proof/Machine/Auto.lean ====
section
/-! DEFINITION. The moves of a step, and the choice of one where no move is asked for: the device's work in turn, then what only the
passing of time brings (R154, R155, R217, R239). -/

namespace Sys2Proof.Machine

/-- The host's own accesses go to its memory, and, while the device runs (R389, R391), to the device's outside the register images, where
it places headers and finds results (R239, R328); it has only the system instance (R221). -/
def State.hostPlace (s : State) (a n : Nat) : Bool :=
  (List.range n).all fun i =>
    (decide (hostByte 0 ≤ a + i) && decide (a + i < 2 ^ 48)) ||
      (s.running && decide (a + i < 2 ^ 40) && s.stackHas (a + i) && !s.isImage (a + i))

/-- What a move does. Instruction words come only from a team's program, so a move that names one as an event has no effect. -/
def moveOf (m : Move) (s : State) : Host.Outcome State Fault Refusal :=
  match m with
  | .issue t => issue t s
  | .event i => if (encode i).isNone then happen i s else .next s
  | .hostWrite a data release =>
    .next (if s.hostPlace a data.length then
      (s.writeMem .host (if release then some .system else none) [] a data).unmark a data.length else s)
  | .hostRead a n acquire =>
    .next (if s.hostPlace a n then (s.readMem .host (if acquire then some .system else none) a n).2 else s)
  | .hostRefuse ranges => .next { s with hostDenied := ranges }
  | .land k i => .next (if s.running then s.land k i else s)
  | .oldEntry a back => .next { s with stale := tabSet s.stale a back }

/-- The state after an outcome, with the register words that the teams' own instructions and producers changed entered in their orders
(R218). -/
def logged (s : State) : Host.Outcome State Fault Refusal → Host.Outcome State Fault Refusal
  | .next s1 => .next (s.logOwn s1)
  | o => o

/-- One move. -/
def makeMove (m : Move) (s : State) : Host.Outcome State Fault Refusal := logged s (moveOf m s)

/-! ### What the device could do next -/

/-- The event of a pending access. -/
def Access.event (id : Nat) (a : Access) : Instr :=
  match a.kind with
  | .red .. => .reductionEntry id
  | .blend .. => .blendEntry id
  | .windowWrite _ => .registerWindowWrite id
  | .windowEmpty => .emptyingWindowWrite id
  | .windowOp code _ _ => match code with
    | 1 => .aliasAdd id
    | 2 | 3 => .aliasMinMax id
    | 4 | 5 | 6 => .aliasBitwise id
    | 7 => .rowFill id
    | 8 => .rowCopy id
    | 9 => .planeMultiplyAccumulate id
    | _ => .planeAdd id
  | _ => .accessPerform id

/-- The events of a command. -/
def Command.events (k : Nat) (c : Command) : List Instr :=
  let next : List Instr := match c.todo with
    | [] => []
    | u :: _ => match c.kind with
      | .fold .. => []
      | .emb _ _ bags => bags.map fun b => .embBag k b.lane
      | .upd .. => [.updElement k u.1]
  .commandEntry k :: .foldMove k :: next ++ [.completionWord k]

/-- The events of a copy. -/
def Copy.events (k : Nat) (c : Copy) : List Instr :=
  let x := c.slices[c.extent.1]?
  let first := x.elim 0 fun x => lo32 x.w2
  .copyCompletion k :: if c.mode == .flash then [.flashExtent k (first + c.extent.2) false] else []

/-- The event of the mailbox's command (R377). -/
def Mailbox.event (m : Mailbox) : List Instr :=
  if !m.busy then []
  else if m.result.isSome then [.mailboxCompletion]
  else match m.opc.toNat with
    | 1 => [.setdom] | 2 => [.setmask] | 3 => [.rowset] | 4 => [.pin] | 5 => [.patset] | 6 => [.nsgrant]
    | 7 => [.ckpt false] | 8 => [.restore false] | 9 => [.power] | 10 => [.nonce] | 11 => [.dbgauth] | 12 => [.dbgend]
    | 13 => [.attest] | 14 => [.chain] | 15 => [.peer] | 16 => [.fusepr] | _ => [.unknownCommand]

/-- The events of the watch core and of the groups. -/
def State.watchEvents (s : State) : List Instr :=
  s.nextQueue.elim [] (fun q => [Instr.entryTake q.2.1 q.2.2]) ++
    s.ctxs.flatMap (fun (c : Nat × Context) => [.invalidationDone c.1, .fabricDoorbell c.1, .put c.1]) ++
    s.launches.flatMap (fun (l : Nat × Launch) => .distribution l.1 ::
      l.2.spawn.map (fun q => Instr.packerTake l.1 q.1) ++ [Instr.launchCompletion l.1]) ++
    s.groups.flatMap (fun (g : Nat × Group) =>
      (if s.unitWaits g.1 then (s.placeUnit g.1).elim [] (fun pls => [Instr.bind g.1 pls]) else []) ++
        [Instr.preEmption g.1, .evict g.1]) ++
    s.held.map (fun (h : Nat × (Nat × Nat)) => Instr.swapHoldEnd h.1)

/-- A team waits for a tick of the beacon, or for a phase to end. -/
def State.awaits (s : State) (f : Stall → Bool) : Bool := s.teams.any fun (t : Nat × Team) => f t.2.stall

/-- What the memory system, the engines, the watch core and the teams could do next. -/
def State.work (s : State) : List Move :=
  (s.mailbox.event.map Move.event) ++
  (s.pend.map fun (a : Nat × Access) => Move.event (a.2.event a.1)) ++
  (s.inbound.map fun (q : Nat × Inbound) => Move.land q.1 ((q.2.todo.head?).elim 0 (·.1))) ++
  (s.prods.map fun (p : Nat × Producer) => Move.event (.producerCompletion p.1)) ++
  (s.copies.flatMap fun (c : Nat × Copy) => (c.2.events c.1).map Move.event) ++
  (s.issues.flatMap fun (i : Nat × Issue) =>
    i.2.toSend.map (fun m => Move.event (.shareDelivery i.1 m)) ++ [Move.event (.mloopgStatus i.1)]) ++
  (s.groups.map fun (g : Nat × Group) => Move.event (.matrixStep g.1)) ++
  (s.commands.flatMap fun (c : Nat × Command) => (c.2.events c.1).map Move.event) ++
  (s.watchEvents.map Move.event) ++
  (s.teams.flatMap fun (t : Nat × Team) => [Move.issue t.1, .event (.moorConversionDone t.1), .event (.replayWalk t.1),
    .event (.teamRetirement t.1)]) ++
  (if s.awaits fun w => match w with | .eclw .. => true | _ => false then
    ((List.range 4).map fun d => Move.event (.diePhaseEnd d)) ++ [Move.event .packagePhaseEnd] else [])

/-- What only a longer wait brings. -/
def State.timers (s : State) : List Move :=
  (s.teams.flatMap fun (t : Nat × Team) => [Move.event (.eclwLimitExpiry t.1), .event (.heldPreEmptionForce t.1),
    .event (.replayThreshold (.team t.1))]) ++
  (s.launches.flatMap fun (l : Nat × Launch) => l.2.spawn.map fun q => Move.event (.fillingTeamTimeout l.1 q.1)) ++
  (s.copies.map fun (c : Nat × Copy) => Move.event (.replayThreshold (.copy c.1))) ++
  (s.commands.map fun (c : Nat × Command) => Move.event (.replayThreshold (.command c.1))) ++
  (s.ctxs.flatMap fun (c : Nat × Context) => c.2.queues.map fun q => Move.event (.replayThreshold (.entry c.1 q.1)))

/-! ### The choice -/

/-- The state after a move that changes something. -/
def tryMove (s : State) (m : Move) : Option State :=
  match makeMove m s with
  | .next s1 => if { s1 with cur := s.cur } = s then none else some s1
  | _ => none

/-- The first move of a list that changes something: the state after it, with the moves behind it as the rest of the round. -/
def firstMove (s : State) : List Move → Option State
  | [] => none
  | m :: rest => match tryMove s m with
    | some s1 => some { s1 with round := rest }
    | none => firstMove s rest

/-- A new round: all the work there is now, then a beacon tick; what only a longer wait brings comes with every 64th tick. -/
def State.newRound (s : State) : List Move :=
  s.work ++ (if s.beacon.toNat % 64 = 63 then s.timers else []) ++ [.event (.beaconTick [])]

/-- The next move where none is asked for: the next of the round that changes something, or the first of a new round. Every move that
could be made when a round began is tried in it, so that nothing is passed over for ever (R154, R155; log 1). -/
def autoStep (s : State) : Host.Outcome State Fault Refusal :=
  match (firstMove s s.round).or (firstMove s s.newRound) with
  | some s1 => .next s1
  | none => makeMove (.event (.beaconTick [])) s

end Sys2Proof.Machine
end

