-- ==== Sys2Proof/Machine/Place.lean ====
section
/-! DEFINITION. A device that holds one resident team about to issue a given word: what loading a program from outside comes to, for
State.withFetchWord (log 60). -/

namespace Sys2Proof.Machine

/-- The launch of the placed team: one gang of one group of one team of 32 lanes. -/
def placedLaunch (pc : Word64) : Launch where
  vf := 0
  lnum := 1
  queue := 0
  qpos := 0
  serialOn := none
  entry := pc
  argp := 0
  htb := 0
  cwadr := 0
  imgt := 0
  fq := 0
  fqcap := 0
  logn := 5
  vregs := 32
  tpg := 1
  gpg := 1
  widths := [5, 0, 0, 0, 0, 0]
  counts := [1, 1, 1]
  spad := 4096
  nacc := 1
  nbar := 1
  headerQueue := 0
  cscope := .package
  coResident := false
  domain := 0
  regions := []
  spawn := []
  life := .resident
  edges := []
  start := []
  base := 0
  units := 1
  records := 0
  written := 0
  drop := 0
  firstCause := 0
  terminated := false
  done := []

/-- Physical addresses of the page-table root, of the two tables below it, and of the line, which is also its virtual address. -/
def placedRoot : Nat := 0x10000
def placedLine : Nat := 0x20000

/-- A line that holds a word in slot 0, legal as a target, with its parities right (R14, R16). -/
def placedBytes (slot : Nat) : List Byte :=
  let par := if oddOnes slot 96 then 2 ^ 15 else 0
  let low := 2 ^ 24 + par + 1
  let lw := low + (if oddOnes low 32 then 2 ^ 20 else 0)
  toBytesLE 64 (lw + slot * 2 ^ 32)

/-- The page tables: one 1 GiB page, executable, that maps virtual to equal physical addresses (R204). -/
def placedTables (m : List Host.Cell) : List Host.Cell :=
  let m1 := memSets m placedRoot (toBytesLE 8 (placedRoot + 0x1000 + 3))
  let m2 := memSets m1 (placedRoot + 0x1000) (toBytesLE 8 (placedRoot + 0x2000 + 3))
  memSets m2 (placedRoot + 0x2000) (toBytesLE 8 (2 ^ 3 + 1))

/-- The team, bound on core 0, whose next instruction is the word. -/
def State.placeWord (s : State) (slot : Nat) : State :=
  let pc : Word64 := BitVec.ofNat 64 placedLine
  let l := s.nextId
  let la := placedLaunch pc
  let gr := { Group.fresh l 0 0 false la.spad la.nacc la.nbar 1 with
    teams := [l + 2]
    place := some ⟨0, 0, 0⟩
    started := true }
  { s with
    agenda := .issue (l + 2) :: s.agenda
    nextId := l + 3
    mem := memSets (placedTables s.mem) placedLine (placedBytes slot)
    launches := tabSet s.launches l la
    groups := tabSet s.groups (l + 1) gr
    teams := tabSet s.teams (l + 2) { Team.fresh l la 0 32 32 pc 0 with group := l + 1 }
    ctxs := tabSet s.ctxs 0 { s.ctx 0 with
      pgroot := BitVec.ofNat 56 placedRoot
      domain := 1
      readMask := 2
      writeMask := 2 }
    alloc := tabSet s.alloc (placedLine / 65536) 1
    cores := laneSet s.cores 0 true
    stackSet := s.stackSet ||| 1
    power := .p0
    boot := .up }

end Sys2Proof.Machine
end

