-- ==== Sys2Proof/Machine/Step.lean ====
section
/-! DEFINITION. One step of the device, and the state in which a given word is the next instruction. -/

namespace Sys2Proof.Machine

/-- One step: the next move asked for, or one that the device makes by itself. -/
def step (s : State) : Host.Outcome State Fault Refusal :=
  match s.agenda with
  | m :: rest => makeMove m { s with agenda := rest }
  | [] => autoStep s

/-- The state with an instruction of the opcode table, of which the low nbits bits are given, about to issue. -/
def State.withFetchWord (s : State) (nbits w : Nat) : State := s.placeWord (w % 2 ^ nbits % 2 ^ 96)

end Sys2Proof.Machine
end

