-- ==== Sys2Proof/Safety.lean ====
section
/-! DEFINITION. The terms that claims use: a run that goes on, an instruction that can complete, and what it then leaves behind. -/

namespace Sys2Proof

open Machine

/-- The step from s answers a next state. -/
def Continues (s : State) : Prop := ∃ s1, step s = .next s1

/-- The first k steps from s all answer a next state. -/
def SafeFor : Nat → State → Prop
  | 0, _ => True
  | k + 1, s => ∃ s1, step s = .next s1 ∧ SafeFor k s1

/-! ### An instruction that can complete (R12, R13, R20) -/

/-- The active lanes of an instruction of a team, ascending (R133). -/
def activeLanes (tm : Team) (p : Pred) : List Nat := lanesOf tm.lanes (tm.active p)

/-- The registers that the instruction reads at step 6 of R20. -/
def readRefs (tm : Team) (p : Pred) (us : List Use) : List RegRef :=
  (us.filter (·.read)).flatMap fun u => u.refs (u.lanesRead (actsOnce us) tm.lanes (activeLanes tm p))

/-- Team tm, with number t, issues an instruction with predicate p and operands us; the field checks pass. -/
structure Issues (s : State) (t : Nat) (tm : Team) (us : List Use) : Prop where
  issuing : s.current = some (t, tm)
  fields : ∀ u ∈ us, u.ok (s.counts tm) = true

/-- Steps 4 to 6 pass with at least one active lane: every source is full and unmarked. -/
structure Reads (s : State) (t : Nat) (tm : Team) (p : Pred) (us : List Use) : Prop extends Issues s t tm us where
  active : activeLanes tm p ≠ []
  sources : ∀ q ∈ readRefs tm p us, tm.isEmpty q = false
  unmarked : s.regMark tm (readRefs tm p us) = none
  predicate : s.predMark tm p = none

/-- As Reads, and no destination waits for a producer (R13). -/
structure Able (s : State) (t : Nat) (tm : Team) (p : Pred) (us : List Use) : Prop extends Reads s t tm p us where
  dests : ∀ q ∈ writeRefs us (activeLanes tm p), tm.isEmpty q = false

/-- The state past an instruction that has changed its team alone, to tm1: the PC has advanced, and the marks on the words that it
replaced whole are gone. -/
def completed (s : State) (t : Nat) (tm : Team) (p : Pred) (us : List Use) (tm1 : Team) : State :=
  (s.setTeam t tm1.advance).clearRegMarks tm (writeRefs us (activeLanes tm p))

/-- The lanes for which a result is computed: the lowest active one for an s destination (R97). -/
def resultLanes (tm : Team) (p : Pred) (d : Opd) : List Nat :=
  if d.cls = .s then (activeLanes tm p).take 1 else activeLanes tm p

/-- The v register r of lane l after results f of a type have been written to d. -/
def vAfter (tm : Team) (t : Ty) (d : Opd) (lanes : List Nat) (f : Nat → Nat) (r l : Nat) : Word32 :=
  if d.cls = .v ∧ l ∈ lanes then
    if t.is64 then
      if r = d.num.toNat then BitVec.ofNat 32 (f l)
      else if r = d.num.toNat + 1 then BitVec.ofNat 32 (f l / 2 ^ 32)
      else tm.vGet r l
    else if r = d.num.toNat then placeV t (f l) else tm.vGet r l
  else tm.vGet r l

/-- The s register r after it. -/
def sAfter (tm : Team) (t : Ty) (d : Opd) (lanes : List Nat) (f : Nat → Nat) (r : Nat) : Word64 :=
  if d.cls = .s ∧ r = d.num.toNat ∧ lanes ≠ [] then placeS t (f (lanes.headD 0)) else tm.sGet r

/-- tm1 is tm with results f written to d, nothing else but the sticky flags changed. -/
structure Wrote (tm tm1 : Team) (t : Ty) (d : Opd) (lanes : List Nat) (f : Nat → Nat) : Prop where
  v : ∀ r l, tm1.vGet r l = vAfter tm t d lanes f r l
  s : ∀ r, tm1.sGet r = sAfter tm t d lanes f r
  rest : { tm1 with v := tm.v, s := tm.s, status := tm.status } = tm

/-- tm1 is tm with the bits g of some lanes written to mask register d, nothing else but the sticky flags changed. -/
structure WroteMask (tm tm1 : Team) (d : Opd) (lanes : List Nat) (g : Nat → Bool) : Prop where
  bits : ∀ l < tm.lanes, (tm1.mask d.num.toNat).getLsbD l = if l ∈ lanes then g l else (tm.mask d.num.toNat).getLsbD l
  others : ∀ k ≠ d.num.toNat, tm1.mask k = tm.mask k
  rest : { tm1 with m := tm.m, status := tm.status } = tm

/-- The flags of some lanes joined into %status (R10, R97). -/
def joinFlags (st : BitVec 8) (lanes : List Nat) (g : Nat → BitVec 8) : BitVec 8 := lanes.foldl (fun a l => a ||| g l) st

end Sys2Proof
end

