-- ==== Sys2Proof/Certificates/Slice0/Obligations.lean ====
section
/-! DEFINITION. The statements about the machine, each from the rules of the spec that its docstring names. -/

namespace Sys2Proof.Spec

open Machine

/-! ### How an instruction that writes registers completes -/

/-- Instruction i, with predicate p, operands us and destination d of a type, completes for every team able to issue it: it answers a
next state in which the team has advanced, each result lane of d holds a value in relation R with the lane's operands, the flags of
those lanes have joined %status, and every other register, mask, special register and byte of memory is as before. -/
def Computes (i : Instr) (p : Pred) (ty : Ty) (d : Opd) (us : List Use) (R : Team → Nat → Nat × BitVec 8 → Prop) : Prop :=
  ∀ s t tm, Able s t tm p us →
    ∃ (tm1 : Team) (f : Nat → Nat × BitVec 8), exec i s = .next (completed s t tm p us tm1) ∧
      Wrote tm tm1 ty d (resultLanes tm p d) (fun l => (f l).1) ∧
      tm1.status = joinFlags tm.status (resultLanes tm p d) (fun l => (f l).2) ∧
      ∀ l ∈ resultLanes tm p d, R tm l (f l)

/-- As Computes, for a mask destination: the bit of each active lane is in relation R with the lane's operands. -/
def ComputesMask (i : Instr) (p : Pred) (d : Opd) (us : List Use) (R : Team → Nat → Bool × BitVec 8 → Prop) : Prop :=
  ∀ s t tm, Able s t tm p us →
    ∃ (tm1 : Team) (f : Nat → Bool × BitVec 8), exec i s = .next (completed s t tm p us tm1) ∧
      WroteMask tm tm1 d (activeLanes tm p) (fun l => (f l).1) ∧
      tm1.status = joinFlags tm.status (activeLanes tm p) (fun l => (f l).2) ∧
      ∀ l ∈ activeLanes tm p, R tm l (f l)

/-- Step 4 turns the instruction away: the team takes Illegal-Operand with a zero detail, nothing else happens (R20, R25). -/
def Illegal (i : Instr) (s : State) (t : Nat) (tm : Team) : Prop :=
  exec i s = .next (s.takeTrap t .illegalOperand 0 0 0 tm.pc)

/-! ### Integers (R39, R40, R101) -/

/-- The smallest and the largest value of an integer type. -/
def least (t : Ty) : Int := if t.isSigned then -(2 ^ (t.bits - 1) : Int) else 0

def greatest (t : Ty) : Int := if t.isSigned then 2 ^ (t.bits - 1) - 1 else 2 ^ t.bits - 1

/-- The value that an element's bits have at an integer type. -/
def value (t : Ty) (w : Nat) : Int := intOf t.isSigned t.bits w

/-- y holds wrap_T(x), and no flag is set. -/
def wraps (t : Ty) (x : Int) (y : Nat × BitVec 8) : Prop :=
  y.1 < 2 ^ t.bits ∧ (∃ k : Int, value t y.1 = x + k * 2 ^ t.bits) ∧ y.2 = 0

/-- y holds sat_T(x): x where the type has it, else the nearest end of the type with SAT set. -/
def saturates (t : Ty) (x : Int) (y : Nat × BitVec 8) : Prop :=
  y.1 < 2 ^ t.bits ∧
    (least t ≤ x → x ≤ greatest t → value t y.1 = x ∧ y.2 = 0) ∧
    (x < least t → value t y.1 = least t ∧ y.2 = fSat) ∧
    (greatest t < x → value t y.1 = greatest t ∧ y.2 = fSat)

/-- y holds x as SAT asks. -/
def fitted (t : Ty) (sat : Bool) (x : Int) (y : Nat × BitVec 8) : Prop := if sat then saturates t x y else wraps t x y

/-- The values of the sources of a word of format R or I, read by the type (R73, R96). -/
def srcA (tm : Team) (t : Ty) (w : RI) (l : Nat) : Int := value t (tm.first t w l)

def srcB (tm : Team) (t : Ty) (w : RI) (l : Nat) : Int := value t (tm.second t w l)

/-- The value of one operand of a word of format R. -/
def src (tm : Team) (t : Ty) (o : Opd) (m : Modifier) (l : Nat) : Int := value t (tm.bitsOf t o m l)

/-- The bit of lane l in a mask register, as a number. -/
def bitOf (tm : Team) (o : Opd) (l : Nat) : Int := if (tm.mask o.num.toNat).getLsbD l then 1 else 0

end Sys2Proof.Spec

open Sys2Proof Sys2Proof.Machine Sys2Proof.Spec

/-- R101: ADD, SUB, MUL, MAD, NEG, ABS, MIN and MAX write their exact value wrapped, or saturated where SAT asks; MULH the high half. -/
def Sys2Proof.Spec.integerArithmetic : Prop :=
  ∀ (p : Pred) (ty : Ty), ty.isInt = true →
    (∀ w : RI,
      Computes (.add p ty w) p ty (riD w) (usesRI ty w) (fun tm l => fitted ty (riSat w) (srcA tm ty w l + srcB tm ty w l)) ∧
      Computes (.sub p ty w) p ty (riD w) (usesRI ty w) (fun tm l => fitted ty (riSat w) (srcA tm ty w l - srcB tm ty w l)) ∧
      Computes (.mul p ty w) p ty (riD w) (usesRI ty w) (fun tm l => fitted ty (riSat w) (srcA tm ty w l * srcB tm ty w l)) ∧
      Computes (.mulh p ty w) p ty (riD w) (usesRI ty w)
        (fun tm l => wraps ty (Int.fdiv (srcA tm ty w l * srcB tm ty w l) (2 ^ ty.bits))) ∧
      Computes (.min p ty w) p ty (riD w) (usesRI ty w)
        (fun tm l y => value ty y.1 = (if srcA tm ty w l ≤ srcB tm ty w l then srcA tm ty w l else srcB tm ty w l) ∧ y.2 = 0) ∧
      Computes (.max p ty w) p ty (riD w) (usesRI ty w)
        (fun tm l y => value ty y.1 = (if srcA tm ty w l ≤ srcB tm ty w l then srcB tm ty w l else srcA tm ty w l) ∧ y.2 = 0)) ∧
    (∀ w : RWord,
      Computes (.mad p ty w) p ty w.d (usesDABC ty w)
        (fun tm l => fitted ty w.sat (src tm ty w.a w.ma l * src tm ty w.b w.mb l + src tm ty w.c w.mc l)) ∧
      Computes (.neg p ty w) p ty w.d (usesDA ty w) (fun tm l => fitted ty w.sat (-(src tm ty w.a w.ma l))) ∧
      Computes (.abs p ty w) p ty w.d (usesDA ty w)
        (fun tm l => fitted ty w.sat (if src tm ty w.a w.ma l < 0 then -(src tm ty w.a w.ma l) else src tm ty w.a w.ma l)))

/-- R101, R98: ADDC and SUBB write the wrapped sum or difference with the lane's bit of mC, and the carry or borrow of each active lane
back to mC; the carry of an inactive lane stays. A mC that is m0 raises Illegal-Operand. -/
def Sys2Proof.Spec.carryChains : Prop :=
  ∀ (p : Pred) (ty : Ty) (w : RWord) (s : State) (t : Nat) (tm : Team), ty = .n32 ∨ ty = .n64 →
    (Able s t tm p (usesCarry ty w) →
      (∃ (tm1 : Team) (f : Nat → Nat), exec (.addc p ty w) s = .next (completed s t tm p (usesCarry ty w) tm1) ∧
        Wrote { tm with m := tm1.m } tm1 ty w.d (resultLanes tm p w.d) f ∧
        (∀ l ∈ resultLanes tm p w.d,
          wraps ty (src tm ty w.a w.ma l + src tm ty w.b w.mb l + bitOf tm w.c l) (f l, 0)) ∧
        WroteMask tm { tm with m := tm1.m } w.c (activeLanes tm p)
          (fun l => decide (2 ^ ty.bits ≤ src tm ty w.a w.ma l + src tm ty w.b w.mb l + bitOf tm w.c l)) ∧
        tm1.status = tm.status) ∧
      (∃ (tm1 : Team) (f : Nat → Nat), exec (.subb p ty w) s = .next (completed s t tm p (usesCarry ty w) tm1) ∧
        Wrote { tm with m := tm1.m } tm1 ty w.d (resultLanes tm p w.d) f ∧
        (∀ l ∈ resultLanes tm p w.d,
          wraps ty (src tm ty w.a w.ma l - src tm ty w.b w.mb l - bitOf tm w.c l) (f l, 0)) ∧
        WroteMask tm { tm with m := tm1.m } w.c (activeLanes tm p)
          (fun l => decide (src tm ty w.a w.ma l - src tm ty w.b w.mb l - bitOf tm w.c l < 0)) ∧
        tm1.status = tm.status)) ∧
    (s.current = some (t, tm) → w.c = ⟨.m, 0⟩ → Illegal (.addc p ty w) s t tm ∧ Illegal (.subb p ty w) s t tm)

/-- R102: DIV and REM take the integer types, and SAT is for DIV alone; DIV writes the quotient toward zero and REM the remainder with the
sign of A; a zero divisor gives all ones, −1 or 1, and A. -/
def Obligations.Division : Prop :=
  ∀ (p : Pred) (ty : Ty) (w : RI),
    (wellFormed (.div p ty w) = true ∨ wellFormed (.rem p ty w) = true → ty.isInt = true) ∧
    (wellFormed (.rem p ty w) = true → riSat w = false) ∧ (ty.isInt = true →
    Computes (.div p ty w) p ty (riD w) (usesRI ty w) (fun tm l =>
      let a := srcA tm ty w l
      let b := srcB tm ty w l
      fitted ty (riSat w) (if b = 0 then (if ty.isSigned = false then 2 ^ ty.bits - 1 else if 0 ≤ a then -1 else 1) else Int.tdiv a b)) ∧
    Computes (.rem p ty w) p ty (riD w) (usesRI ty w) (fun tm l =>
      let a := srcA tm ty w l
      let b := srcB tm ty w l
      wraps ty (if b = 0 then a else a - Int.tdiv a b * b)))

/-- R103: the bitwise instructions act bit by bit; the shifts and the rotation move A's bits by B read as an unsigned count. -/
def Obligations.BitwiseAndShifts : Prop :=
  ∀ (p : Pred) (ty : Ty) (w : RI), ty.isInt = true →
    Computes (.and p ty w) p ty (riD w) (usesRI ty w) (fun tm l y => y.1 < 2 ^ ty.bits ∧ y.2 = 0 ∧
      ∀ i < ty.bits, y.1.testBit i = ((tm.first ty w l).testBit i && (tm.second ty w l).testBit i)) ∧
    Computes (.or p ty w) p ty (riD w) (usesRI ty w) (fun tm l y => y.1 < 2 ^ ty.bits ∧ y.2 = 0 ∧
      ∀ i < ty.bits, y.1.testBit i = ((tm.first ty w l).testBit i || (tm.second ty w l).testBit i)) ∧
    Computes (.xor p ty w) p ty (riD w) (usesRI ty w) (fun tm l y => y.1 < 2 ^ ty.bits ∧ y.2 = 0 ∧
      ∀ i < ty.bits, y.1.testBit i = ((tm.first ty w l).testBit i != (tm.second ty w l).testBit i)) ∧
    Computes (.andn p ty w) p ty (riD w) (usesRI ty w) (fun tm l y => y.1 < 2 ^ ty.bits ∧ y.2 = 0 ∧
      ∀ i < ty.bits, y.1.testBit i = ((tm.first ty w l).testBit i && !(tm.second ty w l).testBit i)) ∧
    Computes (.shl p ty w) p ty (riD w) (usesRI ty w) (fun tm l =>
      fitted ty (riSat w) (srcA tm ty w l * 2 ^ (tm.second ty w l))) ∧
    Computes (.shr p ty w) p ty (riD w) (usesRI ty w) (fun tm l y =>
      y = (tm.first ty w l / 2 ^ (tm.second ty w l), 0)) ∧
    Computes (.sra p ty w) p ty (riD w) (usesRI ty w) (fun tm l =>
      wraps ty (Int.fdiv (intOf true ty.bits (tm.first ty w l)) (2 ^ (tm.second ty w l)))) ∧
    Computes (.rot p ty w) p ty (riD w) (usesRI ty w) (fun tm l y => y.1 < 2 ^ ty.bits ∧ y.2 = 0 ∧
      ∀ i < ty.bits, y.1.testBit ((i + tm.second ty w l) % ty.bits) = (tm.first ty w l).testBit i)

/-- R103, R105: CLZ, POPC and BREV count or reverse A's bits; BFI puts B's bits where C has ones. -/
def Sys2Proof.Spec.bitCounts : Prop :=
  ∀ (p : Pred) (ty : Ty) (w : RWord), ty.isInt = true →
    Computes (.clz p ty w) p ty w.d (usesDA ty w) (fun tm l y => y.1 ≤ ty.bits ∧ y.2 = 0 ∧
      (∀ i, ty.bits - y.1 ≤ i → i < ty.bits → (tm.bitsOf ty w.a w.ma l).testBit i = false) ∧
      (y.1 < ty.bits → (tm.bitsOf ty w.a w.ma l).testBit (ty.bits - 1 - y.1) = true)) ∧
    Computes (.popc p ty w) p ty w.d (usesDA ty w) (fun tm l y =>
      y = (((List.range ty.bits).filter fun i => (tm.bitsOf ty w.a w.ma l).testBit i).length, 0)) ∧
    Computes (.brev p ty w) p ty w.d (usesDA ty w) (fun tm l y => y.1 < 2 ^ ty.bits ∧ y.2 = 0 ∧
      ∀ i < ty.bits, y.1.testBit i = (tm.bitsOf ty w.a w.ma l).testBit (ty.bits - 1 - i)) ∧
    Computes (.bfi p ty w) p ty w.d (usesDABC ty w) (fun tm l y => y.1 < 2 ^ ty.bits ∧ y.2 = 0 ∧
      ∀ i < ty.bits, y.1.testBit i =
        if (tm.bitsOf ty w.c w.mc l).testBit i then (tm.bitsOf ty w.b w.mb l).testBit i else (tm.bitsOf ty w.a w.ma l).testBit i)

/-- R104: BFX extracts the field that the control word names, its bits above the type read as zeros or as A's sign, and extends it. -/
def Sys2Proof.Spec.fieldExtraction : Prop :=
  ∀ (p : Pred) (ty : Ty) (w : RI), ty.isInt = true →
    Computes (.bfx p ty w) p ty (riD w) (usesRI ty w) (fun tm l y =>
      let ctl : Nat := match w with
        | .r w => if ty.isWide then tm.bitsOf ty w.b w.mb l else (tm.word w.b w.mb l).toNat
        | .i w => w.imm.toNat
      let pos := ctl % 256
      let len := min (ctl / 256 % 256) ty.bits
      let a := tm.first ty w l
      let bit (i : Nat) : Bool := if i < ty.bits then a.testBit i else ty.isSigned && a.testBit (ty.bits - 1)
      y.1 < 2 ^ ty.bits ∧ y.2 = 0 ∧
        (len = 0 → y.1 = 0) ∧
        (0 < len → ∀ i < ty.bits,
          y.1.testBit i = if i < len then bit (pos + i) else ty.isSigned && bit (pos + (len - 1))))

/-- R106: FFCS, of N32 and N64, gives the index of A's first clear bit and sets it; a full A gives all ones and stays. -/
def Sys2Proof.Spec.findFirstClear : Prop :=
  ∀ (p : Pred) (ty : Ty) (w : RWord) (s : State) (t : Nat) (tm : Team),
    (wellFormed (.ffcs p ty w) = true → ty = .n32 ∨ ty = .n64) ∧ (ty = .n32 ∨ ty = .n64 → w.d ≠ w.a →
    Able s t tm p (usesFfcs ty w) →
    ∃ (tm1 tmd : Team) (f g : Nat → Nat), exec (.ffcs p ty w) s = .next (completed s t tm p (usesFfcs ty w) tm1) ∧
      Wrote tm tmd ty w.d (resultLanes tm p w.d) f ∧ Wrote tmd tm1 ty w.a (resultLanes tm p w.a) g ∧
      tm1.status = tm.status ∧
      ∀ l ∈ activeLanes tm p,
        let a := tm.bitsOf ty w.a w.ma l
        (a = 2 ^ ty.bits - 1 → f l = 2 ^ ty.bits - 1 ∧ g l = a) ∧
        (a ≠ 2 ^ ty.bits - 1 → f l < ty.bits ∧ a.testBit (f l) = false ∧ (∀ i < f l, a.testBit i = true) ∧ g l = a + 2 ^ f l))

/-- R107: PLSET, of N32 and N64, sets A's lowest clear bits, at most as many as B says, and gives those that it set. -/
def Sys2Proof.Spec.limitedSet : Prop :=
  ∀ (p : Pred) (ty : Ty) (w : RWord) (s : State) (t : Nat) (tm : Team),
    (wellFormed (.plset p ty w) = true → ty = .n32 ∨ ty = .n64) ∧ (ty = .n32 ∨ ty = .n64 → w.d ≠ w.a →
    Able s t tm p (usesPlset ty w) →
    ∃ (tm1 tmd : Team) (f g : Nat → Nat), exec (.plset p ty w) s = .next (completed s t tm p (usesPlset ty w) tm1) ∧
      Wrote tm tmd ty w.d (resultLanes tm p w.d) f ∧ Wrote tmd tm1 ty w.a (resultLanes tm p w.a) g ∧
      tm1.status = tm.status ∧
      ∀ l ∈ activeLanes tm p,
        let a := tm.bitsOf ty w.a w.ma l
        let b := tm.bitsOf ty w.b w.mb l
        let clear := (List.range ty.bits).filter fun i => !a.testBit i
        (∀ i, (f l).testBit i = (clear.take b).contains i) ∧ g l = a ||| f l)

/-- R98: where the two registers that FFCS or PLSET writes are one, the instruction raises Illegal-Operand at step 4. -/
def Sys2Proof.Spec.distinctDestinations : Prop :=
  ∀ (p : Pred) (ty : Ty) (w : RWord) (s : State) (t : Nat) (tm : Team), s.current = some (t, tm) → w.d = w.a →
    Illegal (.ffcs p ty w) s t tm ∧ Illegal (.plset p ty w) s t tm

/-- R108, R110, R111: SEL, MOV and MOVI copy bits and set no flag. -/
def Sys2Proof.Spec.copies : Prop :=
  ∀ (p : Pred) (ty : Ty),
    (∀ w : RWord,
      Computes (.sel p ty w) p ty w.d (usesSel ty w) (fun tm l y =>
        y = (if (tm.mask w.c.num.toNat).getLsbD l then tm.bitsOf ty w.a w.ma l else tm.bitsOf ty w.b w.mb l, 0)) ∧
      Computes (.mov p ty (.r w)) p ty w.d (usesMov ty (.r w)) (fun tm l y => y = (tm.bitsOf ty w.a w.ma l, 0))) ∧
    (∀ w : IWord,
      Computes (.mov p ty (.i w)) p ty w.d (usesMov ty (.i w)) (fun _ _ y =>
        y.2 = 0 ∧ (ty.isInt = true → y.1 = immBits ty w.imm) ∧ (ty = .f32 → y.1 = w.imm.toNat) ∧
          (ty = .f64 → y.1 = f32Pattern .f64 w.imm))) ∧
    (∀ w : LWord, Computes (.movi p ty w) p ty (lDest w) [dUse ty (lDest w)] (fun _ _ y => y = (w.imm.toNat, 0)))

/-- R112: LEA forms A + B × 2^sh, or A plus the immediate, and wraps. -/
def Sys2Proof.Spec.addresses : Prop :=
  ∀ (p : Pred) (ty : Ty), ty.isInt = true →
    (∀ w : RWord, Computes (.lea p ty (.r w)) p ty w.d (usesRI ty (.r w)) (fun tm l =>
      wraps ty (src tm ty w.a w.ma l + src tm ty w.b w.mb l * 2 ^ w.simm.toNat))) ∧
    (∀ w : IWord, Computes (.lea p ty (.i w)) p ty w.d (usesRI ty (.i w)) (fun tm l =>
      wraps ty (src tm ty w.a w.ma l + value ty (immBits ty w.imm))))

/-- R109: CMP, of the integer types, sets each active lane's bit of mD to the truth of the condition, by the signedness of the type; m0 or a destination of
another class raises Illegal-Operand. -/
def Obligations.IntegerComparison : Prop :=
  ∀ (p : Pred) (ty : Ty) (cc : Cond) (w : RI), (wellFormed (.cmp p ty cc w) = true → ty.isInt = true) ∧ (ty.isInt = true →
    ComputesMask (.cmp p ty cc w) p (riD w) (usesCmp ty w) (fun tm l y => y.2 = 0 ∧
      (y.1 = true ↔ match cc with
        | .eq => srcA tm ty w l = srcB tm ty w l
        | .ne => srcA tm ty w l ≠ srcB tm ty w l
        | .lt => srcA tm ty w l < srcB tm ty w l
        | .le => srcA tm ty w l ≤ srcB tm ty w l
        | .gt => srcA tm ty w l > srcB tm ty w l
        | .ge => srcA tm ty w l ≥ srcB tm ty w l)) ∧
    ∀ s t tm, s.current = some (t, tm) → (riD w).cls ≠ .m ∨ (riD w).num = 0 → Illegal (.cmp p ty cc w) s t tm)

/-- R113: MOVM moves the active lanes' bits of a mask to a v register or one word of it to an s register, and back. -/
def Sys2Proof.Spec.maskMoves : Prop :=
  ∀ (p : Pred) (w : RWord) (s : State) (t : Nat) (tm : Team),
    (Able s t tm p (usesMovmTor w) → wordIndexOk tm w.d w.simm = true →
      ∃ (tm1 : Team) (f : Nat → Nat), exec (.movmTor p w) s = .next (completed s t tm p (usesMovmTor w) tm1) ∧
        Wrote tm tm1 .n32 w.d (resultLanes tm p w.d) f ∧ tm1.status = tm.status ∧
        (w.d.cls = .v → ∀ l ∈ activeLanes tm p, f l = if (tm.mask w.a.num.toNat).getLsbD l then 1 else 0) ∧
        (w.d.cls = .s → ∀ l ∈ resultLanes tm p w.d,
          f l < 2 ^ 32 ∧ ∀ i < 32, (f l).testBit i = (tm.mask w.a.num.toNat).getLsbD (32 * w.simm.toNat + i))) ∧
    (Able s t tm p (usesMovmTom w) → wordIndexOk tm w.a w.simm = true →
      ∃ tm1, exec (.movmTom p w) s = .next (completed s t tm p (usesMovmTom w) tm1) ∧ tm1.status = tm.status ∧
        WroteMask tm tm1 w.d (activeLanes tm p) (fun l =>
          if w.a.cls = .s then
            if l / 32 = w.simm.toNat then (tm.sGet w.a.num.toNat).getLsbD (l % 32) else (tm.mask w.d.num.toNat).getLsbD l
          else tm.word w.a w.ma l != 0)) ∧
    (s.current = some (t, tm) →
      (wordIndexOk tm w.d w.simm = false → Illegal (.movmTor p w) s t tm) ∧
      (wordIndexOk tm w.a w.simm = false → Illegal (.movmTom p w) s t tm))

/-- R124: NOP does nothing beyond advancing the PC. -/
def Sys2Proof.Spec.noOperation : Prop :=
  ∀ (s : State) (t : Nat) (tm : Team), s.current = some (t, tm) →
    exec .nop s = .next (s.setTeam t tm.advance) ∧ (tm.rep = none → tm.advance.pc = nextPc tm.pc)

/-! ### Packed subwords -/

namespace Sys2Proof.Spec

open Machine

/-- Element i of n bits of a result. -/
def part (n : Nat) (w : Nat) (i : Nat) : Nat := w / 2 ^ (n * i) % 2 ^ n

/-- Element i of the source word, at the signedness of the type. -/
def elemOf (t : Ty) (n : Nat) (w : Word32) (i : Nat) : Int := intOf t.isSigned n (part n w.toNat i)

/-- Each element i of n bits of y is in relation R with flags of its own; the flags of y are those of all its elements. -/
def elementwise (n : Nat) (R : Nat → Nat × BitVec 8 → Prop) (y : Nat × BitVec 8) : Prop :=
  y.1 < 2 ^ 32 ∧ ∃ g : Nat → BitVec 8, (∀ i < 32 / n, R i (part n y.1 i, g i)) ∧ y.2 = joinFlags 0 (List.range (32 / n)) g

/-- The operands of a packed instruction in a lane, element i. -/
def packA (tm : Team) (t : Ty) (w : RWord) (l i : Nat) : Int := elemOf t t.bits (tm.word w.a w.ma l) i

def packB (tm : Team) (t : Ty) (w : RWord) (l i : Nat) : Int := elemOf t t.bits (tm.word w.b w.mb l) i

/-- q is a / 2^k rounded to an integer by a mode (R53, R159). -/
def shiftRounds (rm : Rm) (a : Int) (k : Nat) (q : Int) : Prop :=
  let near := 2 * (a - q * 2 ^ k).natAbs ≤ 2 ^ k
  let tie := 2 * (a - q * 2 ^ k).natAbs = 2 ^ k
  match rm with
  | .rz => q = Int.tdiv a (2 ^ k)
  | .rd => q = Int.fdiv a (2 ^ k)
  | .ru => q = -(Int.fdiv (-a) (2 ^ k))
  | .rna => near ∧ (tie → a.natAbs < q.natAbs * 2 ^ k)
  | _ => near ∧ (tie → q % 2 = 0)

end Sys2Proof.Spec

/-- R156, R157: PADD, PSUB, PMUL, PMIN, PMAX and PCMP act element by element. -/
def Sys2Proof.Spec.packedElements : Prop :=
  ∀ (p : Pred) (ty : Ty) (w : RWord), ty.isPacked = true →
    Computes (.padd p ty w) p .n32 w.d (usesPacked ty w) (fun tm l =>
      elementwise ty.bits fun i => fitted ty w.sat (packA tm ty w l i + packB tm ty w l i)) ∧
    Computes (.psub p ty w) p .n32 w.d (usesPacked ty w) (fun tm l =>
      elementwise ty.bits fun i => fitted ty w.sat (packA tm ty w l i - packB tm ty w l i)) ∧
    Computes (.pmul p ty w) p .n32 w.d (usesPacked ty w) (fun tm l =>
      elementwise ty.bits fun i => fitted ty w.sat (packA tm ty w l i * packB tm ty w l i)) ∧
    Computes (.pmin p ty w) p .n32 w.d (usesPacked ty w) (fun tm l =>
      elementwise ty.bits fun i y => value ty y.1 = min (packA tm ty w l i) (packB tm ty w l i) ∧ y.2 = 0) ∧
    Computes (.pmax p ty w) p .n32 w.d (usesPacked ty w) (fun tm l =>
      elementwise ty.bits fun i y => value ty y.1 = max (packA tm ty w l i) (packB tm ty w l i) ∧ y.2 = 0) ∧
    ∀ cc, Computes (.pcmp p ty cc w) p .n32 w.d (usesPacked ty w) (fun tm l =>
      elementwise ty.bits fun i y =>
        y = (if intCompare cc (packA tm ty w l i) (packB tm ty w l i) then 2 ^ ty.bits - 1 else 0, 0))

/-- R158: PMAC adds the two products to C exactly and clamps once. -/
def Sys2Proof.Spec.packedMultiplyAccumulate : Prop :=
  ∀ (p : Pred) (ty : Ty) (w : RWord), ty = .i16 ∨ ty = .n16 →
    Computes (.pmac p ty w) p .n32 w.d (usesPmac ty w) (fun tm l =>
      saturates (if ty.isSigned then .i32 else .n32)
        (elemOf ty 32 (tm.word w.c w.mc l) 0 + packA tm ty w l 0 * packB tm ty w l 0 + packA tm ty w l 1 * packB tm ty w l 1))

/-- R159: PSHR shifts right with the mode's rounding and saturates; a count of 32 or more leaves 0, or −1 or 1 in RD and RU. -/
def Sys2Proof.Spec.roundingShift : Prop :=
  ∀ (p : Pred) (ty : Ty) (w : RI), ty.isPacked = true ∨ ty = .i32 ∨ ty = .n32 →
    Computes (.pshr p ty w) p ty (riD w) (usesPshr w) (fun tm l y =>
      let a : Int := elemOf ty 32 (match w with
        | .r w => tm.word w.a w.ma l
        | .i w => tm.word w.a w.ma l) 0
      let k : Nat := match w with
        | .r w => (tm.word w.b w.mb l).toNat
        | .i w => w.imm.toNat
      let rm := tm.mode (riRm w)
      ∃ q : Int, saturates ty q y ∧
        (k < 32 → shiftRounds rm a k q) ∧
        (32 ≤ k → q = if rm = .rd ∧ a < 0 then -1 else if rm = .ru ∧ 0 < a then 1 else 0))

/-- R160, R161: PNAR saturates the elements of A, then those of B, into halves of their width; PWID widens one half of A. -/
def Sys2Proof.Spec.narrowAndWiden : Prop :=
  ∀ (p : Pred) (ty : Ty) (w : RWord), ty.isPacked = true →
    Computes (.pnar p ty w) p .n32 w.d (usesPnar ty w) (fun tm l =>
      elementwise ty.bits fun i =>
        let k := 16 / ty.bits
        saturates ty (elemOf ty (2 * ty.bits) (if i < k then tm.word w.a w.ma l else tm.word w.b w.mb l) (i % k))) ∧
    (w.simm.toNat ≤ 1 → Computes (.pwid p ty w) p .n32 w.d (usesPwid ty w) (fun tm l =>
      elementwise (2 * ty.bits) fun i y =>
        let k := 16 / ty.bits
        intOf ty.isSigned (2 * ty.bits) y.1 = packA tm ty w l (k * w.simm.toNat + i) ∧ y.2 = 0))

/-! ### Floating point -/

namespace Sys2Proof.Spec

open Machine

/-- The value of an operand of a word of format R at a floating type. -/
def num (tm : Team) (t : Ty) (o : Opd) (m : Modifier) (l : Nat) : FNum := (tyFmt t).decode (tm.bitsOf t o m l)

/-- Sign, exponent field and fraction field of a code. -/
def signOf (f : Fmt) (c : Nat) : Bool := c.testBit f.mag

def expOf (f : Fmt) (c : Nat) : Nat := c / 2 ^ f.fbits % 2 ^ f.ebits

def fracOf (f : Fmt) (c : Nat) : Nat := c % 2 ^ f.fbits

/-- The class of R117 from the fields of a code. -/
def classBit (f : Fmt) (c : Nat) : Nat :=
  if expOf f c = 2 ^ f.ebits - 1 then
    if fracOf f c = 0 then (if signOf f c then 0 else 7)
    else if fracOf f c < 2 ^ (f.fbits - 1) then 8 else 9
  else if expOf f c = 0 then
    if fracOf f c = 0 then (if signOf f c then 3 else 4) else if signOf f c then 2 else 5
  else if signOf f c then 1 else 6

/-- The types that round to a binary format: the floating types and the two of eight bits (R43, R46). -/
def binary (t : Ty) : Prop := t.isFlt = true ∨ t = .e4m3 ∨ t = .e5m2

/-- The rational number that a finite value stands for. -/
def ratOf : FNum → Rat
  | .fin neg n d => (signedNum neg n : Rat) / (d : Rat)
  | _ => 0

def magnitude (q : Rat) : Rat := if q < 0 then -q else q

/-- Code y, of the first count codes that dec reads, is where a mode rounds a real number, known by the rationals not above it, low,
and those not below it, high (R53). -/
def roundsIn (dec : Nat → FNum) (count : Nat) (rm : Rm) (neg : Bool) (low high : Rat → Prop) (y : Nat) : Prop :=
  let at_ (z : Nat) : Rat := ratOf (dec z)
  y < count ∧ (dec y).isFinite = true ∧ ∀ z < count, (dec z).isFinite = true →
    let mid : Rat := (at_ y + at_ z) / 2
    let tie : Prop := if rm = .rna then magnitude (at_ z) ≤ magnitude (at_ y) else y % 2 = 0
    match rm with
    | .rd => low (at_ y) ∧ (low (at_ z) → at_ z ≤ at_ y)
    | .ru => high (at_ y) ∧ (high (at_ z) → at_ y ≤ at_ z)
    | .rz => if neg then high (at_ y) ∧ (high (at_ z) → at_ y ≤ at_ z) else low (at_ y) ∧ (low (at_ z) → at_ z ≤ at_ y)
    | _ => (at_ y < at_ z → high mid ∧ (low mid → tie)) ∧ (at_ z < at_ y → low mid ∧ (high mid → tie))

/-- The same for a floating type, and for the exact rational x. -/
def roundsTo (t : Ty) (rm : Rm) (x : Rat) (y : Nat) : Prop :=
  roundsIn (tyFmt t).decode (2 ^ t.bits) rm (decide (x < 0)) (· ≤ x) (x ≤ ·) y

/-- The largest finite value of a floating type, and the value of its last place. -/
def topValue (t : Ty) : Rat := ratOf ((tyFmt t).decode (tyFmt t).top)

def topPlace (t : Ty) : Rat := topValue t - ratOf ((tyFmt t).decode ((tyFmt t).top - 1))

/-- A magnitude above the largest finite value that the mode still rounds down to it, the exponent unbounded (R53). -/
def staysAtTop (t : Ty) (rm : Rm) (neg : Bool) (x : Rat) : Prop :=
  let excess := magnitude x - topValue t
  excess < topPlace t ∧ match rm with
    | .rz => True
    | .rd => neg = false
    | .ru => neg = true
    | .rna => 2 * excess < topPlace t
    | _ => 2 * excess < topPlace t ∨ (2 * excess = topPlace t ∧ (tyFmt t).top % 2 = 0)

/-- y is the smaller, or the larger, of two codes, bit for bit; one NaN gives the other operand, two the canonical NaN (R115). -/
def picks (f : Fmt) (isMax : Bool) (a b : Nat) (y : Nat × BitVec 8) : Prop :=
  let x := f.decode a
  let z := f.decode b
  let v := f.decode y.1
  (x.isNan = true → z.isNan = true → y.1 = f.canonNan) ∧ (x.isNan = true → z.isNan = false → y.1 = b) ∧
    (x.isNan = false → z.isNan = true → y.1 = a) ∧
    (x.isNan = false → z.isNan = false → (y.1 = a ∨ y.1 = b) ∧
      if isMax then FNum.lt true v x = false ∧ FNum.lt true v z = false else FNum.lt true x v = false ∧ FNum.lt true z v = false) ∧
    y.2 = if x = .nan .signalling ∨ z = .nan .signalling then fInvalid else 0

/-- One step of a floating reduction: a sum rounded once, or a pick (R166, R248, R249). -/
def floatStep (op : RedOp) (t : Ty) (rm : Rm) (a b : Nat) (y : Nat × BitVec 8) : Prop :=
  match op with
  | .min => picks (tyFmt t) false a b y
  | .max => picks (tyFmt t) true a b y
  | _ => y = rounded t rm false (FNum.add rm ((tyFmt t).decode a) ((tyFmt t).decode b))

/-- y is reached from acc by a step with each operand in turn; its flags are those of all the steps. -/
def foldsTo (step : Nat → Nat → Nat × BitVec 8 → Prop) (acc : Nat × BitVec 8) : List Nat → Nat × BitVec 8 → Prop
  | [], y => y = acc
  | x :: rest, y => ∃ z, step acc.1 x z ∧ foldsTo step (z.1, acc.2 ||| z.2) rest y

/-- The first value of a floating reduction: a NaN made canonical (R166). -/
def floatStart (t : Ty) (x : Nat) : Nat × BitVec 8 :=
  let v := (tyFmt t).decode x
  (if v.isNan then (tyFmt t).canonNan else x, if v = .nan .signalling then fInvalid else 0)

/-- The code of an infinity, and of a zero. -/
def infCode (f : Fmt) (neg : Bool) : Nat := (2 ^ f.ebits - 1) * 2 ^ f.fbits + if neg then 2 ^ f.mag else 0

def zeroCode (f : Fmt) (neg : Bool) : Nat := if neg then 2 ^ f.mag else 0

end Sys2Proof.Spec

/-- R53, R114: FADD, FSUB, FMUL, FDIV, FMA, FSQRT, FRSQ, FSCALE, FEXP2 and FLOG2 round their exact result once, in the mode of RM or
of %fpmode, and set the flags of the operation and of the rounding. Readings of the model: FEXP2 and FLOG2, log 29. -/
def Obligations.FloatArithmetic : Prop :=
  ∀ (p : Pred) (ty : Ty), ty.isFlt = true →
    (∀ w : RI,
      Computes (.fadd p ty w) p ty (riD w) (usesRI ty w) (fun tm l y =>
        y = rounded ty (tm.mode (riRm w)) (riSat w) (FNum.add (tm.mode (riRm w)) (tm.firstNum ty w l) (tm.secondNum ty w l))) ∧
      Computes (.fsub p ty w) p ty (riD w) (usesRI ty w) (fun tm l y =>
        y = rounded ty (tm.mode (riRm w)) (riSat w) (FNum.add (tm.mode (riRm w)) (tm.firstNum ty w l) (tm.secondNum ty w l).neg)) ∧
      Computes (.fmul p ty w) p ty (riD w) (usesRI ty w) (fun tm l y =>
        y = rounded ty (tm.mode (riRm w)) (riSat w) (FNum.mul (tm.firstNum ty w l) (tm.secondNum ty w l))) ∧
      Computes (.fdiv p ty w) p ty (riD w) (usesRI ty w) (fun tm l y =>
        y = rounded ty (tm.mode (riRm w)) (riSat w) (FNum.div (tm.firstNum ty w l) (tm.secondNum ty w l))) ∧
      Computes (.fscale p ty w) p ty (riD w) (usesFscale ty w) (fun tm l y =>
        let b : Int := match w with
          | .r w => (tm.word w.b w.mb l).toInt
          | .i w => w.imm.toInt
        y = rounded ty (tm.mode (riRm w)) (riSat w) (scaleBy (tm.firstNum ty w l) b, sigFlag (tm.firstNum ty w l)))) ∧
    (∀ w : RWord,
      Computes (.fma p ty w) p ty w.d (usesDABC ty w) (fun tm l y =>
        y = rounded ty (tm.mode w.rm) w.sat
          (FNum.fma (tm.mode w.rm) (num tm ty w.a w.ma l) (num tm ty w.b w.mb l) (num tm ty w.c w.mc l))) ∧
      Computes (.fsqrt p ty w) p ty w.d (usesDA ty w) (fun tm l y =>
        y = rounded ty (tm.mode w.rm) w.sat (num tm ty w.a w.ma l).sqrt) ∧
      Computes (.frsq p ty w) p ty w.d (usesDA ty w) (fun tm l y =>
        y = rounded ty (tm.mode w.rm) w.sat (num tm ty w.a w.ma l).rsqrt) ∧
      Computes (.fexp2 p ty w) p ty w.d (usesDA ty w) (fun tm l y =>
        y = exp2Round (tyFmt ty) (tm.mode w.rm) w.sat (num tm ty w.a w.ma l)) ∧
      Computes (.flog2 p ty w) p ty w.d (usesDA ty w) (fun tm l y =>
        y = log2Round (tyFmt ty) (tm.mode w.rm) w.sat (num tm ty w.a w.ma l)))

/-- R114, R44, R45: the special operands of the floating-point instructions, SAT clear. -/
def Sys2Proof.Spec.floatSpecials : Prop :=
  ∀ (ty : Ty) (rm : Rm) (n m : Bool) (a b c d : Nat), ty.isFlt = true → 0 < a → 0 < b → 0 < c → 0 < d →
    let f := tyFmt ty
    let out (v : FNum × BitVec 8) : Nat × BitVec 8 := rounded ty rm false v
    out ((FNum.fin n a b).div (.fin m 0 d)) = (infCode f (n != m), fDivz) ∧
    out ((FNum.fin n 0 b).div (.fin m 0 d)) = (f.canonNan, fInvalid) ∧
    out ((FNum.inf n).div (.inf m)) = (f.canonNan, fInvalid) ∧
    out ((FNum.fin n a b).div (.inf m)) = (zeroCode f (n != m), 0) ∧
    out (FNum.fin true 0 b).sqrt = (zeroCode f true, 0) ∧
    out (FNum.fin true a b).sqrt = (f.canonNan, fInvalid) ∧
    out (FNum.inf true).sqrt = (f.canonNan, fInvalid) ∧
    out (FNum.inf false).sqrt = (infCode f false, 0) ∧
    out (FNum.fin n 0 b).rsqrt = (infCode f n, fDivz) ∧
    out (FNum.inf false).rsqrt = (zeroCode f false, 0) ∧
    out (FNum.fin true a b).rsqrt = (f.canonNan, fInvalid) ∧
    exp2Round f rm false (.inf true) = (zeroCode f false, 0) ∧
    exp2Round f rm false (.inf false) = (infCode f false, 0) ∧
    log2Round f rm false (.fin n 0 b) = (infCode f true, fDivz) ∧
    log2Round f rm false (.fin true a b) = (f.canonNan, fInvalid) ∧
    log2Round f rm false (.inf false) = (infCode f false, 0) ∧
    log2Round f rm false (.fin false a a) = (zeroCode f false, 0) ∧
    out (FNum.mul (.fin n 0 b) (.inf m)) = (f.canonNan, fInvalid) ∧
    out (FNum.fma rm (.fin n 0 b) (.inf m) (.nan .quiet)) = (f.canonNan, fInvalid) ∧
    out (FNum.add rm (.inf n) (.inf (!n))) = (f.canonNan, fInvalid) ∧
    out (FNum.add rm (.fin n a b) (.fin (!n) a b)) = (zeroCode f (rm == .rd), 0) ∧
    out (FNum.add rm (.nan .signalling) (.fin n c d)) = (f.canonNan, fInvalid) ∧
    out (FNum.mul (.nan .quiet) (.fin n c d)) = (f.canonNan, 0)

/-- R43, R53: rounding a value that the format holds gives its code back and sets no flag. -/
def Sys2Proof.Spec.representableIsExact : Prop :=
  ∀ (ty : Ty) (rm : Rm) (sat : Bool) (c : Nat), binary ty → c < 2 ^ ty.bits → ((tyFmt ty).decode c).isFinite = true →
    (tyFmt ty).round rm sat ((tyFmt ty).decode c) = (c, 0)

/-- R53 to R56, for F64, F32, F16, BF16, E4M3 and E5M2: a finite result within the range of the format is rounded to a nearest code, or to the neighbour of the mode, with
INEXACT and UNDER by what it lost; one beyond the range is the largest value, an infinity or E4M3's NaN, with OVER or SAT. -/
def Sys2Proof.Spec.roundsToNearest : Prop :=
  ∀ (ty : Ty) (rm : Rm) (sat neg : Bool) (n d : Nat), binary ty → 0 < n → 0 < d →
    let f := tyFmt ty
    let x : Rat := ratOf (.fin neg n d)
    let y := f.round rm sat (.fin neg n d)
    let large := f.largest neg
    (magnitude x ≤ topValue ty → roundsTo ty rm x y.1 ∧ signOf f y.1 = neg ∧
      let v : Rat := ratOf (f.decode y.1)
      let small : Rat := ratOf (f.decode (2 ^ f.fbits))
      (v = x → y.2 = 0) ∧
      (v ≠ x → small ≤ magnitude x → y.2 = fInexact) ∧
      (v ≠ x → magnitude v < small → y.2 = fInexact ||| fUnder) ∧
      (v ≠ x → y.2 = fInexact ∨ y.2 = fInexact ||| fUnder)) ∧
    (topValue ty < magnitude x →
      (staysAtTop ty rm neg x → y = (large, fInexact)) ∧
      (¬staysAtTop ty rm neg x →
        (sat = true → y = (large, fSat ||| fInexact)) ∧
        (sat = false → y = (if rm = .rz ∨ (rm = .rd ∧ neg = false) ∨ (rm = .ru ∧ neg = true) then large
          else if ty = .e4m3 then 0x7F else infCode f neg, fOver ||| fInexact))))

/-- R114: on finite operands the sum, the product, the quotient, the fused sum and the scaling that are rounded are exact, with no flag;
FSQRT and FRSQ round the root of their operand, and its reciprocal. -/
def Sys2Proof.Spec.exactResults : Prop :=
  (∀ (rm : Rm) (k m o : Bool) (a b c d e f : Nat), 0 < b → 0 < d → 0 < f →
    let x : FNum := .fin k a b
    let y : FNum := .fin m c d
    let z : FNum := .fin o e f
    let is (r : FNum × BitVec 8) (q : Rat) : Prop := (∃ n u v, r.1 = .fin n u v ∧ 0 < v) ∧ ratOf r.1 = q ∧ r.2 = 0
    is (FNum.add rm x y) (ratOf x + ratOf y) ∧ is (FNum.add rm x y.neg) (ratOf x - ratOf y) ∧
    is (FNum.mul x y) (ratOf x * ratOf y) ∧ (0 < c → is (FNum.div x y) (ratOf x / ratOf y)) ∧
    is (FNum.fma rm x y z) (ratOf x * ratOf y + ratOf z) ∧
    ∀ i : Nat, i ≤ 5000 → ratOf (scaleBy x i) = ratOf x * 2 ^ i ∧ ratOf (scaleBy x (-(i : Int))) * 2 ^ i = ratOf x) ∧
  ∀ (ty : Ty) (rm : Rm) (sat : Bool) (w n d : Nat), ty.isFlt = true → w < 2 ^ ty.bits → (tyFmt ty).decode w = .fin false n d → 0 < n →
    let x : Rat := ratOf (.fin false n d)
    let codes (low high : Rat → Prop) (y : Nat × BitVec 8) : Prop :=
      roundsIn (tyFmt ty).decode (2 ^ ty.bits) rm false low high y.1 ∧
        (y.2 = 0 ∨ y.2 = fInexact) ∧ (y.2 = 0 ↔ low (ratOf ((tyFmt ty).decode y.1)) ∧ high (ratOf ((tyFmt ty).decode y.1)))
    codes (fun q => q ≤ 0 ∨ q * q ≤ x) (fun q => 0 ≤ q ∧ x ≤ q * q) (rounded ty rm sat (FNum.fin false n d).sqrt) ∧
    codes (fun q => q ≤ 0 ∨ q * q * x ≤ 1) (fun q => 0 < q ∧ 1 ≤ q * q * x) (rounded ty rm sat (FNum.fin false n d).rsqrt)

/-- R115: FMIN and FMAX return an operand bit for bit, −0 below +0; one NaN gives the other operand, two give the canonical NaN. -/
def Sys2Proof.Spec.floatMinMax : Prop :=
  ∀ (p : Pred) (ty : Ty) (w : RI), ty.isFlt = true →
    let R (isMax : Bool) (tm : Team) (l : Nat) (y : Nat × BitVec 8) : Prop :=
      let a := tm.first ty w l
      let b := tm.secondBits ty w l
      let x := (tyFmt ty).decode a
      let z := (tyFmt ty).decode b
      (x.isNan = true → z.isNan = true → y.1 = (tyFmt ty).canonNan) ∧
      (x.isNan = true → z.isNan = false → y.1 = b) ∧
      (x.isNan = false → z.isNan = true → y.1 = a) ∧
      (x.isNan = false → z.isNan = false → (y.1 = a ∨ y.1 = b) ∧
        let v := (tyFmt ty).decode y.1
        if isMax then FNum.lt true v x = false ∧ FNum.lt true v z = false else FNum.lt true x v = false ∧ FNum.lt true z v = false) ∧
      y.2 = if x = .nan .signalling ∨ tm.secondNum ty w l = .nan .signalling then fInvalid else 0
    Computes (.fmin p ty w) p ty (riD w) (usesRI ty w) (R false) ∧
    Computes (.fmax p ty w) p ty (riD w) (usesRI ty w) (R true)

/-- R115, R116: the order by which FMIN, FMAX and FCMP choose is that of the rational numbers, with −0 below +0 where zeros are told apart;
−∞ lies below and +∞ above every finite value, and a NaN has no order. -/
def Sys2Proof.Spec.floatOrder : Prop :=
  ∀ (zeros k m : Bool) (a b c d : Nat), 0 < b → 0 < d →
    let x : FNum := .fin k a b
    let y : FNum := .fin m c d
    (FNum.lt zeros x y = true ↔ ratOf x < ratOf y ∨ (zeros = true ∧ a = 0 ∧ c = 0 ∧ k = true ∧ m = false)) ∧
    FNum.lt zeros (.inf k) y = k ∧ FNum.lt zeros x (.inf m) = !m ∧ FNum.lt zeros (.inf k) (.inf m) = (k && !m) ∧
    ∀ n (v : FNum), FNum.lt zeros (.nan n) v = false ∧ FNum.lt zeros v (.nan n) = false

/-- R116: FCMP sets the bit to the truth of the condition; a NaN operand makes only .ne and .un true, and sets INVALID when signalling
or in the .sig form. -/
def Sys2Proof.Spec.floatComparison : Prop :=
  ∀ (p : Pred) (ty : Ty) (cc : FCond) (sig : Bool) (w : RI), ty.isFlt = true →
    ComputesMask (.fcmp p ty cc sig w) p (riD w) (usesCmp ty w) (fun tm l y =>
      let a := tm.firstNum ty w l
      let b := tm.secondNum ty w l
      (a.isNan = true ∨ b.isNan = true → (y.1 = true ↔ cc = .ne ∨ cc = .un)) ∧
      (a.isNan = false → b.isNan = false → (y.1 = true ↔ match cc with
        | .eq => FNum.lt false a b = false ∧ FNum.lt false b a = false
        | .ne => FNum.lt false a b = true ∨ FNum.lt false b a = true
        | .lt => FNum.lt false a b = true
        | .le => FNum.lt false b a = false
        | .gt => FNum.lt false b a = true
        | .ge => FNum.lt false a b = false
        | .un => False
        | .ord => True)) ∧
      y.2 = if a = .nan .signalling ∨ b = .nan .signalling ∨ (sig = true ∧ (a.isNan = true ∨ b.isNan = true)) then fInvalid else 0)

/-- R117, R118: FCLASS writes one bit by the class of the code; FRND rounds to an integral value, keeps zeros and infinities, and sets
INVALID for a signalling NaN alone. -/
def Sys2Proof.Spec.floatClassAndIntegral : Prop :=
  ∀ (p : Pred) (ty : Ty) (w : RWord), ty.isFlt = true →
    Computes (.fclass p ty w) p .n32 w.d (usesFclass ty w) (fun tm l y =>
      y = (2 ^ classBit (tyFmt ty) (tm.bitsOf ty w.a w.ma l), 0)) ∧
    Computes (.frnd p ty w) p ty w.d (usesDA ty w) (fun tm l y =>
      let a := tm.bitsOf ty w.a w.ma l
      let x := (tyFmt ty).decode a
      (y.2 = if x = .nan .signalling then fInvalid else 0) ∧
      (x.isNan = true → y.1 = (tyFmt ty).canonNan) ∧
      (x.isNan = false → expOf (tyFmt ty) a = 2 ^ (tyFmt ty).ebits - 1 ∨ x.isZero = true → y.1 = a) ∧
      ∀ n c d, x = .fin n c d → y.1 = ((tyFmt ty).round (tm.mode w.rm) false (.fin n (roundInt (tm.mode w.rm) n c d) 1)).1)

/-- R119, R120, R98: FUPD writes the weight and the two moments of R120's step, or nothing under SKIPNF with a non-finite value; equal
registers raise Illegal-Operand. -/
def Sys2Proof.Spec.optimiserWrites : Prop :=
  ∀ (p : Pred) (adam : Bool) (w : RWord) (s : State) (t : Nat) (tm : Team),
    (Able s t tm p (usesFupd w) → distinct [w.d, w.a, w.b, w.c] = true →
      ∃ tm1, exec (.fupd p adam w) s = .next (completed s t tm p (usesFupd w) tm1) ∧
        let x (l : Nat) := updStep adam tm.skipnf (updParams fun i => tm.sGet (w.simm.toNat + i))
          (tm.vGet w.d.num.toNat l) (tm.vGet w.a.num.toNat l) (tm.vGet w.b.num.toNat l) (tm.word w.c w.mc l)
        (∀ r l, tm1.vGet r l =
          if l ∈ activeLanes tm p then
            if r = w.d.num.toNat then (x l).w else if r = w.a.num.toNat then (x l).m else if r = w.b.num.toNat then (x l).v
            else tm.vGet r l
          else tm.vGet r l) ∧
        tm1.status = joinFlags tm.status (activeLanes tm p) (fun l => (x l).flags) ∧
        { tm1 with v := tm.v, status := tm.status } = tm) ∧
    (s.current = some (t, tm) → distinct [w.d, w.a, w.b, w.c] = false → Illegal (.fupd p adam w) s t tm)

/-- R120: the step of FUPD and UPD, rounding by rounding in RN: the gradient with its L2 term, the two moments, the clamp of the second,
the root and the quotient, the decay, the weight; a non-finite value under SKIPNF leaves all three as they were. -/
def Sys2Proof.Spec.optimiserArithmetic : Prop :=
  ∀ (adam skipnf : Bool) (q : UpdParams) (w m v g : Word32),
    let val (x : Word32) : FNum := fmtF32.decode x.toNat
    let rn (x : FNum × BitVec 8) : Word32 := BitVec.ofNat 32 (fmtF32.round .rn false x.1).1
    let mul (a b : Word32) : Word32 := rn ((val a).mul (val b))
    let fma (a b c : Word32) : Word32 := rn (FNum.fma .rn (val a) (val b) (val c))
    let g1 := if adam then fma q.delta w g else g
    let m1 := fma q.gamma1 g1 (mul q.beta1 m)
    let v0 := fma q.gamma2 (mul g1 g1) (mul q.beta2 v)
    let clamp := (val v0).negative
    let v1 : Word32 := if clamp then 0 else v0
    let u := rn ((val m1).div (val (rn (FNum.add .rn (val (rn (val v1).sqrt)) (val q.eps)))))
    let w1 := if adam then w else rn (FNum.add .rn (val w) (val (mul q.delta w)).neg)
    let w2 := rn (FNum.fma .rn (val q.eta).neg (val u) (val w1))
    let finite := [w, m, v, g1, w2, m1, v1].all fun x => (val x).isFinite
    let r := updStep adam skipnf q w m v g
    (finite = true ∨ skipnf = false → r.w = w2 ∧ r.m = m1 ∧ r.v = v1) ∧
    (finite = false → skipnf = true → r.w = w ∧ r.m = m ∧ r.v = v) ∧
    (r.flags.getLsbD 6 = clamp) ∧
    (r.flags.getLsbD 7 = ((!finite && skipnf) || (val w2).isNan))

/-- R57 to R63, R121 to R123: CVT converts, CVTS divides by the block scale and converts, CVTB gives each active lane the scale of its
mask word's active lanes. -/
def Sys2Proof.Spec.conversions : Prop :=
  ∀ (p : Pred) (ty from_ : Ty) (w : RWord),
    Computes (.cvt p ty from_ w) p ty w.d (usesCvt ty from_ w) (fun tm l y =>
      y = convert from_ ty (tm.mode w.rm) w.sat (tm.bitsOf from_ w.a w.ma l)) ∧
    Computes (.cvts p ty from_ w) p ty w.d (usesCvts ty from_ w) (fun tm l y =>
      y = scaleDown ty (tm.mode w.rm) w.sat (num tm from_ w.a w.ma l) ((tm.word w.b w.mb l).toNat % 256)) ∧
    Computes (.cvtb p ty from_ w) p .n8 w.d (usesCvtb from_ w) (fun tm l y =>
      y = blockScale ty from_ w tm (activeLanes tm p) l)

/-- R57 to R61, R121: converting an integer keeps it where an integer type holds it, and goes to a floating or tapered type as that number
does; a NaN becomes zero with INVALID in an integer, NaR with
INVALID in a tapered type, and the canonical NaN in a floating type, E4M3 and E5M2, with INVALID only where it signals; an infinity
becomes an end of an integer type, NaR, an infinity or, with SAT, the largest value, and E4M3's NaN; NaR passes, and zeros stay zero. -/
def Sys2Proof.Spec.conversionCorners : Prop :=
  ∀ (ty ty2 : Ty) (rm : Rm) (sat : Bool) (w : Nat), ty.isInt = true → ty2.isInt = true →
    fitted ty2 sat (value ty w) (convert ty ty2 rm sat w) ∧
    (∀ to_ : Ty, to_.isInt = false →
      let x : FNum := .fin (decide (value ty w < 0)) (value ty w).natAbs 1
      ratOf x = (value ty w : Rat) ∧ (value ty w = 0 → convert ty to_ rm sat w = (0, 0)) ∧
        (value ty w ≠ 0 → convert ty to_ rm sat w = tyFromNum to_ rm sat x)) ∧
    (∀ fl : Ty, fl.isFlt = true → ((tyFmt fl).decode (w % 2 ^ fl.bits)).isNan = true →
      convert fl ty2 rm sat w = (0, fInvalid) ∧ convert fl .tap8 rm sat w = (128, fInvalid)) ∧
    convert .tap8 .tap8 rm sat 128 = (128, 0) ∧ convert .tap6 .tap6 rm sat 32 = (224, 0) ∧
    ∀ from_ : Ty, binary from_ →
      let v := tyValue from_ w
      (v.isNan = true → ∀ to_ : Ty, binary to_ →
        convert from_ to_ rm sat w = ((tyFmt to_).canonNan, if v = .nan .signalling then fInvalid else 0)) ∧
      (∀ neg, v = .inf neg →
        (∀ to_ : Ty, binary to_ → to_ ≠ .e4m3 → convert from_ to_ rm sat w =
          if sat then ((tyFmt to_).top + (if neg then 2 ^ (tyFmt to_).mag else 0), fSat) else (infCode (tyFmt to_) neg, 0)) ∧
        convert from_ .e4m3 rm sat w = (if sat then (if neg then 0xFE else 0x7E, fSat) else (0x7F, fInvalid)) ∧
        (∃ y, convert from_ ty2 rm sat w = (y, fInvalid) ∧ value ty2 y = if neg then least ty2 else greatest ty2) ∧
        convert from_ .tap8 rm sat w = (128, fInvalid) ∧ convert from_ .tap6 rm sat w = (224, fInvalid)) ∧
      (v.isZero = true →
        convert from_ .tap8 rm sat w = (0, 0) ∧ convert from_ .tap6 rm sat w = (0, 0) ∧ convert from_ ty2 rm sat w = (0, 0) ∧
        ∀ to_ : Ty, binary to_ → convert from_ to_ rm sat w = (zeroCode (tyFmt to_) v.negative, 0)) ∧
      (tyFmt .e4m3).canonNan = 0x7F ∧ (tyFmt .e5m2).canonNan = 0x7E ∧ (tyFmt .f32).canonNan = 0x7FC00000 ∧
      (tyFmt .e4m3).top = 0x7E ∧ (tyFmt .e5m2).top = 0x7B

/-- R57, R58, R60 to R63, R122: a finite value goes to a floating type, E4M3 and E5M2 by one rounding, to a tapered type to a nearest of its codes,
clamped at both ends of the range, and to an integer type to the nearest integer, clamped; CVTS divides exactly by the scale first,
where a zero scale gives an infinity with DIVZ or, of a zero, a NaN with INVALID, a NaN scale a NaN, and an infinity stays one; CVTB takes the least scale by which no magnitude exceeds M_D. -/
def Sys2Proof.Spec.convertedValues : Prop :=
  (∀ (ty : Ty) (rm : Rm) (sat neg : Bool) (n d : Nat), 0 < n → 0 < d →
    let v : FNum := .fin neg n d
    let x : Rat := ratOf v
    (binary ty → tyFromNum ty rm sat v = (tyFmt ty).round rm sat v) ∧
    (∀ k, (ty = .tap8 ∧ k = 8) ∨ (ty = .tap6 ∧ k = 6) →
      let y := tyFromNum ty rm sat v
      let c := y.1 % 2 ^ k
      let least : Rat := ratOf (tapDecode k 1)
      let top : Rat := ratOf (tapDecode k (2 ^ (k - 1) - 1))
      let side (z : Nat) : Nat := if neg then 2 ^ k - z else z
      y.1 < 256 ∧
      (least ≤ magnitude x → magnitude x ≤ top →
        roundsIn (tapDecode k) (2 ^ k) rm neg (· ≤ x) (x ≤ ·) c ∧ y.2 = if ratOf (tapDecode k c) = x then 0 else fInexact) ∧
      (magnitude x < least → c = side 1 ∧ y.2 = fUnder ||| fInexact) ∧
      (top < magnitude x → c = side (2 ^ (k - 1) - 1) ∧ y.2 = fOver ||| fInexact)) ∧
    (ty.isInt = true →
      let y := toInteger ty rm v
      y.1 < 2 ^ ty.bits ∧ ∃ q : Int,
        (let e : Rat := x - (q : Rat)
         match rm with
         | .rz => magnitude e < 1 ∧ magnitude (q : Rat) ≤ magnitude x
         | .rd => 0 ≤ e ∧ e < 1
         | .ru => e ≤ 0 ∧ -1 < e
         | .rna => 2 * magnitude e ≤ 1 ∧ (2 * magnitude e = 1 → magnitude x < magnitude (q : Rat))
         | _ => 2 * magnitude e ≤ 1 ∧ (2 * magnitude e = 1 → q % 2 = 0)) ∧
        (least ty ≤ q → q ≤ greatest ty → value ty y.1 = q ∧ y.2 = if (q : Rat) = x then 0 else fInexact) ∧
        (q < least ty → value ty y.1 = least ty ∧ y.2 = fSat) ∧
        (greatest ty < q → value ty y.1 = greatest ty ∧ y.2 = fSat)) ∧
    let into (u : FNum) : Nat × BitVec 8 := if ty.isInt then toInteger ty rm u else tyFromNum ty rm sat u
    let also (fl : BitVec 8) (y : Nat × BitVec 8) : Nat × BitVec 8 := (y.1, y.2 ||| fl)
    let signals (u : FNum) : BitVec 8 := if u = .nan .signalling then fInvalid else 0
    (∀ sc c e, fmtScale.decode (sc % 256) = .fin false c e → 0 < c → 0 < e →
      (∃ a b, 0 < b ∧ ratOf (.fin neg a b) = x / ratOf (.fin false c e) ∧ scaleDown ty rm sat v sc = into (.fin neg a b)) ∧
      scaleDown ty rm sat (.inf neg) sc = into (.inf neg) ∧
      ∀ k, scaleDown ty rm sat (.nan k) sc = also (signals (.nan k)) (into (.nan k))) ∧
    scaleDown ty rm sat v 0 = also fDivz (into (.inf neg)) ∧
    scaleDown ty rm sat (.fin neg 0 d) 0 = also fInvalid (into (.nan .quiet)) ∧
    scaleDown ty rm sat (.inf neg) 0 = into (.inf neg) ∧
    (∀ k, scaleDown ty rm sat (.nan k) 0 = also (signals (.nan k)) (into (.nan k))) ∧
    ∀ u : FNum, scaleDown ty rm sat u 0xFF = also (signals u) (into (.nan .quiet))) ∧
  (∀ (from_ ty : Ty) (rm : Rm) (sat : Bool) (w : Nat) (neg : Bool) (n d : Nat), from_.isInt = false →
    tyValue from_ w = .fin neg n d → convert from_ ty rm sat w =
      if ty.isInt then toInteger ty rm (.fin neg n d) else tyFromNum ty rm sat (.fin neg n d)) ∧
  ∀ (n d m : Nat), 0 < n → 0 < d → m ∈ [448, 57344, 4096, 256, 127] →
    let y := chooseScale (.fin false n d) m
    let need : Rat := (n : Rat) / ((d * m : Nat) : Rat)
    let at_ (z : Nat) : Rat := ratOf (fmtScale.decode z)
    (need ≤ at_ 0xFE → y.1 < 256 ∧ (fmtScale.decode y.1).isFinite = true ∧ need ≤ at_ y.1 ∧ y.2 = 0 ∧
      ∀ z < 256, (fmtScale.decode z).isFinite = true → need ≤ at_ z → at_ y.1 ≤ at_ z) ∧
    (at_ 0xFE < need → y = (0xFE, fSat))

/-- R63, R123: CVTB takes the largest magnitude among the finite values of the active lanes of the lane's mask word, and the scale for it
and M_D; where none is finite, or all are zero, the scale is 1.0 and no flag is set. -/
def Sys2Proof.Spec.blockMaximum : Prop :=
  (∀ (ty from_ : Ty) (w : RWord) (tm : Team) (lanes : List Nat) (l : Nat),
    let block := lanes.filter fun k => k / 32 == l / 32
    let val (k : Nat) : FNum := num tm from_ w.a w.ma k
    ((∀ k ∈ block, (val k).isFinite = false ∨ (val k).isZero = true) → blockScale ty from_ w tm lanes l = (0x78, 0)) ∧
    ∀ k0 ∈ block, (val k0).isFinite = true → (val k0).isZero = false →
      (∀ k ∈ block, (val k).isFinite = true → magnitude (ratOf (val k)) ≤ magnitude (ratOf (val k0))) →
      ∃ n d, 0 < n ∧ 0 < d ∧ ratOf (.fin false n d) = magnitude (ratOf (val k0)) ∧
        blockScale ty from_ w tm lanes l = chooseScale (.fin false n d) (scaleLimit ty)) ∧
  scaleLimit .e4m3 = 448 ∧ scaleLimit .e5m2 = 57344 ∧ scaleLimit .tap8 = 4096 ∧ scaleLimit .tap6 = 256 ∧ scaleLimit .i8 = 127 ∧
  ratOf (fmtScale.decode 0x78) = 1

/-! ### Control transfers -/

/-- R15: from a well-formed PC, sequential flow goes to the next slot, and from slot 4 to slot 0 of the next line. -/
def Sys2Proof.Spec.nextSlot : Prop :=
  ∀ pc : Word64, badPc pc = false →
    (pc.toNat % 8 < 4 → nextPc pc = pc + 1) ∧ (pc.toNat % 8 = 4 → nextPc pc = pc + 60)

/-- R20, R134: with no active lane when it is begun, every instruction but REP, in whatever format its word is, only advances the
PC, or fails step 4 as it would with active lanes; one whose fields pass the checks of step 4 advances. Readings of the model: an
instruction that closes regions closes none there, log 91. -/
def Obligations.IdleInstructions : Prop :=
  ∀ (s : State) (t : Nat) (tm : Team), s.current = some (t, tm) → tm.stall.begun = false →
    let passes (i : Instr) : Prop := exec i s = .next (s.setTeam t tm.advance)
    (∀ (slot : Slot) (i : Instr), decode slot = .ok i → (∀ w, i ≠ .rep w) →
      let p : Pred := ⟨slot.getLsbD 87, slot.extractLsb' 83 4⟩
      activeLanes tm p = [] → s.predMark tm p = none → passes i ∨ Illegal i s t tm) ∧
    (∀ (i : Instr) (f : Follower), follower i = some f → Issues s t tm f.us → f.more tm = true →
      activeLanes tm f.p = [] → s.predMark tm f.p = none → passes i) ∧
    ∀ p : Pred, activeLanes tm p = [] → s.predMark tm p = none →
      (∀ off, passes (.bra p off) ∧ passes (.exit p) ∧ passes (.pick p off)) ∧
      (∀ w : IWord, Issues s t tm [unused .a w.ma w.fea] → passes (.trap p w)) ∧
      (∀ w : RWord, Issues s t tm (usesNone w) → passes (.bkpt p w) ∧ passes (.yield p w)) ∧
      (∀ w : MWord, Issues s t tm (usesNoneM w) → passes (.fence p w) ∧ passes (.fencesc p w)) ∧
      (∀ op ty (w : MWord), Issues s t tm (usesAtom ty w (op == .cas)) → passes (.atom p op ty w)) ∧
      (∀ w : XWord, Issues s t tm (usesCopy w) → w.a.num.toNat % 4 = 0 → barOk s w tm = true → passes (.cpyPlain p w))

/-- R125: BRA, JMP and RET go to their target, CALL after writing the next slot's PC; every one of them as a checked transfer. A malformed
target raises Misaligned at the transferring instruction, and the PC does not change. -/
def Sys2Proof.Spec.transfers : Prop :=
  ∀ (p : Pred) (s : State) (t : Nat) (tm : Team),
    (∀ off pc, Reads s t tm p [] →
      (targetPc tm.pc off.toInt = .ok pc → exec (.bra p off) s = .next (s.setTeam t (tm.goto pc true false))) ∧
      (targetPc tm.pc off.toInt = .error pc →
        exec (.bra p off) s = .next (s.takeTrap t .misaligned (pc.toNat % 2 ^ 56) pc 0 tm.pc))) ∧
    (∀ a, Reads s t tm p [sUse .a a] →
      (badPc (tm.sGet a.num.toNat) = false →
        exec (.jmp p a) s = .next (s.setTeam t (tm.goto (tm.sGet a.num.toNat) true false)) ∧
        exec (.ret p a) s = .next (s.setTeam t (tm.goto (tm.sGet a.num.toNat) true false))) ∧
      (badPc (tm.sGet a.num.toNat) = true →
        exec (.jmp p a) s =
          .next (s.takeTrap t .misaligned ((tm.sGet a.num.toNat).toNat % 2 ^ 56) (tm.sGet a.num.toNat) 0 tm.pc) ∧
        exec (.ret p a) s = exec (.jmp p a) s)) ∧
    (∀ off pc a, let us : List Use := [{ letter := .a, opd := a, want := wantS, write := true }]
      Able s t tm p us → targetPc tm.pc off.toInt = .ok pc →
        exec (.call p off a) s =
          .next ((s.setTeam t ((tm.sSet a.num.toNat (nextPc tm.pc)).goto pc true false)).clearRegMarks tm [.s a.num.toNat])) ∧
    ∀ off pc a, Reads s t tm p [{ letter := .a, opd := a, want := wantS, write := true }] → targetPc tm.pc off.toInt = .error pc →
      exec (.call p off a) s = .next (s.takeTrap t .misaligned (pc.toNat % 2 ^ 56) pc 0 tm.pc)

/-- R77: a target lies the given number of slots away, lines holding five slots each; it is malformed where no such slot lies in the
address space, and nowhere else. -/
def Sys2Proof.Spec.targetArithmetic : Prop :=
  ∀ (pc : Word64) (off : Int), badPc pc = false → -(2 ^ 32) ≤ off → off < 2 ^ 32 →
    let k : Int := 5 * ((pc.toNat / 64 : Nat) : Int) + (pc.toNat % 8 : Nat) + off
    (∀ q, targetPc pc off = .ok q → badPc q = false ∧ 5 * ((q.toNat / 64 : Nat) : Int) + (q.toNat % 8 : Nat) = k) ∧
    (0 ≤ k → k < 5 * 2 ^ 50 → ∃ q, targetPc pc off = .ok q) ∧
    (k < 0 ∨ 5 * 2 ^ 50 ≤ k → ∃ q, targetPc pc off = .error q)

/-- R125: BRC transfers when any, all or none of the active lanes have the bit; LOOP counts A down to zero; PICK (R302) transfers while
the die's busy fraction is at or above the threshold; where one of them would go to a malformed target it raises Misaligned, and A is
not counted; one that does not transfer goes on whatever its target is. -/
def Sys2Proof.Spec.conditionalTransfers : Prop :=
  (∀ (p : Pred) (s : State) (t : Nat) (tm : Team) (off : BitVec 33) (pc : Word64), targetPc tm.pc off.toInt = .error pc →
    let traps (i : Instr) : Prop := exec i s = .next (s.takeTrap t .misaligned (pc.toNat % 2 ^ 56) pc 0 tm.pc)
    (∀ (q : Quant) (a : Opd), Reads s t tm p [mUse .a a .plain false] →
      Quant.holds q (activeLanes tm p) (tm.mask a.num.toNat) = true → traps (.brc p q off a)) ∧
    (∀ (q : Quant) (a : Opd), Reads s t tm p [mUse .a a .plain false] →
      Quant.holds q (activeLanes tm p) (tm.mask a.num.toNat) = false → exec (.brc p q off a) s = .next (s.setTeam t tm.advance)) ∧
    (∀ a : Opd, Able s t tm p [{ sUse .a a with write := true }] →
      (1 < (tm.sGet a.num.toNat).toNat → traps (.loop p off a)) ∧
      ((tm.sGet a.num.toNat).toNat ≤ 1 → exec (.loop p off a) s = .next (s.setTeam t
        (if tm.sGet a.num.toNat = 0 then tm else tm.sSet a.num.toNat 0).advance))) ∧
    (Reads s t tm p [] →
      (tm.pickthr.toNat ≤ tabGet s.bwmon (s.teamDie tm) 0 → traps (.pick p off)) ∧
      (tabGet s.bwmon (s.teamDie tm) 0 < tm.pickthr.toNat → exec (.pick p off) s = .next (s.setTeam t tm.advance)))) ∧
  ∀ (p : Pred) (s : State) (t : Nat) (tm : Team) (off : BitVec 33) (pc : Word64), targetPc tm.pc off.toInt = .ok pc →
    (∀ (q : Quant) (a : Opd), Reads s t tm p [mUse .a a .plain false] →
      let bit (l : Nat) : Bool := (tm.mask a.num.toNat).getLsbD l
      let holds : Prop := match q with
        | .any => ∃ l ∈ activeLanes tm p, bit l = true
        | .all => ∀ l ∈ activeLanes tm p, bit l = true
        | .none => ∀ l ∈ activeLanes tm p, bit l = false
      (holds → exec (.brc p q off a) s = .next (s.setTeam t (tm.goto pc true false))) ∧
      (¬holds → exec (.brc p q off a) s = .next (s.setTeam t tm.advance))) ∧
    (∀ a : Opd, Able s t tm p [{ sUse .a a with write := true }] →
      let n := tm.sGet a.num.toNat
      (n = 0 → exec (.loop p off a) s = .next (s.setTeam t tm.advance)) ∧
      (n = 1 → exec (.loop p off a) s = .next (s.setTeam t (tm.sSet a.num.toNat 0).advance)) ∧
      (1 < n.toNat → exec (.loop p off a) s =
        .next (s.setTeam t ((tm.sSet a.num.toNat (n - 1)).goto pc true false)))) ∧
    (Reads s t tm p [] →
      (tm.pickthr.toNat ≤ tabGet s.bwmon (s.teamDie tm) 0 →
        exec (.pick p off) s = .next (s.setTeam t (tm.goto pc true false))) ∧
      (tabGet s.bwmon (s.teamDie tm) 0 < tm.pickthr.toNat → exec (.pick p off) s = .next (s.setTeam t tm.advance)))

/-- R126, R140, R141, R348: BRD pushes its reconvergence PC with the active lanes and splits them by mA; it raises Misaligned where either PC
is malformed, the taken target first, and Illegal-Operand without two free entries. JOIN pops, and continues with the live lanes popped,
or, where none of them is live, resumes at the first entry below with a live lane, or ends the team; without an entry of its own, or with
a reconvergence block that has been changed, it raises Illegal-Operand. -/
def Sys2Proof.Spec.divergence : Prop :=
  ∀ (s : State) (t : Nat) (tm : Team) (p : Pred), p = ⟨false, 0⟩ →
    (∀ off a rcv tgt back, Reads s t tm p [mUse .a a .plain false] → targetPc tm.pc off.toInt = .ok tgt →
      targetPc tm.pc rcv.toInt = .ok back → tm.stack.length + 2 ≤ stackDepth tm.lanes →
      let taken := tm.active p &&& tm.mask a.num.toNat
      let left := tm.active p &&& ~~~ tm.mask a.num.toNat
      let base : StackEntry := ⟨false, back, tm.active p⟩
      ∃ tm1, exec (.brd off a rcv) s = .next (s.setTeam t tm1) ∧
        (taken = 0 → tm1 = { tm with stack := base :: tm.stack }.advance) ∧
        (taken ≠ 0 → left = 0 → tm1 = { tm with stack := base :: tm.stack }.goto tgt true false) ∧
        (taken ≠ 0 → left ≠ 0 → tm1 =
          { tm.goto tgt true false with e := taken, stack := ⟨true, nextPc tm.pc, left⟩ :: base :: tm.stack })) ∧
    (∀ off a rcv, Reads s t tm p [mUse .a a .plain false] →
      let traps (pc : Word64) : Prop := exec (.brd off a rcv) s = .next (s.takeTrap t .misaligned (pc.toNat % 2 ^ 56) pc 0 tm.pc)
      (∀ pc, targetPc tm.pc off.toInt = .error pc → traps pc) ∧
      ∀ tgt, targetPc tm.pc off.toInt = .ok tgt →
        (∀ pc, targetPc tm.pc rcv.toInt = .error pc → traps pc) ∧
        ∀ back, targetPc tm.pc rcv.toInt = .ok back → stackDepth tm.lanes < tm.stack.length + 2 → Illegal (.brd off a rcv) s t tm) ∧
    (∀ n, stackDepth n = if n ≤ 128 then 32 else if n ≤ 256 then 24 else if n ≤ 512 then 14 else 7) ∧
    (Reads s t tm p [] →
      (∀ e rest, tm.block = none → tm.stack = e :: rest → (e.pending = true ∨ e.pc = tm.pc) →
        (e.mask &&& ~~~ tm.x ≠ 0 → exec .join s = .next (s.setTeam t { tm.goto (if e.pending then e.pc else nextPc tm.pc) false true with
          stack := rest, e := e.mask &&& ~~~ tm.x })) ∧
        (e.mask &&& ~~~ tm.x = 0 →
          ((∀ d ∈ rest, d.mask &&& ~~~ tm.x = 0) → exec .join s = .next (s.setTeam t { tm with stack := [], phase := .ended })) ∧
          ∀ dead f left, rest = dead ++ f :: left → (∀ d ∈ dead, d.mask &&& ~~~ tm.x = 0) → f.mask &&& ~~~ tm.x ≠ 0 →
            exec .join s = .next (s.setTeam t { tm.goto (if f.pending then f.pc else nextPc f.pc) false true with
              stack := left, e := f.mask &&& ~~~ tm.x }))) ∧
      (tm.block ≠ none ∨ tm.stack = [] ∨ (∃ e rest, tm.stack = e :: rest ∧ e.pending = false ∧ e.pc ≠ tm.pc) →
        Illegal .join s t tm))

/-- R127, R141, R348: EXIT takes the active lanes out of the team; the team goes on while lanes of E are live, resumes at the first stack
entry with a live lane otherwise, and ends when there is none; the resumption raises Illegal-Operand where the reconvergence block has
been changed. -/
def Sys2Proof.Spec.lanesExit : Prop :=
  ∀ (p : Pred) (s : State) (t : Nat) (tm : Team), Reads s t tm p [] →
    let x := tm.x ||| tm.active p
    (tm.e &&& ~~~ x ≠ 0 → exec (.exit p) s = .next (s.setTeam t { tm with x := x }.advance)) ∧
    (tm.e &&& ~~~ x = 0 → tm.block ≠ none → Illegal (.exit p) s t tm) ∧
    (tm.e &&& ~~~ x = 0 → tm.block = none → (∀ e ∈ tm.stack, e.mask &&& ~~~ x = 0) →
      exec (.exit p) s = .next (s.setTeam t { tm with x := x, stack := [], phase := .ended })) ∧
    (tm.e &&& ~~~ x = 0 → tm.block = none → ∀ dead e rest, tm.stack = dead ++ e :: rest → (∀ d ∈ dead, d.mask &&& ~~~ x = 0) →
      e.mask &&& ~~~ x ≠ 0 →
      exec (.exit p) s = .next (s.setTeam t
        { { tm with x := x }.goto (if e.pending then e.pc else nextPc e.pc) false true with
          stack := rest, e := e.mask &&& ~~~ x }))

/-! ### Traps -/

/-- R25: a team with traps unmasked and a trap vector that can be entered takes a trap so: %trapcause holds the code and the detail,
%trappc the PC given, MASKED becomes 1, and the PC becomes the vector, unchecked; no register, mask or byte of memory changes. -/
def Sys2Proof.Spec.trapEntry : Prop :=
  ∀ (s : State) (t : Nat) (tm : Team) (c : Cause) (detail : Nat) (addr ret : Word64) (lanes : LaneSet),
    tabGet? s.teams t = some tm → tm.masked = false → badVector (s.ctx (s.vfOf tm)).trapvec = false →
    ∃ tm1, s.takeTrap t c detail addr lanes ret = s.setTeam t tm1 ∧
      tm1.trapcause = BitVec.ofNat 64 (c.code + detail * 256) ∧ tm1.trappc = ret ∧ tm1.masked = true ∧
      tm1.pc = (s.ctx (s.vfOf tm)).trapvec ∧ tm1.checked = false ∧
      tm1.v = tm.v ∧ tm1.s = tm.s ∧ tm1.m = tm.m ∧ tm1.vEmpty = tm.vEmpty ∧ tm1.sEmpty = tm.sEmpty ∧
      tm1.status = tm.status ∧ tm1.rm = tm.rm ∧ tm1.e = tm.e ∧ tm1.x = tm.x ∧ tm1.stack = tm.stack ∧
      tm1.pickthr = tm.pickthr ∧ tm1.regpc = tm.regpc ∧ tm1.regcnt = tm.regcnt

/-- R26, R27: a trap taken while MASKED is 1, or with a zero or malformed vector, enters no handler: the launch is stopped with a record
of the cause, and every group of it is retired. -/
def Sys2Proof.Spec.secondFault : Prop :=
  ∀ (s : State) (t : Nat) (tm : Team) (c : Cause) (detail : Nat) (addr ret : Word64) (lanes : LaneSet) (la : Launch),
    tabGet? s.teams t = some tm → tabGet? s.launches tm.launch = some la →
    tm.masked = true ∨ badVector (s.ctx (s.vfOf tm)).trapvec = true →
    ∃ la1, tabGet? (s.takeTrap t c detail addr lanes ret).launches tm.launch = some la1 ∧
      la1.terminated = true ∧ la.records < la1.records ∧ (la.records = 0 → la1.firstCause = c.code) ∧
      ∀ g gr, tabGet? s.groups g = some gr → gr.launch = tm.launch →
        ∃ gr1, tabGet? (s.takeTrap t c detail addr lanes ret).groups g = some gr1 ∧ gr1.retired = true

/-- R28: ERET with MASKED = 1 goes to %trappc unchecked and clears MASKED; with MASKED = 0 it raises Illegal-Instruction, and with a malformed %trappc Misaligned (R15). -/
def Sys2Proof.Spec.trapReturn : Prop :=
  ∀ (s : State) (t : Nat) (tm : Team) (w : RWord), Reads s t tm ⟨false, 0⟩ (usesNone w) →
    (tm.masked = true → badPc tm.trappc = false →
      ∃ tm1, exec (.eret w) s = .next (s.setTeam t tm1) ∧ tm1.pc = tm.trappc ∧ tm1.masked = false ∧ tm1.checked = false ∧
        tm1.v = tm.v ∧ tm1.s = tm.s ∧ tm1.m = tm.m ∧ tm1.status = tm.status ∧ tm1.trapcause = tm.trapcause ∧
        tm1.trappc = tm.trappc ∧ tm1.e = tm.e ∧ tm1.x = tm.x ∧ tm1.stack = tm.stack) ∧
    (tm.masked = true → badPc tm.trappc = true →
      exec (.eret w) s = .next (s.takeTrap t .misaligned (tm.trappc.toNat % 2 ^ 56) tm.trappc 0 tm.pc)) ∧
    (tm.masked = false → exec (.eret w) s = .next (s.takeTrap t .illegalInstruction 0 0 0 tm.pc))

/-- R129, R131: TRAP and BKPT take Software and Breakpoint with their operand as the detail and the next slot's PC in %trappc; BKPT stops
the team for a debugger that has claimed the context; TMASK sets or clears MASKED and nothing else. -/
def Sys2Proof.Spec.systemTraps : Prop :=
  ∀ (p : Pred) (s : State) (t : Nat) (tm : Team),
    (∀ w : IWord, Reads s t tm p [unused .a w.ma w.fea] →
      exec (.trap p w) s = .next (s.takeTrap t .software w.imm.toNat 0 0 (nextPc tm.pc))) ∧
    (∀ w : RWord, Reads s t tm p (usesNone w) →
        (((s.ctx (s.vfOf tm)).claimed && s.invasiveOk (s.vfOf tm)) = false →
          exec (.bkpt p w) s = .next (s.takeTrap t .breakpoint w.simm.toNat 0 0 (nextPc tm.pc))) ∧
        (((s.ctx (s.vfOf tm)).claimed && s.invasiveOk (s.vfOf tm)) = true →
          exec (.bkpt p w) s = .next (s.setTeam t { tm.advance with halted := true }))) ∧
    (∀ w : RWord, Reads s t tm ⟨false, 0⟩ (usesNone w) →
      exec (.tmaskMask w) s = .next (s.setTeam t (tm.setMasked true).advance) ∧
      exec (.tmaskUnmask w) s = .next (s.setTeam t (tm.setMasked false).advance))

/-! ### Special registers -/

/-- R9, R10, R130: SRD reads each special register, %wid for each lane; a number that R9 does not list raises Illegal-Operand. -/
def Sys2Proof.Spec.specialReads : Prop :=
  ∀ (p : Pred) (ty : Ty) (w : RWord) (s : State) (t : Nat) (tm : Team),
    (Able s t tm p (usesSrd ty w) → w.a.num.toNat ≤ 11 →
      ∃ (tm1 : Team) (f : Nat → Nat), exec (.srd p ty w) s = .next (completed s t tm p (usesSrd ty w) tm1) ∧
        Wrote tm tm1 ty w.d (resultLanes tm p w.d) f ∧ tm1.status = tm.status ∧
        ∀ l ∈ resultLanes tm p w.d, f l = (match w.a.num.toNat with
          | 0 => tm.pc
          | 1 => tm.status.setWidth 64
          | 2 => BitVec.ofNat 64 (tm.rm.toNat + if tm.skipnf then 8 else 0)
          | 3 => tm.laneWid ((s.launchOf tm).elim 0 fun la => nth 0 la.widths 0) l
          | 4 => tm.trapcause
          | 5 => tm.trappc
          | 6 => if tm.masked then 1 else 0
          | 7 => s.beacon
          | 8 => BitVec.ofNat 64 (tabGet s.bwmon (s.teamDie tm) 0)
          | 9 => tm.pickthr.setWidth 64
          | 10 => if s.debugOk (s.vfOf tm) then BitVec.ofNat 64 (tm.einjSite.toNat * 2 ^ 60 + tm.einjAddr.toNat) else 0
          | _ => ((s.groupOfTeam tm).elim 0 (·.batch)).setWidth 64).toNat) ∧
    (s.current = some (t, tm) → 11 < w.a.num.toNat → Illegal (.srd p ty w) s t tm)

/-- R9, R10, R130: SWR writes the fields of each writable register, clamps %pickthr, and raises Illegal-Operand for a rounding mode that
is not legal, for a read-only register and for a number that R9 does not list. -/
def Sys2Proof.Spec.specialWrites : Prop :=
  ∀ (p : Pred) (ty : Ty) (w : RWord) (s : State) (t : Nat) (tm : Team),
    (Reads s t tm p (usesSwr ty w) →
      let x : Word64 := BitVec.ofNat 64 (tm.bitsOf ty w.a w.ma ((activeLanes tm p).headD 0))
      let n := w.d.num.toNat
      (n = 1 → exec (.swr p ty w) s = .next (s.setTeam t { tm.advance with status := x.setWidth 8 })) ∧
      (n = 2 → 1 ≤ x.toNat % 8 → x.toNat % 8 ≤ 5 →
        exec (.swr p ty w) s = .next (s.setTeam t { tm.advance with rm := x.setWidth 3, skipnf := x.getLsbD 3 })) ∧
      (n = 2 → x.toNat % 8 = 0 ∨ 5 < x.toNat % 8 → Illegal (.swr p ty w) s t tm) ∧
      (n = 4 → exec (.swr p ty w) s = .next (s.setTeam t { tm.advance with trapcause := x })) ∧
      (n = 5 → exec (.swr p ty w) s = .next (s.setTeam t { tm.advance with trappc := x })) ∧
      (n = 6 → exec (.swr p ty w) s = .next (s.setTeam t (tm.setMasked (x.getLsbD 0)).advance)) ∧
      (n = 9 → exec (.swr p ty w) s =
        .next (s.setTeam t { tm.advance with pickthr := if x.toNat ≤ 256 then BitVec.ofNat 9 x.toNat else 256 })) ∧
      (n = 10 → s.debugOk (s.vfOf tm) = false → Illegal (.swr p ty w) s t tm)) ∧
    (s.current = some (t, tm) → w.d.num.toNat ∈ [0, 3, 7, 8] ∨ 10 < w.d.num.toNat → Illegal (.swr p ty w) s t tm)

/-- R362, R130: SWR %einj with debug authorised keeps SITE and ADDR, and with ARM set marks the word that the site and the address
name, once no checked access to it is pending; the event of the same name does the marking alone. Readings of the model: the sites,
their check and when a mark lands, logs 49 and 120. -/
def Obligations.ErrorInjection : Prop :=
  ∀ (p : Pred) (ty : Ty) (w : RWord) (s : State) (t : Nat) (tm : Team),
    (Reads s t tm p (usesSwr ty w) → w.d.num = 10 → s.debugOk (s.vfOf tm) = true →
      let x : Word64 := BitVec.ofNat 64 (tm.bitsOf ty w.a w.ma ((activeLanes tm p).headD 0))
      let tm1 := { tm.advance with einjSite := x.extractLsb' 60 3, einjAddr := x.extractLsb' 0 56 }
      (x.getLsbD 63 = false → exec (.swr p ty w) s = .next (s.setTeam t tm1)) ∧
      (x.getLsbD 63 = true → ∀ a code,
        s.injectTarget tm (x.extractLsb' 60 3).toNat ((x.extractLsb' 0 56).setWidth 64) = .ok (a, code) →
        exec (.swr p ty w) s = .next (if s.markWaits a then s.onTeam t fun tm => { tm with stall := .other }
          else (s.setTeam t tm1).mark a code))) ∧
    (s.current = some (t, tm) → s.debugOk (s.vfOf tm) = true → ∀ site addr a code,
      s.injectTarget tm site.toNat (addr.setWidth 64) = .ok (a, code) →
      exec (.errorInjection site addr) s =
        .next (if s.markWaits a then s else { s with marks := tabSet s.marks (a / 8) code }))

/-! ### Across lanes -/

namespace Sys2Proof.Spec

open Machine

/-- y is the reduction of the operands xs, in ascending lane order; a floating type rounds at every step, and y holds the flags of all
steps (R166). -/
def reduces (op : RedOp) (t : Ty) (rm : Rm) (sat : Bool) (xs : List Nat) (y : Nat × BitVec 8) : Prop :=
  if t.isFlt then ∃ x rest, xs = x :: rest ∧ foldsTo (floatStep op t rm) (floatStart t x) rest y
  else match op with
    | .add => fitted t sat (xs.map (value t)).sum y
    | .min => y.2 = 0 ∧ value t y.1 ∈ xs.map (value t) ∧ ∀ x ∈ xs.map (value t), value t y.1 ≤ x
    | .max => y.2 = 0 ∧ value t y.1 ∈ xs.map (value t) ∧ ∀ x ∈ xs.map (value t), x ≤ value t y.1
    | .and => y = (xs.foldl (· &&& ·) (2 ^ t.bits - 1), 0)
    | .or => y = (xs.foldl (· ||| ·) 0, 0)
    | .xor => y = (xs.foldl (· ^^^ ·) 0, 0)

/-- The operands of some lanes. -/
def operands (tm : Team) (t : Ty) (o : Opd) (lanes : List Nat) : List Nat := lanes.map (tm.bitsOf t o .plain)

/-- The width of an element of SLIDE, and the elements of a lane (R163). -/
def slideBits (t : Ty) : Nat := if t = .tap6 then 8 else t.bits

def perLane (t : Ty) : Nat := if t.is64 then 1 else 32 / slideBits t

/-- Element e of a v register read as one sequence over the team (R163). -/
def seqElem (tm : Team) (t : Ty) (o : Opd) (e : Nat) : Nat :=
  if t.is64 then (tm.pairGet o.num.toNat e).toNat
  else part (slideBits t) (tm.vGet o.num.toNat (e / perLane t)).toNat (e % perLane t)

/-- Element j of the fill. -/
def fillAt (t : Ty) (b : Word64) (j : Nat) : Nat := if 64 / slideBits t ≤ j then 0 else part (slideBits t) b.toNat j

end Sys2Proof.Spec

/-- R49, R163 to R165: SLIDE moves the team's elements by d and fills the edge from B, a TAP6 element with bits 7 and 6 as copies of
bit 5; SHFL and BCAST read another lane's register. Readings of the model: 64-bit elements and the lanes that are tested, logs 98
and 99. -/
def Obligations.LaneMoves : Prop :=
  ∀ (p : Pred) (ty : Ty) (w : RWord),
    (∀ down, Computes (.slide p down ty w) p (if ty.is64 then ty else .n32) w.d (usesSlide ty w) (fun tm l y =>
      y.2 = 0 ∧ ∀ i < perLane ty,
        let e := l * perLane ty + i
        let d := w.simm.toNat
        let total := tm.lanes * perLane ty
        let x :=
          if down then (if e + d < total then seqElem tm ty w.a (e + d) else fillAt ty (tm.sGet w.b.num.toNat) (e + d - total))
          else if d ≤ e then seqElem tm ty w.a (e - d) else fillAt ty (tm.sGet w.b.num.toNat) e
        part (slideBits ty) y.1 i = if ty = .tap6 then x % 64 + (if x.testBit 5 then 192 else 0) else x)) ∧
    (∀ byXor, Computes (.shfl p byXor ty w) p ty w.d (usesShfl ty w) (fun tm l y =>
      let j := (tm.word w.b .plain l).toNat % tm.lanes
      y = (tm.bitsOf ty w.a .plain (if byXor then l ^^^ j else j), 0))) ∧
    (∀ s t tm, Able s t tm p (usesBcast ty w) → (w.b.cls = .s ∨ w.simm.toNat < tm.lanes) →
      ∃ tm1, exec (.bcast p ty w) s = .next (completed s t tm p (usesBcast ty w) tm1) ∧ tm1.status = tm.status ∧
        Wrote tm tm1 ty w.d (resultLanes tm p w.d) (fun _ => tm.bitsOf ty w.a .plain
          (if w.b.cls = .s then (tm.sGet w.b.num.toNat).toNat % tm.lanes else w.simm.toNat))) ∧
    (∀ s t tm, s.current = some (t, tm) → w.b.cls ≠ .s → tm.lanes ≤ w.simm.toNat → Illegal (.bcast p ty w) s t tm)

/-- R166: REDL writes the reduction of the active lanes' operands, SCANL to each lane that of the lanes up to it, or before it,
where the first lane of the exclusive form receives the identity of the operation. Readings of the model: the flags of an exclusive
scan, log 47. -/
def Obligations.Reductions : Prop :=
  ∀ (p : Pred) (op : RedOp) (ty : Ty) (w : RWord), ty.isInt = true ∨ (ty.isFlt = true ∧ op ∈ [.add, .min, .max]) →
    ∀ s t tm,
      (Able s t tm p (usesRedl ty w (dUse ty w.d)) →
        ∃ (tm1 : Team) (y : Nat × BitVec 8),
          exec (.redl p op ty w) s = .next (completed s t tm p (usesRedl ty w (dUse ty w.d)) tm1) ∧
          Wrote tm tm1 ty w.d (resultLanes tm p w.d) (fun _ => y.1) ∧
          reduces op ty (tm.mode w.rm) w.sat (operands tm ty w.a (activeLanes tm p)) y ∧
          tm1.status = tm.status ||| y.2) ∧
      (∀ excl, Able s t tm p (usesRedl ty w (scanDest ty w)) →
        ∃ (tm1 : Team) (f : Nat → Nat × BitVec 8),
          exec (.scanl p op excl ty w) s = .next (completed s t tm p (usesRedl ty w (scanDest ty w)) tm1) ∧
          Wrote tm tm1 ty w.d (activeLanes tm p) (fun l => (f l).1) ∧
          tm1.status = joinFlags tm.status (activeLanes tm p) (fun l => (f l).2) ∧
          ∀ l ∈ activeLanes tm p,
            let upTo := (activeLanes tm p).filter fun k => if excl then decide (k < l) else decide (k ≤ l)
            (upTo ≠ [] → reduces op ty (tm.mode w.rm) w.sat (operands tm ty w.a upTo) (f l)) ∧
            (upTo = [] → f l = (scanIdentity op ty, 0)) ∧
            (ty.isFlt = true → scanIdentity op ty = match op with
              | .min => infCode (tyFmt ty) false
              | .max => infCode (tyFmt ty) true
              | _ => zeroCode (tyFmt ty) true) ∧
            (ty.isFlt = false → match op with
              | .min => value ty (scanIdentity op ty) = greatest ty
              | .max => value ty (scanIdentity op ty) = least ty
              | .and => scanIdentity op ty = 2 ^ ty.bits - 1
              | _ => scanIdentity op ty = 0))

/-- R167, R168, R170: VOTE tells of the active lanes, to an s register, to each active lane's bit, or as a ballot; ELECT marks the lowest
active lane; MSK combines masks lane by lane. -/
def Sys2Proof.Spec.laneVotes : Prop :=
  ∀ (p : Pred) (w : RWord) (s : State) (t : Nat) (tm : Team),
    let truth (l : Nat) : Bool := if w.a.cls = .m then (tm.mask w.a.num.toNat).getLsbD l else tm.vGet w.a.num.toNat l != 0
    let lanes := activeLanes tm p
    tm.lanes ≤ 1024 →
    (∀ q, Able s t tm p (usesVote (.quant q) w) → (w.d.cls = .s → w.simm.toNat < tm.words) →
      let r : Bool := match q with
        | .any => lanes.any truth
        | .all => lanes.all truth
        | .none => !lanes.any truth
      ∃ tm1, exec (.vote p (.quant q) w) s = .next (completed s t tm p (usesVote (.quant q) w) tm1) ∧ tm1.status = tm.status ∧
        (w.d.cls = .m → WroteMask tm tm1 w.d lanes (fun _ => r)) ∧
        (w.d.cls = .s → Wrote tm tm1 .n32 w.d (resultLanes tm p w.d) (fun _ => if r then 1 else 0))) ∧
    (Able s t tm p (usesVote .ballot w) → (w.d.cls = .s → w.simm.toNat < tm.words) →
      ∃ (tm1 : Team) (y : Nat), exec (.vote p .ballot w) s = .next (completed s t tm p (usesVote .ballot w) tm1) ∧
        tm1.status = tm.status ∧
        (w.d.cls = .m → WroteMask tm tm1 w.d (List.range tm.lanes) (fun l => decide (l ∈ lanes) && truth l)) ∧
        (w.d.cls = .s → Wrote tm tm1 .n32 w.d (resultLanes tm p w.d) (fun _ => y) ∧
          ∀ i < 32, y.testBit i = (decide (32 * w.simm.toNat + i ∈ lanes) && truth (32 * w.simm.toNat + i)))) ∧
    (Able s t tm p (usesElect w) →
      ∃ tm1, exec (.elect p w) s = .next (completed s t tm p (usesElect w) tm1) ∧ tm1.status = tm.status ∧
        (w.d.cls = .m → WroteMask tm tm1 w.d lanes (fun l => decide (l = lanes.headD 0))) ∧
        (w.d.cls ≠ .m → Wrote tm tm1 .n32 w.d (resultLanes tm p w.d) (fun _ => lanes.headD 0))) ∧
    (∀ op, Able s t tm p (usesMsk op w) →
      let a (l : Nat) : Bool := (tm.mask w.a.num.toNat).getLsbD l
      let b (l : Nat) : Bool := (tm.mask w.b.num.toNat).getLsbD l
      ∃ tm1, exec (.msk p op w) s = .next (completed s t tm p (usesMsk op w) tm1) ∧ tm1.status = tm.status ∧
        WroteMask tm tm1 w.d lanes (fun l => match op with
          | .and => a l && b l
          | .or => a l || b l
          | .xor => a l != b l
          | .andn => a l && !b l
          | .not => !a l))

/-- R143, R169: WIDF reads a field of each lane's work identifier, the team's size, or a count of the launch's grid. -/
def Sys2Proof.Spec.workIdentifiers : Prop :=
  ∀ (p : Pred) (ty : Ty) (w : RWord) (s : State) (t : Nat) (tm : Team) (la : Launch),
    Able s t tm p (usesWidf ty w) → s.launchOf tm = some la → w.simm.toNat ≤ 13 →
    ∃ (tm1 : Team) (f : Nat → Nat), exec (.widf p ty w) s = .next (completed s t tm p (usesWidf ty w) tm1) ∧
      Wrote tm tm1 ty w.d (resultLanes tm p w.d) f ∧ tm1.status = tm.status ∧
      ∀ l ∈ resultLanes tm p w.d,
        let i := w.simm.toNat
        (i = 8 → f l = tm.lanes) ∧
        (tm.packed = none → i ≤ 5 →
          f l = (tm.laneWid (nth 0 la.widths 0) l).toNat / 2 ^ (la.widths.take i).sum % 2 ^ nth 0 la.widths i) ∧
        (tm.packed = none → i = 9 → f l = la.tpg) ∧ (tm.packed = none → i = 10 → f l = la.gpg) ∧
        (tm.packed = none → 11 ≤ i → f l = if nth 0 la.widths (i - 8) = 0 then 1 else nth 1 la.counts (i - 11)) ∧
        (∀ ws, tm.packed = some ws → i = 0 → f l = (nth 0 ws l).toNat) ∧
        (∀ ws, tm.packed = some ws → 1 ≤ i → i ≤ 5 → f l = 0) ∧
        (∀ ws, tm.packed = some ws → 9 ≤ i → f l = 1)

/-- R149, R171, R172: SPAWN appends one item for each active lane to the queue, in ascending lanes and with rising sequence numbers,
once every earlier access of its team has performed and the queue has room; it closes a region. Readings of the model: the view of
an item, log 52. -/
def Obligations.SpawnedItems : Prop :=
  ∀ (p : Pred) (w : XWord) (s : State) (t : Nat) (tm : Team) (q : SpawnQueue), Reads s t tm p (usesSpawn w) →
    s.spawnQueue tm (w.imm 3 0) = some q →
    (badPc (tm.sGet w.a.num.toNat) = false → s.drained t = true →
      q.items.length + (activeLanes tm p).length ≤ 4096 →
      ∃ (s1 : State) (q1 : SpawnQueue), exec (.spawn p w) s = .next (s1.setTeam t { tm.advance with closed := true }) ∧
        s1.mem = s.mem ∧ s1.pend = s.pend ∧ s1.teams = s.teams ∧ s1.groups = s.groups ∧
        s1.spawnQueue tm (w.imm 3 0) = some q1 ∧
        q1.counter = q.counter + BitVec.ofNat 64 (activeLanes tm p).length ∧
        q1.items.take q.items.length = q.items ∧ q1.items.length = q.items.length + (activeLanes tm p).length ∧
        ∀ i < (activeLanes tm p).length, ∃ it, q1.items[q.items.length + i]? = some it ∧
          it.pc = tm.sGet w.a.num.toNat ∧ it.seq = q.counter + BitVec.ofNat 64 i ∧
          it.payload = (List.range (w.imm 7 4)).map fun k => tm.vGet (w.b.num.toNat + k) (nth 0 (activeLanes tm p) i)) ∧
    (badPc (tm.sGet w.a.num.toNat) = true → exec (.spawn p w) s =
      .next (s.takeTrap t .misaligned ((tm.sGet w.a.num.toNat).toNat % 2 ^ 56) (tm.sGet w.a.num.toNat) 0 tm.pc))

/-! ### Barriers -/

namespace Sys2Proof.Spec

open Machine

/-- What a meaning works from when the active lanes of an instruction of team tm are ready. -/
def ready (t : Nat) (tm : Team) (p : Pred) : Ready := ⟨t, tm, tm.active p, activeLanes tm p⟩

/-- A team with a word in an s register D, or unchanged where D is none. -/
def withWord (tm : Team) (d : Opd) (w : Word64) : Team :=
  match d.cls with
  | .s => tm.sSet d.num.toNat w
  | _ => tm

end Sys2Proof.Spec

/-- R174: an arrival counts, joins FAULT.C, and when it is the last one of the phase makes it the next generation, with FAULT.L the
fault of the phase and every team that waits for it released. -/
def Sys2Proof.Spec.barrierArrival : Prop :=
  ∀ (s : State) (g k : Nat) (v : View) (fault : Bool) (gr : Group), tabGet? s.groups g = some gr →
    (∀ b ∈ s.bindings, b.2.headD none ≠ some (g, k)) →
    let b := gr.barrier k
    (b.arrived + 1 ≠ b.expect →
      s.arrive g k v fault = s.onGroup g fun gr => gr.setBarrier k { b with
        arrived := b.arrived + 1, collecting := viewJoin b.collecting v, faultC := b.faultC || fault }) ∧
    (b.arrived + 1 = b.expect →
      ∃ gr1, tabGet? (s.arrive g k v fault).groups g = some gr1 ∧
        (gr1.barrier k).arrived = 0 ∧ (gr1.barrier k).gen = b.gen + 1 ∧ (gr1.barrier k).expect = b.expect ∧
        (gr1.barrier k).faultL = (b.faultC || fault) ∧ (gr1.barrier k).faultC = false ∧
        (∀ j ≠ k, gr1.barrier j = gr.barrier j) ∧ (s.arrive g k v fault).mem = s.mem ∧
        ∀ u ∈ gr.teams, ∀ um target, tabGet? s.teams u = some um → um.stall = .barrier k none →
          nth none um.targets k = some target → reached (b.gen + 1) target = true →
          ∃ um1, tabGet? (s.arrive g k v fault).teams u = some um1 ∧ um1.stall = .barrier k (some (gr1.barrier k).status) ∧
            nth none um1.targets k = none ∧ um1.v = um.v ∧ um1.s = um.s ∧ um1.pc = um.pc)

/-- R176 to R178, R196: BARI sets EXPECT of a barrier at which nothing has arrived; BARA arrives; BARW waits for the target of the team's
arrival, BARS arrives first; both give the status word once they are released. An arrival waits until its team's accesses have performed,
and while a swap holds what its closes work on. -/
def Sys2Proof.Spec.barriers : Prop :=
  ∀ (p : Pred) (w : RWord) (s : State) (t : Nat) (tm : Team) (gr : Group), tabGet? s.groups tm.group = some gr →
    let k := w.a.num.toNat
    let b := gr.barrier k
    let marks : List RegRef := match w.d.cls with
      | .s => [.s w.d.num.toNat]
      | _ => []
    (Reads s t tm p (usesBari w) →
      let e : Word64 := match w.b.cls with
        | .s => tm.sGet w.b.num.toNat
        | _ => w.simm.setWidth 64
      (1 ≤ e.toNat → e.toNat < 65536 → b.arrived = 0 → exec (.bari p w) s =
        .next ((s.onGroup tm.group fun g => g.setBarrier k { b with expect := e.setWidth 16 }).setTeam t tm.advance)) ∧
      (e = 0 ∨ 65536 ≤ e.toNat ∨ b.arrived ≠ 0 → Illegal (.bari p w) s t tm)) ∧
    (let arrived := (s.setTeam t { tm with targets := putAt none tm.targets k (some (b.gen + 1)) }).arrive tm.group k
      (tm.pv.released (.group tm.group)) false
     (Reads s t tm p (usesBar w [unused .d]) → s.drained t = true → s.arrivalHeld tm.group k = false →
      exec (.bara p w) s = .next (arrived.onTeam t Team.advance)) ∧
     (Able s t tm p (usesBar w [statusUse w]) → tm.stall = .none → s.drained t = true → s.arrivalHeld tm.group k = false →
      ∀ tm2 gr2, tabGet? arrived.teams t = some tm2 → tabGet? arrived.groups tm.group = some gr2 →
        let target := (nth none tm2.targets k).getD ((gr2.barrier k).gen + 1)
        (reached (gr2.barrier k).gen target = true → exec (.bars p w) s = .next ((arrived.setTeam t
          (withWord (tm2.release tm.group k (gr2.barrier k) target) w.d (gr2.barrier k).status).advance).clearRegMarks tm2 marks)) ∧
        (reached (gr2.barrier k).gen target = false → exec (.bars p w) s = .next (arrived.setTeam t
          { tm2 with targets := putAt none tm2.targets k (some target), stall := .barrier k none }))) ∧
     (s.held = [] → s.arrivalHeld tm.group k = false) ∧
     ∀ i ∈ [Instr.bara p w, .bars p w], Reads s t tm p (usesBar w [if i = .bara p w then unused .d else statusUse w]) →
       tm.stall = .none → (s.drained t = false ∨ s.arrivalHeld tm.group k = true) →
       exec i s = .next (s.setTeam t { tm with stall := .other })) ∧
    (Able s t tm p (usesBar w [statusUse w]) →
      (tm.stall = .none →
        let target := (nth none tm.targets k).getD (b.gen + 1)
        (reached b.gen target = true → exec (.barw p w) s =
          .next ((s.setTeam t (withWord (tm.release tm.group k b target) w.d b.status).advance).clearRegMarks tm marks)) ∧
        (reached b.gen target = false → exec (.barw p w) s =
          .next (s.setTeam t { tm with targets := putAt none tm.targets k (some target), stall := .barrier k none }))) ∧
      (∀ j word, tm.stall = .barrier j (some word) →
        exec (.barw p w) s = .next ((s.setTeam t (withWord tm w.d word).advance).clearRegMarks tm marks) ∧
        exec (.bars p w) s = exec (.barw p w) s)) ∧
    b.status.toNat = b.gen.toNat * 2 ^ 32 + (if b.faultL then 2 ^ 16 else 0) + b.expect.toNat

/-! ### REP, ECLW, LAUNCH, YIELD -/

/-- The operands that a follower uses: letter, class, and number moved by so much for its letter. -/
def Sys2Proof.Spec.movedOperands (f : Follower) (k : Letter → Int) : List (Letter × Cls × Int) :=
  (f.us.filter fun u => u.read || u.write).map fun u =>
    (u.letter, u.opd.cls, (u.opd.num.toNat : Int) + if u.field then k u.letter else 0)

/-- What the forms of followers carry beside their words. -/
structure Sys2Proof.Spec.FormParams where
  p : Pred
  t : Ty
  src : Ty
  flag : Bool
  cc : Cond
  fc : FCond
  red : RedOp
  vote : VoteOp
  msk : MskOp

/-- The followers that R90 admits: those of format R or I, those of format R alone, and those of format M. -/
def Sys2Proof.Spec.formsRI (x : Spec.FormParams) : List (RI → Instr) :=
  [.add x.p x.t, .sub x.p x.t, .mul x.p x.t, .mulh x.p x.t, .div x.p x.t, .rem x.p x.t, .min x.p x.t, .max x.p x.t, .and x.p x.t,
    .or x.p x.t, .xor x.p x.t, .andn x.p x.t, .shl x.p x.t, .shr x.p x.t, .sra x.p x.t, .rot x.p x.t, .bfx x.p x.t, .lea x.p x.t,
    .cmp x.p x.t x.cc, .mov x.p x.t, .pshr x.p x.t, .fadd x.p x.t, .fsub x.p x.t, .fmul x.p x.t, .fdiv x.p x.t, .fmin x.p x.t,
    .fmax x.p x.t, .fcmp x.p x.t x.fc x.flag, .fscale x.p x.t]

def Sys2Proof.Spec.formsR (x : Spec.FormParams) : List (RWord → Instr) :=
  [.mad x.p x.t, .bfi x.p x.t, .fma x.p x.t, .neg x.p x.t, .abs x.p x.t, .clz x.p x.t, .popc x.p x.t, .brev x.p x.t, .addc x.p x.t,
    .subb x.p x.t, .ffcs x.p x.t, .plset x.p x.t, .sel x.p x.t, .movmTor x.p, .movmTom x.p, .padd x.p x.t, .psub x.p x.t, .pmul x.p x.t,
    .pmac x.p x.t, .pmin x.p x.t, .pmax x.p x.t, .pcmp x.p x.t x.cc, .pnar x.p x.t, .pwid x.p x.t, .fsqrt x.p x.t, .frsq x.p x.t,
    .frnd x.p x.t, .fexp2 x.p x.t, .flog2 x.p x.t, .fclass x.p x.t, .fupd x.p x.flag, .cvt x.p x.t x.src, .cvts x.p x.t x.src,
    .cvtb x.p x.t x.src, .slide x.p x.flag x.t, .shfl x.p x.flag x.t, .bcast x.p x.t, .redl x.p x.red x.t, .scanl x.p x.red x.flag x.t,
    .vote x.p x.vote, .elect x.p, .widf x.p x.t, .msk x.p x.msk]

def Sys2Proof.Spec.formsM (x : Spec.FormParams) : List (MWord → Instr) :=
  [.ld x.p x.t, .ldg x.p x.t, .st x.p x.t, .stg x.p x.t, .pref x.p x.t]

/-- R89 to R92: a REP whose follower passes every check starts its iterations; at its next step the team executes the follower of
the iteration, which is the follower with the numbers of its D, A, B and C operands moved by so many steps and nothing else of it
changed, for every form that may follow; each one counts, and after the last one the team goes past both words. A follower that is
refused, one in a marked slot and a step of an unused field raise Illegal-Instruction, a number out of range or a register both
written and read Illegal-Operand. Readings of the model: a team bound anew inside a REP, log 92. -/
def Obligations.Repeats : Prop :=
  (∀ (w : RepWord) (s : State) (t : Nat) (tm : Team), s.current = some (t, tm) → tm.rep = none → ∀ lw slot,
    s.fetchSlot (s.vfOf tm) (nextPc tm.pc) ((nextPc tm.pc).toNat / 64 != tm.pc.toNat / 64) = .ok (lw, slot) →
    let refused (c : Cause) : Prop := exec (.rep w) s = .next (s.takeTrap t c 0 0 0 tm.pc)
    let marked := lw.testBit (10 + (nextPc tm.pc).toNat % 8)
    (∀ e, decode slot = .error e → refused .illegalInstruction) ∧
    (∀ i, decode slot = .ok i → follower i = none → refused .illegalInstruction) ∧
    ∀ i f, decode slot = .ok i → follower i = some f →
      let fits := numbersOk f w &&
        (iterations i w).all (fun f1 => f1.us.all (fun u => u.ok (s.counts tm)) && f1.more tm) && noOverlap (iterations i w)
      (marked = true ∨ stepsOk f w = false → refused .illegalInstruction) ∧
      (marked = false → stepsOk f w = true → fits = false → refused .illegalOperand) ∧
      (marked = false → stepsOk f w = true → fits = true →
        exec (.rep w) s = .next (s.setTeam t { tm with rep := some (0, w, i), stall := .none }))) ∧
  (∀ (s : State) (t : Nat) (tm : Team) (rest : List Move) (i : Nat) (w : RepWord) (f : Instr), s.agenda = .issue t :: rest →
    tabGet? s.teams t = some tm → tm.phase = .running → tm.rep = some (i, w, f) →
    let s0 : State := { s with agenda := rest }
    s0.mayIssue t tm = true → tm.owed = 0 →
      let it := stepped (movesAt w i) f
      step s = logged s0 (afterStep s0 t tm it (exec it { s0 with cur := some t }))) ∧
  (∀ (w : RepWord) (f : Instr) (x : Follower), follower f = some x → stepsOk x w = true → numbersOk x w = true →
    ∀ i ≤ w.cnt.toNat, ∃ y, follower (stepped (movesAt w i) f) = some y ∧ y.p = x.p ∧
      Spec.movedOperands y (fun _ => 0) = Spec.movedOperands x fun
        | .d => (i : Int) * w.sd.toInt
        | .a => (i : Int) * w.sa.toInt
        | .b => (i : Int) * w.sb.toInt
        | .c => (i : Int) * w.sc.toInt) ∧
  (∀ f : Instr, (follower f).isSome = true ↔ ∃ x : Spec.FormParams, (∃ m ∈ Spec.formsRI x, ∃ w, f = m w) ∨
    (∃ m ∈ Spec.formsR x, ∃ w, f = m w) ∨ ∃ m ∈ Spec.formsM x, ∃ w, f = m w) ∧
  (∀ (k : Moves) (x : Spec.FormParams) (r : RWord) (n : IWord) (mw : MWord),
    let moved (o : Opd) (j : Int) : Opd := ⟨o.cls, BitVec.ofInt 8 ((o.num.toNat : Int) + j)⟩
    let r1 : RWord := { r with d := moved r.d k.d, a := moved r.a k.a, b := moved r.b k.b, c := moved r.c k.c }
    (∀ m ∈ Spec.formsRI x, stepped k (m (.r r)) = m (.r r1) ∧
      stepped k (m (.i n)) = m (.i { n with d := moved n.d k.d, a := moved n.a k.a })) ∧
    (∀ m ∈ Spec.formsR x, stepped k (m r) = m r1) ∧
    ∀ m ∈ Spec.formsM x, stepped k (m mw) = m { mw with d := moved mw.d k.d, a := moved mw.a k.a, b := moved mw.b k.b }) ∧
  ∀ (tm : Team) (w : RepWord) (f : Instr),
    (∀ i, i < w.cnt.toNat →
      ({ tm with rep := some (i, w, f) } : Team).advance = { tm with rep := some (i + 1, w, f), stall := .none }) ∧
    ({ tm with rep := some (w.cnt.toNat, w, f) } : Team).advance.pc = nextPc (nextPc tm.pc) ∧
    ({ tm with rep := some (w.cnt.toNat, w, f) } : Team).advance.rep = none

/-- R345, R346, R366: ECLW waits until its status word is there and then writes it; LAUNCH writes its entry, releases at package scope
and advances QTAIL in one move, and writes the index: what the queue hands on holds all that the team's O and A[package] held, and
the entry just written; YIELD asks its unit to leave. -/
def Obligations.DeviceRequests : Prop :=
  ∀ (p : Pred) (s : State) (t : Nat) (tm : Team),
    (∀ (pkg : Bool) (w : RWord), Able s t tm p
        [{ letter := .a, opd := w.a, want := wantSN, read := true }, { letter := .d, opd := w.d, want := wantS, write := true }] →
      (∀ a b word, tm.stall = .eclw a b (some word) →
        exec (.eclw p pkg w) s =
          .next ((s.setTeam t (tm.sSet w.d.num.toNat word).advance).clearRegMarks tm [.s w.d.num.toNat])) ∧
      (tm.stall = .none → exec (.eclw p pkg w) s = .next (s.setTeam t { tm with
        stall := .eclw pkg (w.a.cls == .s && tm.sGet w.a.num.toNat != 0) none }))) ∧
    (∀ w : XWord, Able s t tm p
        [{ letter := .a, opd := w.a, want := wantS, read := true }, { letter := .d, opd := w.d, want := wantS, write := true }] →
      let a := tm.sGet w.a.num.toNat
      let k := if w.imm 6 6 = 1 then w.imm 5 0 else (s.launchOf tm).elim 0 (·.headerQueue)
      let q := s.queue (s.vfOf tm) k
      let va := q.slotVa q.qtail.toNat
      (a.toNat % 128 = 0 → a.toNat < 2 ^ 56 → q.qen = true → s.drained t = true →
        (q.qtail - q.qhead).toNat < 2 ^ q.qlog.toNat →
        ∀ b, s.storeTarget (s.vfOf tm) tm.group .global va 16 .n64 0 = .ok (.byte b) → s.swapping b 16 = false →
        Memory.wf s.mem = true → ∃ s1, exec (.launch p w) s = .next s1 ∧
          (∀ x, memGet s1.mem x = if b ≤ x ∧ x < b + 16 then nth 0 (ringEntry a (w.imm 7 7 == 1)) (x - b) else memGet s.mem x) ∧
          (s1.queue (s.vfOf tm) k).qtail = q.qtail + 1 ∧ (s1.queue (s.vfOf tm) k).qhead = q.qhead ∧
          ∃ tm1, tabGet? s1.teams t = some tm1 ∧ tm1.sGet w.d.num.toNat = q.qtail.setWidth 64 ∧
            { tm1 with s := tm.s, pv := tm.pv } = tm.number.finish true ∧
            (s1.queue (s.vfOf tm) k).rel = viewJoin q.rel (viewJoin tm1.pv.o (msgAt tm.pv.acq .package)) ∧
            (∀ l, viewAt tm.pv.o l ≤ viewAt tm1.pv.o l) ∧
            ∀ i < 16, s1.latest (byteLoc (b + i)) ≤ viewAt tm1.pv.o (byteLoc (b + i))) ∧
      (a.toNat % 128 = 0 → a.toNat < 2 ^ 56 → q.qen = false → Illegal (.launch p w) s t tm)) ∧
    (∀ w : RWord, Reads s t tm p (usesNone w) →
      exec (.yield p w) s = .next ((s.setTeam t tm.advance).requestLeave (s.unitOf tm.group) .yield))

/-! ### Loads and stores -/

namespace Sys2Proof.Spec

open Machine

/-- A table that gained exactly the entries xs, in this order and each but for what f removes, under rising numbers from lo up to hi. -/
def Entered {α : Type} (old new : Tab α) (lo hi : Nat) (f : α → α) (xs : List α) : Prop :=
  ∃ es : List (Nat × α), new = es.foldl (fun p e => tabSet p e.1 e.2) old ∧ es.map (fun e => f e.2) = xs.map f ∧
    (es.map (·.1)).Pairwise (· < ·) ∧ ∀ e ∈ es, lo ≤ e.1 ∧ e.1 < hi

/-- An access without the producer that it feeds. -/
def unfed (a : Access) : Access := { a with prod := none }

/-- s1 is s after team tm has issued the accesses accs and the producers made, no other: some registers are empty, the instruction has
its place in program order and is over; memory, and every pending access and producer that there was, are as before. -/
structure Issued (s s1 : State) (t : Nat) (tm : Team) (emptied : List RegRef) (closes : Bool) (accs : List Access)
    (made : List Producer) : Prop where
  rest : { s1 with teams := s.teams, pend := s.pend, prods := s.prods, nextId := s.nextId } = s
  newPend : Entered s.pend s1.pend s.nextId s1.nextId unfed accs
  newProds : Entered s.prods s1.prods s.nextId s1.nextId id made
  pend : ∀ k < s.nextId, tabGet? s1.pend k = tabGet? s.pend k
  prods : ∀ k < s.nextId, tabGet? s1.prods k = tabGet? s.prods k
  others : ∀ u ≠ t, tabGet? s1.teams u = tabGet? s.teams u
  team : ∃ tm1, tabGet? s1.teams t = some tm1 ∧
    { tm1 with vEmpty := tm.vEmpty, sEmpty := tm.sEmpty } = tm.number.finish closes ∧
    ∀ q, tm1.isEmpty q = (tm.isEmpty q || emptied.contains q)

/-- One of the accesses pending in s1, made after s. -/
def Pending (s s1 : State) (a : Access) : Prop := ∃ k, s.nextId ≤ k ∧ tabGet? s1.pend k = some a

/-- A producer of s1, made after s, that waits for these accesses: each is the access that f makes of the producer and of its part. -/
def Producing (s s1 : State) (q : Producer) (fs : List (Option (Nat × Nat) → Access)) : Prop :=
  ∃ k, s.nextId ≤ k ∧ tabGet? s1.prods k = some q ∧
    ∀ (i : Nat) (f : Option (Nat × Nat) → Access), fs[i]? = some f → Pending s s1 (f (some (k, i)))

/-- The producer of lane l of LD and LDG, of an access or of a null index, which gives zero. -/
def loadProducer (t : Nat) (ty : Ty) (w : MWord) (l : Nat) (null : Bool) : Producer where
  team := t
  dests := destRefs ty w.d [l]
  form := if null then .value (destRef w.d l) ty 0 else .elem (destRef w.d l) ty (.ty ty) 0 false false
  parts := if null then [] else [none]

/-- The access of lane l of LD and LDG. -/
def loadAccess (s : State) (t : Nat) (tm : Team) (p : Pred) (ty : Ty) (w : MWord) (l : Nat) (va : Word64) (tg : Target)
    (k : Option (Nat × Nat)) : Access :=
  s.teamAccess (ready t tm p) w.space l va tg (ty.bits / 8) .read w.ord w.scope k

/-- LD and LDG issue for each of these lanes its producer and the access that it waits for, unless its index is null, and nothing else. -/
def Loads (s s1 : State) (t : Nat) (tm : Team) (p : Pred) (ty : Ty) (w : MWord) (lanes : List Nat)
    (x : Nat → Option (Word64 × Target)) : Prop :=
  Issued s s1 t tm (destRefs ty w.d lanes) false
    (lanes.filterMap fun l => (x l).map fun y => loadAccess s t tm p ty w l y.1 y.2 none)
    (lanes.map fun l => loadProducer t ty w l (x l).isNone) ∧
  ∀ l ∈ lanes, match x l with
    | none => Producing s s1 (loadProducer t ty w l true) []
    | some (va, tg) => Producing s s1 (loadProducer t ty w l false) [loadAccess s t tm p ty w l va tg]

end Sys2Proof.Spec

/-- R128, R242: LD and LDG issue, for each lane that gives a result, a read of the lane's address and a producer that empties the
register; a null index reads nothing and gives zero. Memory does not change. Readings of the model: LDG to an s register, log 35. -/
def Obligations.Loads : Prop :=
  ∀ (p : Pred) (ty : Ty) (w : MWord) (s : State) (t : Nat) (tm : Team),
    (Able s t tm p (usesAB w wantIndex .active ++ [{ dUse ty w.d with fe := w.fed }]) →
      (∀ tg : Nat → Target,
        (∀ l ∈ resultLanes tm p w.d,
          s.loadTarget (s.vfOf tm) tm.group w.space (tm.effective w l) (ty.bits / 8) ty = .ok (tg l)) →
        ∃ s1, exec (.ld p ty w) s = .next s1 ∧
          Spec.Loads s s1 t tm p ty w (resultLanes tm p w.d) fun l => some (tm.effective w l, tg l)) ∧
      (∀ before l after e, resultLanes tm p w.d = before ++ l :: after →
        (∀ k ∈ before, ∃ tg, s.loadTarget (s.vfOf tm) tm.group w.space (tm.effective w k) (ty.bits / 8) ty = .ok tg) →
        s.loadTarget (s.vfOf tm) tm.group w.space (tm.effective w l) (ty.bits / 8) ty = .error e →
        ∃ failed : LaneSet, exec (.ld p ty w) s = .next (s.settle t failed e))) ∧
    (Able s t tm p (usesAB w wantV .eachActive ++ [{ dUse ty w.d with fe := w.fed }]) → ∀ tg : Nat → Target,
      (∀ l ∈ activeLanes tm p, ∀ va, tm.indexed ty w l = some va →
        s.loadTarget (s.vfOf tm) tm.group w.space va (ty.bits / 8) ty = .ok (tg l)) →
      ∃ s1, exec (.ldg p ty w) s = .next s1 ∧
        Spec.Loads s s1 t tm p ty w (resultLanes tm p w.d) fun l => (tm.indexed ty w l).map fun va => (va, tg l))

/-- R128, R242: ST and STG issue one store for each active lane, of the low bytes of D at the lane's address, and no other access; a
null index stores nothing. No register changes, and memory does not change before the stores perform. -/
def Obligations.Stores : Prop :=
  ∀ (p : Pred) (ty : Ty) (w : MWord) (s : State) (t : Nat) (tm : Team),
    let stored (l : Nat) (va : Word64) (tg : Target) : Access :=
      s.teamAccess (ready t tm p) w.space l va tg (ty.bits / 8)
        (tg.storeKind ty (tm.storeData ty w.d l) (toBytesLE (ty.bits / 8) (tm.storeData ty w.d l).toNat)
          (List.replicate (ty.bits / 8) 0xFF)) w.ord w.scope none
    (Reads s t tm p (usesAB w wantIndex .active ++ [dSrc ty w.d w.fed]) → ∀ tg : Nat → Target,
      (∀ l ∈ activeLanes tm p,
        s.storeTarget (s.vfOf tm) tm.group w.space (tm.effective w l) (ty.bits / 8) ty (tm.storeData ty w.d l) = .ok (tg l)) →
      ∃ s1, exec (.st p ty w) s = .next s1 ∧
        Issued s s1 t tm [] false ((activeLanes tm p).map fun l => stored l (tm.effective w l) (tg l)) [] ∧ s1.prods = s.prods ∧
        ∀ l ∈ activeLanes tm p, Pending s s1 (stored l (tm.effective w l) (tg l))) ∧
    (Reads s t tm p (usesAB w wantV .eachActive ++ [dSrc ty w.d w.fed]) → ∀ tg : Nat → Target,
      (∀ l ∈ activeLanes tm p, ∀ va, tm.indexed ty w l = some va →
        s.storeTarget (s.vfOf tm) tm.group w.space va (ty.bits / 8) ty (tm.storeData ty w.d l) = .ok (tg l)) →
      ∃ s1, exec (.stg p ty w) s = .next s1 ∧
        Issued s s1 t tm [] false ((activeLanes tm p).filterMap fun l => (tm.indexed ty w l).map fun va => stored l va (tg l)) [] ∧
        s1.prods = s.prods ∧
        ∀ l ∈ activeLanes tm p, ∀ va, tm.indexed ty w l = some va → Pending s s1 (stored l va (tg l)))

/-- R247 to R250: ATOM and BFA issue one indivisible access for each active lane, and a producer for each lane whose old value is
delivered; RED issues one reduction for each location that the lanes name, its operand combined in ascending lanes. All close a
region. Readings of the model: an s destination, log 35. -/
def Obligations.Atomics : Prop :=
  ∀ (p : Pred) (w : MWord) (s : State) (t : Nat) (tm : Team),
    let issues (i : Instr) (ty : Ty) (two : Bool) (kind : Nat → AccKind) : Prop :=
      Able s t tm p (usesAtom ty w two) → ∀ tg : Nat → Target,
        (∀ l ∈ activeLanes tm p,
          s.atomTarget (s.vfOf tm) tm.group w.space (tm.effective w l) (ty.bits / 8) false = .ok (tg l)) →
        let acc (l : Nat) (k : Option (Nat × Nat)) : Access :=
          s.teamAccess (ready t tm p) w.space l (tm.effective w l) (tg l) (ty.bits / 8) (kind l) w.ord w.scope k
        let prod (l : Nat) : Producer :=
          { team := t, dests := destRefs ty w.d [l], form := .value (destRef w.d l) ty 0, parts := [none] }
        ∃ s1, exec i s = .next s1 ∧ Issued s s1 t tm (destRefs ty w.d (resultLanes tm p w.d)) true
            ((activeLanes tm p).map fun l => acc l none) ((resultLanes tm p w.d).map prod) ∧
          ∀ l ∈ activeLanes tm p,
            (l ∈ resultLanes tm p w.d → Producing s s1 (prod l) [acc l]) ∧
            (l ∉ resultLanes tm p w.d → Pending s s1 (acc l none))
    (∀ op ty, issues (.atom p op ty w) ty (op == .cas) (fun l =>
      .atom op ty (tm.storeData ty w.d l) (if op = .cas then tm.after ty w.d l else 0))) ∧
    issues (.bfaIns p w) .n64 true (fun l => .bfaIns (tm.storeData .n64 w.d l) (tm.after .n64 w.d l)) ∧
    issues (.bfaFfcs p w) .n64 false (fun _ => .bfaFfcs) ∧
    issues (.bfaPlset p w) .n64 false (fun l => .bfaPlset (tm.storeData .n64 w.d l)) ∧
    (∀ op ty, Reads s t tm p (usesAB w wantIndex .active ++ [dSrc ty w.d w.fed]) → ∀ tg : Nat → Target,
      (∀ l ∈ activeLanes tm p,
        s.atomTarget (s.vfOf tm) tm.group w.space (tm.effective w l) (ty.bits / 8) true = .ok (tg l)) →
      let same (l : Nat) : List Nat := (activeLanes tm p).filter fun k => (tg k).addr == (tg l).addr
      let acc (l : Nat) (more : List Nat) : Access :=
        s.teamAccess (ready t tm p) w.space l (tm.effective w l) (tg l) (ty.bits / 8)
          (.red op ty (BitVec.ofNat 64 (more.foldl
            (fun v k => (RedOp.combine op ty v (tm.storeData ty w.d k).toNat).1) (tm.storeData ty w.d l).toNat)))
          w.ord w.scope none
      ∃ s1, exec (.red p op ty w) s = .next s1 ∧ s1.prods = s.prods ∧
        Issued s s1 t tm [] true
          (((activeLanes tm p).filter fun l => (same l).head? == some l).map fun l => acc l ((same l).drop 1)) [] ∧
        ∀ l ∈ activeLanes tm p, ∀ first more, same l = first :: more → Pending s s1 (acc first more))

/-- R226, R227, R246, R251: FENCE waits for the accesses that it must follow and makes its moves; FENCESC waits, drained, for a tick
of the beacon, whose SC move ends it; PREF changes nothing. Readings of the model: PREF, log 34. -/
def Obligations.Fences : Prop :=
  ∀ (p : Pred) (w : MWord) (s : State) (t : Nat) (tm : Team),
    (Reads s t tm p (usesNoneM w) →
      let i := s.instOf (.team t) w.scope
      let acq := Ord.acquires w.ord
      let rel := Ord.releases w.ord
      ((rel = true → s.drained t = true) →
        (rel = false → (∀ a ∈ s.pend, (∃ x ∈ a.2.places, x.1 = .team t) → a.2.kind.reads = false ∧ a.2.kind.enters = false) ∧
          ∀ c ∈ s.commands, c.2.team = t → c.2.seq < tm.seq → c.2.inQueues = true) →
        ∃ tm1, exec (.fence p w) s = .next (s.setTeam t tm1) ∧ { tm1 with pv := tm.pv } = tm.advance ∧
          tm1.pv.o = tm.pv.o ∧ tm1.pv.seen = tm.pv.seen ∧
          tm1.pv.acq = (if acq then msgJoin tm.pv.acq i (msgAt tm.pv.seen i) else tm.pv.acq) ∧
          tm1.pv.rel = (if rel then msgJoin tm.pv.rel i (viewJoin tm.pv.o (msgAt tm1.pv.acq i)) else tm.pv.rel)) ∧
      (rel = true → s.drained t = false → exec (.fence p w) s = .next (s.setTeam t { tm with stall := .other })) ∧
      (∀ sc, tm.stall = .fence sc true → exec (.fencesc p w) s = .next (s.setTeam t tm.advance)) ∧
      (tm.stall = .none → s.drained t = true →
        exec (.fencesc p w) s = .next (s.setTeam t { tm with stall := .fence w.scope false }))) ∧
    (∀ ty, s.current = some (t, tm) →
      (∀ u ∈ usesAB w wantIndex .active ++ [{ unused .d with opd := w.d, fe := w.fed }], u.ok (s.counts tm) = true) →
      (∀ u ∈ usesAB w wantIndex .active, u.fe = false → ∀ q ∈ u.refs (activeLanes tm p), tm.isEmpty q = false) →
      exec (.pref p ty w) s = .next (s.setTeam t tm.advance))

/-- R243 to R245: LDT and STT use the handle, and issue for each lane inside the extents the accesses that hold its element, and no
other access; a lane outside reads as zero, and stores nothing. An STT to a read-only handle, or to a list that has layers, raises Access. -/
def Sys2Proof.Spec.tileElements : Prop :=
  ∀ (p : Pred) (ty : Ty) (w : XWord) (s s0 : State) (t : Nat) (tm tm0 : Team) (h : Handle) (a : Nat),
    s.teamHandle (ready t tm p) w.handle.toNat = .ok (h, a, s0) → tabGet? s0.teams t = some tm0 → h.type ≠ 3 →
    w.a.num.toNat + h.rank ≤ tm.vcount →
    (∀ d < h.rank, ∀ l ∈ activeLanes tm p, tm.isEmpty (.v (w.a.num.toNat + d) l) = false) →
    s.regMark tm ((List.range h.rank).flatMap fun d => (activeLanes tm p).map fun l => .v (w.a.num.toNat + d) l) = none →
    let xs (l : Nat) : List Nat := tm.coords w.a h.rank l
    let acc (l : Nat) (x : Word64 × Target × Nat) (kind : AccKind) (k : Option (Nat × Nat)) : Access :=
      s0.teamAccess (ready t tm p) .global l x.1 x.2.1 x.2.2 kind (ordP w) (scopeP w) k
    (Able s t tm p (usesTile ty w false) → ldtPair ty h.elem h false = true →
      ∀ (ps : Nat → List (Word64 × Target × Nat)) (ls : List Layer) (s2 : State),
      let su := s0.underEntry (.team t) a
      su.layerList (.team t) (s.vfOf tm) w.handle.toNat h (if h.type = 4 then h.lcount else 0) = .ok (ls, s2) →
      (∀ l ∈ activeLanes tm p, h.inside (xs l) = true → s0.ldtLane (s.vfOf tm) ty h h.elem (xs l) = .ok (ps l) ∧
        (h.type = 4 → ∃ x, su.layeredElem (.team t) none (s.vfOf tm) h ls (nth 0 (xs l) 1) (nth 0 (xs l) 0) = .ok x)) →
      let zero (l : Nat) : Producer := { team := t, dests := destRefs ty w.d [l], form := .value (destRef w.d l) ty 0, parts := [] }
      let prod (l : Nat) : Producer := {
        team := t, dests := destRefs ty w.d [l]
        form := .elem (destRef w.d l) ty h.elem (if h.type = 4 then 0 else (h.pieces h.elem (xs l)).2) (h.type == 2)
          (ldtScaled ty h.elem h)
        parts := List.replicate (ps l).length none }
      let reads (l : Nat) : List (Option (Nat × Nat) → Access) := (ps l).map fun x => acc l x
        (if h.type = 4 then .layered w.handle.toNat (nth 0 (xs l) 1) (nth 0 (xs l) 0) else .read)
      ∃ s1, exec (.ldt p ty w) s = .next s1 ∧
        Issued s0 s1 t tm0 (destRefs ty w.d (activeLanes tm p)) false
          ((activeLanes tm p).flatMap fun l => if h.inside (xs l) then (reads l).map fun f => f none else [])
          ((activeLanes tm p).map fun l => if h.inside (xs l) then prod l else zero l) ∧
        ∀ l ∈ activeLanes tm p,
          (h.inside (xs l) = false → Producing s0 s1 (zero l) []) ∧
          (h.inside (xs l) = true → Producing s0 s1 (prod l) (reads l))) ∧
    (Reads s t tm p (usesTile ty w true) →
      (h.ro = true ∨ (h.type = 4 ∧ h.lcount ≠ 0) → exec (.stt p ty w) s = .next (s.settle t 0
        (Stop.at .access ((s.launchOf tm).elim 0 (·.htb) + BitVec.ofNat 64 (64 * w.handle.toNat))))) ∧
      (h.ro = false → (h.type = 4 → h.lcount = 0) → ldtPair ty h.elem h true = true →
        ∀ raw ps : Nat → List (Word64 × Target × Nat),
        (∀ l ∈ activeLanes tm p, h.inside (xs l) = true →
          ((h.pieces h.elem (xs l)).1).mapM (fun q =>
            (s0.storeTarget (s.vfOf tm) 0 .global q.1 q.2.1 (if h.elem == .ty ty then ty else .n8) (tm.storeData ty w.d l)).map
              fun tg => (q.1, tg, q.2.1)) = .ok (raw l) ∧ ps l = if h.type = 2 then raw l else joinBytes (raw l)) →
        let write (l i : Nat) (x : Word64 × Target × Nat) : Access :=
          let dm := pieceData h.elem (h.type == 2) (h.pieces h.elem (xs l)).1 (tm.storeData ty w.d l).toNat i x.2.2
          acc l x (x.2.1.storeKind ty (tm.storeData ty w.d l) dm.1 dm.2) none
        ∃ s1, exec (.stt p ty w) s = .next s1 ∧
          Issued s0 s1 t tm0 [] false
            ((activeLanes tm p).flatMap fun l => if h.inside (xs l) then (ps l).mapIdx (write l) else []) [] ∧
          s1.prods = s0.prods ∧
          ∀ l ∈ activeLanes tm p, h.inside (xs l) = true → ∀ i x, (ps l)[i]? = some x → Pending s0 s1 (write l i x)))

namespace Sys2Proof.Spec

open Machine

/-- A code of F32 as its number, and an exact number rounded once to F32 in RN. -/
def num32 (x : Word32) : FNum := fmtF32.decode x.toNat

def near32 (x : FNum) : Word32 := BitVec.ofNat 32 (fmtF32.round .rn false x).1

/-- RN of a product, of a sum and of a fused sum of codes of F32. -/
def product32 (a b : Word32) : Word32 := near32 ((num32 a).mul (num32 b)).1

def sum32 (a b : Word32) : Word32 := near32 (FNum.add .rn (num32 a) (num32 b)).1

def difference32 (a b : Word32) : Word32 := near32 (FNum.add .rn (num32 a) (num32 b).neg).1

def fused32 (a b c : Word32) : Word32 := near32 (FNum.fma .rn (num32 a) (num32 b) (num32 c)).1

/-- y is the rational q rounded once to F32 in RN. -/
def onceRounded (q : Rat) (y : Word32) : Prop := ∃ neg n d, 0 < d ∧ ratOf (.fin neg n d) = q ∧ y = near32 (.fin neg n d)

/-- Row, column and value of entry k of a sparse-coordinate list (R212). -/
def coordEntry (bs : List Byte) (k : Nat) : Nat × Nat × Word32 :=
  (field bs (128 * k) 32, field bs (128 * k + 32) 32, BitVec.ofNat 32 (field bs (128 * k + 64) 32))

/-- The coordinates of a list of n entries rise. -/
def coordsRise (bs : List Byte) (n : Nat) : Prop :=
  ∀ k, k + 1 < n → (coordEntry bs k).1 < (coordEntry bs (k + 1)).1 ∨
    ((coordEntry bs k).1 = (coordEntry bs (k + 1)).1 ∧ (coordEntry bs k).2.1 < (coordEntry bs (k + 1)).2.1)

end Sys2Proof.Spec

/-- R212, R213: what a layer stores for an element, from the bytes read of it, and the sum over the layers: each value, or the fused dot
product of a low-rank layer in ascending order, is scaled by the layer's factor and rounded in F32, and added in F32, or in F64 for an
F64 handle, with a rounding; the whole sum is rounded once into the format. -/
def Sys2Proof.Spec.layeredSum : Prop :=
  (∀ (s : State) (i j n : Nat) (bs : List Byte),
    let hit (k : Nat) : Prop := (coordEntry bs k).1 = i ∧ (coordEntry bs k).2.1 = j
    (coordsRise bs n →
      (∀ k < n, hit k → sparseValue s i j bs n = ((coordEntry bs k).2.2, s)) ∧
      ((∀ k < n, ¬hit k) → sparseValue s i j bs n = (0, s))) ∧
    ((sparseValue s i j bs n).1 = 0 ∨ ∃ k < n, hit k ∧ (sparseValue s i j bs n).1 = (coordEntry bs k).2.2)) ∧
  ∀ (s : State) (p : Party) (vf : Nat) (h : Handle) (d : Layer) (i j : Nat),
    let columns := h.extent 0
    (d.kind = 0 → ∀ bs s1, s.readLineVa p none vf d.addr (16 * d.count) = .ok (bs, s1) →
      s.layerValue p vf h d i j = .ok (sparseValue s1 i j bs d.count)) ∧
    (d.kind = 1 → ∀ bs s1, s.readLineVa p none vf d.addr ((i * columns + j) / 8 + 1) = .ok (bs, s1) →
      let bit (k : Nat) : Bool := (nth 0 bs (k / 8)).getLsbD (k % 8)
      let ones := ((List.range (i * columns + j)).filter fun k => bit k).length
      (bit (i * columns + j) = false ∨ d.cap ≤ ones → s.layerValue p vf h d i j = .ok (0, s1)) ∧
      (bit (i * columns + j) = true → ones < d.cap → ∀ w s2,
        s1.readLineVa p none vf
          (d.addr + BitVec.ofNat 64 ((columns * h.extent 1 + 511) / 512 * 64) + BitVec.ofNat 64 (4 * ones)) 4 = .ok (w, s2) →
        s.layerValue p vf h d i j = .ok (BitVec.ofNat 32 (ofBytesLE w), s2))) ∧
    (d.kind = 2 → ∀ u v s1 s2,
      s.readLineVa p none vf (d.addr + BitVec.ofNat 64 (4 * (i * d.lrank))) (4 * d.lrank) = .ok (u, s1) →
      s1.readLineVa p none vf (d.addr + BitVec.ofNat 64 (4 * (h.extent 1 * d.lrank + j * d.lrank))) (4 * d.lrank) = .ok (v, s2) →
      s.layerValue p vf h d i j = .ok ((List.range d.lrank).foldl (fun c q =>
        fused32 (BitVec.ofNat 32 (field u (32 * q) 32)) (BitVec.ofNat 32 (field v (32 * q) 32)) c) 0, s2)) ∧
    (∀ sum, s.layerSum p vf h i j sum [] = .ok (sum, s)) ∧
    (∀ sum rest c s1, s.layerValue p vf h d i j = .ok (c, s1) → s.layerSum p vf h i j sum (d :: rest) =
      let f := if h.fmt = 5 then fmtF64 else fmtF32
      s1.layerSum p vf h i j
        (f.decode (f.round .rn false (FNum.add .rn sum (num32 (product32 d.alpha c))).1).1) rest) ∧
    ∀ acq ls bs s1 sum s2,
      let t := Ty.ofCode (BitVec.ofNat 4 h.fmt)
      s.readLineVa p acq vf (h.base + BitVec.ofNat 64 (t.bits / 8 * (j + i * h.step 1))) (t.bits / 8) = .ok (bs, s1) →
      s1.layerSum p vf h i j ((tyFmt t).decode (ofBytesLE bs)) ls = .ok (sum, s2) →
      s.layeredElem p acq vf h ls i j = .ok (((tyFmt t).round .rn false sum).1, s2)

/-! ### Accesses perform -/

namespace Sys2Proof.Spec

open Machine

/-- The pending access id is a, and it may make its move now. -/
structure MayGo (s : State) (id : Nat) (a : Access) : Prop where
  pending : tabGet? s.pend id = some a
  first : s.canPerform id a = true
  bound : s.onCore a = true
  free : s.swapHeld a = false

/-- The bytes at a byte address are memory: neither the Light List nor a register image. -/
def Plain (s : State) (a : Nat) : Prop := (lightByteAddr 0 ≤ a → 2 ^ 48 ≤ a) ∧ (a < 2 ^ 40 → s.isImage a = false)

/-- Memory with the bytes bs from a on, every other byte as before. -/
def StoredAt (s s1 : State) (a : Nat) (bs : List Byte) : Prop :=
  ∀ x, memGet s1.mem x = if a ≤ x ∧ x < a + bs.length then nth 0 bs (x - a) else memGet s.mem x

/-- No team's state but what it knows of memory has changed. -/
def SameTeams (s s1 : State) : Prop :=
  ∀ u, (tabGet? s1.teams u).map (fun x => { x with pv := {} }) = (tabGet? s.teams u).map fun x => { x with pv := {} }

end Sys2Proof.Spec

/-- R137, R223, R245, R248, R250: a pending read returns the bytes as the latest writes left them, and leaves memory alone, in one move
with the other lanes of its load that name some byte with it; a store replaces the bits of its mask, both bytes of an element that
spans two in one move; an atomic replaces the value it returns in one move; every other byte stays. -/
def Sys2Proof.Spec.accessesPerform : Prop :=
  ∀ (s : State) (id : Nat) (a : Access), MayGo s id a → Memory.wf s.mem = true → Plain s a.addr →
    let old := ofBytesLE (memGets s.mem a.addr a.size)
    let fed (s1 : State) (w : Nat) (fl : BitVec 8) : Prop := ∀ k i q d ty x, a.prod = some (k, i) → tabGet? s.prods k = some q →
      q.form = .value d ty x → ∃ q1, tabGet? s1.prods k = some q1 ∧ q1.form = .value d ty (BitVec.ofNat 64 w) ∧
        q1.parts = putAt none q.parts i (some []) ∧ q1.flags = q.flags ||| fl ∧ q1.dests = q.dests
    (a.kind = .read → s.picks = [] → s.readMates id a = [(id, a)] → ∃ s1, exec (.accessPerform id) s = .next s1 ∧ s1.mem = s.mem ∧
      s1.pend = tabDel s.pend id ∧ SameTeams s s1 ∧
      ∀ k i q, a.prod = some (k, i) → tabGet? s.prods k = some q →
        tabGet? s1.prods k = some { q with parts := putAt none q.parts i (some (memGets s.mem a.addr a.size)) }) ∧
    (a.kind = .read → s.picks = [] →
      let mates := s.readMates id a
      (∀ m ∈ mates, s.mayPerform (mates.map (·.1)) m.2 = true ∧ Plain s m.2.addr ∧
        ∀ m2 ∈ mates, m.2.prod = m2.2.prod → m.2.prod = none ∨ m = m2) →
      ∃ s1, exec (.accessPerform id) s = .next s1 ∧ s1.mem = s.mem ∧ s1.pend = mates.foldl (fun p m => tabDel p m.1) s.pend ∧
        ∀ m ∈ mates, ∀ k i q, m.2.prod = some (k, i) → tabGet? s.prods k = some q →
          ∃ q1, tabGet? s1.prods k = some q1 ∧ nth none q1.parts i = some (memGets s.mem m.2.addr m.2.size)) ∧
    (∀ data mask j b data2 mask2, a.kind = .write [data] [mask] → a.size = 1 → s.otherByte id a = some (j, b, [data2], [mask2]) →
      b.addr ≠ a.addr → s.mayPerform [id, j] b = true → ∃ s1, exec (.accessPerform id) s = .next s1 ∧
      (∀ x, memGet s1.mem x = if x = a.addr then maskByte (memGet s.mem x) data mask
        else if x = b.addr then maskByte (memGet s.mem x) data2 mask2 else memGet s.mem x) ∧
      s1.pend = tabDel (tabDel s.pend id) j ∧ s1.prods = s.prods) ∧
    (∀ data mask, a.kind = .write data mask → s.otherByte id a = none → ∃ s1, exec (.accessPerform id) s = .next s1 ∧
      StoredAt s s1 a.addr ((List.range data.length).map fun i =>
        maskByte (memGet s.mem (a.addr + i)) (nth 0 data i) (nth 0xFF mask i)) ∧
      s1.pend = tabDel s.pend id ∧ s1.prods = s.prods ∧ SameTeams s s1) ∧
    (∀ op ty v cmp, a.kind = .atom op ty v cmp → ∃ s1, exec (.accessPerform id) s = .next s1 ∧
      StoredAt s s1 a.addr (toBytesLE a.size (AtomOp.apply op ty old v.toNat cmp.toNat).1) ∧ s1.pend = tabDel s.pend id ∧
      fed s1 old (AtomOp.apply op ty old v.toNat cmp.toNat).2) ∧
    (a.kind = .bfaFfcs ∨ (∃ v m, a.kind = .bfaIns v m) ∨ (∃ n, a.kind = .bfaPlset n) →
      ∃ s1, exec (.accessPerform id) s = .next s1 ∧ StoredAt s s1 a.addr (toBytesLE 8 (bfaApply a.kind old).1) ∧
        s1.pend = tabDel s.pend id ∧ fed s1 (bfaApply a.kind old).2 0)

/-- R248 to R250: what ATOM, RED and BFA do with the value they find: integer sums wrap, floating ones round to nearest even, minima and
maxima go by signedness or by R115, the bitwise operations act on the bits; .cas compares first, .ins takes the mask's bits, .ffcs sets
the first clear bit, .plset the lowest clear bits up to a number. -/
def Sys2Proof.Spec.atomicValues : Prop :=
  (∀ (ty : Ty) (old v cmp : Nat), old < 2 ^ ty.bits → v < 2 ^ ty.bits →
    (∀ op, AtomOp.apply (.red op) ty old v cmp = RedOp.combine op ty old v) ∧
    (ty.isInt = true → wraps ty (value ty old + value ty v) (RedOp.combine .add ty old v) ∧
      RedOp.combine .min ty old v = (if value ty old ≤ value ty v then old else v, 0) ∧
      RedOp.combine .max ty old v = (if value ty old ≤ value ty v then v else old, 0) ∧
      RedOp.combine .and ty old v = (old &&& v, 0) ∧ RedOp.combine .or ty old v = (old ||| v, 0) ∧
      RedOp.combine .xor ty old v = (old ^^^ v, 0)) ∧
    (ty.isFlt = true → ∀ op ∈ [RedOp.add, .min, .max], floatStep op ty .rn old v (RedOp.combine op ty old v)) ∧
    AtomOp.apply .exch ty old v cmp = (v, 0) ∧
    AtomOp.apply .cas ty old v cmp = (if old = cmp then v else old, 0)) ∧
  ∀ w < 2 ^ 64,
    (∀ v m : Word64, (bfaApply (.bfaIns v m) w).2 = w ∧ (bfaApply (.bfaIns v m) w).1 < 2 ^ 64 ∧
      ∀ i < 64, (bfaApply (.bfaIns v m) w).1.testBit i = if m.getLsbD i then v.getLsbD i else w.testBit i) ∧
    (w = 2 ^ 64 - 1 → bfaApply .bfaFfcs w = (w, 2 ^ 64 - 1)) ∧
    (w ≠ 2 ^ 64 - 1 → ∃ i, i < 64 ∧ w.testBit i = false ∧ (∀ j < i, w.testBit j = true) ∧ bfaApply .bfaFfcs w = (w + 2 ^ i, i)) ∧
    (∀ n : Word64, (bfaApply (.bfaPlset n) w).1 = w ||| (bfaApply (.bfaPlset n) w).2 ∧
      ∀ i, (bfaApply (.bfaPlset n) w).2.testBit i = (((List.range 64).filter fun j => !w.testBit j).take n.toNat).contains i)

/-- R11, R96: a producer whose accesses have all returned writes its value, a 64-bit one to a pair of v registers with the low word in the
first, fills its registers and raises its flags in one step, and is gone; no other register changes. -/
def Obligations.ProducersComplete : Prop :=
  ∀ (s : State) (k : Nat) (q : Producer) (tm : Team), tabGet? s.prods k = some q → tabGet? s.teams q.team = some tm →
    q.parts.all Option.isSome = true →
    ∃ s1 tm1, exec (.producerCompletion k) s = .next s1 ∧ tabGet? s1.teams q.team = some tm1 ∧
      s1.prods = tabDel s.prods k ∧ s1.mem = s.mem ∧ s1.pend = s.pend ∧
      (∀ u ≠ q.team, tabGet? s1.teams u = tabGet? s.teams u) ∧
      (∀ d, tm1.isEmpty d = (tm.isEmpty d && !q.dests.contains d)) ∧
      { tm1 with v := tm.v, s := tm.s, vEmpty := tm.vEmpty, sEmpty := tm.sEmpty, status := tm.status, pv := tm.pv } = tm ∧
      tm1.status = tm.status ||| q.flags ∧
      (∀ r l ty x, q.form = .value (.v r l) ty x → ty.is64 = false → r < 256 →
        (∀ r1 l1, tm1.vGet r1 l1 = if r1 = r ∧ l1 = l then placeV ty x.toNat else tm.vGet r1 l1) ∧ tm1.s = tm.s) ∧
      (∀ r l ty, q.form = .elem (.v r l) ty (.ty ty) 0 false false → ty.is64 = false → ty ≠ .tap6 → r < 256 → ∀ bs, q.parts = [some bs] →
        (∀ r1 l1, tm1.vGet r1 l1 = if r1 = r ∧ l1 = l then placeV ty (ofBytesLE bs % 2 ^ ty.bits) else tm.vGet r1 l1) ∧ tm1.s = tm.s) ∧
      (∀ r l ty, ty.is64 = true → r < 256 → ∀ x : Nat, q.form = .value (.v r l) ty (BitVec.ofNat 64 x) ∧ x < 2 ^ 64 ∨
          (q.form = .elem (.v r l) ty (.ty ty) 0 false false ∧ ∃ bs, q.parts = [some bs] ∧ x = ofBytesLE bs % 2 ^ 64) →
        (∀ r1 l1, tm1.vGet r1 l1 = if r1 = r ∧ l1 = l then BitVec.ofNat 32 x else if r1 = r + 1 ∧ l1 = l then BitVec.ofNat 32 (x / 2 ^ 32)
          else tm.vGet r1 l1) ∧ tm1.s = tm.s) ∧
      (∀ r ty, q.form = .elem (.s r) ty (.ty ty) 0 false false → ty ≠ .tap6 → r < 256 → ∀ bs, q.parts = [some bs] →
        (∀ r1, tm1.sGet r1 = if r1 = r then placeS ty (ofBytesLE bs % 2 ^ ty.bits) else tm.sGet r1) ∧ tm1.v = tm.v)

/-- The reduction that stands for two of one location, operation and type. -/
def Sys2Proof.Spec.mergedRed (op : RedOp) (ty : Ty) (a b : Access) (v v2 : Word64) : Access :=
  { a with kind := .red op ty (BitVec.ofNat 64 (RedOp.combine op ty v.toNat v2.toNat).1), merged := a.merged ++ b.members }

/-- R186, R188, R228, R235, R249: a reduction is applied in one move as it enters its slice queue, or discarded with a Deferred
record; two reductions of one location and operation, of two parties or of one, merge into one, whichever of several pending ones
they are; the blends of an SST enter the region's open epoch; a window write sets the register's bytes and fills it, one through the
emptying window empties it, and neither performs while a producer is pending on the register. Readings of the model: what a slice
discards and how merged reductions count, logs 45 and 102. -/
def Obligations.SliceQueues : Prop :=
  (∀ (s : State) (i j : Nat) (a b : Access) (op : RedOp) (ty : Ty) (v v2 : Word64), tabSortedFrom 0 s.pend = true →
    tabGet? s.pend i = some a → tabGet? s.pend j = some b → i ≠ j → a.kind = .red op ty v → b.kind = .red op ty v2 →
    (∀ x ∈ s.pend, ∃ u, x.2.kind = .red op ty u ∧ x.2.loc = a.loc ∧ x.2.size = a.size) →
    s.mayPerform (s.pend.map (·.1)) a = true → s.mayPerform (s.pend.map (·.1)) b = true → s.redFault a = none → s.redFault b = none →
    exec (.reductionMerge i j) s = .next { s with pend := tabDel (tabSet s.pend i (mergedRed op ty a b v v2)) j }) ∧
  ∀ (s : State) (id : Nat) (a : Access), MayGo s id a → Memory.wf s.mem = true →
    (∀ op ty v, a.kind = .red op ty v →
      (∀ c, s.redFault a = some c → exec (.reductionEntry id) s =
        .next ((a.members.foldl (fun s m => s.deferAccess m c) s).performed id)) ∧
      (a.merged = [] → s.redFault a = s.sliceFault a.vf a.addr a.size) ∧
      (s.redFault a = none → Plain s a.addr → ∃ s1, exec (.reductionEntry id) s = .next s1 ∧
        StoredAt s s1 a.addr (toBytesLE a.size (RedOp.combine op ty (ofBytesLE (memGets s.mem a.addr a.size)) v.toNat).1) ∧
        s1.pend = tabDel s.pend id ∧ s1.prods = s.prods ∧ SameTeams s s1) ∧
      ∀ j b v2, tabGet? s.pend j = some b → id ≠ j → b.kind = .red op ty v2 → b.loc = a.loc → b.size = a.size →
        s.mayPerform [id, j] b = true → s.redFault a = none → s.redFault b = none →
        exec (.reductionMerge id j) s = .next { s with pend := tabDel (tabSet s.pend id (mergedRed op ty a b v v2)) j }) ∧
    (∀ bs t, a.kind = .blend bs false → a.party = .team t → s.blendFault a.vf bs = none →
      let q := tabGet s.soft (a.loc / 3) Soft.empty
      let n := tabGet q.counts t 0
      exec (.blendEntry id) s = .next { s with
        pend := tabDel s.pend id
        soft := tabSet s.soft (a.loc / 3) { q with
          blends := q.blends ++ bs.map (fun b => { b with tseq := n }), counts := tabSet q.counts t (n + 1) } }) ∧
    (∀ data u um, a.kind = .windowWrite data → s.imageOwner a.addr = some (u, um) → s.imageIgnores a.addr = false →
      let known (x : Option Team) : Option Team := x.map fun tm => { tm with pv := {}, past := [] }
      let words := (um.imageWords (a.addr - um.image) data.length).map (·.1)
      tabGet? s.teams u = some um →
      ∃ s1, exec (.registerWindowWrite id) s = .next s1 ∧ s1.mem = s.mem ∧ s1.pend = tabDel s.pend id ∧
        (tabGet? s1.teams u).map (·.past) = some (words.map (fun q => ⟨q, s.nextWrite, 0, um.regValue q, []⟩) ++ um.past) ∧
        known (tabGet? s1.teams u) = known (some (um.imagePuts (a.addr - um.image) data)) ∧
        ∀ x ≠ u, known (tabGet? s1.teams x) = known (tabGet? s.teams x)) ∧
    (a.path = .rwin → a.kind.writes = true → s.imageHeld (a.prod.map (·.1)) a.addr a.size = false) ∧
    (∀ u um, a.kind = .windowEmpty → s.imageOwner a.addr = some (u, um) → tabGet? s.teams u = some um → um.lanes ≤ 1024 →
      ∃ s1 um1, exec (.emptyingWindowWrite id) s = .next s1 ∧ s1.mem = s.mem ∧ s1.pend = tabDel s.pend id ∧
        tabGet? s1.teams u = some um1 ∧ { um1 with vEmpty := um.vEmpty, sEmpty := um.sEmpty } = um ∧
        ∀ q, um1.isEmpty q = (um.isEmpty q || (um.imageRegs (a.addr - um.image) a.size).contains q)) ∧
    ∀ (tm : Team) (off : Nat) (b : Byte) (r l : Nat), tm.imagePart off = .v r l →
      (tm.imagePut off b).isEmpty (.v r l) = false ∧
        ∀ k < 4, ((tm.imagePut off b).vGet r l).extractLsb' (8 * k) 8 =
          if k = off % 4 then b else (tm.vGet r l).extractLsb' (8 * k) 8

/-! ### Soft regions -/

/-- R252 to R254, R259, R260: SLD reads the elements of a lane's live entries for a weighted sum; HARDEN gives the slot of the heaviest
entry; SST queues one blend for each lane; SLDA gives one weight gradient for each entry, and with GRD adds to the gradient tensor. -/
def Sys2Proof.Spec.softAccesses : Prop :=
  ∀ (p : Pred) (w : XWord) (s s0 : State) (t : Nat) (tm tm0 : Team) (h : Handle) (a : Nat),
    s.softHandle (ready t tm p) w = .ok (h, a, s0) → tabGet? s0.teams t = some tm0 →
    (∀ l ∈ activeLanes tm p, tm.slotsOk w h l = .ok ()) →
    let vf := s.vfOf tm
    let dv : Use := { letter := .d, opd := w.d, want := wantV, write := true }
    (Able s t tm p (usesPointer w ++ [dv]) →
      (∀ rows : Nat → List (SoftEntry × Word64 × Target),
        (∀ l ∈ activeLanes tm p,
          s0.softReads vf h (softElem w) ((tm.pointer w l).filter fun e => !e.weightless) = .ok (rows l)) →
        let prod (l : Nat) : Producer := {
          team := t, dests := destRefs .f32 w.d [l], form := .soft (destRef w.d l) ((rows l).map fun e => e.1.weight)
          parts := List.replicate (rows l).length none }
        let reads (l : Nat) : List (Option (Nat × Nat) → Access) :=
          (rows l).map fun e k => s0.teamAccess (ready t tm p) .global l e.2.1 e.2.2 4 .read .relaxed .team k
        ∃ s1, exec (.sld p w) s = .next s1 ∧
          Issued s0 s1 t tm0 (destRefs .f32 w.d (activeLanes tm p)) false
            ((activeLanes tm p).flatMap fun l => (reads l).map fun f => f none) ((activeLanes tm p).map prod) ∧
          ∀ l ∈ activeLanes tm p, Producing s0 s1 (prod l) (reads l)) ∧
      ∃ tm1, exec (.harden p w) s =
          .next ((s0.setTeam t tm1.advance).clearRegMarks tm (writeRefs (usesPointer w ++ [dv]) (activeLanes tm p))) ∧
        Wrote tm0 tm1 .n32 w.d (activeLanes tm p) (fun l => hardest (tm.pointer w l)) ∧ tm1.status = tm0.status) ∧
    (Reads s t tm p (usesPointer w ++ [{ letter := .d, opd := w.d, want := wantV, read := true, who := .eachActive }]) →
      ∀ rows : Nat → List (Nat × Nat × Word32 × Nat),
      (∀ l ∈ activeLanes tm p, s0.blendEntries vf h (softElem w) (tm.pointer w l) = .ok (rows l)) →
      let blends : List Blend := (activeLanes tm p).map fun l => {
        team := t, launch := tm.launch, wid := tm.wid, order := tm.seq, lane := l, tseq := 0, elem := softElem w
        x := tm.vGet w.d.num.toNat l, entries := rows l, pc := tm.pc }
      let entry := s0.sliceAccess (ready t tm p) w.handle.toNat a h (.blend blends w.be) false none
      ∃ s1, exec (.sst p w) s = .next s1 ∧ Issued s0 s1 t tm0 [] true [entry] [] ∧ s1.prods = s0.prods ∧ Pending s0 s1 entry) ∧
    (Able s t tm p (usesSlda w) → sldaDistinct w = true → (softGrad w = true → w.handle ≠ 0xFFF) →
      ∀ (g : Handle) (s2 : State) (tm2 : Team) (reads : Nat → List (SoftEntry × Word64 × Target))
        (reds : Nat → List (Target × Word64 × Nat × Nat)),
      (softGrad w = true → s0.gradHandle (ready t tm p) w.handle.toNat h = .ok (g, s2)) → (softGrad w = false → s2 = s0) →
      tabGet? s2.teams t = some tm2 →
      (∀ l ∈ activeLanes tm p, s2.softReads vf h (softElem w) (tm.pointer w l) = .ok (reads l) ∧
        (softGrad w = true → s2.sldaReds vf tm w g l = .ok (reds l)) ∧ (softGrad w = false → reds l = [])) →
      let dests := (List.range (softK w)).flatMap fun k => (activeLanes tm p).map fun l => RegRef.v (w.d.num.toNat + k) l
      (∀ q ∈ dests, tm.isEmpty q = false) →
      let entry (l k : Nat) : Option (SoftEntry × Word64 × Target) := (reads l).find? fun e => e.1.k == k
      let prod (l k : Nat) : Producer :=
        let q := RegRef.v (w.d.num.toNat + k) l
        if (entry l k).isNone then { team := t, dests := [q], form := .value q .f32 0, parts := [] }
        else { team := t, dests := [q], form := .grad q (tm.vGet w.c.num.toNat l), parts := [none] }
      let read (l : Nat) (e : SoftEntry × Word64 × Target) (n : Option (Nat × Nat)) : Access :=
        s2.teamAccess (ready t tm p) .global l e.2.1 e.2.2 4 .read .relaxed .team n
      let adds : List Access := (combineLanes .add .f32 ((activeLanes tm p).flatMap reds)).map fun x =>
        s2.teamAccess (ready t tm p) .global x.2.2.1 x.2.1 x.1 4 (.red .add .f32 (BitVec.ofNat 64 x.2.2.2)) .relaxed .team none
      let each {α : Type} (f : Nat → Nat → α) : List α :=
        (activeLanes tm p).flatMap fun l => (List.range (softK w)).map fun k => f l k
      ∃ s1, exec (.slda p w) s = .next s1 ∧
        Issued s2 s1 t tm2 dests (softGrad w) ((each fun l k => (entry l k).map fun e => read l e none).filterMap id ++ adds)
          (each prod) ∧
        (∀ l ∈ activeLanes tm p, ∀ k < softK w,
          (entry l k = none → Producing s2 s1 (prod l k) []) ∧ ∀ e, entry l k = some e → Producing s2 s1 (prod l k) [read l e]) ∧
        ∀ x ∈ adds, Pending s2 s1 x) ∧
    ∀ es : List SoftEntry, (∀ e ∈ es, e.weightless = true ∨ (f32 e.weight).isNan = true) → hardest es = 0xFFFFFFFF

/-- R252, R253, R259, R260: the entries of a lane are those that name a slot; a soft load that has all its elements delivers the fused sum
of weight by element, in ascending k; SLDA delivers the incoming gradient times the element, and reduces with weight times gradient; the
result of HARDEN is the slot of a largest weight, the lowest such slot. -/
def Sys2Proof.Spec.softValues : Prop :=
  (∀ (tm : Team) (w : XWord) (l : Nat) (e : SoftEntry), e ∈ tm.pointer w l ↔
    e.k ≤ w.imm 3 0 ∧ e.slot = (tm.vGet (w.a.num.toNat + e.k) l).toNat ∧ e.slot ≠ 0xFFFFFFFF ∧
      e.weight = tm.vGet (w.b.num.toNat + e.k) l) ∧
  (∀ (s : State) (k : Nat) (q : Producer) (tm : Team) (r l : Nat), tabGet? s.prods k = some q → tabGet? s.teams q.team = some tm →
    r < 256 →
    let delivers (x : Word32) : Prop :=
      ∃ s1 tm1, exec (.producerCompletion k) s = .next s1 ∧ tabGet? s1.teams q.team = some tm1 ∧ tm1.vGet r l = x
    (∀ ws bs, q.form = .soft (.v r l) ws → q.parts = bs.map some → bs.length = ws.length →
      delivers ((ws.zip bs).foldl (fun acc x => fused32 x.1 (BitVec.ofNat 32 (ofBytesLE x.2)) acc) 0)) ∧
    ∀ g bs, q.form = .grad (.v r l) g → q.parts = [some bs] → delivers (product32 g (BitVec.ofNat 32 (ofBytesLE bs)))) ∧
  (∀ (s : State) (vf : Nat) (tm : Team) (w : XWord) (g : Handle) (l : Nat) (rows : List (Target × Word64 × Nat × Nat)),
    s.sldaReds vf tm w g l = .ok rows →
      rows.map (fun x => x.2) = ((tm.pointer w l).filter fun e => !e.weightless).map fun e =>
        (g.base + BitVec.ofNat 64 (4 * (softElem w + e.slot * g.step 1)), l,
          (product32 e.weight (tm.vGet w.c.num.toNat l)).toNat)) ∧
  ∀ es : List SoftEntry,
    let takes (e : SoftEntry) : Prop := e.weightless = false ∧ (num32 e.weight).isNan = false
    let below (a b : SoftEntry) : Prop := FNum.lt false (num32 a.weight) (num32 b.weight) = true
    (∀ e ∈ es, ¬takes e) ∨ ∃ e ∈ es, takes e ∧ hardest es = e.slot ∧
      ∀ x ∈ es, takes x → ¬below e x ∧ (¬below x e → e.slot ≤ x.slot)

/-- R236, R256, R258, R261, R269: SEPOCH, its two binding forms and SSTA go to the region's home slice, as accesses to all its slots; the
close move empties the queue of the open epoch and starts the next one. -/
def Sys2Proof.Spec.epochAccesses : Prop :=
  (∀ (p : Pred) (w : XWord) (s s0 : State) (t : Nat) (tm tm0 : Team) (h : Handle) (a : Nat),
    s.teamHandle (ready t tm p) w.handle.toNat = .ok (h, a, s0) → tabGet? s0.teams t = some tm0 → h.type = 3 →
    let slice (s : State) (kind : AccKind) (k : Option (Nat × Nat)) : Access :=
      s.sliceAccess (ready t tm p) w.handle.toNat a h kind true k
    let close := AccKind.close w.handle.toNat (w.imm 2 2 == 1)
    let sends (s0 s1 : State) (tm0 : Team) (kind : AccKind) : Prop :=
      Issued s0 s1 t tm0 [] true [slice s0 kind none] [] ∧ Pending s0 s1 (slice s0 kind none)
    let asks (s0 s1 : State) (tm0 : Team) (ty : Ty) (kind : AccKind) : Prop :=
      let d := RegRef.s w.d.num.toNat
      let prod : Producer := { team := t, dests := [d], form := .value d ty 0, parts := [none] }
      Issued s0 s1 t tm0 [d] true [slice s0 kind none] [prod] ∧ Producing s0 s1 prod [slice s0 kind]
    (w.d = .zero → Reads s t tm p [unused .d] → ∃ s1, exec (.sepoch p w) s = .next s1 ∧ sends s0 s1 tm0 close) ∧
    (w.d ≠ .zero → Able s t tm p [{ letter := .d, opd := w.d, want := wantS, write := true }] →
      ∃ s1, exec (.sepoch p w) s = .next s1 ∧ asks s0 s1 tm0 .n32 close) ∧
    (Reads s t tm p [] →
      (barOk s w tm = true →
        ∃ s1, exec (.sepochBind p w) s = .next s1 ∧ sends s0 s1 tm0 (.bindTo (some (tm.group, w.bn.toNat)))) ∧
      ∃ s1, exec (.sepochUnbind p w) s = .next s1 ∧ sends s0 s1 tm0 (.bindTo none)) ∧
    (Able s t tm p (usesInOut w) → barOk s w tm = true → w.handle ≠ 0xFFF → ∀ g s2 tm2,
      s0.gradHandle (ready t tm p) w.handle.toNat h = .ok (g, s2) → tabGet? s2.teams t = some tm2 →
      ∃ s1, exec (.ssta p w) s = .next s1 ∧ asks s2 s1 tm2 .n64 (.adjoint w.handle.toNat ((tm.sGet w.a.num.toNat).setWidth 32)
        (w.imm 0 0 == 1) (if w.be then some w.bn.toNat else none)))) ∧
  ∀ (s : State) (pt : Party) (die : Option Nat) (who : Nat × Word64) (vf a : Nat) (h : Handle) (jrst : Bool),
    let r := s.closeEpoch pt die who vf a h jrst
    let q := tabGet r.1.soft a Soft.empty
    q.blends = [] ∧ q.counts = [] ∧ q.epoch = r.2.2 + 1

/-- R236, R255, R258: a close applies the blends in ascending work identifier, those of one in the order of their entry; each entry makes
one write of its slot, p + w × (x − p) rounded once, or the IEEE operations in turn where something is not finite, and appends one
record with what it found and wrote; a record that finds no place, or whose own write fails, sets OVF and OVFEP; HEAD counts both; the
header is written last, and what cannot be written to it is kept with the slice for the next close. -/
def Sys2Proof.Spec.epochClose : Prop :=
  (∀ bs : List Blend, (sortBlends [] bs).Perm bs ∧ (sortBlends [] bs).Pairwise (fun a b => a.wid.toNat ≤ b.wid.toNat) ∧
    ∀ wid, (sortBlends [] bs).filter (fun b => b.wid == wid) = bs.filter fun b => b.wid == wid) ∧
  (∀ p w x : Word32,
    let finite := (num32 p).isFinite && (num32 w).isFinite && (num32 x).isFinite
    (finite = true → onceRounded (ratOf (num32 p) + ratOf (num32 w) * (ratOf (num32 x) - ratOf (num32 p))) (blendValue p w x)) ∧
    (finite = false → blendValue p w x = sum32 (product32 (difference32 x p) w) p)) ∧
  (∀ (epoch : Word32) (slot lane elem k tseq : Nat) (wid : Word64) (pre w x post : Word32), slot < 2 ^ 32 → lane < 2 ^ 16 →
    elem < 2 ^ 8 → k < 2 ^ 8 → tseq < 2 ^ 32 →
    let r := recordBytes epoch slot lane elem k tseq wid pre w x post
    r.length = 64 ∧ field r 0 32 = epoch.toNat ∧ field r 0x20 32 = slot ∧ field r 0x40 16 = lane ∧ field r 0x50 8 = elem ∧
      field r 0x58 8 = k ∧ field r 0x60 32 = tseq ∧ field r 0x80 64 = wid.toNat ∧ field r 0xC0 32 = pre.toNat ∧
      field r 0xE0 32 = w.toNat ∧ field r 0x100 32 = x.toNat ∧ field r 0x120 32 = post.toNat ∧ field r 0x140 192 = 0) ∧
  (∀ (c : Closing) (p : Party) (vf : Nat) (b : Blend) (slot k : Nat) (w : Word32) (a : Nat),
    Memory.wf c.s.mem = true → c.s.markAt a 4 = none →
    let pre : Word32 := BitVec.ofNat 32 (ofBytesLE (memGets c.s.mem a 4))
    let post := blendValue pre w b.x
    let c1 := c.entry p vf b (slot, k, w, a)
    let slotWritten (m : State) : Prop := StoredAt c.s m a (toBytesLE 4 post.toNat)
    c1.j.head = (c.j.head + 1) % 2 ^ 64 ∧ c1.j.epoch = c.j.epoch ∧
    (c.j.known = true → c.j.head < c.j.cap → ∀ r,
      let m := (c.s.writeMem p none [] a (toBytesLE 4 post.toNat)).countFor c.s.nextWrite c.die
      m.journalAddr vf (c.j.base + BitVec.ofNat 64 (64 * (1 + c.j.head))) 64 true = .ok r →
      slotWritten m ∧ StoredAt m c1.s r (recordBytes c.j.epoch slot b.lane b.elem k b.tseq b.wid pre w b.x post) ∧
        c1.j.ovf = c.j.ovf ∧ c1.j.ovfep = c.j.ovfep) ∧
    (c.j.known = false ∨ c.j.cap ≤ c.j.head ∨
      (∃ e, ((c.s.writeMem p none [] a (toBytesLE 4 post.toNat)).countFor c.s.nextWrite c.die).journalAddr vf
        (c.j.base + BitVec.ofNat 64 (64 * (1 + c.j.head))) 64 true = .error e) →
      slotWritten c1.s ∧ c1.j.ovf = true ∧ c1.j.ovfep = if c.j.ovf then c.j.ovfep else c.j.epoch)) ∧
  (∀ (cap : Nat) (u : Unwritten) (bs : List Byte),
    let j := u.header cap bs
    let full : Bool := field bs 96 1 == 1
    j.known = true ∧ j.base = u.base ∧ j.cap = cap ∧ j.head = (if u.reset then 0 else field bs 0 64) + u.records ∧
      j.epoch = BitVec.ofNat 32 (field bs 64 32 + u.closes) ∧ j.ovf = ((!u.reset && full) || u.lost.isSome) ∧
      (u.reset = false → full = true → j.ovfep = BitVec.ofNat 32 (field bs 128 32)) ∧
      (u.reset = true ∨ full = false → j.ovfep = u.lost.getD 0) ∧
      j.reset.head = 0 ∧ j.reset.ovf = false ∧ j.reset.ovfep = 0 ∧ j.reset.epoch = j.epoch) ∧
  ∀ (s : State) (p : Party) (die : Option Nat) (who : Nat × Word64) (vf a : Nat) (h : Handle) (jrst : Bool),
    let q := tabGet s.soft a Soft.empty
    let j0 := s.journal vf h q
    let j1 := if jrst then j0.reset else j0
    let all := (sortBlends [] q.blends).flatMap fun b => b.entries.map fun e => (b, e)
    let c := all.foldl (fun (c : Closing) x => c.entry p vf x.1 x.2) ⟨s, j1, die, who, []⟩
    let r := s.closeEpoch p die who vf a h jrst
    (∀ x, s.journalAddr vf h.ptr 64 false = .ok x → s.markAt x 20 = none →
      j0 = (q.owed h.ptr).header (64 * h.jcap - 1) (memGets s.mem x 20)) ∧
    r.2.1 = c.view ∧ r.2.2 = j1.epoch ∧
    (∀ x, c.s.journalAddr vf c.j.base 64 true = .ok x → c.j.known = true → Memory.wf c.s.mem = true →
      StoredAt c.s r.1 x (toBytesLE 8 c.j.head ++ toBytesLE 4 (c.j.epoch + 1).toNat ++
        toBytesLE 4 (if c.j.ovf then 1 else 0) ++ toBytesLE 8 c.j.ovfep.toNat) ∧
      (tabGet r.1.soft a Soft.empty).unwritten = none) ∧
    (c.j.known = false ∨ (∃ e, c.s.journalAddr vf c.j.base 64 true = .error e) → r.1.mem = c.s.mem ∧
      (tabGet r.1.soft a Soft.empty).unwritten = some { c.j.owed with closes := c.j.owed.closes + 1 })

/-- R261: the adjoints of a record are w × g, (x − p) × g and (1 − w) × g, each rounded once; SSTA goes through the records of its epoch
from the last to the first, and for each reads the gradient, writes DX, DW and STATE, then the gradient, and with RWD the slot; the
status word is TRUNC, MISSING or the count, and the arrival follows. -/
def Sys2Proof.Spec.adjointWalk : Prop :=
  (∀ w x pre gs : Word32,
    let r := adjoints w x pre gs
    let fin (v : Word32) : Bool := (num32 v).isFinite
    let one : Word32 := 0x3F800000
    (r.1 = product32 w gs) ∧
    ((fin gs && fin x && fin pre) = true → onceRounded ((ratOf (num32 x) - ratOf (num32 pre)) * ratOf (num32 gs)) r.2.1) ∧
    ((fin gs && fin x && fin pre) = false → r.2.1 = product32 (difference32 x pre) gs) ∧
    ((fin gs && fin w) = true → onceRounded ((1 - ratOf (num32 w)) * ratOf (num32 gs)) r.2.2) ∧
    ((fin gs && fin w) = false → r.2.2 = product32 (difference32 one w) gs)) ∧
  (∀ (x : Adjoint) (floor : View) (vf : Nat) (va : Word64) (bs : List Byte) (a : Nat), Memory.wf x.s.mem = true → x.s.picks = [] →
    (x.s.translate vf va bs.length .engine false false = .ok (.byte a) → x.s.swapping a bs.length = false → x.s.markAt a bs.length = none →
      ∃ y, x.read floor vf va bs.length = .ok (memGets x.s.mem a bs.length, y) ∧ y.s = x.s ∧ y.count = x.count) ∧
    (x.s.translate vf va 4 .engine true = .ok (.byte a) → x.s.swapping a bs.length = false → x.s.partMark a bs.length = none →
      ∃ y, x.write vf va bs = .ok y ∧ StoredAt x.s y.s a bs ∧ y.count = x.count)) ∧
  (∀ (x x1 x2 x3 : Adjoint) (floor : View) (vf : Nat) (h g : Handle) (rwd : Bool) (va : Word64) (bs gs : List Byte),
    let word (b : Nat) : Word32 := BitVec.ofNat 32 (field bs (8 * b) 32)
    let slot := field bs 32 32
    let elem := field bs 80 8
    let gva := g.base + BitVec.ofNat 64 (4 * (elem + slot * g.step 1))
    let r := adjoints (word 0x1C) (word 0x20) (word 0x18) (BitVec.ofNat 32 (ofBytesLE gs))
    x.read floor vf gva 4 = .ok (gs, x1) →
    x1.write vf (va + 0x28) (toBytesLE 4 r.1.toNat ++ toBytesLE 4 r.2.1.toNat ++ toBytesLE 4 1) = .ok x2 →
    x2.write vf gva (toBytesLE 4 r.2.2.toNat) = .ok x3 →
    (rwd = false → x.record floor vf h g rwd va bs = .ok { x3 with count := x3.count + 1 }) ∧
    ∀ x4, rwd = true → x3.write vf (h.slotVa slot elem) (toBytesLE 4 (word 0x18).toNat) = .ok x4 →
      x.record floor vf h g rwd va bs = .ok { x4 with count := x4.count + 1 }) ∧
  (∀ (x x1 : Adjoint) (floor : View) (vf : Nat) (h g : Handle) (rwd : Bool) (epoch : Word32) (n : Nat) (bs : List Byte),
    x.records floor vf h g rwd epoch 0 = x ∧
    (x.journal vf (h.ptr + BitVec.ofNat 64 (64 * (1 + n))) = .ok (bs, x1) →
      (BitVec.ofNat 32 (field bs 0 32) ≠ epoch →
        x.records floor vf h g rwd epoch (n + 1) = x1.records floor vf h g rwd epoch n) ∧
      ∀ x2, BitVec.ofNat 32 (field bs 0 32) = epoch →
        x1.record floor vf h g rwd (h.ptr + BitVec.ofNat 64 (64 * (1 + n))) bs = .ok x2 →
        x.records floor vf h g rwd epoch (n + 1) = x2.records floor vf h g rwd epoch n)) ∧
  ∀ (s : State) (id t num : Nat) (a : Access) (epoch : Word32) (rwd : Bool) (bar : Option Nat), MayGo s id a →
    a.kind = .adjoint num epoch rwd bar → a.party = .team t → s.adjointHeld a bar = false →
    let done (x : State) (status : Nat) (v : View) : State :=
      let s2 := x.settleValue a.prod status 0 v
      (match bar, s2.partyGroup a.party with
        | some k, some g => s2.arrive g k v false
        | _, _ => s2).performed id
    (∀ (h g : Handle) (la : Nat) (s1 : State), s.regionAt (a.loc / 3) = some h →
      s.useHandle a.party a.vf a.launch (num + 1) = .ok (g, la, s1) → s.regionHeld a.vf h = false →
      let j := s1.journal a.vf h (tabGet s1.soft (a.loc / 3) Soft.empty)
      ∀ b, s1.journalAddr a.vf h.ptr 64 false = .ok b → s1.markAt b 20 = none →
      let seen := s1.raiseLatest (s1.raiseLatest [] b 8) (b + 12) 8
      (j.ovf = true → j.ovfep.toNat ≤ epoch.toNat → exec (.accessPerform id) s = .next (done s1 (2 ^ 32) seen)) ∧
      (j.ovf = false ∨ epoch.toNat < j.ovfep.toNat →
        let x := (⟨s1, s1.partyDie a.party, seen, 0, none⟩ : Adjoint).records (s.pv a.party).floor a.vf h g rwd epoch (min j.head j.cap)
        x.fail = none → exec (.accessPerform id) s = .next (done x.s (if x.count = 0 then 2 ^ 33 else x.count) x.view))) ∧
    (s.regionAt (a.loc / 3) = none ∨ (∃ e, s.useHandle a.party a.vf a.launch (num + 1) = .error e) →
      (∀ w, s.useHandle a.party a.vf a.launch (num + 1) ≠ .error (.wait w)) →
      exec (.accessPerform id) s = .next (done s (2 ^ 33) []))

/-! ### Handles -/

/-- R262 to R266: HGET reads a whole entry into eight registers; HSET publishes new contents, HATT adds a layer and HDET drops one,
each in one release that writes the entry, once the team's earlier accesses have performed; HATT and HDET give the new version in
sD. Readings of the model: the cause without a table, what a field may hold and the order of the checks, logs 48, 115 and 116. -/
def Obligations.HandleInstructions : Prop :=
  ∀ (p : Pred) (w : XWord) (s : State) (t : Nat) (tm : Team),
    let n := w.handle.toNat
    let rel (s : State) : Option Inst := some (s.instOf (.team t) (scopeP w))
    let src := tm.sGet w.a.num.toNat
    let aUse : Use := { letter := .a, opd := w.a, want := wantS, read := true }
    let dUse : Use := { letter := .d, opd := w.d, want := wantS, write := true }
    (Able s t tm p (usesHget w) → w.d.num.toNat % 8 = 0 → ∀ la a, s.launchOf tm = some la → la.htb ≠ 0 →
      s.loadTarget la.vf tm.group .global (la.entryVa n) 64 .n64 = .ok (.byte a) →
      let dests := (List.range 8).map fun i => RegRef.s (w.d.num.toNat + i)
      let prod : Producer := { team := t, dests := dests, form := .words w.d.num.toNat, parts := [none] }
      let read (k : Option (Nat × Nat)) : Access :=
        { s.teamAccess (ready t tm p) .global ((activeLanes tm p).headD 0) (la.entryVa n) (.byte a) 64 .entry
            (ordP w) (scopeP w) k with loc := entryLoc a }
      ∃ s1, exec (.hget p w) s = .next s1 ∧ Issued s s1 t tm dests false [read none] [prod] ∧ Producing s s1 prod [read]) ∧
    (Reads s t tm p [{ letter := .a, opd := w.a, want := wantSN, read := true }] → ∀ a, s.changing (ready t tm p) n (w.a.cls != .s) = .ok a →
      (w.a.cls = .s → src.toNat % 64 = 0 → ∀ new s1, s.readNow (ready t tm p) src 64 = .ok (new, s1) →
        (publishable new = false → exec (.hset p w) s = .next (s.settle t 0 (invalidHandle n))) ∧
        (publishable new = true → ¬((Handle.ofBytes (s1.entryNow a)).type = 3 ∧ (Handle.ofBytes (s1.entryNow a)).ok = true) →
          exec (.hset p w) s = .next ((s1.changeEntry (.team t) (rel s1) a new).changed (ready t tm p) none 0)) ∧
        (publishable new = true → (Handle.ofBytes (s1.entryNow a)).type = 3 → (Handle.ofBytes (s1.entryNow a)).ok = true →
          s1.regionHeld (s1.vfOf tm) (Handle.ofBytes (s1.entryNow a)) = false →
          let s2 := (s1.closeEpoch (.team t) (s1.partyDie (.team t)) (t, tm.pc) (s1.vfOf tm) a (Handle.ofBytes (s1.entryNow a)) false).1
          exec (.hset p w) s = .next ((s2.changeEntry (.team t) (rel s2) a new).changed (ready t tm p) none 0))) ∧
      (w.a.cls ≠ .s → publishable (memGets s.mem a 64) = true →
        ¬((Handle.ofBytes (s.entryNow a)).type = 3 ∧ (Handle.ofBytes (s.entryNow a)).ok = true) →
        exec (.hset p w) s =
          .next ((s.publish (.team t) (rel s) a (s.entryNow a) (memGets s.mem a 64)).changed (ready t tm p) none 0))) ∧
    (Able s t tm p [aUse, dUse] → src.toNat % 32 = 0 → ∀ a d s1, s.changing (ready t tm p) n true = .ok a →
      s.readNow (ready t tm p) src 32 = .ok (d, s1) →
      let h := Handle.ofBytes (s.entryNow a)
      let lver := (h.lver.toNat + 1) % 2 ^ 32
      h.type = 4 → h.ok = true → (Layer.ofBytes d).ok = true →
      (h.lcount = 8 → exec (.hatt p w) s = .next (s.settle t 0 (.trap .listOverflow (n + h.lver.toNat * 2 ^ 12) 0))) ∧
      (h.lcount ≠ 8 → ∀ b, s1.storeTarget (s1.vfOf tm) tm.group .global (h.ptr + BitVec.ofNat 64 (32 * h.lcount)) 32 .n64 0 =
          .ok (.byte b) → s1.swapping b 32 = false →
        let s2 := (s1.writeMem (.team t) none [] b d).unmark b 32
        exec (.hatt p w) s = .next ((s2.changeEntry (.team t) (rel s2) a (withList (s.entryNow a) (h.lcount + 1) lver)).changed
          (ready t tm p) (some w.d.num.toNat) lver))) ∧
    (Able s t tm p [dUse] → ∀ a, s.changing (ready t tm p) n true = .ok a →
      let h := Handle.ofBytes (s.entryNow a)
      let lver := (h.lver.toNat + 1) % 2 ^ 32
      h.type = 4 → h.ok = true →
      (h.lcount = 0 → Illegal (.hdet p w) s t tm) ∧
      (h.lcount ≠ 0 → exec (.hdet p w) s = .next ((s.changeEntry (.team t) (rel s) a
        (withList (s.entryNow a) (h.lcount - 1) lver)).changed (ready t tm p) (some w.d.num.toNat) lver))) ∧
    (∀ (party : Party) (r : Option Inst) (a : Nat) (new : List Byte), Memory.wf s.mem = true →
      (s.changeEntry party r a new).entryNow a = new ∧ StoredAt s (s.changeEntry party r a new) a new) ∧
    ∀ (d : Option Nat) (lver : Nat), tabGet? s.teams t = some tm →
      let s1 := s.changed (ready t tm p) d lver
      { s1 with teams := s.teams, marks := s.marks } = s ∧ (∀ u ≠ t, tabGet? s1.teams u = tabGet? s.teams u) ∧
      tabGet? s1.teams t = some ((d.elim tm fun k => tm.sSet k (BitVec.ofNat 64 lver)).number.finish true)

/-! ### The matrix engine -/

/-- R271 to R275, R305, R306: MOOR marks a region that fits, waits for its conversion, which captures its scales and forms its
flags, and completes; UNMOOR gives a region up once no queued loop uses it. Readings of the model: what a MOOR waits for, how it
reads, and a region not yet converted, logs 53, 107, 119 and 121. -/
def Obligations.Mooring : Prop :=
  ∀ (p : Pred) (w : XWord) (s : State) (t : Nat) (tm : Team) (g : Group), tabGet? s.groups tm.group = some g →
    (Reads s t tm p (usesA w) →
      (∀ ty, tm.stall = .none →
        let m := Moor.asked ty w (tm.sGet w.a.num.toNat) s.nextId
        (g.mayMoor m = true → moored (s.coreMates g) + m.len ≤ 524288 → exec (.moor p ty w) s =
          .next ((s.onGroup tm.group fun g => { g with moors := g.moors ++ [m] }).setTeam t
            { tm with stall := .moor m.rb false none })) ∧
        (g.mayMoor m = false → Illegal (.moor p ty w) s t tm)) ∧
      (let sa := (tm.sGet w.a.num.toNat).toNat
       (∀ m, g.moors.find? (fun m => m.rb == sa && !m.converting) = some m →
        (∀ e ∈ g.queue ++ g.shares, ∀ lp, e.work.loop? = some lp → meetsRange m.rb m.len lp.mb 1 = false) →
        exec (.unmoor p w) s = .next ((s.onGroup tm.group fun g => { g with moors := g.moors.filter fun n => n.rb != sa }).setTeam t
          (tm.number.finish true))) ∧
       (g.moors.find? (fun m => m.rb == sa && !m.converting) = none → Illegal (.unmoor p w) s t tm))) ∧
    (∀ ty rb, tm.stall = .moor rb true none → Reads s t tm p (usesMoor w tm.stall) →
      exec (.moor p ty w) s = .next (s.setTeam t (tm.number.finish true))) ∧
    (tabGet? s.teams t = some tm → ∀ rb m, tm.stall = .moor rb false none →
      g.moors.find? (fun m => m.rb == rb && m.converting) = some m → g.place.isSome = true →
      (∀ x ∈ s.pend, x.2.holdsConversion g.teams (spadByte tm.group rb) m.len = false) → g.readsRegion m = false →
      (∀ c ∈ s.copies, s.copyReaches c.1 c.2 m.order (spadByte tm.group rb) m.len = false) → s.marks = [] → s.picks = [] → s.hasAcquire t = false →
      (m.scaled = true → s.ownBefore t tm.seq (spadByte tm.group m.scb) (64 * m.tiles) = false) →
      let bytes := memGets s.mem (spadByte tm.group rb) m.len
      ∃ s1 tm1 m1, exec (.moorConversionDone t) s = .next s1 ∧ s1.mem = s.mem ∧
        tabGet? s1.groups tm.group = some { g with moors := (g.moors.filter fun n => n.rb != rb) ++ [m1] } ∧
        tabGet? s1.teams t = some tm1 ∧ { tm1 with pv := tm.pv } = { tm with stall := .moor rb true none } ∧
        (∀ i < m.len, s.latest (byteLoc (spadByte tm.group rb + i)) ≤ viewAt tm1.pv.o (byteLoc (spadByte tm.group rb + i))) ∧
        { m1 with converting := m.converting, flags := m.flags, scales := m.scales, data := m.data, took := m.took } = m ∧
        m1.converting = false ∧ m1.data = bytes ∧
        m1.scales = (if m.scaled then memGets s.mem (spadByte tm.group m.scb) (64 * m.tiles) else []) ∧
        ∀ q j, (q, j) ∈ m1.flags ↔ q < m.tiles ∧ j < tileN m.ty ∧ ∃ k < tileK m.ty,
          (moorValue m.ty (blockScaled m.ty m.scaled)
            (moorCode m.ty ((bytes.drop (q * tileBytes m.ty)).take (tileBytes m.ty)) (k * tileN m.ty + j)) (m1.scale q j)).isFinite = false)

/-- R281, R282, R286 to R288, R307 to R312: MLOOP and MLOOPG check their parameters and join queue and batch, or send their shares; OPRDY
arrives and sets the gate; MFENCE closes the open batch and gives its number; MWAIT goes on when the batches named are done, or raises
the earliest fault of them. -/
def Sys2Proof.Spec.loopInstructions : Prop :=
  ∀ (p : Pred) (w : XWord) (s : State) (t : Nat) (tm : Team) (g : Group), tabGet? s.groups tm.group = some g →
    (Reads s t tm p (usesLoop w false) → ∀ sr unf ty,
      let lp := tm.loopParams sr unf ty w
      let good := lp.ok ((tm.sGet w.c.num.toNat).toNat / 2 ^ 42) g.nacc && (g.loopRegion lp).isSome
      (good = false → Illegal (.mloop p sr unf ty w) s t tm) ∧
      (good = true → g.queueRoom = true → ∀ lp1 s1, s.readDescriptor (ready t tm p) lp g = .ok (lp1, s1) →
        let fault := g.loopFault lp1
        ∃ s2 g2 tm2, exec (.mloop p sr unf ty w) s = .next s2 ∧ s2.mem = s.mem ∧ tabGet? s2.groups tm.group = some g2 ∧
          g2.queue = g.queue ++ [(ready t tm p).entry g.entryNo tm.gate (.loop lp1 g.openBatch) fault] ∧
          g2.entryNo = g.entryNo + 1 ∧ g2.batch = g.batch ∧
          (g2.batchAt g.openBatch).unfinished = (g.batchAt g.openBatch).unfinished + (if fault.isSome then 0 else 1) ∧
          tabGet? s2.teams t = some tm2 ∧ { tm2 with pv := tm.pv } = { tm.number.finish true with gate := none })) ∧
    (Reads s t tm p (usesLoop w true) → w.bn.toNat < s.barCount tm → ∀ sr unf ty,
      let lp := tm.loopParams sr unf ty w
      let mask := (tm.sGet w.d.num.toNat).toNat
      let good := decide (mask < 2 ^ 32) && lp.ok ((tm.sGet w.c.num.toNat).toNat / 2 ^ 42) g.nacc
      (good = false → Illegal (.mloopg p sr unf ty w) s t tm) ∧
      (good = true → mask = 0 → exec (.mloopg p sr unf ty w) s =
        .next ((s.setTeam t (((tm.sSet w.d.num.toNat 0).number).finish true)).clearRegMarks tm [.s w.d.num.toNat])) ∧
      (good = true → mask ≠ 0 → g.queueRoom = true →
        (∀ m ∈ maskMembers mask, ∀ h hg, (if m = g.gidx then some (tm.group, g) else s.member tm.group m) = some (h, hg) →
          hg.shareRoom = true) →
        ∃ s1 x, exec (.mloopg p sr unf ty w) s = .next s1 ∧ s1.mem = s.mem ∧ tabGet? s1.issues (s.nextId + 1) = some x ∧
          x.team = t ∧ x.params = lp ∧ x.bar = w.bn.toNat ∧ x.gate = tm.gate ∧ x.toSend = maskMembers mask ∧
          x.unsettled = maskMembers mask ∧ x.faulted = 0 ∧ x.missed = 0 ∧ x.prod = s.nextId ∧
          tabGet? s1.prods s.nextId = some { team := t, dests := [.s w.d.num.toNat], form := .value (.s w.d.num.toNat) .n64 0
                                             parts := [none] } ∧
          ∃ tm1, tabGet? s1.teams t = some tm1 ∧ tm1.isEmpty (.s w.d.num.toNat) = true ∧
            { tm1 with sEmpty := tm.sEmpty } = { tm.number.finish true with gate := none })) ∧
    (Reads s t tm p [] → w.bn.toNat < s.barCount tm → exec (.oprdy p w) s = .next ((s.addAccess {
        party := .team t, seq := tm.seq, path := .spad, vf := s.vfOf tm, launch := tm.launch, pc := tm.pc, lane := 0, va := 0
        loc := bindLoc (spadByte tm.group (2 ^ 19 + w.bn.toNat)), size := 0, kind := .ready w.bn.toNat, ord := .release
        scope := .group, prod := none }).setTeam t
          { tm.number.finish true with gate := some ⟨w.bn.toNat, s.nextId, none⟩ })) ∧
    (Able s t tm p [if w.d == .zero then unused .d else { letter := .d, opd := w.d, want := wantS, write := true }] →
      ∃ s1 g1 tm1, exec (.mfence p w) s = .next s1 ∧ s1.mem = s.mem ∧ tabGet? s1.groups tm.group = some g1 ∧
        g1.batch = g.batch + 1 ∧ (g1.batchAt g.openBatch).closed = true ∧ g1.queue = g.queue ∧ tabGet? s1.teams t = some tm1 ∧
        (w.d ≠ .zero → tm1.sGet w.d.num.toNat = (g.batch + 1).setWidth 64) ∧ (w.d = .zero → tm1.s = tm.s) ∧
        { tm1 with s := tm.s } = tm.number.finish true) ∧
    (Reads s t tm p (usesMwait w tm.stall) →
      let n : BitVec 32 := match tm.stall, w.a.cls with
        | .mwait n, _ => n
        | _, .s => (tm.sGet w.a.num.toNat).setWidth 32
        | _, _ => g.batch
      (0 < (n - g.batch).toInt → Illegal (.mwait p w) s t tm) ∧
      ((n - g.batch).toInt ≤ 0 → (∃ b ∈ g.batchesTo n, b.2.unfinished ≠ 0) →
        exec (.mwait p w) s = .next (s.setTeam t { tm with stall := .mwait n })) ∧
      ((n - g.batch).toInt ≤ 0 → (∀ b ∈ g.batchesTo n, b.2.unfinished = 0) →
        (earliestFault (g.batchesTo n) = none → exec (.mwait p w) s = .next (s.setTeam t
          ({ tm with pv := (g.batchesTo n).foldl (fun v b => v.joinO b.2.pv.o) tm.pv } : Team).advance)) ∧
        (∀ k f, earliestFault (g.batchesTo n) = some (k, f) → tm.masked = false →
          badVector (s.ctx (s.vfOf tm)).trapvec = false → ∃ s1 tm1, exec (.mwait p w) s = .next s1 ∧
            tabGet? s1.teams t = some tm1 ∧ tm1.trapcause = BitVec.ofNat 64 ((Cause.ofCode f.cause).code + k * 256) ∧
            tm1.trappc = tm.pc ∧ tm1.pc = (s.ctx (s.vfOf tm)).trapvec)))

/-- R282, R174: the pending arrival of OPRDY performs as one arrival at its barrier by its team, with what the team releases, and GEN + 1
becomes the target of the gate it set, at the team or at the loop that took it. -/
def Sys2Proof.Spec.readyArrives : Prop :=
  (∀ (s : State) (id t k : Nat) (a : Access) (tm : Team) (g : Group), MayGo s id a → a.kind = .ready k → a.party = .team t →
    tabGet? s.teams t = some tm → tabGet? s.groups tm.group = some g → s.arrivalHeld tm.group k = false →
    let gen := (g.barrier k).gen + 1
    ∃ s0 : State, exec (.accessPerform id) s =
        .next ((s0.arrive tm.group k (viewJoin tm.pv.o (msgAt tm.pv.acq (.group tm.group))) false).performed id) ∧
      { s0 with teams := s.teams, groups := s.groups, issues := s.issues } = s ∧
      tabGet? s0.teams t = some { tm with gate := Gate.settle id gen tm.gate } ∧
      (∀ u ≠ t, tabGet? s0.teams u = tabGet? s.teams u) ∧ (∀ u ≠ tm.group, tabGet? s0.groups u = tabGet? s.groups u) ∧
      tabGet? s0.groups tm.group = some { g with queue := g.queue.map fun e => { e with gate := Gate.settle id gen e.gate } } ∧
      s0.issues = s.issues.map fun x => (x.1, { x.2 with gate := Gate.settle id gen x.2.gate })) ∧
  ∀ (id : Nat) (gen : BitVec 32) (b arrival : Nat) (target : Option (BitVec 32)),
    Gate.settle id gen none = none ∧
    Gate.settle id gen (some ⟨b, arrival, target⟩) = some ⟨b, arrival, if arrival = id then some gen else target⟩

/-- R313 to R315: ACCZ and ACCWR join the matrix queue, ACCWR with its converted values and their flags; ACCRD reads one element for each
lane, which it converts when it performs. -/
def Sys2Proof.Spec.accumulators : Prop :=
  ∀ (p : Pred) (w : XWord) (s : State) (t : Nat) (tm : Team) (g : Group), tabGet? s.groups tm.group = some g →
    (Reads s t tm p (usesAccz w) → w.d.num.toNat + (w.imm 3 0 + 1) ≤ g.nacc → g.queueRoom = true → exec (.accz p w) s =
      .next ((s.enqueue (ready t tm p) ((ready t tm p).entry 0 none (.fill w.d.num.toNat (w.imm 3 0 + 1) (w.imm 5 4)) none)).setTeam t
        (tm.number.finish true))) ∧
    (∀ ty, Able s t tm p (usesAccrd ty w) → s.marks = [] →
      let prod (l : Nat) : Producer :=
        { team := t, dests := destRefs ty w.d [l], form := .value (destRef w.d l) ty 0, parts := [none] }
      let read (l : Nat) (k : Option (Nat × Nat)) : Access :=
        s.teamAccess (ready t tm p) .global l 0 (.byte (accByte tm.group (tm.accOffset w w.a.num.toNat l))) 8
          (.accRead ty (w.imm 7 6) (w.imm 8 8 == 1)) .relaxed .team k
      ∃ s1, exec (.accrd p ty w) s = .next s1 ∧
        Issued s s1 t tm (destRefs ty w.d (activeLanes tm p)) false ((activeLanes tm p).map fun l => read l none)
          ((activeLanes tm p).map prod) ∧
        ∀ l ∈ activeLanes tm p, Producing s s1 (prod l) [read l]) ∧
    (∀ ty, Reads s t tm p (usesAccwr ty w) → g.queueRoom = true →
      let val (l : Nat) : Nat × BitVec 8 := accWrite ty (w.imm 7 6) (w.imm 8 8 == 1) (tm.bitsOf ty w.a .plain l)
      ∃ tm1, exec (.accwr p ty w) s = .next ((s.enqueue (ready t tm p) ((ready t tm p).entry 0 none
          (.put ((activeLanes tm p).map fun l => (tm.accOffset w w.d.num.toNat l, toBytesLE 8 (val l).1))) none)).setTeam t tm1) ∧
        tm1.status = joinFlags tm.status (activeLanes tm p) (fun l => (val l).2) ∧
        { tm1 with status := tm.status } = tm.number.finish true) ∧
    (∀ id a ty kind sat, MayGo s id a → a.kind = .accRead ty kind sat → s.picks = [] →
      ∃ s1, exec (.accessPerform id) s = .next s1 ∧ s1.mem = s.mem ∧ s1.pend = tabDel s.pend id ∧
        ∀ k i q d ty2 x, a.prod = some (k, i) → tabGet? s.prods k = some q → q.form = .value d ty2 x →
          ∃ q1, tabGet? s1.prods k = some q1 ∧
            q1.form = .value d ty2 (BitVec.ofNat 64 (accRead ty kind sat (ofBytesLE (memGets s.mem a.addr 8))).1) ∧
            q1.flags = q.flags ||| (accRead ty kind sat (ofBytesLE (memGets s.mem a.addr 8))).2)

/-- R192, R314, R315: the element of a lane lies in row row0 + B[4:0] + lane div 32, modulo 32, and column lane mod 32; ACCRD rounds the sum
of a pair once in RN, and converts an element of another kind; ACCWR converts in RN to F32, F64, F32 or I32 by the kind, and the upper
bytes of a four-byte kind, the second half of a pair among them, are zero. -/
def Sys2Proof.Spec.accumulatorValues : Prop :=
  (∀ (tm : Team) (w : XWord) (z l : Nat),
    let b := if w.b.cls = .s then (tm.sGet w.b.num.toNat).toNat % 32 else 0
    let i := (w.imm 4 0 + b + l / 32) % 32
    let j := l % 32
    tm.accOffset w z l = 0x2000 * z + 8 * (32 * i + j)) ∧
  ∀ (ty : Ty) (sat : Bool),
    (∀ e < 2 ^ 64,
      let v := FNum.add .rn (num32 (BitVec.ofNat 32 (e % 2 ^ 32))) (num32 (BitVec.ofNat 32 (e / 2 ^ 32)))
      (accRead ty 0 sat e).1 = (tyFromNum ty .rn sat v.1).1 ∧ (accRead ty 0 sat e).2 = (tyFromNum ty .rn sat v.1).2 ||| v.2 ∧
      accRead ty 1 sat e = convert .f64 ty .rn sat e ∧ accRead ty 2 sat e = convert .f32 ty .rn sat (e % 2 ^ 32) ∧
      accRead ty 3 sat e = convert .i32 ty .rn sat (e % 2 ^ 32)) ∧
    ∀ x < 2 ^ ty.bits,
      accWrite ty 0 sat x = convert ty .f32 .rn sat x ∧ accWrite ty 1 sat x = convert ty .f64 .rn sat x ∧
      accWrite ty 2 sat x = convert ty .f32 .rn sat x ∧ accWrite ty 3 sat x = convert ty .i32 .rn sat x ∧
      ∀ kind < 4, (accWrite ty kind sat x).1 < (if kind = 1 then 2 ^ 64 else 2 ^ 32)

/-- R64 to R67, R276, R278, R284: a product joins a paired FP32 element as a sum rounded to F32 and its exact error, rounded into the second
half, where all is finite; an F64 element by one fused step; a semiring element by one rounding and a pick of R115, or by the truth of both
operands; an integer element by an exact product that wraps. A row of a step updates each of its output elements over ascending k, or, in
plus-times, none where all its elements are zero and no column of the tile is flagged. -/
def Sys2Proof.Spec.accumulatorSteps : Prop :=
  (∀ (sr : Semiring) (acc : Word64) (a b : FNum),
    let low : Word32 := acc.extractLsb' 0 32
    let high : Word32 := acc.extractLsb' 32 32
    let sum := (FNum.add .rn (num32 low) (a.mul b).1).1
    let new := accStep .paired sr acc a b
    let next : Word32 := near32 sum
    new.extractLsb' 0 32 = next ∧
    ((num32 next).isFinite = false ∨ (num32 low).isFinite = false ∨ (a.mul b).1.isFinite = false → new.extractLsb' 32 32 = high) ∧
    (∀ k i j, (a.mul b).1 = .fin k i j → 0 < j → (num32 next).isFinite = true → (num32 low).isFinite = true →
      (ratOf sum = ratOf (num32 next) → new.extractLsb' 32 32 = high) ∧
      (ratOf sum ≠ ratOf (num32 next) → ∃ neg n d, 0 < d ∧ ratOf (.fin neg n d) = ratOf sum - ratOf (num32 next) ∧
        new.extractLsb' 32 32 = near32 (FNum.add .rn (num32 high) (.fin neg n d)).1)) ∧
    accStep .f64 sr acc a b = BitVec.ofNat 64 (fmtF64.round .rn false (FNum.fma .rn a b (fmtF64.decode acc.toNat)).1).1 ∧
    (∃ fl, picks fmtF32 false low.toNat (near32 (FNum.add .rn a b).1).toNat ((accStep .f32 .minPlus acc a b).toNat, fl)) ∧
    ∃ fl, picks fmtF32 true low.toNat (near32 (a.mul b).1).toNat ((accStep .f32 .maxTimes acc a b).toNat, fl)) ∧
  (∀ (acc : Word64) (a b : Nat) (x y : Bool),
    accStep .i32 .plusTimes acc (.fin x a 1) (.fin y b 1) =
      BitVec.ofNat 64 (wrapBits 32 (intOf true 32 (acc.toNat % 2 ^ 32) + signedNum x a * signedNum y b)) ∧
    accStep .i32 .orAnd acc (.fin x a 1) (.fin y b 1) = (if acc.toNat % 2 ^ 32 ≠ 0 ∨ (a ≠ 0 ∧ b ≠ 0) then 1 else 0)) ∧
  ((∀ m ∈ [Ty.tap8, .tap6, .e4m3, .e5m2, .i8], ∀ a ∈ [Ty.tap8, .tap6, .e4m3, .e5m2, .i8], accForm .plusTimes m true a true = some .paired) ∧
    (∀ x ∈ [(Semiring.plusTimes, Ty.f64, AccForm.f64), (.plusTimes, .f32, .f64), (.plusTimes, .bf16, .paired), (.plusTimes, .f16, .paired),
        (.plusTimes, .i8, .i32), (.plusTimes, .i32, .i32), (.minPlus, .f32, .f32), (.maxTimes, .f32, .f32), (.minPlus, .bf16, .f32),
        (.maxTimes, .f16, .f32), (.orAnd, .n32, .i32)], accForm x.1 x.2.1 false x.2.1 false = some x.2.2) ∧
    ∀ sr m a, m ≠ a → blockScaled m false = false ∨ blockScaled a false = false → accForm sr m false a false = none) ∧
  ∀ (s : State) (pt : Party) (g : Nat) (p : LoopParams) (m : Moor) (f : AccForm) (q t i : Nat), s.marks = [] → s.picks = [] →
    Memory.wf s.mem = true →
    let codes := (s.activation pt g p t i).1
    let scale := if p.asc then ofBytesLE (memGets s.mem (spadByte g (p.sb + 32 * t + i)) 1) else 0x78
    let x (k : Nat) : FNum := moorValue p.ty (blockScaled p.ty p.asc) (nth 0 codes k) scale
    let tile := (m.data.drop (q * tileBytes m.ty)).take (tileBytes m.ty)
    let w (k j : Nat) : FNum := moorValue m.ty (blockScaled m.ty m.scaled) (moorCode m.ty tile (k * tileN m.ty + j)) (m.scale q j)
    let place (j : Nat) : Nat := accByte g (p.element i j)
    let new (j : Nat) : Word64 := (List.range (tileK p.ty)).foldl (fun acc k => accStep f p.semiring acc (x k) (w k j))
      (BitVec.ofNat 64 (ofBytesLE (memGets s.mem (place j) 8)))
    let skipped : Prop := p.semiring = .plusTimes ∧ (∀ k < tileK p.ty, (x k).isZero = true) ∧ ∀ y ∈ m.flags, y.1 ≠ q
    ∃ s1, s.matrixRow pt g p m f q t i = .ok s1 ∧ (skipped → s1.mem = s.mem) ∧
      (¬skipped → ∀ y, memGet s1.mem y =
        match (List.range (tileN p.ty)).find? fun j => decide (place j ≤ y) && decide (y < place j + 8) with
        | some j => nth 0 (toBytesLE 8 (new j).toNat) (y - place j)
        | none => memGet s.mem y)

/-- R278 to R281, R287, R309, R313: the entry at the head of a matrix queue whose gate is open makes its next step, and leaves after
its last; a fill and a put write their bytes; a share reaches its member or is missed; the status word of MLOOPG holds both masks. -/
def Sys2Proof.Spec.matrixEvents : Prop :=
  (∀ (s : State) (g : Nat) (gr : Group) (e : QueueEntry) (rest : List QueueEntry), tabGet? s.groups g = some gr →
    gr.place.isSome = true → gr.queue = e :: rest → gr.gateOpen e.gate = true → Memory.wf s.mem = true →
    (s.queueWaits g gr = true → exec (.matrixStep g) s = .next s) ∧
    (s.headAble g gr = true → ∀ h hr, h ≠ g → tabGet? s.groups h = some hr → hr.core = gr.core → s.headAble h hr = true →
      ∃ hr1, tabGet? (s.passQueue g gr).groups h = some hr1 ∧ { hr1 with passed := hr.passed } = hr ∧ hr1.passed.contains g = true) ∧
    (s.queueWaits g gr = false → ∀ z n k, e.work = .fill z n k → s.entryMayWrite g e = true →
      ∃ s1, exec (.matrixStep g) s = .next s1 ∧
      StoredAt s s1 (accByte g (8192 * z)) ((List.range (1024 * n)).flatMap fun _ => fillBytes k) ∧
      tabGet? s1.groups g = some ({ gr with passed := [] } : Group).popQueue) ∧
    (s.queueWaits g gr = false → ∀ cells, e.work = .put cells → s.entryMayWrite g e = true →
      ∃ s1, exec (.matrixStep g) s = .next s1 ∧
      (∀ x, memGet s1.mem x = cells.foldl (fun b c =>
        if accByte g c.1 ≤ x ∧ x < accByte g c.1 + c.2.length then nth 0 c.2 (x - accByte g c.1) else b) (memGet s.mem x)) ∧
      tabGet? s1.groups g = some ({ gr with passed := [] } : Group).popQueue) ∧
    (s.queueWaits g gr = false → ∀ lp n m q, e.work = .loop lp n → e.fault = none → gr.loopRegion lp = some (m, q) →
      m.converting = false →
      let passed := (s.passQueue g gr).passGate g gr (.batch g n) e
      (∀ b, passed.tileStep (.batch g n) g lp m q e.step = .error b →
        exec (.matrixStep g) s = .next (passed.entryDone g gr e (some Cause.softError.code))) ∧
      ∀ s1, passed.tileStep (.batch g n) g lp m q e.step = .ok s1 →
      (e.step + 1 < lp.steps → exec (.matrixStep g) s = .next (s1.onGroup g Group.stepHead)) ∧
      (lp.steps ≤ e.step + 1 → exec (.matrixStep g) s = .next (s1.entryDone g gr e none)))) ∧
  (∀ (s : State) (i m : Nat) (x : Issue) (own : Group), tabGet? s.issues i = some x → tabGet? s.groups x.group = some own →
    m ∈ x.toSend → own.place.isSome = true → own.gateOpen x.gate = true →
    (s.member x.group m = none → ∃ s1 x1, exec (.shareDelivery i m) s = .next s1 ∧ s1.mem = s.mem ∧
      tabGet? s1.issues i = some x1 ∧ x1.toSend = x.toSend.filter (· != m) ∧ x1.unsettled = x.unsettled.filter (· != m) ∧
      x1.missed = x.missed ||| BitVec.ofNat 32 (2 ^ m) ∧ x1.faulted = x.faulted) ∧
    (∀ h gr, s.member x.group m = some (h, gr) → ∀ lp s2,
      (((s.setPv (.share i m) ((s.pv (.share i m)).joinO (own.gateView x.gate))).shareSent i m
        ((tabGet? (s.setPv (.share i m) ((s.pv (.share i m)).joinO (own.gateView x.gate))).issues i).getD x) (some h)).shareChecks
          (.share i m) h gr x.params) = .ok (lp, s2) →
      exec (.shareDelivery i m) s = .next (s2.onGroup h fun g => g.placeShare i {
        team := x.team, seq := x.seq, num := 0, gate := none, work := .share i lp, step := 0, fault := none, pc := x.pc }))) ∧
  ∀ (s : State) (i d : Nat) (x : Issue) (q : Producer) (tm : Team) (v : Word64), tabGet? s.issues i = some x → x.toSend = [] →
    x.unsettled = [] → tabGet? s.prods x.prod = some q → q.form = .value (.s d) .n64 v → q.dests = [.s d] → d < 64 →
    tabGet? s.teams q.team = some tm →
    ∃ s1 tm1, exec (.mloopgStatus i) s = .next s1 ∧ s1.issues = tabDel s.issues i ∧ s1.mem = s.mem ∧
      tabGet? s1.teams q.team = some tm1 ∧ tm1.isEmpty (.s d) = false ∧
      tm1.sGet d = BitVec.ofNat 64 (x.faulted.toNat * 2 ^ 32 + x.missed.toNat)

/-! ### Copies -/

/-- R230, R231, R290, R292, R316 to R320, R380: a copy command supplies its team's slice, and the last slice starts the copy; a copy that
has been read in moves, and is done when nothing of it is left to move; a slice that names another mode, handle, barrier or immediate than
the first one marks the copy as differing; a flash extent whose tag matches is checked. DRAIN covers the copies of its path that its team
has supplied or that started on its core; it stays at its PC, and keeps them, while one of them is not complete, and then goes on or
raises a fault of one. -/
def Sys2Proof.Spec.collectiveCopies : Prop :=
  (∀ (p : Pred) (ty : Ty) (w : XWord) (s : State) (t : Nat) (tm : Team) (g : Group) (i : Instr) (mode : CopyMode),
    (i, mode) ∈ [(Instr.cpyPlain p w, CopyMode.plain), (.cpyTile p w, .tile), (.cpyTr p w, .tr), (.cpyMcast p w, .mcast),
      (.cpyFlash p w, .flash), (.cpys p w, .rows), (.cpyr p ty w, .reduce ty (w.imm 9 8) (w.imm 14 10))] →
    tabGet? s.groups tm.group = some g →
    (Reads s t tm p (usesCopy w) → w.a.num.toNat % 4 = 0 → barOk s w tm = true →
      let reg (j : Nat) : Word64 := tm.sGet (w.a.num.toNat + j)
      let x : Slice := {
        team := t, idx := tm.idx, w0 := reg 0, w1 := reg 1, w2 := reg 2, w3 := reg 3
        view := tm.pv.released (.group tm.group), members := [], masks := [], pattern := 0, tags := [] }
      let after (s1 : State) : Prop := s1.mem = s.mem ∧ s1.pend = s.pend ∧
        tabGet? s1.teams t = some { tm.number.finish true with copies := tm.copies + 1 }
      (s.copyOf tm.group tm.copies = none → s.collecting tm.group < 16 → s.copying (g.core.getD 0) < 64 →
        ∃ s1 c, exec i s = .next s1 ∧ after s1 ∧ tabGet? s1.copies s.nextId = some c ∧ c.slices = [x] ∧ c.mode = mode ∧
          c.ordinal = tm.copies ∧ c.bar = (if w.be then some w.bn.toNat else none) ∧ c.handle = w.handle.toNat ∧ c.cimm = w.cimm ∧
          c.differ = false ∧
          c.phase = if s.allSupplied g [tm.idx] then .starting else .collecting) ∧
      (∀ id c0, s.copyOf tm.group tm.copies = some (id, c0) → id < s.nextId → s.copying (g.core.getD 0) < 64 →
        ∃ s1 c, exec i s = .next s1 ∧ after s1 ∧ tabGet? s1.copies id = some c ∧ c.slices = insertSlice x c0.slices ∧
          c.mode = c0.mode ∧ (c.differ = true ↔ c0.differ = true ∨ c0.mode ≠ mode ∨ c0.handle ≠ w.handle.toNat ∨
            c0.bar ≠ (if w.be then some w.bn.toNat else none) ∨ c0.cimm ≠ w.cimm) ∧
          c.phase = if s.allSupplied g ((insertSlice x c0.slices).map (·.idx)) then .starting else c0.phase)) ∧
    (s.current = some (t, tm) → w.a.num.toNat % 4 ≠ 0 → Illegal i s t tm)) ∧
  (∀ (p : Pred) (path : Path) (s : State) (t : Nat) (tm : Team), Reads s t tm p [] →
    let covered : List Nat := match tm.stall with
      | .drain ks => ks
      | _ => s.drained? (ready t tm p) path
    (∀ k, k ∈ s.drained? (ready t tm p) path ↔ ∃ c, (k, c) ∈ s.copies ∧ s.copyInPath c path = true ∧
      ((∃ x ∈ c.slices, x.team = t) ∨ (c.phase ≠ .collecting ∧ (s.groupOfTeam tm).bind Group.core = some c.core))) ∧
    ((∃ k ∈ covered, ∃ c, tabGet? s.copies k = some c ∧ c.phase ≠ .complete) →
      exec (.drain p path) s = .next (s.setTeam t { tm with stall := .drain covered })) ∧
    ((∀ k ∈ covered, ∀ c, tabGet? s.copies k = some c → c.phase = .complete) →
    let ks := covered.filter fun k => (tabGet? s.copies k).elim false fun c => c.paths.contains path
    (s.drainFault tm.group ks = none → ∃ tm1, exec (.drain p path) s = .next (s.setTeam t tm1) ∧ { tm1 with pv := tm.pv } = tm.advance) ∧
    (∀ k c e extra, s.drainFault tm.group ks = some (k, c) → c.fault = some (e, extra) → tm.masked = false →
      badVector (s.ctx (s.vfOf tm)).trapvec = false → ∃ s1 tm1, exec (.drain p path) s = .next s1 ∧
        tabGet? s1.copies k = some { c with reported := true } ∧ tabGet? s1.teams t = some tm1 ∧
        tm1.trapcause = BitVec.ofNat 64 ((Cause.ofCode e).code + (c.ordinal % 65536 + extra * 65536) * 256) ∧ tm1.trappc = tm.pc))) ∧
  ∀ (s : State) (k : Nat) (c : Copy), tabGet? s.copies k = some c →
    (∀ g core, c.phase = .collecting → tabGet? s.groups c.group = some g → g.core = some core →
      s.allSupplied g (c.slices.map (·.idx)) = true → s.copying core < 64 → exec (.copyCompletion k) s =
        .next { s with copies := tabSet s.copies k (s.startCopy c core), nextId := s.nextId + 1 }) ∧
    (∀ c1 s1, c.phase = .starting → s.readCopy k c = .ok (c1, s1) → c1.mode ≠ .flash → exec (.copyCompletion k) s =
      .next (s1.launchCopy k { c1 with pv := s1.pv (.copy k) })) ∧
    (∀ e extra, c.phase = .starting → s.readCopy k c = .error (.fault e extra) → exec (.copyCompletion k) s =
      .next (s.faultCopy k e.code extra)) ∧
    (c.phase = .running → s.copyPend k = [] → s.copyArrivalHeld c = false → c.turns = [] → c.mode ≠ .flash → ∃ s1 c1,
      exec (.copyCompletion k) s = .next s1 ∧ s1 = s.finishCopy k c ∧ tabGet? s1.copies k = some c1 ∧ c1.phase = .complete) ∧
    (∀ x, c.mode = .flash → c.phase = .running → c.checked = false → c.fault = none → c.slices[c.extent.1]? = some x →
      c.extent.2 < hi32 x.w2 → ∀ f, tabGet? s.flash (x.w0.toNat / 2 ^ 48) = some f →
      (sha3 ((List.range (2 ^ 21)).map fun j => memGet f.bytes (4096 * (x.w0.toNat % 2 ^ 48 + 512 * c.extent.2) + j))).toNat =
        nth 0 x.tags c.extent.2 →
      exec (.flashExtent k (lo32 x.w2 + c.extent.2) false) s = .next { s with copies := tabSet s.copies k { c with checked := true } })

/-- R230, R291, R317: a move of a plain copy reads one byte of its source, and enters the write of that byte as a pending access of the
copy, which performs by itself later; memory does not change, and the byte is no more to move. -/
def Sys2Proof.Spec.copyMoves : Prop :=
  ∀ (s s0 s1 : State) (k id u d : Nat) (a : Access) (c : Copy) (x : Slice) (todo : List (Nat × Nat)) (b : Byte),
    tabGet? s.pend id = some a → a.party = .copy k → a.kind = .copyRun todo → tabGet? s.copies k = some c → c.mode = .plain →
    c.slices[a.seq]? = some x → s.pickUnit todo = (some u, s0) → hasUnit todo u = true →
    let q := c.rows x
    let row := u / q.len
    let col := u % q.len
    0 < q.len → id < s.nextId → tabSortedFrom 0 s.pend = true → s0.copyDest c x row col = .ok (.byte d) → s0.markAt d 1 = none →
    s0.copyByte k c c.ss (x.w0 + BitVec.ofNat 64 (row * lo32 x.w3 + col)) = .ok (b, s1) → s1.copyMoored c d 1 = false →
    s1.nextId = s.nextId → s1.pend = s.pend →
    let rest := cutUnits u 1 todo
    ∃ s2 w, exec (.accessPerform id) s = .next s2 ∧ s2.mem = s1.mem ∧ tabGet? s2.pend s.nextId = some w ∧ w.party = .copy k ∧
      w.seq = a.seq ∧ w.kind = .write [b] [0xFF] ∧ w.loc = byteLoc d ∧ w.size = 1 ∧ w.path = c.pathOf (.byte d) ∧
      tabGet? s2.pend id = (if rest = [] then none else some { a with kind := .copyRun rest }) ∧
      ∀ j, j ≠ id → j ≠ s.nextId → tabGet? s2.pend j = tabGet? s.pend j

/-! ### Memory-side commands -/

/-- R296, R297, R300, R301, R321 to R324, R327: FOLD, EMB and UPD check their completion word and join the command queue; a command
enters, makes its moves one by one, and writes its completion word when nothing of it is left. -/
def Sys2Proof.Spec.commands : Prop :=
  (∀ (p : Pred) (w : XWord) (s : State) (t : Nat) (tm : Team) (place : Nat × Bool),
    let r := ready t tm p
    let done (s1 : State) : State := s1.onTeam t fun tm => tm.number.finish true
    let tag : Word32 := (tm.sGet (w.d.num.toNat + 1)).setWidth 32
    (s.completionPlace r (tm.sGet w.d.num.toNat) = .ok place →
      (Reads s t tm p [{ letter := .a, opd := w.a, want := wantS, read := true },
          { letter := .b, opd := w.b, want := wantS, read := true }, cwUse w] →
        exec (.fold p w) s = .next (done (s.addCommand r
          (.fold w.handle.toNat (w.imm 3 0) (tm.sGet w.a.num.toNat) (tm.sGet w.b.num.toNat) []) place tag [] true))) ∧
      (∀ mean h a s0, Reads s t tm p (usesEmb w) → s.teamHandle r w.handle.toNat = .ok (h, a, s0) → embTable h = true →
        (∀ l ∈ activeLanes tm p, (tm.pairGet w.a.num.toNat l).toNat % 4 = 0 ∧ (tm.pairGet w.b.num.toNat l).toNat % 4 = 0) →
        exec (.emb p mean w) s = .next (done (s0.addCommand r (.emb mean (s.readEntry (.team t) none a).1
          ((activeLanes tm p).map fun l =>
            Bag.start h l (tm.pairGet w.a.num.toNat l) (tm.pairGet w.b.num.toNat l) (tm.vGet w.c.num.toNat l)))
          place tag ((activeLanes tm p).map fun l => (l, l + 1)) false)))) ∧
    (∀ adam d s1 q s2, Reads s t tm p (usesUpd w) → (tm.sGet w.a.num.toNat).toNat % 64 = 0 →
      s.readOrdered r (tm.sGet w.a.num.toNat) 64 = .ok (d, s1) →
      let u (off : Nat) : Word64 := BitVec.ofNat 64 (field d (8 * off) 64)
      let count := field d 256 32
      (∀ x ∈ [u 0, u 8, u 16, u 24], x.toNat % 4 = 0) → (u 0x28).toNat % 32 = 0 → 1 ≤ count → count ≤ 16777216 →
      field d 288 32 = 0 → field d 480 32 = 0 → s1.completionPlace r (u 0x30) = .ok place →
      s1.readOrdered r (u 0x28) 32 = .ok (q, s2) →
      exec (.upd p adam w) s = .next (done (s2.addCommand r (.upd adam tm.skipnf (u 0) (u 8) (u 16) (u 24) count
        ((List.range 4).map fun i => BitVec.ofNat 64 (field q (64 * i) 64))) place (BitVec.ofNat 32 (field d 448 32))
        [(0, count)] false)))) ∧
  ∀ (s : State) (k : Nat) (c : Command), tabGet? s.commands k = some c → Memory.wf s.mem = true →
    let enters : State := s.onCommand k fun c => { c with
      entered := true, since := s.nextWrite - 1, pv := { o := (s.pv (.team c.team)).floor } }
    (c.entered = false → s.earlierWrite c = false →
      (∀ mean entry bags, c.kind = .emb mean entry bags → exec (.commandEntry k) s = .next enters) ∧
      (∀ adam nf x m v g n ps, c.kind = .upd adam nf x m v g n ps → exec (.commandEntry k) s = .next enters) ∧
      ∀ n p nb nl old a bs s2, c.kind = .fold n p nb nl old → (∀ e, s.foldEntry c = some e → s.foldHolds e = false) →
        enters.foldStart k c n p nb nl = .ok (a, bs, s2) → exec (.commandEntry k) s = .next (s2.onCommand k fun c => { c with
          kind := .fold n p nb nl bs, holds := some a, blocked := none
          todo := [(0, (Handle.ofBytes bs).extent 0 * (Handle.ofBytes bs).extent 1)] })) ∧
    (c.entered = true → c.fault = none → c.final = true → ∀ n p nb nl bs, c.kind = .fold n p nb nl bs →
      (∀ u s1 s2, s.pickUnit c.todo = (some u, s1) → s1.foldElement k c n p nb (Handle.ofBytes bs) u = .ok s2 →
        exec (.foldMove k) s = .next (s2.onCommand k fun c => { c with todo := cutUnits u 1 c.todo, blocked := none })) ∧
      (∀ s1 s2, s.pickUnit c.todo = (none, s1) → s.foldFinal k c p nb nl bs = .ok s2 →
        exec (.foldMove k) s = .next (s2.onCommand k fun c => { c with final := false, holds := none, blocked := none }))) ∧
    (∀ mean bs bags lane b, c.kind = .emb mean bs bags → bags.find? (fun b => b.lane == lane) = some b →
      c.entered = true → hasUnit c.todo lane = true →
      (c.fault.isSome = true → b.begun = false → exec (.embBag k lane) s = .next s) ∧
      (c.fault = none ∨ b.begun = true →
        (64 < b.count.toNat →
          exec (.embBag k lane) s = .next ((s.faultCommand k .illegalOperand).onCommand k (·.setBag b true))) ∧
        (b.count.toNat ≤ 64 → ∀ u s1, s.pickUnit b.todo = (some u, s1) →
          (s1.bagUnit k c mean (Handle.ofBytes bs) b u = none → exec (.embBag k lane) s = .next s1) ∧
          ∀ b1 s2, s1.bagUnit k c mean (Handle.ofBytes bs) b u = some (b1, s2, none) →
            let rest := cutUnits u 1 b1.todo
            exec (.embBag k lane) s = .next (s2.onCommand k fun c =>
              { c.setBag { b1 with todo := rest, waits := false } (rest == []) with blocked := none })))) ∧
    (∀ adam nf x m v g n ps i s1 f, c.kind = .upd adam nf x m v g n ps → c.entered = true → c.fault = none →
      hasUnit c.todo i = true → s.updElement k c adam nf [x, m, v, g] ps i = .ok (s1, f) →
      exec (.updElement k i) s = .next (s1.onCommand k fun c => { c with
        todo := cutUnits i 1 c.todo, flags := c.flags ||| f, blocked := none })) ∧
    ((c.inQueues = true ↔ c.entered = true ∧ ((c.fault.isSome = true ∧ c.bagBegun = false) ∨ (c.todo = [] ∧ c.final = false))) ∧
      (s.inImage c.cwAt = true → s.imageHeld none c.cwAt 8 = true → exec (.completionWord k) s = .next s) ∧
      (c.inQueues = false ∨ s.swapping c.cwAt 8 = true → exec (.completionWord k) s = .next s) ∧
      (c.inQueues = true → s.swapping c.cwAt 8 = false → c.cwEmpties = true → s.imageHeld none c.cwAt 8 = false →
        ∃ s1, exec (.completionWord k) s = .next s1 ∧ s1.mem = s.mem ∧
        s1.teams = (s.imageEmpty c.cwAt 8).teams ∧ s1.commands = tabDel s.commands k ∧ s1.pend = s.pend ∧ s1.prods = s.prods)) ∧
    (c.inQueues = true → s.swapping c.cwAt 8 = false → c.cwEmpties = false → Plain s c.cwAt →
      ∃ s1, exec (.completionWord k) s = .next s1 ∧ StoredAt s s1 c.cwAt (toBytesLE 8
        (c.tag.toNat * 2 ^ 32 + c.flags.toNat * 2 ^ 16 + c.fault.getD 0 * 2 ^ 8 + (if c.fault.isSome then 2 else 1))) ∧
        s1.commands = tabDel s.commands k ∧ s1.pend = s.pend ∧ s1.prods = s.prods)

/-- R297, R300, R301: FOLD writes, for each element, the sum over the first layers of the list, at the new base; its final move writes the
descriptors of the layers left at the new list, in order, and then the entry, with the new base and list, the layers left and the next
version, as a release at package scope; a bag adds the elements of
its rows in array order, each sum rounded to F32, and .mean divides once by their number; an index past the table names the default row;
an element of UPD is read and replaced by the optimiser's step. -/
def Sys2Proof.Spec.commandValues : Prop :=
  (∀ (s s0 s1 : State) (k : Nat) (c : Command) (n p : Nat) (nb : Word64) (h : Handle) (u : Nat) (ls : List Layer) (x a : Nat),
    let es := h.elem.bits / 8
    let row := u / h.extent 0
    let column := u % h.extent 0
    (s.underEntry (.command k) (c.holds.getD 0)).layerList (.command k) c.vf n h p = .ok (ls, s0) → s0.layeredElem (.command k) none c.vf h ls row column = .ok (x, s1) →
    s1.commandDest c (nb + BitVec.ofNat 64 (es * h.index [column, row])) es = .ok a →
    s.foldElement k c n p nb h u = .ok ({ s1 with formed := [], under := none }.commandWrite k a (toBytesLE es x))) ∧
  (∀ (s : State) (k a : Nat) (c : Command) (p : Nat) (nb nl : Word64) (bs : List Byte) (st m : Nat → State) (at_ : Nat → Nat)
      (d : Nat → List Byte),
    let h := Handle.ofBytes bs
    let n := h.lcount - p
    let off (i : Nat) : Word64 := BitVec.ofNat 64 (32 * i)
    c.holds = some a → bs.length = 64 → nb.toNat < 2 ^ 56 → nl.toNat < 2 ^ 56 → st 0 = s.underEntry (.command k) a →
    (∀ i < n, s.commandDest c (nl + off i) 32 = .ok (at_ i) ∧
      (st i).readVa (.command k) none c.vf (h.ptr + off (p + i)) 32 .engine = .ok (d i, m i) ∧
      st (i + 1) = (m i).commandWrite k (at_ i) (d i)) →
    (st n).swapping a 64 = false →
    ∃ new : List Byte, s.foldFinal k c p nb nl bs = .ok ({ st n with under := none }.changeEntry (.command k) (some .package) a new) ∧
      new.length = 64 ∧ Handle.ofBytes new = { h with base := nb, ptr := nl, lcount := n, lver := h.lver + 1
                                                      home := (Handle.ofBytes new).home, jcap := (Handle.ofBytes new).jcap
                                                      clean := (Handle.ofBytes new).clean }) ∧
  (∀ xs : List Word32, poolValue false xs = xs.foldl sum32 0 ∧ poolValue true [] = 0 ∧
    (xs ≠ [] → poolValue true xs = near32 ((num32 (xs.foldl sum32 0)).div (.fin false xs.length 1)).1)) ∧
  (∀ (h : Handle) (x : Nat), embRow h x = if x < h.extent 1 then x else h.extent 1) ∧
  (∀ (b : Bag) (h : Handle) (j : Nat) (xs : List Word32), b.column h j = some xs ↔
    xs.length = b.count.toNat ∧ ∀ i < b.count.toNat, tabGet? b.rows (i * h.extent 0 + j) = xs[i]?) ∧
  (∀ (s : State) (k : Nat) (c : Command) (h : Handle) (b : Bag) (i x w : Nat) (st : Nat → State), tabGet? b.idx i = some x → st 0 = s →
    let es := h.elem.bits / 8
    let va := h.base + BitVec.ofNat 64 (es * h.index [0, embRow h x])
    (∀ (got : Nat → List Byte) (at_ : Nat → Nat),
      let js := lineOf va.toNat es (h.extent 0) w
      (∀ n < js.length, ∃ s1, (st n).commandRead k c c.since (va + BitVec.ofNat 64 (es * nth 0 js n)) es = .ok (got n, at_ n, s1) ∧
        st (n + 1) = if nth 0 js n = 0
          then { s1 with embRows := tabSet s1.embRows (at_ n / 2 ^ 36) (tabGet s1.embRows (at_ n / 2 ^ 36) 0 + 1) } else s1) →
      ∃ b1, s.bagRow k c h b i w = .ok (some (b1, st js.length)) ∧ { b1 with rows := b.rows } = b ∧
        (∀ n < js.length, tabGet? b1.rows (i * h.extent 0 + nth 0 js n) = some (BitVec.ofNat 32 (h.elem.f32 (ofBytesLE (got n)) none))) ∧
        ∀ j, (∀ n < js.length, j ≠ i * h.extent 0 + nth 0 js n) → tabGet? b1.rows j = tabGet? b.rows j) ∧
    ∀ (mean : Bool) (xs : Nat → List Word32) (o : Nat → Nat),
      let js := lineOf b.out.toNat 4 (h.extent 0) w
      (∀ n < js.length, b.column h (nth 0 js n) = some (xs n) ∧
        (st n).commandDest c (b.out + BitVec.ofNat 64 (4 * nth 0 js n)) 4 = .ok (o n) ∧
        st (n + 1) = (st n).commandWrite k (o n) (toBytesLE 4 (poolValue mean (xs n)).toNat)) →
      s.bagOutput k c mean h b w = some ({ b with begun := true }, st js.length, none)) ∧
  (∀ (s : State) (k a : Nat) (bs : List Byte), Memory.wf s.mem = true → StoredAt s (s.commandWrite k a bs) a bs) ∧
  ∀ (s : State) (k : Nat) (c : Command) (adam nf : Bool) (arrays ps : List Word64) (i : Nat) (at_ : Nat → Nat) (got : Nat → List Byte)
    (st : Nat → State),
    let va (n : Nat) : Word64 := nth 0 arrays n + BitVec.ofNat 64 (4 * i)
    let x (n : Nat) : Word32 := BitVec.ofNat 32 (ofBytesLE (got n))
    (∀ n < 3, s.commandDest c (va n) 4 = .ok (at_ n)) → st 0 = s →
    (∀ n < 4, ∃ b, (st n).commandRead k c 0 (va n) 4 = .ok (got n, b, st (n + 1))) →
    let r := updStep adam nf (updParams fun n => nth 0 ps n) (x 0) (x 1) (x 2) (x 3)
    s.updElement k c adam nf arrays ps i = .ok (if r.written then
      (((st 4).commandWrite k (at_ 0) (toBytesLE 4 r.w.toNat)).commandWrite k (at_ 1) (toBytesLE 4 r.m.toNat)).commandWrite k (at_ 2)
        (toBytesLE 4 r.v.toNat) else st 4, r.flags)

/-! ### Operations at the base dies -/

/-- R196, R202, R203, R298, R299: an alias store combines, fills, copies or adds planes in one move of its own, or is discarded with
a Deferred record; a swap exchanges two frames of one stack, on different quads, of one domain and not pinned, and holds the
accesses to both regions until it ends: none of them performs before; a burst changes nothing by itself. Readings of the model: the
party of an operation and the hold of a swap, logs 70 and 71. -/
def Obligations.BaseDieOperations : Prop :=
  (∀ (s : State) (id : Nat) (a : Access) (code : Nat) (ty : Ty) (x : Word64), tabGet? s.pend id = some a → s.aliasMay id a = true →
    a.kind = .windowOp code ty x → Memory.wf s.mem = true →
    let old := ofBytesLE (memGets s.mem a.addr a.size)
    let stores (i : Instr) (bs : List Byte) : Prop := ∃ s1, exec i s = .next s1 ∧ StoredAt s s1 a.addr bs ∧
      s1.pend = tabDel s.pend id ∧ s1.prods = s.prods ∧ SameTeams s s1
    let discards (i : Instr) (c : Cause) : Prop := exec i s = .next ((s.deferAccess a.self c).performed id)
    (∀ i ∈ (if code = 1 then [Instr.aliasAdd id] else if code = 2 ∨ code = 3 then [.aliasMinMax id]
        else if 4 ≤ code ∧ code ≤ 6 then [.aliasBitwise id] else []),
      (s.rowFault a.vf a.addr a.size true true = none → stores i (toBytesLE a.size (aliasCombine code ty old x.toNat))) ∧
      ∀ c, s.rowFault a.vf a.addr a.size true true = some c → discards i c) ∧
    (code = 7 →
      (s.rowFault a.vf a.addr 1024 false true = none →
        stores (.rowFill id) ((List.range (1024 / a.size)).flatMap fun _ => toBytesLE a.size x.toNat)) ∧
      ∀ c, s.rowFault a.vf a.addr 1024 false true = some c → discards (.rowFill id) c) ∧
    (code = 8 → s.picks = [] → s.rowFault a.vf (x.toNat % 2 ^ 40) 1024 true false = none →
      s.rowFault a.vf a.addr 1024 false true = none → stores (.rowCopy id) (memGets s.mem (x.toNat % 2 ^ 40) 1024)) ∧
    (let pw := PlaneWord.ofWord x
     let run (r : Nat) : List (List Byte) := (List.range pw.n).map fun i => memGets s.mem (r + 1024 * i) 1024
     s.picks = [] →
     (code = 9 → s.runFault a.vf pw.a pw.n false = none → s.runFault a.vf pw.b pw.n false = none →
        s.runFault a.vf a.addr pw.n true = none →
        stores (.planeMultiplyAccumulate id) (planeRows (run a.addr) (run pw.a) (run pw.b) pw.n true)) ∧
     (code = 10 → s.runFault a.vf pw.a pw.n false = none → s.runFault a.vf a.addr pw.n true = none →
        stores (.planeAdd id) (planeRows (run a.addr) (run pw.a) [] pw.n false)))) ∧
  (∀ (d a b : List (List Byte)) (n : Nat) (mul : Bool), ∀ q < 1024, ∀ j < 8, ∀ i < n,
    let elem (rows : List (List Byte)) : Nat := (List.range rows.length).foldl (fun x k =>
      x + if (nth 0 (nth [] rows k) q).getLsbD j then 2 ^ k else 0) 0
    (nth 0 (planeRows d a b n mul) (1024 * i + q)).getLsbD j = ((elem d + elem a * if mul then elem b else 1) % 2 ^ n).testBit i) ∧
  (∀ (ty : Ty) (old x : Nat), ty.isInt = true → old < 2 ^ ty.bits → x < 2 ^ ty.bits →
    wraps ty (value ty old + value ty x) (aliasCombine 1 ty old x, 0) ∧
    aliasCombine 2 ty old x = (if value ty old ≤ value ty x then old else x) ∧
    aliasCombine 3 ty old x = (if value ty old ≤ value ty x then x else old) ∧
    aliasCombine 4 ty old x = old &&& x ∧ aliasCombine 5 ty old x = old ||| x ∧ aliasCombine 6 ty old x = old ^^^ x) ∧
  (∀ (s : State) (hot cool : Nat),
    (s.mayRemap hot cool = true → ∃ s1, exec (.remapSwap hot cool) s = .next s1 ∧ s1.frameOf hot = s.frameOf cool ∧
      s1.frameOf cool = s.frameOf hot ∧ (∀ r, r ≠ hot → r ≠ cool → s1.frameOf r = s.frameOf r) ∧
      tabGet? s1.held (hot / 2 ^ 15) = some (hot, cool) ∧ { s1 with frames := s.frames, held := s.held } = s) ∧
    (s.mayRemap hot cool = false → exec (.remapSwap hot cool) s = .next s)) ∧
  (∀ (s : State) (hot cool : Nat),
    (s.mayRemap hot cool = true ↔ hot / 2 ^ 15 = cool / 2 ^ 15 ∧ s.stackHas (hot * 2 ^ 21) = true ∧ s.stackHas (cool * 2 ^ 21) = true ∧
      tabGet? s.held (hot / 2 ^ 15) = none ∧ s.frameOf hot % 8 ≠ s.frameOf cool % 8 ∧ hot ∉ s.pinned ∧ cool ∉ s.pinned ∧
      ∃ d, s.regionDomain hot = some d ∧ s.regionDomain cool = some d) ∧
    ∀ d, s.regionDomain hot = some d ↔ ∀ i < 32, (s.rowEntry (hot * 2 ^ 21 + i * 65536)).toNat % 256 = d) ∧
  (∀ (s : State) (id : Nat) (a : Access), tabGet? s.pend id = some a →
    (∀ h ∈ s.held, a.addr < 2 ^ 40 → a.addr / 2 ^ 21 = h.2.1 ∨ a.addr / 2 ^ 21 = h.2.2 → s.swapHeld a = true) ∧
    (s.swapHeld a = true → (∀ todo, a.kind ≠ .copyRun todo) → a.kind ≠ .copyMasks → (∀ t dk v, a.kind ≠ .copyAdd t dk v) →
      (∀ i ∈ [Instr.accessPerform id, .blendEntry id, .registerWindowWrite id, .emptyingWindowWrite id, .aliasAdd id, .aliasMinMax id,
        .aliasBitwise id, .rowFill id, .rowCopy id, .planeMultiplyAccumulate id, .planeAdd id], exec i s = .next s) ∧
      (s.canPerform id a = true → exec (.reductionEntry id) s = .next s))) ∧
  ∀ (s : State) (stack acc : Nat),
    (∃ s1, exec (.swapHoldEnd stack) s = .next s1 ∧ s1.held = tabDel s.held stack ∧ s1.frames = s.frames) ∧
    ((∀ l ∈ s.launches, l.2.waiting = []) → exec (.swapHoldEnd stack) s = .next { s with held := tabDel s.held stack }) ∧
    exec (.microprogramBurst acc) s = .next s

/-! ### Work: teams, groups, launches -/

/-- R127, R150 to R153, R335, R342, R343: distribution makes groups and teams in the state of Team.fresh; the packer puts items into
filling teams, which leave full, on time, or for a new one; an ended team retires, the last one with its group; the completion word
is written when nothing of the launch is outstanding, and what waited for the launch goes on. Readings of the model: the state of a
new team, the place of a completion word, what retirement waits for the drain of the packer and the instance of a completion word at
the die scope, logs 10, 69, 72, 74, 97 and 131. -/
def Obligations.WorkEvents : Prop :=
  (∀ (s : State) (t : Nat) (tm : Team) (gr : Group), tabGet? s.teams t = some tm → tabGet? s.groups tm.group = some gr →
    tm.phase = .ended → s.teamBusy t = false →
    let last : Prop := ∀ u ∈ gr.teams, u = t ∨ ∀ x, tabGet? s.teams u = some x → x.phase = .retired
    let s1 := (s.retireTeam t).onLaunch tm.launch fun la => { la with done := viewJoin la.done tm.pv.o }
    (∃ tm1, tabGet? (s.retireTeam t).teams t = some tm1 ∧ tm1.phase = .retired) ∧
    (¬last → exec (.teamRetirement t) s = .next s1) ∧
    (last → s.groupIdle tm.group gr = true → exec (.teamRetirement t) s = .next (s1.retireGroup tm.group gr)) ∧
    (last → s.groupIdle tm.group gr = false → exec (.teamRetirement t) s = .next s)) ∧
  (∀ (s : State) (l q : Nat) (la : Launch) (x : SpawnQueue), tabGet? s.launches l = some la → tabGet? la.spawn q = some x →
    (∀ it rest, x.items = it :: rest →
      exec (.packerTake l q) s = .next ((s.pack l q x it).settleLaunch l) ∧
      (1 < 2 ^ x.logn → x.filling = [] →
        s.pack l q x it = s.setSpawn l q { x with items := rest, filling := [(it.pc, [it])] }) ∧
      (∀ its, x.filling = [(it.pc, its)] → its.length + 1 < 2 ^ x.logn →
        s.pack l q x it = s.setSpawn l q { x with items := rest, filling := [(it.pc, its ++ [it])] }) ∧
      (∀ its, x.filling = [(it.pc, its)] → 2 ^ x.logn ≤ its.length + 1 →
        s.pack l q x it = (s.releasePacked l x it.pc (its ++ [it])).setSpawn l q { x with items := rest, filling := [] }) ∧
      (∀ f fs, x.filling = f :: fs → x.filling.length = 8 → 1 < 2 ^ x.logn →
        (∀ e ∈ x.filling, e.1 ≠ it.pc ∧ e.2.length < 2 ^ x.logn) →
        s.pack l q x it = (s.releasePacked l x f.1 f.2).setSpawn l q { x with items := rest, filling := fs ++ [(it.pc, [it])] })) ∧
    (∀ f fs, x.filling = f :: fs → exec (.fillingTeamTimeout l q) s =
      .next ((s.releasePacked l x f.1 f.2).setSpawn l q { x with filling := fs })) ∧
    ∀ pc items,
      let tm := packedTeam l la x pc items
      tabGet? (s.releasePacked l x pc items).teams (s.nextId + 1) = some { tm with group := s.nextId } ∧
      tm.pc = pc ∧ tm.packed = some (items.map (·.seq)) ∧ tm.e = firstLanes (2 ^ x.logn) ∧
      (∀ k < 1024, tm.x.getLsbD k = (decide (items.length ≤ k) && decide (k < 2 ^ x.logn))) ∧
      ∀ r k, r < 8 → tm.vGet r k = (items[k]?).elim 0 fun it => nth 0 it.payload r) ∧
  (∀ (s : State) (l : Nat) (la : Launch), tabGet? s.launches l = some la →
    let at_ : State := s.onLaunch l fun la => { la with life := .distributed }
    (la.life = .admitted → la.edges = [] → la.serialOn = none →
      exec (.distribution l) s = .next (at_.makeGroups l la) ∧
      (la.units = 1 → la.gpg = 1 → la.tpg = 1 →
        tabGet? (at_.makeGroups l la).groups s.nextId =
          some { Group.fresh l 0 0 false la.spad la.nacc la.nbar 1 with teams := [s.nextId + 1] } ∧
        ∃ wid, tabGet? (at_.makeGroups l la).teams (s.nextId + 1) =
          some { Team.fresh l la 0 (2 ^ la.logn) la.vregs la.entry wid with group := s.nextId })) ∧
    (la.edges ≠ [] ∨ la.serialOn ≠ none → exec (.distribution l) s = .next s)) ∧
  ∀ (s : State) (l : Nat) (la : Launch), tabGet? s.launches l = some la → la.life = .retired →
    (s.outstanding l = true → exec (.launchCompletion l) s = .next s) ∧
    (s.outstanding l = false → s.wordHeld la.vf la.cwadr = true → exec (.launchCompletion l) s = .next s) ∧
    (s.outstanding l = false → s.wordHeld la.vf la.cwadr = false → ∃ s1, exec (.launchCompletion l) s = .next s1 ∧
      (∀ a, Memory.wf s.mem = true → s.translate la.vf la.cwadr 8 .store true = .ok (.byte a) →
        StoredAt s s1 a (toBytesLE 8 (la.qpos * 2 ^ 32 + Nat.min la.drop 255 * 2 ^ 24 + la.firstCause * 2 ^ 8 +
          (if la.records = 0 ∧ la.terminated = false then 1 else 2)))) ∧
      (∃ la1, tabGet? s1.launches l = some la1 ∧ la1.life = .completed) ∧
      ∀ w lw, tabGet? s.launches w = some lw → w ≠ l → ∃ lw1, tabGet? s1.launches w = some lw1 ∧
        lw1.edges = lw.edges.filter (· != l) ∧ lw1.serialOn = if lw.serialOn = some l then none else lw.serialOn)

/-- R146, R330, R334, R339 to R341, R356, R357, R389: a queue write sets the tail and wakes the device, a priority write sets the base of
the queue's launches, the entry served next is taken, waited for, refused or dropped; a unit is bound where it fits, asked to leave for
one of higher priority, and unbound at its boundaries. -/
def Sys2Proof.Spec.scheduling : Prop :=
  (∀ (s : State) (vf q : Nat), vf < 64 → q < 64 →
    (∀ tail, s.power ≠ .s3 → ∃ s1, exec (.queueWrite vf q tail) s = .next s1 ∧
      { s1.queue vf q with rel := [] } = { s.queue vf q with qtail := tail, rel := [] } ∧
      (∀ v k, v ≠ vf ∨ k ≠ q → s1.queue v k = s.queue v k) ∧ s1.power = (if s.power = .s1 then .p0 else s.power) ∧
      s1.mem = s.mem ∧ s1.teams = s.teams) ∧
    ∀ prio, ∃ s1, exec (.qprioWrite vf q prio) s = .next s1 ∧ s1.queue vf q = { s.queue vf q with qprio := prio } ∧
      s1.mem = s.mem ∧ s1.groups = s.groups ∧
      ∀ l la, tabGet? s.launches l = some la →
        tabGet? s1.launches l = some { la with base := if la.vf = vf ∧ la.queue = q then prio.toNat else la.base }) ∧
  (∀ (s : State) (prio vf q : Nat), s.nextQueue = some (prio, vf, q) →
    let x := s.queue vf q
    (∀ la serial s2, s.readRing vf q x none = .ok ((la, serial), s2) → ∃ s1 la1, exec (.entryTake vf q) s = .next s1 ∧
      tabGet? s1.launches s2.nextId = some la1 ∧ la1.entry = la.entry ∧ la1.life = la.life ∧ la1.edges = s2.edgesTo la ∧
      la1.lnum = (s.ctx vf).admitted + 1 ∧ la1.base = x.qprio.toNat ∧ (s1.queue vf q).qhead = x.qhead + 1) ∧
    (∀ c, s.readRing vf q x none = .error (.drop c) → ∃ s1, exec (.entryTake vf q) s = .next s1 ∧ s1.mem = s.mem ∧
      s1.launches = s.launches ∧ (s1.queue vf q).qhead = x.qhead + 1 ∧ (s1.queue vf q).qerr = BitVec.ofNat 8 c) ∧
    (∀ cw c, s.readRing vf q x none = .error (.refuse cw c) → s.wordHeld vf cw = false → ∃ s1, exec (.entryTake vf q) s = .next s1 ∧
      s1.launches = s.launches ∧ (s1.queue vf q).qhead = x.qhead + 1 ∧
      ∀ a, Memory.wf s.mem = true → s.translate vf cw 8 .store true = .ok (.byte a) →
        StoredAt s s1 a (toBytesLE 8 (x.qhead.toNat * 2 ^ 32 + c * 2 ^ 16 + 3))) ∧
    (s.readRing vf q x none = .error .held → exec (.entryTake vf q) s = .next s) ∧
    (∀ va, s.readRing vf q x none = .error (.wait va) → ∃ s1, exec (.entryTake vf q) s = .next s1 ∧
      s1.launches = s.launches ∧ (s1.queue vf q).qhead = x.qhead ∧ (s1.queue vf q).blocked = some va) ∧
    ∀ v k, v ≠ vf ∨ k ≠ q → exec (.entryTake v k) s = .next s) ∧
  (∀ (s : State) (unit : Nat) (places : List Placement),
    let vf := (tabGet? s.groups unit).elim 0 fun g => (tabGet? s.launches g.launch).elim 0 (·.vf)
    (∀ s1, s.power = .p0 ∨ s.power = .p1 → s.unitWaits unit = true → s.bindingHeld vf = false →
      (∀ u ∈ s.waiting, s.before u unit = true → s.canPlace u = false ∧ s.couldUse u places = false) →
      s.bindUnit unit places = some s1 → exec (.bind unit places) s = .next s1) ∧
    ((∃ u ∈ s.waiting, s.before u unit = true ∧ (s.canPlace u = true ∨ s.couldUse u places = true)) →
      exec (.bind unit places) s = .next s) ∧
    ((∃ h ∈ s.unitLive unit, ∃ t ∈ h.2.teams, ∃ tm va k ls, tabGet? s.teams t = some tm ∧ tm.parkedOut = true ∧
      tm.phase = .parked va k ls ∧ s.walk (s.vfOf tm) (va.toNat % 2 ^ 56) = .invalid) → exec (.bind unit places) s = .next s)) ∧
  (∀ (s s1 : State) (g : Nat) (pl : Placement) (gr : Group), tabGet? s.groups g = some gr → s.bindGroup g pl = some s1 →
    (∃ gr1, tabGet? s1.groups g = some gr1 ∧ gr1.place = some ⟨pl.core, pl.slot, pl.spb⟩ ∧ gr1.started = true ∧ gr1.leave = none) ∧
    s.cores.getLsbD pl.core = true ∧ pl.slot < 8 ∧ pl.spb + gr.spadLen / 4096 ≤ 256 ∧ (32768 ≤ gr.spad → pl.spb % 8 = 0) ∧
    (∀ k, gr.last = some k → pl.spb % 8 = k.spb % 8) ∧
    ∀ h ∈ s.boundOn pl.core, ∀ k, h.place = some k →
      k.slot ≠ pl.slot ∧ (pl.spb + gr.spadLen / 4096 ≤ k.spb ∨ k.spb + h.spadLen / 4096 ≤ pl.spb)) ∧
  (∀ (s : State) (unit u : Nat), u ∈ s.waiting → s.unitPrio unit < s.unitPrio u → s.withLeft.canPlace u = false →
    (∀ h ∈ s.groups, h.2.retired = false → h.2.place ≠ none → h.2.leave = none → s.unitPrio unit ≤ s.unitPrio h.1) →
    exec (.evict unit) s = .next (s.requestLeave (s.unitOf unit) .preempt)) ∧
  (∀ (s : State) (unit : Nat),
    let live := s.unitLive unit
    live ≠ [] → (∀ h ∈ live, h.2.place ≠ none ∧ h.2.leave ≠ none) → s.pathsDrained live = true →
    (s.held? (live.map (·.1)) = false → exec (.preEmption unit) s = .next (live.foldl (fun s h => s.unbind h.1) s)) ∧
    (s.held? (live.map (·.1)) = true → exec (.preEmption unit) s = .next s)) ∧
  (∀ (s : State) (g : Nat) (gr : Group), tabGet? s.groups g = some gr →
    tabGet? (s.unbind g).groups g = some { gr with last := gr.place.or gr.last, place := none, leave := none }) ∧
  ∀ (s : State) (t : Nat) (tm : Team), tabGet? s.teams t = some tm →
    (tm.preheld = true → exec (.heldPreEmptionForce t) s = .next (s.setTeam t { tm with forced := true })) ∧
    (tm.preheld = false → exec (.heldPreEmptionForce t) s = .next s)

namespace Sys2Proof.Spec

open Machine

/-- n comes next in turn, after the one served last, among the numbers that P names (R330). -/
def nextInTurn (last : Option Nat) (P : Nat → Prop) (n : Nat) : Prop :=
  P n ∧ match last with
    | none => ∀ m, P m → n ≤ m
    | some k => (k < n ∧ ∀ m, P m → k < m → n ≤ m) ∨ (n ≤ k ∧ ∀ m, P m → m ≤ k ∧ n ≤ m)

/-- How a header breaks the rule of one of the reasons 1 to 7 (R15, R143, R331, R332, R334). -/
def headerBreaks (s : State) (hd : List Byte) (reason : Nat) : Prop :=
  let get (off lo n : Nat) : Nat := field hd (8 * off + lo) n
  let entry := get 0 0 64
  let logn := get 0x28 0 8
  let tpg := get 0x28 16 8
  let gpg := get 0x28 24 8
  let spad := get 0x3C 0 21
  let grid := [get 0x30 0 32 + 1, get 0x34 0 32 + 1, get 0x38 0 32 + 1]
  let w (i : Nat) : Nat := nth 0 [get 0x28 32 4, get 0x28 36 3, get 0x28 39 3, get 0x28 42 7, get 0x28 49 7, get 0x28 56 7] i
  let count (i : Nat) : Nat := nth 0 ([2 ^ logn, tpg, gpg] ++ grid) i
  match reason with
  | 1 => get 0x48 0 8 ≠ 1 ∨ get 0x28 63 1 ≠ 0 ∨ get 0x3C 31 1 ≠ 0 ∨ get 0x40 34 30 ≠ 0 ∨ get 0x48 8 56 ≠ 0
  | 2 => 5 ≤ entry % 8 ∨ entry / 8 % 8 ≠ 0 ∨ 2 ^ 56 ≤ entry
  | 3 => logn < 5 ∨ 10 < logn ∨ get 0x28 8 8 < 7 ∨ tpg < 1 ∨ 32 < tpg ∨ gpg < 1 ∨ 32 < gpg ∨
      (get 0x40 9 1 = 1 ∧ spad ≤ 0x100000 ∧ s.empty.gangsFit gpg spad tpg < nth 1 grid 0 * nth 1 grid 1 * nth 1 grid 2)
  | 4 => (w 0 ≠ 0 ∧ (w 0 < logn ∨ 10 < w 0)) ∨ 5 < w 1 ∨ 5 < w 2 ∨ 64 < w 3 ∨ 64 < w 4 ∨ 64 < w 5 ∨
      64 < w 0 + w 1 + w 2 + w 3 + w 4 + w 5 ∨ (∃ i < 6, w i ≠ 0 ∧ 2 ^ w i < count i) ∨ ∃ i < 6, 3 ≤ i ∧ w i = 0 ∧ count i ≠ 1
  | 5 => 0x100000 < spad ∨ 16 < get 0x3C 21 5 ∨ 16 < get 0x3C 26 5 ∨ s.cores = 0
  | 6 => ∀ c ∈ [0, 3, 4, 5], get 0x40 6 3 ≠ c
  | 7 => ∃ k < 4,
      let base := get (0x50 + 12 * k) 0 56
      let mark := get (0x50 + 12 * k) 56 8
      let len := get (0x50 + 12 * k) 64 32
      (mark = 0 ∧ (base ≠ 0 ∨ len ≠ 0)) ∨ 4 ≤ mark ∨ (mark ≠ 0 ∧ (len = 0 ∨ 2 ^ 56 < base + len))
  | _ => False

/-- A spawn-queue descriptor out of range (R333). -/
def descriptorBreaks (d : Nat) : Prop :=
  d / 2 ^ 43 ≠ 0 ∨ d % 16 < 5 ∨ 10 < d % 16 ∨ d / 2 ^ 4 % 2 ^ 8 < 7 ∨ 0x100000 < d / 2 ^ 12 % 2 ^ 21 ∨ 16 < d / 2 ^ 33 % 32 ∨
    16 < d / 2 ^ 38 % 32

/-- The launch that a header describes, but for what its auxiliary block gives (R331). -/
def describes (hd : List Byte) (la : Launch) : Prop :=
  let get (off lo n : Nat) : Nat := field hd (8 * off + lo) n
  la.entry.toNat = get 0 0 64 ∧ la.argp.toNat = get 8 0 64 ∧ la.htb.toNat = get 0x10 0 64 ∧ la.logn = get 0x28 0 8 ∧
    la.vregs = get 0x28 8 8 + 1 ∧ la.tpg = get 0x28 16 8 ∧ la.gpg = get 0x28 24 8 ∧
    la.widths = [get 0x28 32 4, get 0x28 36 3, get 0x28 39 3, get 0x28 42 7, get 0x28 49 7, get 0x28 56 7] ∧
    la.counts = [get 0x30 0 32 + 1, get 0x34 0 32 + 1, get 0x38 0 32 + 1] ∧ la.spad = get 0x3C 0 21 ∧ la.nacc = get 0x3C 21 5 ∧
    la.nbar = get 0x3C 26 5 ∧ la.headerQueue = get 0x40 0 6 ∧ la.coResident = (get 0x40 9 1 == 1) ∧ la.domain = get 0x40 10 8 ∧
    la.cscope = (match get 0x40 6 3 with | 3 => .die | 5 => .system | _ => .package) ∧
    la.regions = (((List.range 4).map fun k =>
      (get (0x50 + 12 * k) 0 56, get (0x50 + 12 * k) 64 32, get (0x50 + 12 * k) 56 8)).filter fun r => r.2.2 != 0) ∧
    la.life = .admitted ∧ la.records = 0 ∧ la.drop = 0 ∧ la.terminated = false

end Sys2Proof.Spec

/-- R330: the queue served next is one of the highest priority that holds an entry, round-robin over the contexts and then over the
queues of the context, each after the one served last at that priority; while an entry is waited for, its queue stays the chosen one. -/
def Sys2Proof.Spec.queueChoice : Prop :=
  ∀ s : State, tabSortedFrom 0 s.ctxs = true → (∀ c ∈ s.ctxs, tabSortedFrom 0 c.2.queues = true) →
    let holds (v k : Nat) : Prop := (s.queue v k).qen = true ∧ (s.queue v k).qhead ≠ (s.queue v k).qtail
    let at_ (p v k : Nat) : Prop := holds v k ∧ (s.queue v k).qprio.toNat = p
    ((∀ v k, holds v k → (s.queue v k).blocked = none) → ∀ p vf q, s.nextQueue = some (p, vf, q) ↔
      (∀ v k, holds v k → (s.queue v k).qprio.toNat ≤ p) ∧ nextInTurn (tabGet? s.served p) (fun v => ∃ k, at_ p v k) vf ∧
        nextInTurn (tabGet? (s.ctx vf).servedQueue p) (at_ p vf) q) ∧
    ∀ vf q, holds vf q → (s.queue vf q).blocked ≠ none →
      (∀ v k, holds v k → (s.queue v k).blocked ≠ none → v = vf ∧ k = q) →
      s.nextQueue = some ((s.queue vf q).qprio.toNat, vf, q)

/-- R330 to R334: an entry that cannot be read is dropped with 0x0D, one with a nonzero zero-field with 0x0C, one with a bad header
address with 0x0A and one with a bad completion word with 0x0B; a header is refused with the first reason, 1 to 9, whose rule it or
its auxiliary block breaks, and otherwise gives the launch that it describes. -/
def Sys2Proof.Spec.entryReasons : Prop :=
  (∀ (s : State) (vf q : Nat) (x : LaunchQueue) (expired : Option Word64),
    let ends (e : EntryEnd) : Prop := s.readRing vf q x expired = .error e
    let waits (va : Word64) (c : Nat) : Prop := (expired = some va → ends (.drop c)) ∧ (expired ≠ some va → ends (.wait va))
    let slot := s.watchRead vf x.rel (x.slotVa x.qhead.toNat) 16
    (slot = .error .failed → ends (.drop 0x0D)) ∧ (∀ va, slot = .error (.wait va) → waits va 0x0D) ∧
    (slot = .error .held → ends .held) ∧
    ∀ e s1, slot = .ok (e, s1) →
      let clean : Prop := field e 56 8 = 0 ∧ field e 65 63 = 0
      let header := s1.watchRead vf x.rel (BitVec.ofNat 64 (field e 0 56)) 128
      (¬clean → ends (.drop 0x0C)) ∧
      (clean → field e 0 7 ≠ 0 → ends (.drop 0x0A)) ∧
      (clean → field e 0 7 = 0 →
        (header = .error .failed → ends (.drop 0x0A)) ∧ (∀ va, header = .error (.wait va) → waits va 0x0A) ∧
        (header = .error .held → ends .held) ∧
        ∀ hd s2, header = .ok (hd, s2) →
          let cw : Word64 := BitVec.ofNat 64 (field hd 0xC0 64)
          let place := s2.translate vf cw 8 .store true
          (cw.toNat % 8 ≠ 0 → ends (.drop 0x0B)) ∧
          (cw.toNat % 8 = 0 →
            (∀ va k, place = .error (.park va k) → waits va 0x0B) ∧ (∀ c d a, place = .error (.trap c d a) → ends (.drop 0x0B)) ∧
            (∀ va, place = .error (.fatal va) → ends (.drop 0x0B)) ∧ (∀ w, place = .error (.wait w) → ends .held) ∧
            ∀ a, place = .ok (.byte a) → s.readRing vf q x expired =
              (s2.readHeader vf q x.qhead.toNat x.rel expired cw hd).map fun r => ((r.1, field e 64 1 == 1), r.2)))) ∧
  ∀ (s : State) (vf q qpos : Nat) (floor : View) (expired : Option Word64) (cw : Word64) (hd : List Byte),
    let r := s.readHeader vf q qpos floor expired cw hd
    let refused (c : Nat) : Prop := r = .error (.refuse cw c)
    let auxp : Word64 := BitVec.ofNat 64 (field hd 0x100 64)
    let spen := field hd (8 * 0x40 + 18) 16
    (∀ n, headerBreaks s hd n → (∀ m < n, ¬headerBreaks s hd m) → refused n) ∧
    ((∀ n, ¬headerBreaks s hd n) →
      let made (la : Launch) (s1 : State) : Prop := r = .ok (la, s1) ∧ describes hd la ∧ la.cwadr = cw ∧ la.vf = vf ∧
        la.queue = q ∧ la.qpos = qpos
      (spen ≠ 0 → auxp = 0 → refused 8) ∧
      (auxp ≠ 0 → auxp.toNat % 64 ≠ 0 → refused 9) ∧
      (spen = 0 → auxp = 0 → ∃ la, made la s ∧ la.imgt = 0 ∧ la.fq = 0 ∧ la.fqcap = 0 ∧ la.spawn = []) ∧
      (auxp ≠ 0 → auxp.toNat % 64 = 0 →
        let fails (x : Except ReadEnd (List Byte × State)) : Prop := (x = .error .failed → refused 9) ∧
          (x = .error .held → r = .error .held) ∧
          ∀ va, x = .error (.wait va) → (expired = some va → refused 9) ∧ (expired ≠ some va → r = .error (.wait va))
        let block := s.watchRead vf floor auxp 64
        fails block ∧
        ∀ bs s1, block = .ok (bs, s1) →
          let get (off n : Nat) : Nat := field bs (8 * off) n
          let sound : Prop := get 0 64 % 8 = 0 ∧ get 8 64 % 64 = 0 ∧ get 0x10 32 ≠ 0 ∧ get 0x14 32 = 0 ∧ get 0x20 256 = 0
          let with_ (la : Launch) : Prop := la.imgt.toNat = get 0 64 ∧ la.fq.toNat = get 8 64 ∧ la.fqcap = get 0x10 32
          (¬sound → refused 9) ∧
          (sound → spen = 0 → ∃ la, made la s1 ∧ with_ la ∧ la.spawn = []) ∧
          ∀ k, sound → spen = 2 ^ k →
            let desc := s1.watchRead vf floor (BitVec.ofNat 64 (get 0x18 64 + 8 * k)) 8
            fails desc ∧
            ∀ ds s2, desc = .ok (ds, s2) →
              let d := ofBytesLE ds
              (descriptorBreaks d → refused 8) ∧
              (¬descriptorBreaks d → ∃ la, made la s2 ∧ with_ la ∧ la.spawn = [(k, {
                logn := d % 16, vregs := d / 2 ^ 4 % 2 ^ 8 + 1, spad := d / 2 ^ 12 % 2 ^ 21, nacc := d / 2 ^ 33 % 32
                nbar := d / 2 ^ 38 % 32, counter := 0, items := [], filling := [] })])))

/-- R227, R302, R334, R353, R354, R364 to R367: a parked team goes on when its walk succeeds, and leaves its core, faults or is dropped at
the threshold; a tick counts, sets %bwmon and makes the SC moves; the end of a phase or of a limit gives ECLW its status word. -/
def Sys2Proof.Spec.waitingEvents : Prop :=
  (∀ (s : State) (t : Nat) (tm : Team) (gr : Group) (va : Word64) (k : Nat) (ls : LaneSet), tabGet? s.teams t = some tm →
    tabGet? s.groups tm.group = some gr → gr.place.isSome = true → tm.phase = .parked va k ls →
    (s.walk (s.vfOf tm) (va.toNat % 2 ^ 56) ≠ .invalid → tm.parkedOut = false →
      exec (.replayWalk t) s = .next (s.setTeam t { tm with phase := .running })) ∧
    (s.walk (s.vfOf tm) (va.toNat % 2 ^ 56) = .invalid →
      exec (.replayWalk t) s = .next s ∧
      exec (.replayThreshold (.team t)) s =
        .next ((s.setTeam t { tm with parkedOut := true }).requestLeave (s.unitOf tm.group) .park))) ∧
  (∀ (s : State) (k : Nat) (va : Word64),
    (∀ c, tabGet? s.copies k = some c → c.blocked = some va → c.phase ≠ .complete → s.walk c.vf (va.toNat % 2 ^ 56) = .invalid →
      exec (.replayThreshold (.copy k)) s = .next (s.faultCopy k 0x07 0)) ∧
    (∀ c, tabGet? s.commands k = some c → c.blocked = some va → s.walk c.vf (va.toNat % 2 ^ 56) = .invalid →
      exec (.replayThreshold (.command k)) s = .next ((s.faultCommand k .translation).onCommand k Command.endWaits)) ∧
    ∀ vf, (s.queue vf k).blocked = some va →
      (s.walk vf (va.toNat % 2 ^ 56) = .invalid → exec (.replayThreshold (.entry vf k)) s = .next (s.takeEntry vf k (some va))) ∧
      (s.walk vf (va.toNat % 2 ^ 56) ≠ .invalid → exec (.replayThreshold (.entry vf k)) s = .next s)) ∧
  (∀ (s : State) (busy : List Nat), ∃ s0 : State,
    exec (.beaconTick busy) s = .next (s.fencers.foldl (fun x f => x.fenceTick f.1 f.2) s0) ∧
    { s0 with beacon := s.beacon, bwWindow := s.bwWindow, bwmon := s.bwmon } = s ∧ s0.beacon = s.beacon + 1 ∧
    ∀ d < 4, let c := s.channels d
      let window := (Nat.min (nth 0 busy d) (c * 128) :: tabGet s.bwWindow d []).take 32
      tabGet? s0.bwmon d = some (if c = 0 then 0 else 256 * window.foldl (· + ·) 0 / (c * 4096))) ∧
  (∀ s : State, tabSortedFrom 0 s.groups = true →
    (∀ g ∈ s.groups, ∀ h ∈ s.groups, ∀ p q, g.2.retired = false → h.2.retired = false → g.2.place = some p → h.2.place = some q →
      p.core = q.core → p.slot = q.slot → g = h) →
    let stands (x : Nat × Scope) (k : Nat × Nat × Nat) : Prop := ∃ h ∈ s.groups, ∃ p, h.2.retired = false ∧ h.2.place = some p ∧
      p.core = k.1 ∧ p.slot = k.2.1 ∧ h.2.teams[k.2.2]? = some x.1
    ∃ ks : List (Nat × Nat × Nat), ks.length = s.fencers.length ∧ (∀ x ∈ s.fencers.zip ks, stands x.1 x.2) ∧ ks.Pairwise fun a b =>
      a.1 < b.1 ∨ (a.1 = b.1 ∧ (a.2.1 < b.2.1 ∨ (a.2.1 = b.2.1 ∧ a.2.2 < b.2.2)))) ∧
  (∀ (s : State) (t : Nat) (sc : Scope) (tm : Team), tabGet? s.teams t = some tm →
      let s1 := s.fenceTick t sc
      let i := s.instOf (.team t) sc
      let acquired : PView := tm.pv.acquire i (msgAt tm.pv.seen i)
      let joined : View := viewJoin (msgAt s.sc i) (viewJoin acquired.o (msgAt acquired.acq i))
      let ordered : PView := acquired.acquire i joined
      s1.sc = msgJoin s.sc i joined ∧ { s1 with sc := s.sc, teams := s.teams } = s ∧
      (∀ u ≠ t, tabGet? s1.teams u = tabGet? s.teams u) ∧
      ∃ tm1, tabGet? s1.teams t = some tm1 ∧ { tm1 with pv := tm.pv } = { tm with stall := .fence sc true } ∧
        tm1.pv = { ordered with rel := msgJoin ordered.rel i (viewJoin ordered.o (msgAt ordered.acq i)) }) ∧
  (∀ (s : State) (die t : Nat) (tm : Team), die < 4 → tabGet? s.teams t = some tm → s.boundDie tm = some die →
    let ends (i : Instr) (pkg : Bool) (quiet : Bool) : Prop :=
      (quiet = false → exec i s = .next s) ∧
      (quiet = true → ∃ s1 tm1, exec i s = .next s1 ∧ s1.mem = s.mem ∧ tabGet? s1.teams t = some tm1 ∧
        (∀ lim, tm.stall = .eclw pkg lim none →
          tm1.stall = .eclw pkg lim (some (BitVec.ofNat 64 (2 ^ 63 + s.beacon.toNat % 2 ^ 32)))) ∧
        ∀ u um, tabGet? s.teams u = some um → (∀ lim, um.stall ≠ .eclw pkg lim none) → tabGet? s1.teams u = some um)
    (∀ lim, tm.stall = .eclw false lim none → ends (.diePhaseEnd die) false (s.dieIdle die)) ∧
    (∀ lim, tm.stall = .eclw true lim none → ends .packagePhaseEnd true s.packageIdle)) ∧
  ∀ (s : State) (t : Nat) (tm : Team) (pkg : Bool), tabGet? s.teams t = some tm → s.boundDie tm ≠ none →
    (tm.stall = .eclw pkg true none → exec (.eclwLimitExpiry t) s =
      .next (s.setTeam t { tm with stall := .eclw pkg true (some (BitVec.ofNat 64 (s.beacon.toNat % 2 ^ 32))) })) ∧
    (tm.stall = .eclw pkg false none → exec (.eclwLimitExpiry t) s = .next s)

/-- R20, R352 to R354, R374: a team whose access meets no translation is parked, and is not ready; the report of it goes into the ring
of its context, or waits while the ring is full. Bound again after it has been evicted so, it goes on at its region's entry, which the
issue there counts; without a region, and any other team, it goes on where it was. -/
def Sys2Proof.Spec.parkedTeams : Prop :=
  (∀ (s : State) (t : Nat) (tm : Team) (va : Word64) (kind : AccessKind) (lanes : LaneSet), tabGet? s.teams t = some tm →
    let s1 := s.settle t lanes (.park va kind.code)
    let vf := s.vfOf tm
    let c := s.ctx vf
    let lnum := (s.launchOf tm).elim 0 (·.lnum)
    let a := c.frbase.toNat % 2 ^ 44 + 16 * (c.frtail.toNat % 256)
    let number : Nat := match kind with | .load => 0 | .store => 1 | .fetch => 2 | .atomic => 3 | .engine => 4
    tabGet? s1.teams t = some { tm with phase := .parked va number lanes } ∧
    (∀ u ≠ t, tabGet? s1.teams u = tabGet? s.teams u) ∧
    (c.frtail - c.frhead = 256 → s1.ctx vf = { c with reports := c.reports ++ [(va, number, lnum)] } ∧ s1.mem = s.mem) ∧
    (c.frtail - c.frhead ≠ 256 → c.reports = [] → s1.ctx vf = { c with frtail := c.frtail + 1, reports := [] } ∧
      tabGet? s1.msix (2048 * vf) = some (tabGet s.msix (2048 * vf) 0 + 1) ∧
      (Memory.wf s.mem = true → s.hostAnswers vf a 16 = true → StoredAt s s1 (hostByte a)
        (toBytesLE 8 (va.toNat % 2 ^ 56 + number * 2 ^ 60) ++ toBytesLE 4 lnum ++ [0, 0, 0, 0])))) ∧
  (∀ (s : State) (t : Nat) (tm : Team) va k ls, tm.phase = .parked va k ls → s.mayIssue t tm = false) ∧
  ∀ (s s1 : State) (g : Nat) (pl : Placement) (gr : Group) (t : Nat) (tm : Team), tabGet? s.groups g = some gr → gr.started = true →
    gr.teams.Nodup → t ∈ gr.teams → tabGet? s.teams t = some tm → s.bindGroup g pl = some s1 →
    (∀ va k ls, tm.phase = .parked va k ls → tm.parkedOut = true →
      (tm.rvalid = true → ∃ tm1, tabGet? s1.teams t = some tm1 ∧
        tm1 = { tm with phase := .running, parkedOut := false, pc := tm.regpc, entered := true, checked := false, recorded := false
                        stall := .none, rep := none, closed := true } ∧
        ∀ marked, (tm1.enter marked).regcnt = tm.regcnt + 1 ∧ (tm1.enter marked).regpc = tm.regpc ∧ (tm1.enter marked).rvalid = true) ∧
      (tm.rvalid = false → tabGet? s1.teams t = some { tm with phase := .running, parkedOut := false })) ∧
    ((∀ va k ls, tm.phase ≠ .parked va k ls) ∨ tm.parkedOut = false → tabGet? s1.teams t = some { tm with parkedOut := false })

/-! ### The host link -/

/-- R329, R353, R355, R373, R374, R376: a write of 4 or 8 bytes at an 8-byte boundary of a page sets the register there and every
other write is dropped; invalidations are counted in order and walk again what waits; a write of FRREF gives up what waits in its
page; one of FRHEAD lets the reports that waited into the ring. Readings of the model: when reports are written and partial writes,
logs 78 and 79. -/
def Obligations.RegisterPages : Prop :=
  (∀ (s : State) (vf : Nat), vf < 64 →
    (∀ value, ∃ s1, exec (.invalidation vf value) s = .next s1 ∧
      s1.ctx vf = { s.ctx vf with invPending := (s.ctx vf).invPending ++ [value] } ∧ s1.teams = s.teams ∧ s1.mem = s.mem) ∧
    (∀ v rest, (s.ctx vf).invPending = v :: rest → ∃ s1, exec (.invalidationDone vf) s = .next s1 ∧
      (s1.ctx vf).invDone = (s.ctx vf).invDone + 1 ∧ (s1.ctx vf).invPending = rest ∧ s1.mem = s.mem ∧
      let after : State := s.onCtx vf fun c => { c with
        invPending := rest, invDone := c.invDone + 1
        invals := c.invals ++ [⟨(pageNamed v).1, (pageNamed v).2, s.nextWrite⟩] }
      ∀ t tm, tabGet? s.teams t = some tm →
        (s.vfOf tm ≠ vf ∨ (∀ va k ls, tm.phase ≠ .parked va k ls) → tabGet? s1.teams t = some tm) ∧
        ∀ va k ls gr, s.vfOf tm = vf → tm.phase = .parked va k ls → tm.parkedOut = false → tabGet? s.groups tm.group = some gr →
          gr.place.isSome = true → tabGet? s1.teams t = some
            (if after.walk vf (va.toNat % 2 ^ 56) = .invalid then tm else { tm with phase := .running })) ∧
    (∀ value, exec (.frrefWrite vf value) s = .next (s.refusePage vf value) ∧
      ∀ (tm : Team) va k ls, tm.phase = .parked va k ls →
        (inPage value va = true → tm.refuse value = { tm with phase := .refused va ls, parkedOut := false }) ∧
        (inPage value va = false → tm.refuse value = tm)) ∧
    (∀ value, (s.ctx vf).reports = [] → ∃ s1, exec (.frheadWrite vf value) s = .next s1 ∧
      s1.ctx vf = { s.ctx vf with frhead := value } ∧ s1.mem = s.mem) ∧
    (∀ value, exec (.frheadWrite vf value) s =
      .next ((s.onCtx vf fun c => { c with frhead := value }).writeReports vf (s.ctx vf).reports))) ∧
  (∀ (s : State) (page : Page) (off size : Nat) (value : Word64),
    (off % 8 ≠ 0 ∨ (size ≠ 4 ∧ size ≠ 8) → exec (.registerPageWrite page off size value) s = .next s)) ∧
  (∀ (s : State) (vf : Nat) (value : Word64), vf < 64 → s.boot = .up →
    let after (off : Nat) (c : Context) : Prop :=
      ∃ s1, exec (.registerPageWrite (.vf vf) off 8 value) s = .next s1 ∧ s1.ctx vf = c ∧ s1.mem = s.mem ∧ s1.teams = s.teams
    let c := s.ctx vf
    after 0x000 { c with pgroot := value.setWidth 56 } ∧ after 0x008 { c with trapvec := value } ∧
      after 0x010 { c with invPending := c.invPending ++ [value] } ∧ after 0x020 { c with frbase := value &&& ~~~ 63#64 } ∧
      after 0x040 { c with rthresh := (if 700 ≤ value.toNat % 2 ^ 23 ∧ value.toNat % 2 ^ 23 ≤ 7000000
        then BitVec.ofNat 23 (value.toNat % 2 ^ 23) else c.rthresh) } ∧
      after 0x048 { c with fxbase := (value &&& ~~~ 63#64).setWidth 56 } ∧
      after 0x050 { c with fxlog := (if 4 ≤ value.toNat % 16 ∧ value.toNat % 16 ≤ 12
        then BitVec.ofNat 4 (value.toNat % 16) else c.fxlog) } ∧
      after 0x058 { c with fxdoor := (value &&& ~~~ 7#64).setWidth 56 } ∧ after 0x068 { c with consent := value.getLsbD 0 } ∧
      (∃ s1, exec (.registerPageWrite (.vf vf) 0x008 4 value) s = .next s1 ∧
        (s1.ctx vf).trapvec = BitVec.ofNat 64 (c.trapvec.toNat / 2 ^ 32 * 2 ^ 32 + value.toNat % 2 ^ 32)) ∧
      (∀ q < 64, (s.queue vf q).qen = true →
        exec (.registerPageWrite (.vf vf) (0x1000 + 0x20 * q) 8 value) s = .next s) ∧
      (∀ q < 64, (s.queue vf q).qen = false → ∃ s1, exec (.registerPageWrite (.vf vf) (0x1000 + 0x20 * q) 8 value) s = .next s1 ∧
        s1.queue vf q = { s.queue vf q with qbase := (value &&& ~~~ 63#64).setWidth 56 } ∧
        (∀ v k, v ≠ vf ∨ k ≠ q → s1.queue v k = s.queue v k) ∧ s1.mem = s.mem ∧ s1.launches = s.launches) ∧
      (∀ q < 64, ∃ s1, exec (.registerPageWrite (.vf vf) (0x1008 + 0x20 * q) 8 value) s = .next s1 ∧
        s1.queue vf q = { s.queue vf q with
          qen := value.getLsbD 16, qprio := value.extractLsb' 8 3
          qlog := (if (s.queue vf q).qen = false ∧ 4 ≤ value.toNat % 32 ∧ value.toNat % 32 ≤ 16
            then BitVec.ofNat 5 (value.toNat % 32) else (s.queue vf q).qlog) } ∧
        (∀ v k, v ≠ vf ∨ k ≠ q → s1.queue v k = s.queue v k) ∧ s1.mem = s.mem ∧
        ∀ l la, tabGet? s.launches l = some la → tabGet? s1.launches l =
          some { la with base := if la.vf = vf ∧ la.queue = q then (value.extractLsb' 8 3).toNat else la.base }) ∧
      exec (.registerPageWrite (.vf vf) 0x030 8 value) s = exec (.frheadWrite vf (value.setWidth 32)) s ∧
      exec (.registerPageWrite (.vf vf) 0x038 8 value) s = exec (.frrefWrite vf value) s ∧
      (∀ off ∈ [0x018, 0x028, 0x060], exec (.registerPageWrite (.vf vf) off 8 value) s = .next s) ∧
      (∀ q < 64, exec (.registerPageWrite (.vf vf) (0x1018 + 0x20 * q) 8 value) s = .next s) ∧
      ∀ q < 64, s.power ≠ .s3 → ∃ s1, exec (.registerPageWrite (.vf vf) (0x1010 + 0x20 * q) 8 value) s = .next s1 ∧
        (s1.queue vf q).qtail = value.setWidth 32) ∧
  (∀ (s : State) (off size vf : Nat) (value : Word64),
    (s.boot = .reset → exec (.registerPageWrite .pf off size value) s = .next s) ∧
    (s.boot ≠ .up → exec (.registerPageWrite (.vf vf) off size value) s = .next s)) ∧
  ∀ (s : State) (value : Word64), s.boot ≠ .reset →
    (s.mailbox.busy = true → exec (.registerPageWrite .pf 0 8 value) s = .next s) ∧
    (s.mailbox.busy = false → exec (.registerPageWrite .pf 0 8 value) s = .next { s with mailbox := { s.mailbox with
      busy := true, seq := value.extractLsb' 32 32, opc := value.setWidth 16, taken := s.mailbox.args, result := none } }) ∧
    ∀ k < 16, ∃ s1, exec (.registerPageWrite .pf (0x100 + 8 * k) 8 value) s = .next s1 ∧ nth 0 s1.mailbox.args k = value ∧
      (∀ j ≠ k, nth 0 s1.mailbox.args j = nth 0 s.mailbox.args j) ∧ s1.mailbox.taken = s.mailbox.taken

namespace Sys2Proof.Spec

open Machine

/-- What RESTORE does with the container that a namespace holds where the arguments say (R382, R383): a required section of unknown type
and another major version are refused; a tag that does not match zeroes the pages of the chosen domains; otherwise each page that a
section names, where a chosen domain owns it, reads as the section holds it, and every other byte stays. -/
def restores (s : State) (f : Flash) (err : Bool) : Prop :=
  let base := 4096 * s.arg 2
  let get (off n : Nat) : Nat := ofBytesLE (memGets f.bytes (base + off) n)
  let sections := (List.range (get 0x0C 4)).map fun i => get 0x10 8 + 128 * i
  let magic : Prop := memGets f.bytes base 8 = [0x46, 0x45, 0x52, 0x4D, 0x41, 0x53, 0x41, 0x00]
  let known (k : Nat) : Prop := get k 2 = 1 ∨ get k 2 = 2 ∨ get k 2 = 3 ∨ (get (k + 2) 2).testBit 0 = false
  let matching (e : Nat) : Prop :=
    (sha3 (memGets f.bytes (base + 2 ^ 21 * (1 + e)) (2 ^ 21))).toNat = get (get 0x18 8 + 32 * e) 32
  let owned (p : Nat) : Prop := ∃ e ∈ s.alloc, e.1 = p ∧ s.chosen (e.2.toNat % 256) = true
  let plain (p : Nat) : Prop := s.isImage (65536 * p) = false
  let mayRead : Prop := magic ∧ get 8 2 = 1 ∧ ∀ k ∈ sections, known k
  (¬mayRead → exec (.restore err) s = .next (s.answer 0x02 0)) ∧
  (mayRead → (∃ e < get 0x20 4, ¬matching e) → tabSortedFrom 0 s.alloc = true → Memory.wf s.mem = true →
    ∃ s1 : State, exec (.restore err) s = .next (s1.answer 0x08 0) ∧
      ∀ p i, i < 65536 → p < 12 * 2 ^ 20 →
        (owned p → plain p → memGet s1.mem (65536 * p + i) = 0) ∧
        (¬owned p ∨ ¬plain p → memGet s1.mem (65536 * p + i) = memGet s.mem (65536 * p + i))) ∧
  (mayRead → (∀ e < get 0x20 4, matching e) → tabSortedFrom 0 s.alloc = true → Memory.wf s.mem = true →
    let pages : List (Nat × Nat) := (sections.filter fun k => get k 2 == 3).flatMap fun k =>
      (List.range (get (k + 16) 8 / 65544)).map fun i => (get (get (k + 8) 8 + 65544 * i) 8, get (k + 8) 8 + 65544 * i + 8)
    ∃ (s1 : State) (out : Nat), exec (.restore err) s = .next (s1.answer 0 out) ∧
      (∀ p i, i < 65536 → (∀ x ∈ pages, x.1 ≠ p) ∨ ¬owned p ∨ ¬plain p →
        memGet s1.mem (65536 * p + i) = memGet s.mem (65536 * p + i)) ∧
      ((pages.map (·.1)).Nodup → ∀ x ∈ pages, owned x.1 → plain x.1 → ∀ i < 65536,
        memGet s1.mem (65536 * x.1 + i) = memGet f.bytes (base + x.2 + i)))

end Sys2Proof.Spec

/-- R376 to R383, R388 to R391: what each command of the mailbox does when its arguments and the state let it, the code with which
it is refused otherwise, the end of a command, and bring-up. Readings of the model: bring-up, codes, the order of checks, the MSI-X
counter, the layout of containers and reports, a marked word under CKPT and what RESTORE leaves out, logs 9, 44, 78, 80 to 83, 124
and 125. -/
def Obligations.MailboxCommands : Prop :=
  (∀ (s : State), s.mailbox.busy = true → s.mailbox.result = none →
    let runs (opc : Nat) (masks : List Nat) : Prop := s.mailbox.opc.toNat = opc ∧ s.argsClean masks = true
    let vf := s.arg 0 % 64
    let gives (i : Instr) (s1 : State) (res : BitVec 8) (out : Nat) : Prop := exec i s = .next (s1.answer res out)
    let beyond (a n : Nat) : Prop := 2 ^ 44 < a + n
    let deaf (a n : Nat) : Prop := a + n ≤ 2 ^ 44 ∧ s.hostAnswers 64 a n = false
    let poisoned (a n : Nat) : Prop := a + n ≤ 2 ^ 44 ∧ s.markAt (hostByte a) n ≠ none
    (∀ masks, s.argsClean masks = true ↔ ∀ k < 16, ∀ b < 64, (nth 0 s.mailbox.taken k).getLsbD b = true →
      (nth 0 masks k).testBit b = true) ∧
    (∀ x ∈ ([(.setdom, 1, [0xFF3F]), (.setmask, 2, [0x3F, 2 ^ 64 - 1]), (.rowset, 3, [2 ^ 64 - 1, 2 ^ 64 - 1, 0x1FF]),
        (.pin, 4, [2 ^ 64 - 1, 1]), (.patset, 5, [0xFF3F, 2 ^ 64 - 1]), (.nsgrant, 6, [0xFFFF, 2 ^ 64 - 1]),
        (.ckpt false, 7, [0x7F, 0xFFFF, 2 ^ 64 - 1]), (.ckpt true, 7, [0x7F, 0xFFFF, 2 ^ 64 - 1]),
        (.restore false, 8, [0x7F, 0xFFFF, 2 ^ 64 - 1]), (.restore true, 8, [0x7F, 0xFFFF, 2 ^ 64 - 1]), (.power, 9, [7]),
        (.nonce, 10, [2 ^ 64 - 1]), (.dbgauth, 11, [2 ^ 64 - 1]), (.dbgend, 12, []), (.attest, 13, [0x3F, 2 ^ 64 - 1, 2 ^ 64 - 1]),
        (.chain, 14, [2 ^ 64 - 1, 2 ^ 64 - 1]), (.peer, 15, [0xFFF, 0xFFFFFF, 0xFFFFFFFFFFFF]), (.fusepr, 16, [2 ^ 64 - 1])] :
        List (Instr × Nat × List Nat)),
      s.mailbox.opc.toNat = x.2.1 → s.argsClean x.2.2 = false → gives x.1 s 0x02 0) ∧
    (∀ x ∈ ([(.setmask, 2, [0x3F, 2 ^ 64 - 1], 64), (.patset, 5, [0xFF3F, 2 ^ 64 - 1], 32)] : List (Instr × Nat × List Nat × Nat)),
      runs x.2.1 x.2.2.1 → (beyond (s.arg 1) x.2.2.2 → gives x.1 s 0x02 0) ∧
        (deaf (s.arg 1) x.2.2.2 ∨ poisoned (s.arg 1) x.2.2.2 → gives x.1 s 0x06 0)) ∧
    (∀ err, ∀ x ∈ [(Instr.ckpt err, 7), (Instr.restore err, 8)], runs x.2 [0x7F, 0xFFFF, 2 ^ 64 - 1] →
      let key := s.arg 1 % 4 * 2 ^ 14 + s.arg 1 / 4 % 2 ^ 14
      (s.power = .s1 ∨ s.power = .s3 → gives x.1 s 0x03 0) ∧
      (s.power = .p0 ∨ s.power = .p1 → (tabGet? s.flash key = none → gives x.1 s 0x07 0) ∧
        ∀ f, tabGet? s.flash key = some f →
          let granted : Prop := if (s.arg 0).testBit 6 then f.grants ≠ 0 else f.grants.getLsbD (s.arg 0 % 64) = true
          (¬granted → gives x.1 s 0x03 0) ∧ (granted → f.blocks4k = false ∨ err = true → gives x.1 s 0x07 0) ∧
          (granted → f.blocks4k = true → err = false → s.checkpointSpace err = .ok f))) ∧
    (runs 1 [0xFF3F] → let d := s.arg 0 / 2 ^ 8 % 256
      (d = 0 ∨ d = 255 → gives .setdom s 0x02 0) ∧
      (d ≠ 0 → d ≠ 255 → s.contextLive vf = true → gives .setdom s 0x03 0) ∧
      (d ≠ 0 → d ≠ 255 → s.contextLive vf = false →
        gives .setdom (s.onCtx vf fun c => { c with domain := BitVec.ofNat 8 d }) 0 0)) ∧
    (runs 2 [0x3F, 2 ^ 64 - 1] → ∀ r w s1, s.hostRead (s.arg 1) 64 = .ok (toBytesLE 32 r ++ toBytesLE 32 w, s1) →
      r < 2 ^ 256 → w < 2 ^ 256 → (∀ i ∈ [0, 255], r.testBit i = false ∧ w.testBit i = false) →
      gives .setmask (s1.onCtx (s.arg 0) fun c => { c with readMask := BitVec.ofNat 256 r, writeMask := BitVec.ofNat 256 w }) 0 0) ∧
    (runs 2 [0x3F, 2 ^ 64 - 1] → ∀ r w s1, s.hostRead (s.arg 1) 64 = .ok (toBytesLE 32 r ++ toBytesLE 32 w, s1) →
      r < 2 ^ 256 → w < 2 ^ 256 → (∃ i ∈ [0, 255], r.testBit i = true ∨ w.testBit i = true) → gives .setmask s 0x02 0) ∧
    (runs 3 [2 ^ 64 - 1, 2 ^ 64 - 1, 0x1FF] → 2 ^ 40 ≤ s.arg 0 ∨ s.arg 0 % 65536 ≠ 0 ∨ s.arg 1 % 65536 ≠ 0 ∨
      s.pagesExist (s.arg 0 / 65536) (s.arg 1 / 65536) = false → gives .rowset s 0x02 0) ∧
    (runs 3 [2 ^ 64 - 1, 2 ^ 64 - 1, 0x1FF] → s.arg 0 < 2 ^ 40 → s.arg 0 % 65536 = 0 → s.arg 1 % 65536 = 0 →
      s.pagesExist (s.arg 0 / 65536) (s.arg 1 / 65536) = true →
      let guard := s.rangeGuardOk (s.arg 0 / 65536) (s.arg 1 / 65536) (s.arg 2 % 256)
      (guard = true → gives .rowset (s.setRows (s.arg 0) (s.arg 1) (BitVec.ofNat 16 (s.arg 2))) 0 (s.arg 1 / 8192)) ∧
      (guard = false → gives .rowset s 0x04 0)) ∧
    (runs 4 [2 ^ 64 - 1, 1] → s.arg 0 % 2 ^ 21 ≠ 0 ∨ s.stackHas (s.arg 0) = false → gives .pin s 0x02 0) ∧
    (runs 4 [2 ^ 64 - 1, 1] → s.arg 0 % 2 ^ 21 = 0 → s.stackHas (s.arg 0) = true →
      let region := s.arg 0 / 2 ^ 21
      (∀ h ∈ s.held, h.2.1 ≠ region ∧ h.2.2 ≠ region) → ∃ s1, gives .pin s1 0 0 ∧ (region ∈ s1.pinned ↔ s.arg 1 = 1) ∧
        ∀ r ≠ region, r ∈ s1.pinned ↔ r ∈ s.pinned) ∧
    (runs 5 [0xFF3F, 2 ^ 64 - 1] → ∀ bs s1, s.hostRead (s.arg 1) 32 = .ok (bs, s1) →
      gives .patset (s1.onCtx vf fun c => { c with
        patterns := tabSet c.patterns (s.arg 0 / 2 ^ 8) (BitVec.ofNat 256 (ofBytesLE bs)) }) 0 0) ∧
    let space (a : Nat) : Nat := a % 4 * 2 ^ 14 + a / 4 % 2 ^ 14
    (runs 6 [0xFFFF, 2 ^ 64 - 1] →
      (tabGet? s.flash (space (s.arg 0)) = none → gives .nsgrant s 0x07 0) ∧
      ∀ f, tabGet? s.flash (space (s.arg 0)) = some f →
        gives .nsgrant { s with flash := tabSet s.flash (space (s.arg 0)) { f with grants := BitVec.ofNat 64 (s.arg 1) } } 0 0) ∧
    (∀ err, s.mailbox.opc.toNat = 7 ∨ s.mailbox.opc.toNat = 8 → ∀ f, s.checkpointSpace err = .ok f →
      (∀ g ∈ s.concerned, ∀ x, tabGet? s.groups g = some x → x.place = none) → s.packageIdle = true →
      (s.held ≠ [] → (s.mailbox.opc.toNat = 7 → exec (.ckpt err) s = .next s) ∧
        (s.mailbox.opc.toNat = 8 → exec (.restore err) s = .next s)) ∧
      (s.held = [] → s.mailbox.opc.toNat = 7 →
        (s.ckptMarked = true → gives (.ckpt err) s 0x07 0) ∧
        (s.ckptMarked = false → ∃ f1 : Flash, { f1 with bytes := f.bytes, asides := f.asides } = f ∧
          f1.bytes = memSets f.bytes (4096 * s.arg 2) s.checkpoint ∧
          gives (.ckpt err) { s with flash := tabSet s.flash (space (s.arg 1)) f1 } 0 s.checkpoint.length)) ∧
      (s.held = [] → s.mailbox.opc.toNat = 8 →
        (memGets f.bytes (4096 * s.arg 2) 8 ≠ [0x46, 0x45, 0x52, 0x4D, 0x41, 0x53, 0x41, 0x00] → gives (.restore err) s 0x02 0) ∧
        (memGets f.bytes (4096 * s.arg 2) 12 = [0x46, 0x45, 0x52, 0x4D, 0x41, 0x53, 0x41, 0x00, 1, 0, 0, 0] →
          memGets f.bytes (4096 * s.arg 2 + 12) 36 = List.replicate 36 0 → gives (.restore err) s 0 0) ∧
        restores s f err)) ∧
    (runs 9 [7] →
      (∀ x ∈ [(0, Power.p0), (1, .p1), (2, .s1)], s.arg 0 = x.1 → gives .power
        (if s.power = .s3 then { s.leavePd with power := x.2, boot := .waking } else { s with power := x.2 }) 0 0) ∧
      (4 ≤ s.arg 0 → gives .power s 0x02 0) ∧
      (s.arg 0 = 3 → s.power ≠ .s3 → (∀ g ∈ s.groups, g.2.place = none) → (∀ d < 4, s.dieIdle d = true) →
        gives .power { s.endSessions.dropSram with power := .s3 } 0 0) ∧
      (s.arg 0 = 3 → s.power ≠ .s3 → (∃ g ∈ s.groups, g.2.place ≠ none) ∨ (∃ d < 4, s.dieIdle d = false) → exec .power s =
        .next { s.requestLeave (s.groups.map (·.1)) .preempt with power := if s.power = .s1 then .p0 else s.power })) ∧
    (runs 10 [2 ^ 64 - 1] → (beyond (s.arg 0) 32 → gives .nonce s 0x02 0) ∧ (deaf (s.arg 0) 32 → gives .nonce s 0x06 0)) ∧
    (runs 11 [2 ^ 64 - 1] → (beyond (s.arg 0) 2468 → gives .dbgauth s 0x02 0) ∧
      (s.security = .pr → (∀ l ∈ s.launches, l.2.life = .completed) →
        (deaf (s.arg 0) 2468 ∨ poisoned (s.arg 0) 2468 → gives .dbgauth s 0x06 0) ∧
        ∀ bs s1, s.hostRead (s.arg 0) 2468 = .ok (bs, s1) → field bs 64 64 ≠ 1 → field bs 64 64 ≠ 2 → gives .dbgauth s 0x02 0)) ∧
    (runs 13 [0x3F, 2 ^ 64 - 1, 2 ^ 64 - 1] →
      (beyond (s.arg 2) 4096 ∨ beyond (s.arg 1) 32 → gives .attest s 0x02 0) ∧
      (s.arg 2 + 4096 ≤ 2 ^ 44 → deaf (s.arg 1) 32 ∨ poisoned (s.arg 1) 32 → gives .attest s 0x06 0)) ∧
    (runs 14 [2 ^ 64 - 1, 2 ^ 64 - 1] → Config.vendorChain.length ≤ s.arg 1 →
      (beyond (s.arg 0) Config.vendorChain.length → gives .chain s 0x02 0) ∧
      (deaf (s.arg 0) Config.vendorChain.length → gives .chain s 0x06 0)) ∧
    (runs 10 [2 ^ 64 - 1] → ∀ s1, s.hostPut (s.arg 0) (toBytesLE 32 (Config.freshNonce s.freeCtr).toNat) = .ok s1 →
      gives .nonce { s1 with nonce := toBytesLE 32 (Config.freshNonce s.freeCtr).toNat, freeCtr := s.freeCtr + 1 } 0 0) ∧
    (runs 11 [2 ^ 64 - 1] → s.arg 0 + 2468 ≤ 2 ^ 44 →
      (s.security ≠ .pr ∨ (∃ l ∈ s.launches, l.2.life ≠ .completed) → gives .dbgauth s 0x03 0) ∧
      (s.security = .pr → (∀ l ∈ s.launches, l.2.life = .completed) → ∀ bs s1, s.hostRead (s.arg 0) 2468 = .ok (bs, s1) →
        field bs 64 64 = 1 ∨ field bs 64 64 = 2 →
        let good := field bs 0 64 = Config.serial.toNat ∧ s.nonce ≠ [] ∧ (bs.drop 16).take 32 = s.nonce ∧
          Config.vendorVerifies (bs.take 48) (bs.drop 48) = true
        (good → gives .dbgauth { s1 with security := .pd, invasive := decide (field bs 64 64 = 2), nonce := [] } 0 0) ∧
        (¬good → gives .dbgauth s 0x05 0))) ∧
    (runs 12 [] → (s.security = .pd → gives .dbgend s.leavePd 0 0 ∧ s.leavePd.security = .pr) ∧
      (s.security ≠ .pd → gives .dbgend s 0x03 0)) ∧
    (runs 13 [0x3F, 2 ^ 64 - 1, 2 ^ 64 - 1] → s.arg 2 + 4096 ≤ 2 ^ 44 → ∀ n s1, s.hostRead (s.arg 1) 32 = .ok (n, s1) →
      let digest (bs : List Byte) : List Byte := toBytesLE 32 (sha3 bs).toNat
      let signed := n ++ toBytesLE 8 Config.serial.toNat ++
        toBytesLE 8 (match s.security with | .od => 0 | .pr => 1 | .pd => 2) ++
        toBytesLE 8 (match s.security with | .od => 2 | .pr => 0 | .pd => if s.invasive then 2 else 1) ++
        (Config.firmware s.firmware).flatMap digest ++
        digest [match s.security with | .od => 0 | .pr => 1 | .pd => 2] ++
        toBytesLE 8 (s.arg 0) ++ toBytesLE 8 (s.ctx (s.arg 0)).domain.toNat
      let report := signed ++ fixedBytes 2420 (Config.deviceSign signed)
      ∀ s2, s1.hostPut (s.arg 2) report = .ok s2 → gives .attest s2 0 report.length) ∧
    (runs 14 [2 ^ 64 - 1, 2 ^ 64 - 1] →
      (s.arg 1 < Config.vendorChain.length → gives .chain s 0x02 0) ∧
      ∀ s1, Config.vendorChain.length ≤ s.arg 1 → s.hostPut (s.arg 0) Config.vendorChain = .ok s1 →
        gives .chain s1 0 Config.vendorChain.length) ∧
    (runs 15 [0xFFF, 0xFFFFFF, 0xFFFFFFFFFFFF] → ∃ s1, gives .peer s1 0 0 ∧
      tabGet? s1.peers (s.arg 0) = some (BitVec.ofNat 24 (s.arg 1), BitVec.ofNat 48 (s.arg 2)) ∧
      ∀ k ≠ s.arg 0, tabGet? s1.peers k = tabGet? s.peers k) ∧
    (runs 16 [2 ^ 64 - 1] → (s.arg 0 ≠ 0x50524F44 → gives .fusepr s 0x02 0) ∧
      (s.arg 0 = 0x50524F44 → s.security ≠ .od → gives .fusepr s 0x03 0) ∧
      (s.arg 0 = 0x50524F44 → s.security = .od → gives .fusepr { s with security := .pr } 0 0)) ∧
    (s.mailbox.opc.toNat = 0 ∨ 0x10 < s.mailbox.opc.toNat → gives .unknownCommand s 0x01 0)) ∧
  (∀ (s : State) (res : BitVec 8) (out : Word64), s.mailbox.busy = true → s.mailbox.result = some (res, out) →
    ∃ s1, exec .mailboxCompletion s = .next s1 ∧ s1.mailbox = { s.mailbox with
      mout := out, mres := res, dseq := s.mailbox.seq, busy := false, result := none } ∧
      tabGet? s1.msix (2048 * 64) = some (tabGet s.msix (2048 * 64) 0 + 1) ∧ s1.mem = s.mem) ∧
  ∀ (s : State) (r : BringUpReport),
    (r.verified = false → s.boot = .reset ∨ s.boot = .waking → exec (.bringUp r) s = .next { s with boot := .recovery }) ∧
    (r.verified = true → s.boot = .reset → exec (.bringUp r) s = .next { s with
      stackSet := r.stackSet, cores := r.cores, ports := r.ports, firmware := r.firmware, boot := .up }) ∧
    (r.verified = true → s.boot = .waking →
      let old := (Config.firmware s.firmware).map sha3
      let new := (Config.firmware r.firmware).map sha3
      let kept (s1 : State) : Prop := exec (.bringUp r) s = .next { s1 with
        cores := r.cores, ports := r.ports, firmware := r.firmware, boot := .up }
      (s.security ≠ .pr ∨ old = new → kept s) ∧
      (s.security = .pr → old ≠ new → old.length = new.length → kept s.erase)) ∧
    (s.boot = .up ∨ s.boot = .recovery → exec (.bringUp r) s = .next s)

/-- R129, R361, R374, R384, R385, R387, R388: the doorbell's descriptors become puts, a put goes to its peer and ends with its
completion word, a peer's put is written with its signal last; a soft error is counted or marks its word; a port changes its state;
a debugger acts on a team that is stopped. Readings of the model: descriptors, incoming puts, debugger writes, the Soft-Error
detail, when a mark lands and a marked doorbell, logs 28, 84 to 86, 120 and 122. -/
def Obligations.LinkAndDebug : Prop :=
  (∀ (s : State) (vf a : Nat), s.translate vf ((s.ctx vf).fxdoor.setWidth 64) 8 .engine false = .ok (.byte a) →
    s.markAt a 8 ≠ none → exec (.fabricDoorbell vf) s = .next s) ∧
  (∀ (s : State) (vf a : Nat), s.translate vf ((s.ctx vf).fxdoor.setWidth 64) 8 .engine false = .ok (.byte a) →
    s.swapping a 8 = false → s.markAt a 8 = none → ∀ bs s1, s.peek (s.ctx vf).fxRel a 8 = (bs, s1) →
    let c := s.ctx vf
    let word : Word32 := BitVec.ofNat 32 (ofBytesLE (bs.take 4))
    let tail := if ahead c.fxtail word then word else c.fxtail
    ∃ s2 : State, exec (.fabricDoorbell vf) s = .next (s2.takeDescriptors vf (tail - c.fxhead).toNat) ∧ (s2.ctx vf).fxtail = tail ∧
      (s2.ctx vf).fxhead = c.fxhead ∧ s2.mem = s.mem ∧ s2.puts = s.puts) ∧
  (∀ (s : State) (vf n : Nat),
    ((s.ctx vf).fxhead = (s.ctx vf).fxtail → s.takeDescriptors vf n = s) ∧
    ((s.ctx vf).fxhead ≠ (s.ctx vf).fxtail → ∀ a bs s1,
      s.translate vf ((s.ctx vf).descVa (s.ctx vf).fxhead.toNat) 64 .engine false = .ok (.byte a) → s.swapping a 64 = false →
      s.markAt a 64 = none → s.peek (s.ctx vf).fxRel a 64 = (bs, s1) →
      s.takeDescriptors vf (n + 1) = (s1.takeDescriptor vf bs).takeDescriptors vf n ∧
        ((s1.takeDescriptor vf bs).ctx vf).fxhead = (s.ctx vf).fxhead + 1 ∧
        ∃ q, tabGet? (s1.takeDescriptor vf bs).puts s1.nextId = some q ∧ q.vf = vf ∧ q.desc = bs ∧ q.sent = false)) ∧
  (∀ (s : State) (vf k : Nat) (q : Put), s.puts.find? (fun q => q.2.vf == vf && !q.2.sent) = some (k, q) →
    s.wordHeld vf q.cw = false →
    (descriptorOk q.desc = false ∨ s.paired (field q.desc 2 12) = false → exec (.put vf) s = .next (s.endPut k q 0x08)) ∧
    (descriptorOk q.desc = true → s.paired (field q.desc 2 12) = true →
      let r := s.readVa (.put k) none vf (BitVec.ofNat 64 (field q.desc 0x80 56)) (field q.desc 0x40 32) .engine
      (∀ bs s1, r = .ok (bs, s1) → exec (.put vf) s = .next { s1 with puts := tabModify s1.puts k fun q => { q with sent := true } }) ∧
      (∀ w, r = .error (.wait w) → exec (.put vf) s = .next s) ∧
      (∀ va a, r = .error (.park va a) → exec (.put vf) s = .next (s.endPut k q 0x07)) ∧
      ∀ c d a, c ≠ .softError → r = .error (.trap c d a) → exec (.put vf) s = .next (s.endPut k q 0x08))) ∧
  (∀ (s : State) (k : Nat) (q : Put), tabGet? s.puts k = some q →
    (q.sent = false → ∀ res, exec (.putAcknowledge k res) s = .next s) ∧
    (q.sent = true → s.wordHeld q.vf q.cw = false → exec (.putAcknowledge k .good) s = .next (s.endPut k q 0) ∧
      ∀ c, exec (.putAcknowledge k (.failed c)) s = .next (if c = 0x07 ∨ c = 0x08 then s.endPut k q c.toNat else s)) ∧
    ∀ cause a, Memory.wf s.mem = true → s.translate q.vf q.cw 8 .engine true = .ok (.byte a) → s.isMoored a 8 = false →
      (s.endPut k q cause).puts = tabDel s.puts k ∧
      StoredAt s (s.endPut k q cause) a (toBytesLE 8 (q.tag.toNat * 2 ^ 32 + cause * 2 ^ 8 + if cause = 0 then 1 else 2))) ∧
  (∀ (s : State) (vf : Nat) (dst : BitVec 56) (data : List Byte) (signal : Option (BitVec 56 × Word64)),
    ∃ q, exec (.incomingPut vf dst data signal) s =
        .next { s with nextId := s.nextId + 1, inbound := tabSet s.inbound s.nextId q } ∧
      q.vf = vf ∧ q.dst = dst ∧ q.data = data ∧ q.signal = signal ∧ q.o = [] ∧ ∀ i, hasUnit q.todo i = decide (i < data.length)) ∧
  (∀ (s : State) (k i : Nat) (q : Inbound) (rest : List Move), s.agenda = .land k i :: rest → s.running = true →
    tabGet? s.inbound k = some q → Memory.wf s.mem = true →
    let gone (s1 : State) : Prop := s1.inbound = tabDel s.inbound k
    (q.todo ≠ [] → hasUnit q.todo i = true →
      let r := s.translate q.vf (q.dst.setWidth 64 + BitVec.ofNat 64 i) 1 .engine true
      (∀ a, r = .ok (.byte a) → s.isMoored a 1 = true ∨ s.partMark a 1 ≠ none → ∃ s1, step s = .next s1 ∧ gone s1 ∧ s1.mem = s.mem) ∧
      (∀ a, r = .ok (.byte a) → s.isMoored a 1 = false → s.partMark a 1 = none → s.swapping a 1 = false → ∃ s1, step s = .next s1 ∧
        StoredAt s s1 a [nth 0 q.data i] ∧ ∃ q1, tabGet? s1.inbound k = some q1 ∧
          { q1 with o := q.o } = { q with todo := cutUnits i 1 q.todo } ∧
          s1.latest (byteLoc a) ≤ viewAt q1.o (byteLoc a) ∧ ∀ l, viewAt q.o l ≤ viewAt q1.o l) ∧
      (∀ e, r = .error e → s.walkHeld q.vf (q.dst.setWidth 64 + BitVec.ofNat 64 i) = false → ∃ s1, step s = .next s1 ∧ gone s1 ∧ s1.mem = s.mem)) ∧
    (q.todo = [] → q.signal = none → ∃ s1, step s = .next s1 ∧ gone s1 ∧ s1.mem = s.mem) ∧
    ∀ sig val b, q.todo = [] → q.signal = some (sig, val) →
      s.translate q.vf (sig.setWidth 64) 8 .engine true = .ok (.byte b) → s.isMoored b 8 = false → s.swapping b 8 = false →
      ∃ s1, step s = .next s1 ∧ gone s1 ∧ StoredAt s s1 b (toBytesLE 8 val.toNat) ∧
        (tabGet? s1.writes s.nextWrite).map (·.msgs) = some [⟨.system, q.o⟩]) ∧
  (∀ (s : State) (addr : Nat),
    (s.siteOf addr = none → ∀ u, exec (.softError addr u) s = .next s) ∧
    ∀ site, s.siteOf addr = some site →
      (s.markWaits addr = true → exec (.softError addr true) s = .next s) ∧
      (s.markWaits addr = false → ∃ s1, exec (.softError addr true) s = .next s1 ∧ tabGet? s1.marks (addr / 8) = some site ∧
        s1.mem = s.mem) ∧
      (2 ^ 40 ≤ addr → addr < 2 ^ 48 → exec (.softError addr false) s = .next s) ∧
      (addr < 2 ^ 40 ∨ 2 ^ 48 ≤ addr → ∃ s1, exec (.softError addr false) s = .next s1 ∧
        tabGet? s1.corrected site = some (tabGet s.corrected site 0 + 1) ∧ s1.marks = s.marks ∧ s1.mem = s.mem)) ∧
  (∀ (s : State) (port : Nat) (up : Bool),
    (s.ports.getLsbD port = false → exec (.portStateChange port up) s = .next s) ∧
    (s.ports.getLsbD port = true → ∃ s1, exec (.portStateChange port up) s = .next s1 ∧
      ∀ k < 24, s1.portUp.getLsbD k = if k = port then up else s.portUp.getLsbD k)) ∧
  ∀ (s : State) (t : Nat) (tm : Team) (ask : DebugAsk), tabGet? s.teams t = some tm →
    (s.invasiveOk (s.vfOf tm) = false → exec (.invasiveDebugCommand t ask) s = .next s) ∧
    (s.invasiveOk (s.vfOf tm) = true → s.power = .p0 ∨ s.power = .p1 → ∃ s1, exec (.invasiveDebugCommand t ask) s = .next s1 ∧
      (s1.ctx (s.vfOf tm)).claimed = true ∧ s1.mem = s.mem ∧
      ∃ tm1, tabGet? s1.teams t = some tm1 ∧
        (ask = .halt → tm1 = { tm with halted := true, steps := 0 }) ∧
        (ask = .resume → tm1 = { tm with halted := false, steps := 0 }) ∧
        (ask = .singleStep → tm.halted = true → tm1 = { tm with steps := tm.steps + 1 }) ∧
        (∀ r x, ask = .writeS r x → tm.halted = true → r < 64 → tm1.sGet r = x) ∧
        (∀ r l x, ask = .writeV r l x → tm.halted = true → r < tm.vcount → l < tm.lanes → tm1.vGet r l = x) ∧
        (tm.halted = false → ask ≠ .halt → ask ≠ .resume → tm1 = tm))

/-! ### Encodings and the whole machine -/

/-- R70 to R89: the decoder reads back every instruction that the encoder writes, with every operand at every value that its word
admits. -/
def Obligations.EncodeDecode : Prop :=
  ∀ (i : Instr) (w : Slot), wellFormed i = true → encode i = some w → decode w = .ok i

/-- R70 to R89: no bit of a word that decodes is ignored, and every word has one meaning: the encoder gives it back. -/
def Obligations.DecodeEncode : Prop :=
  ∀ (i : Instr) (w : Slot), decode w = .ok i → encode i = some w ∧ wellFormed i = true

/-- R70 to R89: words written out from the encodings of the spec decode to the instructions that they stand for. -/
def Obligations.WordsOfTheSpec : Prop :=
  let v (n : BitVec 8) : Opd := ⟨.v, n⟩
  let r (d a b c : Opd) : RWord := ⟨d, a, b, c, ⟨0, 0⟩, ⟨0, 0⟩, ⟨0, 0⟩, false, false, false, false, .dyn, 0⟩
  decode 0x1000020701C0780004800000 = .ok (.xor ⟨false, 0⟩ .n32 (.r { r (v 14) (v 14) (v 15) (v 0) with mb := ⟨1, 1⟩ })) ∧
    decode 0x0104020380E0000000800000 = .ok (.add ⟨false, 0⟩ .n32 (.i ⟨v 7, v 7, 4, ⟨0, 0⟩, false, false, .dyn⟩)) ∧
    decode 0x1B0002028080000000000000 = .ok (.ffcs ⟨false, 0⟩ .n32 (r (v 5) (v 4) (v 0) (v 0))) ∧
    decode 0x430010048040181200000000 = .ok (.pmac ⟨false, 0⟩ .i16 (r (v 9) (v 2) (v 3) (v 9))) ∧
    decode 0x5F00080A02A0B02E00000008 = .ok (.fupd ⟨false, 0⟩ false { r (v 20) (v 21) (v 22) (v 23) with simm := 8 }) ∧
    decode 0x808800000000160000000000 = .ok (.bra ⟨true, 1⟩ 22) ∧
    decode 0xA00002022010000000000000 =
      .ok (.ld ⟨false, 0⟩ .n32 ⟨v 4, ⟨.s, 0⟩, ⟨.m, 0⟩, 0, .relaxed, .team, false, false, false, .global⟩) ∧
    decode 0xA1000207201000000A500000 =
      .ok (.st ⟨false, 0⟩ .n32 ⟨v 14, ⟨.s, 0⟩, ⟨.m, 0⟩, 20, .release, .package, false, false, false, .global⟩) ∧
    decode 0xF00000192400000000000000 = .ok (.rep ⟨3, 1, 1, 1, 0⟩)

/-- R17 to R20, R90, R351: where a team that may issue finds an instruction at its PC, and a REP its follower's slot too, the step
executes it, on the state in which the team has passed the checks of the slot; a word that does not decode traps with
Illegal-Instruction, an unmarked slot reached by a checked transfer with Branch-Target, and a fetch that faults ends the issue with
that fault. What follows an issue changes nothing but the account of turns and passes (R134, R154), a hold that a masked team now
places (R357), a debugger's count of steps and what the team knows of the register words of its image: it takes the latest window
write of each word that it reads or waited for (R223, R234), and each word that it writes, with a new value or the old one, enters
the order of that word with the team's fence records (R185, R218, R226). A pass still to come takes its turn and has no other
effect. An event that is asked for, on a device that runs, happens. Readings of the model: the agenda and the turns of a core, logs
1 and 108, the moment of a region entry, log 41, the order of the checks of a line word, log 92, and the orders of register words,
log 100. -/
def Obligations.StepRunsDecoded : Prop :=
  (∀ (s : State) (t : Nat) (tm : Team) (rest : List Move), s.agenda = .issue t :: rest → tabGet? s.teams t = some tm →
    tm.phase = .running → tm.rep = none → tm.owed = 0 →
    let s0 : State := { s with agenda := rest }
    let s1 : State := { s0 with cur := some t }
    s0.mayIssue t tm = true →
      (∀ e, s1.fetchSlot (s1.vfOf tm) tm.pc tm.entered = .error e →
        step s = logged s0 (.next (s0.endIssue t tm (s1.settle t 0 e)))) ∧
      ∀ lw slot, s1.fetchSlot (s1.vfOf tm) tm.pc tm.entered = .ok (lw, slot) →
      let isRep : Prop := slot.extractLsb' 88 8 = 0xF0#8
      let k := tm.pc.toNat % 8
      let s2 := s1.setTeam t (tm.enter (lw.testBit (10 + k)))
      (isRep → ∀ e, s1.fetchFollower (s1.vfOf tm) tm.pc = .error e →
        step s = logged s0 (.next (s0.endIssue t tm (s1.settle t 0 e)))) ∧
      (¬isRep ∨ (∃ f, s1.fetchFollower (s1.vfOf tm) tm.pc = .ok f) →
        (tm.checked = true → lw.testBit k = false →
          step s = logged s0 (.next (s0.endIssue t tm (s1.settle t 0 (.trap .branchTarget 0 0))))) ∧
        (tm.checked = false ∨ lw.testBit k = true →
          (∀ i, decode slot = .ok i → step s = logged s0 (afterStep s0 t tm i (exec i s2))) ∧
          ∀ e, decode slot = .error e →
            step s = logged s0 (.next (s0.endIssue t tm (s2.settle t 0 (.trap .illegalInstruction 0 0))))))) ∧
  (∀ (s : State) (t : Nat) (tm : Team) (rest : List Move), s.agenda = .issue t :: rest → tabGet? s.teams t = some tm →
    let s0 : State := { s with agenda := rest }
    s0.mayIssue t tm = true → tm.owed ≠ 0 →
      step s = logged s0 (.next (s0.passTurn t tm (s0.setTeam t { tm with owed := tm.owed - 1 })))) ∧
  (∀ (s s1 : State), logged s (.next s1) = .next (s.logOwn s1) ∧ s.logOwn s1 = { s1 with teams := (s.logOwn s1).teams } ∧
    ∀ u (x : Team), tabGet? s1.teams u = some x → ∃ y : Team, tabGet? (s.logOwn s1).teams u = some y ∧
      y = { x with past := y.past, clock := y.clock, pv := y.pv } ∧ y.pv = { x.pv with o := y.pv.o } ∧
      ∀ old, tabGet? s.teams u = some old → old.v = x.v → old.s = x.s → old.m = x.m → old.lanes = x.lanes →
        s.prods.length ≤ s1.prods.length → y = x) ∧
  (∀ (s : State) (t : Nat) (tm y : Team) (i : Instr),
    let z := s.enterWords t tm i y
    z = { y with past := z.past, clock := z.clock, pv := z.pv } ∧ z.pv = { y.pv with o := z.pv.o } ∧ (s.regUses i = none → z = y) ∧
    (tm.image = 0 → y.image = 0 → z = y) ∧
    ∀ f, s.regUses i = some f → tm.image ≠ 0 → y.image = tm.image →
      let lanes := activeLanes tm f.p
      let latest (q : RegRef) : Prop := (tm.wordOrder q).any (·.own == 0) = true → (tm.wordOrder q).length ≤ viewAt z.pv.o (tm.wordLoc q)
      (∀ q ∈ s.wordsRead t tm i f lanes, latest q) ∧ (∀ rs, tm.stall = .regs rs → ∀ q ∈ rs, tm.isEmpty q = false → latest q) ∧
      let ws := (tm.wordsWritten i f.us lanes).filter fun q => !y.isEmpty q
      (y.stall = .none → y.masked = tm.masked → y.phase = .running → lanes ≠ [] →
        z.past = ws.map (fun q => ⟨q, 0, y.clock + 1, tm.regValue q, tm.pv.rel⟩) ++ y.past) ∧
      (y.stall ≠ .none → z.past = y.past)) ∧
  (∀ (s : State) (t : Nat) (tm : Team) (i : Instr) (s1 : State),
    afterStep s t tm i (.next s1) = .next (((s.endIssue t tm s1).onTeam t (tm.owe i)).onTeam t (s.enterWords t tm i)) ∧
    (∀ y : Team, tm.owe i y = { y with owed := (tm.owe i y).owed } ∧ (y.stall = .none → (tm.owe i y).owed + 1 = tm.passes i)) ∧
    1 ≤ tm.passes i ∧ tm.passes i ≤ Nat.max 1 tm.words ∧ (laneUses i = none → tm.passes i = 1) ∧
    s.endIssue t tm s1 = { s1 with teams := (s.endIssue t tm s1).teams, groups := (s.endIssue t tm s1).groups } ∧
    (∀ u (g : Group), tabGet? s1.groups u = some g → ∃ g1 : Group, tabGet? (s.endIssue t tm s1).groups u = some g1 ∧
      g1 = { g with waited := g1.waited } ∧ (u = tm.group → tm.hasIssued ((tabGet? s1.teams t).getD tm) = true → g1.waited = [])) ∧
    ∀ u (x : Team), tabGet? s1.teams u = some x → ∃ y : Team, tabGet? (s.endIssue t tm s1).teams u = some y ∧
      y = { x with passed := y.passed, steps := y.steps, preheld := y.preheld, ctl := y.ctl } ∧
      (u ≠ t → y = { x with passed := y.passed }) ∧
      (u = t → y.passed = [] ∧ (x.masked = false → y.preheld = x.preheld ∧ y.ctl = x.ctl) ∧
        (y.steps = x.steps ∨ y.steps = x.steps - 1))) ∧
  (∀ (s : State) (i : Instr) (rest : List Move), s.agenda = .event i :: rest → encode i = none → s.running = true →
    step s = logged { s with agenda := rest } (exec i { s with agenda := rest })) ∧
  ∀ (s : State) (t : Nat) (tm : Team) (rest : List Move), s.agenda = .issue t :: rest → tabGet? s.teams t = some tm →
    State.mayIssue { s with agenda := rest } t tm = false →
      step s = logged { s with agenda := rest } (.next { s with agenda := rest })

/-- R20, R25, R358: no state stops the device: every instruction, every event and every choice of the device's own answers a next
state. Readings of the model: the agenda, log 1. -/
def Obligations.StepNeverStops : Prop := ∀ s : State, ∃ s1, step s = .next s1

/-- R14, R180, R219: whatever a step does, the bytes of memory keep their canonical form, in which equal memories are equal lists.
Readings of the model: an unlisted byte reads as zero, log 2. -/
def Obligations.MemoryStaysCanonical : Prop :=
  ∀ s s1 : State, Memory.wf s.mem = true → step s = .next s1 → Memory.wf s1.mem = true

/-- R24, R329, R374, R376: what the tables of registers and the rule for a new team give after reset. -/
def Obligations.StartingState : Prop :=
  Memory.wf State.reset.mem = true ∧
  (∀ vf, State.reset.readVfPage vf 0x040 = 14000 ∧ State.reset.readVfPage vf 0x050 = 4 ∧
    (∀ off ∈ [0x000, 0x008, 0x018, 0x020, 0x028, 0x030, 0x048, 0x058, 0x060, 0x068], State.reset.readVfPage vf off = 0) ∧
    ∀ q < 64, State.reset.readVfPage vf (0x1008 + 0x20 * q) = 4 ∧
      ∀ off ∈ [0x1000, 0x1010, 0x1018], State.reset.readVfPage vf (off + 0x20 * q) = 0) ∧
  (∀ k, State.reset.readPfPage k = 0) ∧
  (∀ (l : Nat) (la : Launch) (idx lanes n : Nat) (entry wid : Word64),
    let tm := Team.fresh l la idx lanes n entry wid
    tm.pc = entry ∧ tm.sGet 0 = la.argp ∧ (∀ r, tm.sGet (r + 1) = 0) ∧ (∀ r k, tm.vGet r k = 0) ∧
      (∀ k, tm.mask (k + 1) = 0) ∧ tm.e = firstLanes lanes ∧ tm.x = 0 ∧ tm.stack = [] ∧ (∀ q, tm.isEmpty q = false) ∧
      tm.status = 0 ∧ tm.rm = 1 ∧ tm.masked = false ∧ tm.rvalid = false ∧ tm.regcnt = 0 ∧ tm.pickthr = 0xC0)

/-! ### The parts of one subject together -/

/-- R101: ADD, SUB, MUL, MAD, NEG, ABS, MIN and MAX write their exact value wrapped, or saturated where SAT asks; MULH the high
half. R101, R98: ADDC and SUBB write the wrapped sum or difference with the lane's bit of mC, and the carry or borrow of each active
lane back to mC; the carry of an inactive lane stays. A mC that is m0 raises Illegal-Operand. Readings of the model: an s
destination beside a v source or a mask destination, log 21. -/
def Obligations.IntegerArithmetic : Prop :=
  integerArithmetic ∧ carryChains

/-- R103, R105: CLZ, POPC and BREV count or reverse A's bits; BFI puts B's bits where C has ones. R104: BFX extracts the field that
the control word names, its bits above the type read as zeros or as A's sign, and extends it. -/
def Obligations.BitFields : Prop :=
  bitCounts ∧ fieldExtraction

/-- R106: FFCS, of N32 and N64, gives the index of A's first clear bit and sets it; a full A gives all ones and stays. R107: PLSET,
of N32 and N64, sets A's lowest clear bits, at most as many as B says, and gives those that it set. R98: where the two registers
that FFCS or PLSET writes are one, the instruction raises Illegal-Operand at step 4. Readings of the model: an s destination beside
the v register that is also written, log 21. -/
def Obligations.BitAllocation : Prop :=
  findFirstClear ∧ limitedSet ∧ distinctDestinations

/-- R108, R110, R111: SEL, MOV and MOVI copy bits and set no flag. R112: LEA forms A + B × 2^sh, or A plus the immediate, and wraps.
R113: MOVM moves the active lanes' bits of a mask to a v register or one word of it to an s register, and back. R124: NOP does
nothing beyond advancing the PC. Readings of the model: a NaN immediate of F64 and MOV of TAP6, logs 20 and 95. -/
def Obligations.Moves : Prop :=
  copies ∧ addresses ∧ maskMoves ∧ noOperation

/-- R156, R157: PADD, PSUB, PMUL, PMIN, PMAX and PCMP act element by element. R158: PMAC adds the two products to C exactly and
clamps once. -/
def Obligations.PackedElements : Prop :=
  packedElements ∧ packedMultiplyAccumulate

/-- R159: PSHR shifts right with the mode's rounding and saturates; a count of 32 or more leaves 0, or −1 or 1 in RD and RU. R160,
R161: PNAR saturates the elements of A, then those of B, into halves of their width; PWID widens one half of A. Readings of the
model: counts of 32 and more, log 22. -/
def Obligations.PackedRounding : Prop :=
  roundingShift ∧ narrowAndWiden

/-- R114, R44, R45: the special operands of the floating-point instructions, SAT clear. R43, R53: rounding a value that the format
holds gives its code back and sets no flag. R53 to R56, for F64, F32, F16, BF16, E4M3 and E5M2: a finite result within the range of
the format is rounded to a nearest code, or to the neighbour of the mode, with INEXACT and UNDER by what it lost; one beyond the
range is the largest value, an infinity or E4M3's NaN, with OVER or SAT. R114: on finite operands the sum, the product, the
quotient, the fused sum and the scaling that are rounded are exact, with no flag; FSQRT and FRSQ round the root of their operand,
and its reciprocal. Readings of the model: FEXP2 and FLOG2, log 29. -/
def Obligations.FloatLimits : Prop :=
  floatSpecials ∧ representableIsExact ∧ roundsToNearest ∧ exactResults

/-- R119, R120, R98: FUPD writes the weight and the two moments of R120's step, or nothing under SKIPNF with a non-finite value;
equal registers raise Illegal-Operand. R120: the step of FUPD and UPD, rounding by rounding in RN: the gradient with its L2 term,
the two moments, the clamp of the second, the root and the quotient, the decay, the weight; a non-finite value under SKIPNF leaves
all three as they were. Readings of the model: the views of its operands, log 33. -/
def Obligations.OptimiserStep : Prop :=
  optimiserWrites ∧ optimiserArithmetic

/-- R115: FMIN and FMAX return an operand bit for bit, −0 below +0; one NaN gives the other operand, two give the canonical NaN.
R115, R116: the order by which FMIN, FMAX and FCMP choose is that of the rational numbers, with −0 below +0 where zeros are told
apart; −∞ lies below and +∞ above every finite value, and a NaN has no order. R116: FCMP sets the bit to the truth of the condition;
a NaN operand makes only .ne and .un true, and sets INVALID when signalling or in the .sig form. R117, R118: FCLASS writes one bit
by the class of the code; FRND rounds to an integral value, keeps zeros and infinities, and sets INVALID for a signalling NaN alone.
-/
def Obligations.FloatSelections : Prop :=
  floatMinMax ∧ floatOrder ∧ floatComparison ∧ floatClassAndIntegral

/-- R57 to R63, R121 to R123: CVT converts, CVTS divides by the block scale and converts, CVTB gives each active lane the scale of
its mask word's active lanes. R57 to R61, R121: converting an integer keeps it where an integer type holds it, and goes to a
floating or tapered type as that number does; a NaN becomes zero with INVALID in an integer, NaR with INVALID in a tapered type, and
the canonical NaN in a floating type, E4M3 and E5M2, with INVALID only where it signals; an infinity becomes an end of an integer
type, NaR, an infinity or, with SAT, the largest value, and E4M3's NaN; NaR passes, and zeros stay zero. R57, R58, R60 to R63, R122:
a finite value goes to a floating type, E4M3 and E5M2 by one rounding, to a tapered type to a nearest of its codes, clamped at both
ends of the range, and to an integer type to the nearest integer, clamped; CVTS divides exactly by the scale first, where a zero
scale gives an infinity with DIVZ or, of a zero, a NaN with INVALID, a NaN scale a NaN, and an infinity stays one; CVTB takes the
least scale by which no magnitude exceeds M_D. R63, R123: CVTB takes the largest magnitude among the finite values of the active
lanes of the lane's mask word, and the scale for it and M_D; where none is finite, or all are zero, the scale is 1.0 and no flag is
set. Readings of the model: the scale of a block, SAT where it has no meaning and the lanes of a CVTB, logs 24, 93, 94 and 112. -/
def Obligations.Conversions : Prop :=
  conversions ∧ conversionCorners ∧ convertedValues ∧ blockMaximum

/-- R313 to R315: ACCZ and ACCWR join the matrix queue, ACCWR with its converted values and their flags; ACCRD reads one element for
each lane, which it converts when it performs. R192, R314, R315: the element of a lane lies in row row0 + B[4:0] + lane div 32,
modulo 32, and column lane mod 32; ACCRD rounds the sum of a pair once in RN, and converts an element of another kind; ACCWR
converts in RN to F32, F64, F32 or I32 by the kind, and the upper bytes of a four-byte kind, the second half of a pair among them,
are zero. Readings of the model: their place as accesses, log 57. -/
def Obligations.Accumulators : Prop :=
  accumulators ∧ accumulatorValues

/-- R230, R231, R290, R292, R316 to R320, R380: a copy command supplies its team's slice, and the last slice starts the copy; a copy
that has been read in moves, and is done when nothing of it is left to move; a slice that names another mode, handle, barrier or
immediate than the first one marks the copy as differing; a flash extent whose tag matches is checked. DRAIN covers the copies of
its path that its team has supplied or that started on its core; it stays at its PC, and keeps them, while one of them is not
complete, and then goes on or raises a fault of one. R230, R291, R317: a move of a plain copy reads one byte of its source, and
enters the write of that byte as a pending access of the copy, which performs by itself later; memory does not change, and the byte
is no more to move. Readings of the model: fields, waits, the start after the last exit, the paths of DRAIN, the order of copies and
the element sizes of CPYS, logs 59, 61, 64, 65, 104 and 128. -/
def Obligations.CollectiveCopies : Prop :=
  collectiveCopies ∧ copyMoves

/-- R15: from a well-formed PC, sequential flow goes to the next slot, and from slot 4 to slot 0 of the next line. R77: a target
lies the given number of slots away, lines holding five slots each; it is malformed where no such slot lies in the address space,
and nowhere else. Readings of the model: targets below the first slot, log 30. -/
def Obligations.PcArithmetic : Prop :=
  nextSlot ∧ targetArithmetic

/-- R125: BRA, JMP and RET go to their target, CALL after writing the next slot's PC; every one of them as a checked transfer. A
malformed target raises Misaligned at the transferring instruction, and the PC does not change. R125: BRC transfers when any, all or
none of the active lanes have the bit; LOOP counts A down to zero; PICK (R302) transfers while the die's busy fraction is at or
above the threshold; where one of them would go to a malformed target it raises Misaligned, and A is not counted; one that does not
transfer goes on whatever its target is. Readings of the model: malformed targets, log 30. -/
def Obligations.Transfers : Prop :=
  transfers ∧ conditionalTransfers

/-- R126, R140, R141, R348: BRD pushes its reconvergence PC with the active lanes and splits them by mA; it raises Misaligned where
either PC is malformed, the taken target first, and Illegal-Operand without two free entries. JOIN pops, and continues with the live
lanes popped, or, where none of them is live, resumes at the first entry below with a live lane, or ends the team; without an entry
of its own, or with a reconvergence block that has been changed, it raises Illegal-Operand. R127, R141, R348: EXIT takes the active
lanes out of the team; the team goes on while lanes of E are live, resumes at the first stack entry with a live lane otherwise, and
ends when there is none; the resumption raises Illegal-Operand where the reconvergence block has been changed. Readings of the
model: the order of checks and the line of a resumed team, logs 31 and 32. -/
def Obligations.Divergence : Prop :=
  divergence ∧ lanesExit

/-- R25: a team with traps unmasked and a trap vector that can be entered takes a trap so: %trapcause holds the code and the detail,
%trappc the PC given, MASKED becomes 1, and the PC becomes the vector, unchecked; no register, mask or byte of memory changes. R26,
R27: a trap taken while MASKED is 1, or with a zero or malformed vector, enters no handler: the launch is stopped with a record of
the cause, and every group of it is retired. -/
def Obligations.TrapEntry : Prop :=
  trapEntry ∧ secondFault

/-- R28: ERET with MASKED = 1 goes to %trappc unchecked and clears MASKED; with MASKED = 0 it raises Illegal-Instruction, and with a
malformed %trappc Misaligned (R15). R129, R131: TRAP and BKPT take Software and Breakpoint with their operand as the detail and the
next slot's PC in %trappc; BKPT stops the team for a debugger that has claimed the context; TMASK sets or clears MASKED and nothing
else. Readings of the model: the PC of a stopped team, log 42. -/
def Obligations.TrapReturn : Prop :=
  trapReturn ∧ systemTraps

/-- R9, R10, R130: SRD reads each special register, %wid for each lane; a number that R9 does not list raises Illegal-Operand. R9,
R10, R130: SWR writes the fields of each writable register, clamps %pickthr, and raises Illegal-Operand for a rounding mode that is
not legal, for a read-only register and for a number that R9 does not list. Readings of the model: %einj and %beacon and the lane of
a v source of SWR, logs 49, 89 and 96. -/
def Obligations.SpecialRegisters : Prop :=
  specialReads ∧ specialWrites

/-- R167, R168, R170: VOTE tells of the active lanes, to an s register, to each active lane's bit, or as a ballot; ELECT marks the
lowest active lane; MSK combines masks lane by lane. R143, R169: WIDF reads a field of each lane's work identifier, the team's size,
or a count of the launch's grid. -/
def Obligations.LaneVotes : Prop :=
  laneVotes ∧ workIdentifiers

/-- R174: an arrival counts, joins FAULT.C, and when it is the last one of the phase makes it the next generation, with FAULT.L the
fault of the phase and every team that waits for it released. R176 to R178, R196: BARI sets EXPECT of a barrier at which nothing has
arrived; BARA arrives; BARW waits for the target of the team's arrival, BARS arrives first; both give the status word once they are
released. An arrival waits until its team's accesses have performed, and while a swap holds what its closes work on. Readings of the
model: the views of an arrival, log 46. -/
def Obligations.Barriers : Prop :=
  barrierArrival ∧ barriers

/-- R252 to R254, R259, R260: SLD reads the elements of a lane's live entries for a weighted sum; HARDEN gives the slot of the
heaviest entry; SST queues one blend for each lane; SLDA gives one weight gradient for each entry, and with GRD adds to the gradient
tensor. R252, R253, R259, R260: the entries of a lane are those that name a slot; a soft load that has all its elements delivers the
fused sum of weight by element, in ascending k; SLDA delivers the incoming gradient times the element, and reduces with weight times
gradient; the result of HARDEN is the slot of a largest weight, the lowest such slot. -/
def Obligations.SoftRegions : Prop :=
  softAccesses ∧ softValues

/-- R236, R256, R258, R261, R269: SEPOCH, its two binding forms and SSTA go to the region's home slice, as accesses to all its
slots; the close move empties the queue of the open epoch and starts the next one. R236, R255, R258: a close applies the blends in
ascending work identifier, those of one in the order of their entry; each entry makes one write of its slot, p + w × (x − p) rounded
once, or the IEEE operations in turn where something is not finite, and appends one record with what it found and wrote; a record
that finds no place, or whose own write fails, sets OVF and OVFEP; HEAD counts both; the header is written last, and what cannot be
written to it is kept with the slice for the next close. R261: the adjoints of a record are w × g, (x − p) × g and (1 − w) × g, each
rounded once; SSTA goes through the records of its epoch from the last to the first, and for each reads the gradient, writes DX, DW
and STATE, then the gradient, and with RWD the slot; the status word is TRUNC, MISSING or the count, and the arrival follows.
Readings of the model: the order of these accesses, the party of a close and an SSTA that cannot go on, the order of the closes of a
phase and what SSTA takes of its operands, logs 23, 43, 45, 51, 117, 118, 123, 126 and 127. -/
def Obligations.SoftEpochs : Prop :=
  epochAccesses ∧ epochClose ∧ adjointWalk

/-- R281, R282, R286 to R288, R307 to R312: MLOOP and MLOOPG check their parameters and join queue and batch, or send their shares;
OPRDY arrives and sets the gate; MFENCE closes the open batch and gives its number; MWAIT goes on when the batches named are done,
or raises the earliest fault of them. R282, R174: the pending arrival of OPRDY performs as one arrival at its barrier by its team,
with what the team releases, and GEN + 1 becomes the target of the gate it set, at the team or at the loop that took it. Readings of
the model: the descriptor, the unfolded row, the held share and the gate of an MLOOPG with a zero mask, logs 54, 56, 101 and 129. -/
def Obligations.MatrixInstructions : Prop :=
  loopInstructions ∧ readyArrives

/-- R137, R223, R245, R248, R250: a pending read returns the bytes as the latest writes left them, and leaves memory alone, in one
move with the other lanes of its load that name some byte with it; a store replaces the bits of its mask, both bytes of an element
that spans two in one move; an atomic replaces the value it returns in one move; every other byte stays. R248 to R250: what ATOM,
RED and BFA do with the value they find: integer sums wrap, floating ones round to nearest even, minima and maxima go by signedness
or by R115, the bitwise operations act on the bits; .cas compares first, .ins takes the mask's bits, .ffcs sets the first clear bit,
.plset the lowest clear bits up to a number. Readings of the model: which write a read returns, log 1, and the words of an image,
log 100. -/
def Obligations.AccessesPerform : Prop :=
  accessesPerform ∧ atomicValues

/-- R243 to R245: LDT and STT use the handle, and issue for each lane inside the extents the accesses that hold its element, and no
other access; a lane outside reads as zero, and stores nothing. An STT to a read-only handle, or to a list that has layers, raises
Access. R212, R213: what a layer stores for an element, from the bytes read of it, and the sum over the layers: each value, or the
fused dot product of a low-rank layer in ascending order, is scaled by the layer's factor and rounded in F32, and added in F32, or
in F64 for an F64 handle, with a rounding; the whole sum is rounded once into the format. Readings of the model: the flags of a load
and the address of an Access, logs 36 and 50. -/
def Obligations.TileElements : Prop :=
  tileElements ∧ layeredSum

/-- R278 to R281, R287, R309, R313: the entry at the head of a matrix queue whose gate is open makes its next step, and leaves after
its last; a fill and a put write their bytes; a share reaches its member or is missed; the status word of MLOOPG holds both masks.
R64 to R67, R276, R278, R284: a product joins a paired FP32 element as a sum rounded to F32 and its exact error, rounded into the
second half, where all is finite; an F64 element by one fused step; a semiring element by one rounding and a pick of R115, or by the
truth of both operands; an integer element by an exact product that wraps. A row of a step updates each of its output elements over
ascending k, or, in plus-times, none where all its elements are zero and no column of the tile is flagged. Readings of the model:
the view of a gate, the unfolded row and the turns of the queues, logs 55, 101, 108 and 121. -/
def Obligations.MatrixEvents : Prop :=
  matrixEvents ∧ accumulatorSteps

/-- R296, R297, R300, R301, R321 to R324, R327: FOLD, EMB and UPD check their completion word and join the command queue; a command
enters, makes its moves one by one, and writes its completion word when nothing of it is left. R297, R300, R301: FOLD writes, for
each element, the sum over the first layers of the list, at the new base; its final move writes the descriptors of the layers left
at the new list, in order, and then the entry, with the new base and list, the layers left and the next version, as a release at
package scope; a bag adds the elements of its rows in array order, each sum rounded to F32, and .mean divides once by their number;
an index past the table names the default row; an element of UPD is read and replaced by the optimiser's step. Readings of the
model: causes, reads, the lines that enter and completion words, logs 66 to 69 and 103. -/
def Obligations.Commands : Prop :=
  commands ∧ commandValues

/-- R146, R330, R334, R339 to R341, R356, R357, R389: a queue write sets the tail and wakes the device, a priority write sets the
base of the queue's launches, the entry served next is taken, waited for, refused or dropped; a unit is bound where it fits, asked
to leave for one of higher priority, and unbound at its boundaries. R330: the queue served next is one of the highest priority that
holds an entry, round-robin over the contexts and then over the queues of the context, each after the one served last at that
priority; while an entry is waited for, its queue stays the chosen one. R330 to R334: an entry that cannot be read is dropped with
0x0D, one with a nonzero zero-field with 0x0C, one with a bad header address with 0x0A and one with a bad completion word with 0x0B;
a header is refused with the first reason, 1 to 9, whose rule it or its auxiliary block breaks, and otherwise gives the launch that
it describes. Readings of the model: the order of reasons, of bindings and of places, logs 73 to 75 and 106. -/
def Obligations.Scheduling : Prop :=
  scheduling ∧ queueChoice ∧ entryReasons

/-- R227, R302, R334, R353, R354, R364 to R367: a parked team goes on when its walk succeeds, and leaves its core, faults or is
dropped at the threshold; a tick counts, sets %bwmon and makes the SC moves; the end of a phase or of a limit gives ECLW its status
word. R20, R352 to R354, R374: a team whose access meets no translation is parked, and is not ready; the report of it goes into the
ring of its context, or waits while the ring is full. Bound again after it has been evicted so, it goes on at its region's entry,
which the issue there counts; without a region, and any other team, it goes on where it was. Readings of the model: what counts as
idle, and the bursts of a tick with their window, and the order of the parts of FENCESC, logs 76, 77 and 130. -/
def Obligations.WaitingEvents : Prop :=
  waitingEvents ∧ parkedTeams
end

