-- ==== Sys2Proof/Laws/Image.lean ====
section
/-! SUPPORT. What entering a team's own register writes in their orders changes, and what it leaves (R218). -/

namespace Sys2Proof.Machine

theorem sameValues_eq {α : Type} [DecidableEq α] (a b : List α) : sameValues a b = decide (a = b) := rfl

/-- Only the orders of its register words, its clock and its O can change. -/
theorem Team.enterOwn_rest (tm : Team) (rel : List Msg) (ws : List (RegRef × Word64)) :
    ∃ past clock o, tm.enterOwn rel ws = { tm with past := past, clock := clock, pv := { tm.pv with o := o } } := by
  unfold Team.enterOwn
  split
  · exact ⟨_, _, _, rfl⟩
  · exact ⟨_, _, _, rfl⟩

@[simp] theorem Team.enterOwn_nil (tm : Team) (rel : List Msg) : tm.enterOwn rel [] = tm := rfl

theorem Team.logOwn_rest (old new : Team) (also : List RegRef) :
    ∃ past clock o, old.logOwn new also = { new with past := past, clock := clock, pv := { new.pv with o := o } } := by
  simp only [Team.logOwn]
  split
  · exact ⟨_, _, _, rfl⟩
  split
  · exact ⟨_, _, _, rfl⟩
  · exact Team.enterOwn_rest _ _ _

/-- A team whose registers hold what they held, and to which no producer has delivered, is left as it is. -/
theorem Team.logOwn_same {old new : Team} (hv : old.v = new.v) (hs : old.s = new.s) (hm : old.m = new.m) : old.logOwn new [] = new := by
  simp only [Team.logOwn, sameValues_eq, hv, hs, hm, decide_true, Bool.and_self, if_true, ite_self]

@[simp] theorem Team.delivered_nil (tm : Team) (t : Nat) : tm.delivered t [] = [] := rfl

@[simp] theorem State.logOwn_agenda (old new : State) : (old.logOwn new).agenda = new.agenda := rfl
@[simp] theorem State.logOwn_picks (old new : State) : (old.logOwn new).picks = new.picks := rfl
@[simp] theorem State.logOwn_freeCtr (old new : State) : (old.logOwn new).freeCtr = new.freeCtr := rfl
@[simp] theorem State.logOwn_cur (old new : State) : (old.logOwn new).cur = new.cur := rfl
@[simp] theorem State.logOwn_round (old new : State) : (old.logOwn new).round = new.round := rfl
@[simp] theorem State.logOwn_nextId (old new : State) : (old.logOwn new).nextId = new.nextId := rfl
@[simp] theorem State.logOwn_formed (old new : State) : (old.logOwn new).formed = new.formed := rfl
@[simp] theorem State.logOwn_mem (old new : State) : (old.logOwn new).mem = new.mem := rfl
@[simp] theorem State.logOwn_hist (old new : State) : (old.logOwn new).hist = new.hist := rfl
@[simp] theorem State.logOwn_writes (old new : State) : (old.logOwn new).writes = new.writes := rfl
@[simp] theorem State.logOwn_nextWrite (old new : State) : (old.logOwn new).nextWrite = new.nextWrite := rfl
@[simp] theorem State.logOwn_entries (old new : State) : (old.logOwn new).entries = new.entries := rfl
@[simp] theorem State.logOwn_bindings (old new : State) : (old.logOwn new).bindings = new.bindings := rfl
@[simp] theorem State.logOwn_sc (old new : State) : (old.logOwn new).sc = new.sc := rfl
@[simp] theorem State.logOwn_hostView (old new : State) : (old.logOwn new).hostView = new.hostView := rfl
@[simp] theorem State.logOwn_pend (old new : State) : (old.logOwn new).pend = new.pend := rfl
@[simp] theorem State.logOwn_prods (old new : State) : (old.logOwn new).prods = new.prods := rfl
@[simp] theorem State.logOwn_flash (old new : State) : (old.logOwn new).flash = new.flash := rfl
@[simp] theorem State.logOwn_groups (old new : State) : (old.logOwn new).groups = new.groups := rfl
@[simp] theorem State.logOwn_launches (old new : State) : (old.logOwn new).launches = new.launches := rfl
@[simp] theorem State.logOwn_ctxs (old new : State) : (old.logOwn new).ctxs = new.ctxs := rfl
@[simp] theorem State.logOwn_stale (old new : State) : (old.logOwn new).stale = new.stale := rfl
@[simp] theorem State.logOwn_copies (old new : State) : (old.logOwn new).copies = new.copies := rfl
@[simp] theorem State.logOwn_commands (old new : State) : (old.logOwn new).commands = new.commands := rfl
@[simp] theorem State.logOwn_issues (old new : State) : (old.logOwn new).issues = new.issues := rfl
@[simp] theorem State.logOwn_soft (old new : State) : (old.logOwn new).soft = new.soft := rfl
@[simp] theorem State.logOwn_puts (old new : State) : (old.logOwn new).puts = new.puts := rfl
@[simp] theorem State.logOwn_inbound (old new : State) : (old.logOwn new).inbound = new.inbound := rfl
@[simp] theorem State.logOwn_alloc (old new : State) : (old.logOwn new).alloc = new.alloc := rfl
@[simp] theorem State.logOwn_frames (old new : State) : (old.logOwn new).frames = new.frames := rfl
@[simp] theorem State.logOwn_pinned (old new : State) : (old.logOwn new).pinned = new.pinned := rfl
@[simp] theorem State.logOwn_held (old new : State) : (old.logOwn new).held = new.held := rfl
@[simp] theorem State.logOwn_hostDenied (old new : State) : (old.logOwn new).hostDenied = new.hostDenied := rfl
@[simp] theorem State.logOwn_marks (old new : State) : (old.logOwn new).marks = new.marks := rfl
@[simp] theorem State.logOwn_corrected (old new : State) : (old.logOwn new).corrected = new.corrected := rfl
@[simp] theorem State.logOwn_embRows (old new : State) : (old.logOwn new).embRows = new.embRows := rfl
@[simp] theorem State.logOwn_beacon (old new : State) : (old.logOwn new).beacon = new.beacon := rfl
@[simp] theorem State.logOwn_bwmon (old new : State) : (old.logOwn new).bwmon = new.bwmon := rfl
@[simp] theorem State.logOwn_bwWindow (old new : State) : (old.logOwn new).bwWindow = new.bwWindow := rfl
@[simp] theorem State.logOwn_cores (old new : State) : (old.logOwn new).cores = new.cores := rfl
@[simp] theorem State.logOwn_stackSet (old new : State) : (old.logOwn new).stackSet = new.stackSet := rfl
@[simp] theorem State.logOwn_ports (old new : State) : (old.logOwn new).ports = new.ports := rfl
@[simp] theorem State.logOwn_portUp (old new : State) : (old.logOwn new).portUp = new.portUp := rfl
@[simp] theorem State.logOwn_served (old new : State) : (old.logOwn new).served = new.served := rfl
@[simp] theorem State.logOwn_mailbox (old new : State) : (old.logOwn new).mailbox = new.mailbox := rfl
@[simp] theorem State.logOwn_nonce (old new : State) : (old.logOwn new).nonce = new.nonce := rfl
@[simp] theorem State.logOwn_peers (old new : State) : (old.logOwn new).peers = new.peers := rfl
@[simp] theorem State.logOwn_security (old new : State) : (old.logOwn new).security = new.security := rfl
@[simp] theorem State.logOwn_invasive (old new : State) : (old.logOwn new).invasive = new.invasive := rfl
@[simp] theorem State.logOwn_power (old new : State) : (old.logOwn new).power = new.power := rfl
@[simp] theorem State.logOwn_boot (old new : State) : (old.logOwn new).boot = new.boot := rfl
@[simp] theorem State.logOwn_firmware (old new : State) : (old.logOwn new).firmware = new.firmware := rfl
@[simp] theorem State.logOwn_msix (old new : State) : (old.logOwn new).msix = new.msix := rfl

end Sys2Proof.Machine
end

