-- ==== Sys2Proof/Laws/Table.lean ====
section
/-! SUPPORT. Laws of finite maps, of the byte memory and its canonical form, and of lists as register files. -/

namespace Sys2Proof.Machine

variable {α : Type}

/-! ### Finite maps -/

@[simp] theorem tabGet?_nil (k : Nat) : tabGet? ([] : Tab α) k = none := rfl

@[simp] theorem tabGet?_tabSet_self (t : Tab α) (k : Nat) (a : α) : tabGet? (tabSet t k a) k = some a := by
  induction t with
  | nil => simp [tabSet, tabGet?]
  | cons x rest ih =>
    obtain ⟨j, b⟩ := x
    unfold tabSet
    split
    · simp [tabGet?]
    · split
      · simp [tabGet?]
      · rw [tabGet?, if_neg ‹_›, if_neg ‹_›, ih]

theorem tabGet?_tabSet_ne (t : Tab α) {j k : Nat} (a : α) (h : j ≠ k) : tabGet? (tabSet t k a) j = tabGet? t j := by
  induction t with
  | nil => simp [tabSet, tabGet?, Ne.symm h]
  | cons x rest ih =>
    obtain ⟨i, b⟩ := x
    unfold tabSet
    split
    · subst_vars
      simp [tabGet?, Ne.symm h]
    · split
      · simp only [tabGet?, if_neg (Ne.symm h)]
        split
        · rw [if_neg (by omega), if_pos (by omega)]
        · rfl
      · simp only [tabGet?, ih]

theorem tabGet?_tabSet (t : Tab α) (j k : Nat) (a : α) :
    tabGet? (tabSet t k a) j = if j = k then some a else tabGet? t j := by
  split
  · subst_vars; simp
  · exact tabGet?_tabSet_ne t a ‹_›

@[simp] theorem tabSet_tabSet (t : Tab α) (k : Nat) (a b : α) : tabSet (tabSet t k a) k b = tabSet t k b := by
  induction t with
  | nil => simp [tabSet]
  | cons x rest ih =>
    obtain ⟨j, c⟩ := x
    by_cases h : j = k
    · subst h
      simp [tabSet]
    · by_cases h2 : k < j
      · simp [tabSet, h, h2]
      · simp [tabSet, h, h2, ih]

theorem tabModify_some {t : Tab α} {k : Nat} {a : α} (f : α → α) (h : tabGet? t k = some a) :
    tabModify t k f = tabSet t k (f a) := by simp [tabModify, h]

theorem tabModify_none {t : Tab α} {k : Nat} (f : α → α) (h : tabGet? t k = none) : tabModify t k f = t := by
  simp [tabModify, h]

theorem tabGet?_tabModify (t : Tab α) (j k : Nat) (f : α → α) :
    tabGet? (tabModify t k f) j = if j = k then (tabGet? t j).map f else tabGet? t j := by
  cases h : tabGet? t k with
  | none =>
    rw [tabModify_none f h]
    split
    · subst_vars; simp [h]
    · rfl
  | some a =>
    rw [tabModify_some f h, tabGet?_tabSet]
    split
    · subst_vars; simp [h]
    · rfl

/-! ### Order of the keys -/

theorem tabSortedFrom_mono {lo lo' : Nat} {t : Tab α} (h : tabSortedFrom lo t = true) (hl : lo' ≤ lo) :
    tabSortedFrom lo' t = true := by
  cases t with
  | nil => rfl
  | cons x rest =>
    simp only [tabSortedFrom, Bool.and_eq_true, decide_eq_true_eq] at h ⊢
    exact ⟨by omega, h.2⟩

theorem tabSortedFrom_tabSet {lo k : Nat} {t : Tab α} (a : α) (h : tabSortedFrom lo t = true) (hl : lo ≤ k) :
    tabSortedFrom lo (tabSet t k a) = true := by
  induction t generalizing lo with
  | nil => simp [tabSet, tabSortedFrom, hl]
  | cons x rest ih =>
    obtain ⟨j, b⟩ := x
    simp only [tabSortedFrom, Bool.and_eq_true, decide_eq_true_eq] at h
    unfold tabSet
    split
    · subst_vars
      simp [tabSortedFrom, h]
    · split
      · simp only [tabSortedFrom, Bool.and_eq_true, decide_eq_true_eq]
        exact ⟨hl, by omega, h.2⟩
      · simp only [tabSortedFrom, Bool.and_eq_true, decide_eq_true_eq]
        exact ⟨h.1, ih h.2 (by omega)⟩

theorem tabSortedFrom_tabDel {lo : Nat} {t : Tab α} (k : Nat) (h : tabSortedFrom lo t = true) :
    tabSortedFrom lo (tabDel t k) = true := by
  induction t generalizing lo with
  | nil => rfl
  | cons x rest ih =>
    obtain ⟨j, b⟩ := x
    simp only [tabSortedFrom, Bool.and_eq_true, decide_eq_true_eq] at h
    unfold tabDel
    split
    · exact tabSortedFrom_mono h.2 (by omega)
    · split
      · simp [tabSortedFrom, h]
      · simp only [tabSortedFrom, Bool.and_eq_true, decide_eq_true_eq]
        exact ⟨h.1, ih h.2⟩

/-- A map whose keys are all at least lo has no entry below lo. -/
theorem tabGet?_below {lo k : Nat} {t : Tab α} (h : tabSortedFrom lo t = true) (hk : k < lo) : tabGet? t k = none := by
  cases t with
  | nil => rfl
  | cons x rest =>
    simp only [tabSortedFrom, Bool.and_eq_true, decide_eq_true_eq] at h
    rw [tabGet?, if_neg (by omega), if_pos (by omega)]

theorem tabGet?_tabDel {lo : Nat} {t : Tab α} (h : tabSortedFrom lo t = true) (j k : Nat) :
    tabGet? (tabDel t k) j = if j = k then none else tabGet? t j := by
  induction t generalizing lo with
  | nil => simp [tabDel]
  | cons x rest ih =>
    obtain ⟨i, b⟩ := x
    simp only [tabSortedFrom, Bool.and_eq_true, decide_eq_true_eq] at h
    unfold tabDel
    split
    · subst_vars
      split
      · subst_vars
        exact tabGet?_below h.2 (by omega)
      · rw [tabGet?, if_neg (Ne.symm ‹_›)]
        split
        · exact tabGet?_below h.2 (by omega)
        · rfl
    · split
      · split
        · subst_vars
          rw [tabGet?, if_neg ‹_›, if_pos ‹_›]
        · rfl
      · rw [tabGet?, tabGet?, ih h.2]
        by_cases hj : j = k
        · subst hj
          simp [‹¬i = j›, ‹¬j < i›]
        · simp [hj]

theorem all_tabSet {p : Nat × α → Bool} {t : Tab α} {k : Nat} {a : α} (h : t.all p = true) (hp : p (k, a) = true) :
    (tabSet t k a).all p = true := by
  induction t with
  | nil => simp [tabSet, hp]
  | cons x rest ih =>
    obtain ⟨j, b⟩ := x
    simp only [List.all_cons, Bool.and_eq_true] at h
    unfold tabSet
    split
    · simp only [List.all_cons, Bool.and_eq_true]
      exact ⟨hp, h.2⟩
    · split
      · simp only [List.all_cons, Bool.and_eq_true]
        exact ⟨hp, h⟩
      · simp only [List.all_cons, Bool.and_eq_true]
        exact ⟨h.1, ih h.2⟩

theorem all_tabDel {p : Nat × α → Bool} {t : Tab α} {k : Nat} (h : t.all p = true) : (tabDel t k).all p = true := by
  induction t with
  | nil => rfl
  | cons x rest ih =>
    obtain ⟨j, b⟩ := x
    simp only [List.all_cons, Bool.and_eq_true] at h
    unfold tabDel
    split
    · exact h.2
    · split
      · simp only [List.all_cons, Bool.and_eq_true]
        exact h
      · simp only [List.all_cons, Bool.and_eq_true]
        exact ⟨h.1, ih h.2⟩

/-! ### Memory -/

theorem Memory.wf_nil : Memory.wf [] = true := rfl

/-- Writing a byte keeps the canonical form. -/
theorem Memory.wf_memSet {m : List Host.Cell} (a : Nat) (b : Byte) (h : Memory.wf m = true) :
    Memory.wf (memSet m a b) = true := by
  simp only [Memory.wf, Bool.and_eq_true] at h ⊢
  unfold memSet
  split
  · exact ⟨tabSortedFrom_tabDel a h.1, all_tabDel h.2⟩
  · exact ⟨tabSortedFrom_tabSet b h.1 (Nat.zero_le a), all_tabSet h.2 (by simpa using ‹¬b = unwritten›)⟩

/-- Writing bytes keeps the canonical form. -/
theorem Memory.wf_memSets {m : List Host.Cell} (a : Nat) (bs : List Byte) (h : Memory.wf m = true) :
    Memory.wf (memSets m a bs) = true := by
  induction bs generalizing m a with
  | nil => exact h
  | cons b bs ih => exact ih (a + 1) (Memory.wf_memSet a b h)

/-- Reading a byte after writing one. -/
theorem memGet_memSet {m : List Host.Cell} (h : Memory.wf m = true) (a c : Nat) (b : Byte) :
    memGet (memSet m a b) c = if c = a then b else memGet m c := by
  simp only [Memory.wf, Bool.and_eq_true] at h
  unfold memSet memGet tabGet
  split
  · subst_vars
    rw [tabGet?_tabDel h.1]
    split <;> simp
  · rw [tabGet?_tabSet]
    split <;> simp

/-- Reading a byte after writing bytes from address a. -/
theorem memGet_memSets {m : List Host.Cell} (h : Memory.wf m = true) (a c : Nat) (bs : List Byte) :
    memGet (memSets m a bs) c = if a ≤ c ∧ c < a + bs.length then bs.getD (c - a) 0 else memGet m c := by
  induction bs generalizing m a with
  | nil =>
    rw [if_neg (by simp)]
    rfl
  | cons b bs ih =>
    rw [memSets, ih (Memory.wf_memSet a b h) (a + 1), memGet_memSet h]
    by_cases h1 : c = a
    · subst h1
      rw [if_neg (by omega), if_pos rfl, if_pos (by simp)]
      simp
    · by_cases h2 : a + 1 ≤ c ∧ c < a + 1 + bs.length
      · rw [if_pos h2, if_pos (by simp only [List.length_cons]; omega)]
        obtain ⟨d, hd⟩ : ∃ d, c - a = d + 1 := ⟨c - a - 1, by omega⟩
        rw [hd, show c - (a + 1) = d by omega]
        simp
      · rw [if_neg h2, if_neg h1, if_neg (by simp only [List.length_cons]; omega)]

@[simp] theorem memGets_length (m : List Host.Cell) (a n : Nat) : (memGets m a n).length = n := by
  induction n generalizing a with
  | zero => rfl
  | succ n ih => simp [memGets, ih]

/-- The bytes written are the bytes read. -/
theorem memGets_memSets_self {m : List Host.Cell} (h : Memory.wf m = true) (a : Nat) (bs : List Byte) :
    memGets (memSets m a bs) a bs.length = bs := by
  induction bs generalizing m a with
  | nil => rfl
  | cons b bs ih =>
    rw [List.length_cons, memGets, memSets, ih (Memory.wf_memSet a b h) (a + 1),
      memGet_memSets (Memory.wf_memSet a b h), if_neg (by omega), memGet_memSet h, if_pos rfl]

/-! ### Register files -/

theorem nth_putAt (d : α) (l : List α) (i j : Nat) (x : α) :
    nth d (putAt d l i x) j = if j = i then x else nth d l j := by
  induction l generalizing i j with
  | nil =>
    induction i generalizing j with
    | zero => cases j <;> simp [putAt, nth]
    | succ i ih => cases j with
      | zero => simp [putAt, nth]
      | succ j => simpa [putAt, nth] using ih j
  | cons a l ih => cases i <;> cases j <;> simp [putAt, nth, ih]

@[simp] theorem nth_putAt_self (d : α) (l : List α) (i : Nat) (x : α) : nth d (putAt d l i x) i = x := by
  simp [nth_putAt]

theorem nth_putAt_ne (d : α) (l : List α) {i j : Nat} (x : α) (h : j ≠ i) : nth d (putAt d l i x) j = nth d l j := by
  simp [nth_putAt, h]

@[simp] theorem mem_lanesOf (n : Nat) (l : LaneSet) (i : Nat) : i ∈ lanesOf n l ↔ i < n ∧ l.getLsbD i = true := by
  simp [lanesOf]

theorem lanesOf_nodup (n : Nat) (l : LaneSet) : (lanesOf n l).Nodup := List.nodup_range.filter _

end Sys2Proof.Machine
end

