-- ==== Sys2Proof/Laws/State.lean ====
section
/-! SUPPORT. What each update of the state and of a team leaves alone, field by field, and what it puts in place. -/

namespace Sys2Proof.Machine

/-! ### State.setTeam -/

@[simp] theorem State.setTeam_agenda (s : State) (t : Nat) (tm : Team) : (s.setTeam t tm).agenda = s.agenda := rfl
@[simp] theorem State.setTeam_picks (s : State) (t : Nat) (tm : Team) : (s.setTeam t tm).picks = s.picks := rfl
@[simp] theorem State.setTeam_freeCtr (s : State) (t : Nat) (tm : Team) : (s.setTeam t tm).freeCtr = s.freeCtr := rfl
@[simp] theorem State.setTeam_cur (s : State) (t : Nat) (tm : Team) : (s.setTeam t tm).cur = s.cur := rfl
@[simp] theorem State.setTeam_round (s : State) (t : Nat) (tm : Team) : (s.setTeam t tm).round = s.round := rfl
@[simp] theorem State.setTeam_nextId (s : State) (t : Nat) (tm : Team) : (s.setTeam t tm).nextId = s.nextId := rfl
@[simp] theorem State.setTeam_formed (s : State) (t : Nat) (tm : Team) : (s.setTeam t tm).formed = s.formed := rfl
@[simp] theorem State.setTeam_under (s : State) (t : Nat) (tm : Team) : (s.setTeam t tm).under = s.under := rfl
@[simp] theorem State.setTeam_mem (s : State) (t : Nat) (tm : Team) : (s.setTeam t tm).mem = s.mem := rfl
@[simp] theorem State.setTeam_hist (s : State) (t : Nat) (tm : Team) : (s.setTeam t tm).hist = s.hist := rfl
@[simp] theorem State.setTeam_writes (s : State) (t : Nat) (tm : Team) : (s.setTeam t tm).writes = s.writes := rfl
@[simp] theorem State.setTeam_nextWrite (s : State) (t : Nat) (tm : Team) : (s.setTeam t tm).nextWrite = s.nextWrite := rfl
@[simp] theorem State.setTeam_entries (s : State) (t : Nat) (tm : Team) : (s.setTeam t tm).entries = s.entries := rfl
@[simp] theorem State.setTeam_bindings (s : State) (t : Nat) (tm : Team) : (s.setTeam t tm).bindings = s.bindings := rfl
@[simp] theorem State.setTeam_sc (s : State) (t : Nat) (tm : Team) : (s.setTeam t tm).sc = s.sc := rfl
@[simp] theorem State.setTeam_hostView (s : State) (t : Nat) (tm : Team) : (s.setTeam t tm).hostView = s.hostView := rfl
@[simp] theorem State.setTeam_pend (s : State) (t : Nat) (tm : Team) : (s.setTeam t tm).pend = s.pend := rfl
@[simp] theorem State.setTeam_prods (s : State) (t : Nat) (tm : Team) : (s.setTeam t tm).prods = s.prods := rfl
@[simp] theorem State.setTeam_flash (s : State) (t : Nat) (tm : Team) : (s.setTeam t tm).flash = s.flash := rfl
@[simp] theorem State.setTeam_groups (s : State) (t : Nat) (tm : Team) : (s.setTeam t tm).groups = s.groups := rfl
@[simp] theorem State.setTeam_launches (s : State) (t : Nat) (tm : Team) : (s.setTeam t tm).launches = s.launches := rfl
@[simp] theorem State.setTeam_ctxs (s : State) (t : Nat) (tm : Team) : (s.setTeam t tm).ctxs = s.ctxs := rfl
@[simp] theorem State.setTeam_stale (s : State) (t : Nat) (tm : Team) : (s.setTeam t tm).stale = s.stale := rfl
@[simp] theorem State.setTeam_copies (s : State) (t : Nat) (tm : Team) : (s.setTeam t tm).copies = s.copies := rfl
@[simp] theorem State.setTeam_commands (s : State) (t : Nat) (tm : Team) : (s.setTeam t tm).commands = s.commands := rfl
@[simp] theorem State.setTeam_issues (s : State) (t : Nat) (tm : Team) : (s.setTeam t tm).issues = s.issues := rfl
@[simp] theorem State.setTeam_soft (s : State) (t : Nat) (tm : Team) : (s.setTeam t tm).soft = s.soft := rfl
@[simp] theorem State.setTeam_puts (s : State) (t : Nat) (tm : Team) : (s.setTeam t tm).puts = s.puts := rfl
@[simp] theorem State.setTeam_inbound (s : State) (t : Nat) (tm : Team) : (s.setTeam t tm).inbound = s.inbound := rfl
@[simp] theorem State.setTeam_alloc (s : State) (t : Nat) (tm : Team) : (s.setTeam t tm).alloc = s.alloc := rfl
@[simp] theorem State.setTeam_frames (s : State) (t : Nat) (tm : Team) : (s.setTeam t tm).frames = s.frames := rfl
@[simp] theorem State.setTeam_pinned (s : State) (t : Nat) (tm : Team) : (s.setTeam t tm).pinned = s.pinned := rfl
@[simp] theorem State.setTeam_held (s : State) (t : Nat) (tm : Team) : (s.setTeam t tm).held = s.held := rfl
@[simp] theorem State.setTeam_hostDenied (s : State) (t : Nat) (tm : Team) : (s.setTeam t tm).hostDenied = s.hostDenied := rfl
@[simp] theorem State.setTeam_marks (s : State) (t : Nat) (tm : Team) : (s.setTeam t tm).marks = s.marks := rfl
@[simp] theorem State.setTeam_corrected (s : State) (t : Nat) (tm : Team) : (s.setTeam t tm).corrected = s.corrected := rfl
@[simp] theorem State.setTeam_embRows (s : State) (t : Nat) (tm : Team) : (s.setTeam t tm).embRows = s.embRows := rfl
@[simp] theorem State.setTeam_beacon (s : State) (t : Nat) (tm : Team) : (s.setTeam t tm).beacon = s.beacon := rfl
@[simp] theorem State.setTeam_bwmon (s : State) (t : Nat) (tm : Team) : (s.setTeam t tm).bwmon = s.bwmon := rfl
@[simp] theorem State.setTeam_bwWindow (s : State) (t : Nat) (tm : Team) : (s.setTeam t tm).bwWindow = s.bwWindow := rfl
@[simp] theorem State.setTeam_cores (s : State) (t : Nat) (tm : Team) : (s.setTeam t tm).cores = s.cores := rfl
@[simp] theorem State.setTeam_stackSet (s : State) (t : Nat) (tm : Team) : (s.setTeam t tm).stackSet = s.stackSet := rfl
@[simp] theorem State.setTeam_ports (s : State) (t : Nat) (tm : Team) : (s.setTeam t tm).ports = s.ports := rfl
@[simp] theorem State.setTeam_portUp (s : State) (t : Nat) (tm : Team) : (s.setTeam t tm).portUp = s.portUp := rfl
@[simp] theorem State.setTeam_served (s : State) (t : Nat) (tm : Team) : (s.setTeam t tm).served = s.served := rfl
@[simp] theorem State.setTeam_mailbox (s : State) (t : Nat) (tm : Team) : (s.setTeam t tm).mailbox = s.mailbox := rfl
@[simp] theorem State.setTeam_nonce (s : State) (t : Nat) (tm : Team) : (s.setTeam t tm).nonce = s.nonce := rfl
@[simp] theorem State.setTeam_peers (s : State) (t : Nat) (tm : Team) : (s.setTeam t tm).peers = s.peers := rfl
@[simp] theorem State.setTeam_security (s : State) (t : Nat) (tm : Team) : (s.setTeam t tm).security = s.security := rfl
@[simp] theorem State.setTeam_invasive (s : State) (t : Nat) (tm : Team) : (s.setTeam t tm).invasive = s.invasive := rfl
@[simp] theorem State.setTeam_power (s : State) (t : Nat) (tm : Team) : (s.setTeam t tm).power = s.power := rfl
@[simp] theorem State.setTeam_boot (s : State) (t : Nat) (tm : Team) : (s.setTeam t tm).boot = s.boot := rfl
@[simp] theorem State.setTeam_firmware (s : State) (t : Nat) (tm : Team) : (s.setTeam t tm).firmware = s.firmware := rfl
@[simp] theorem State.setTeam_msix (s : State) (t : Nat) (tm : Team) : (s.setTeam t tm).msix = s.msix := rfl

@[simp] theorem State.setTeam_teams (s : State) (t : Nat) (tm : Team) : (s.setTeam t tm).teams = tabSet s.teams t tm := rfl

/-! ### State.onTeam -/

@[simp] theorem State.onTeam_agenda (s : State) (t : Nat) (f : Team → Team) : (s.onTeam t f).agenda = s.agenda := rfl
@[simp] theorem State.onTeam_picks (s : State) (t : Nat) (f : Team → Team) : (s.onTeam t f).picks = s.picks := rfl
@[simp] theorem State.onTeam_freeCtr (s : State) (t : Nat) (f : Team → Team) : (s.onTeam t f).freeCtr = s.freeCtr := rfl
@[simp] theorem State.onTeam_cur (s : State) (t : Nat) (f : Team → Team) : (s.onTeam t f).cur = s.cur := rfl
@[simp] theorem State.onTeam_round (s : State) (t : Nat) (f : Team → Team) : (s.onTeam t f).round = s.round := rfl
@[simp] theorem State.onTeam_nextId (s : State) (t : Nat) (f : Team → Team) : (s.onTeam t f).nextId = s.nextId := rfl
@[simp] theorem State.onTeam_formed (s : State) (t : Nat) (f : Team → Team) : (s.onTeam t f).formed = s.formed := rfl
@[simp] theorem State.onTeam_under (s : State) (t : Nat) (f : Team → Team) : (s.onTeam t f).under = s.under := rfl
@[simp] theorem State.onTeam_mem (s : State) (t : Nat) (f : Team → Team) : (s.onTeam t f).mem = s.mem := rfl
@[simp] theorem State.onTeam_hist (s : State) (t : Nat) (f : Team → Team) : (s.onTeam t f).hist = s.hist := rfl
@[simp] theorem State.onTeam_writes (s : State) (t : Nat) (f : Team → Team) : (s.onTeam t f).writes = s.writes := rfl
@[simp] theorem State.onTeam_nextWrite (s : State) (t : Nat) (f : Team → Team) : (s.onTeam t f).nextWrite = s.nextWrite := rfl
@[simp] theorem State.onTeam_entries (s : State) (t : Nat) (f : Team → Team) : (s.onTeam t f).entries = s.entries := rfl
@[simp] theorem State.onTeam_bindings (s : State) (t : Nat) (f : Team → Team) : (s.onTeam t f).bindings = s.bindings := rfl
@[simp] theorem State.onTeam_sc (s : State) (t : Nat) (f : Team → Team) : (s.onTeam t f).sc = s.sc := rfl
@[simp] theorem State.onTeam_hostView (s : State) (t : Nat) (f : Team → Team) : (s.onTeam t f).hostView = s.hostView := rfl
@[simp] theorem State.onTeam_pend (s : State) (t : Nat) (f : Team → Team) : (s.onTeam t f).pend = s.pend := rfl
@[simp] theorem State.onTeam_prods (s : State) (t : Nat) (f : Team → Team) : (s.onTeam t f).prods = s.prods := rfl
@[simp] theorem State.onTeam_flash (s : State) (t : Nat) (f : Team → Team) : (s.onTeam t f).flash = s.flash := rfl
@[simp] theorem State.onTeam_groups (s : State) (t : Nat) (f : Team → Team) : (s.onTeam t f).groups = s.groups := rfl
@[simp] theorem State.onTeam_launches (s : State) (t : Nat) (f : Team → Team) : (s.onTeam t f).launches = s.launches := rfl
@[simp] theorem State.onTeam_ctxs (s : State) (t : Nat) (f : Team → Team) : (s.onTeam t f).ctxs = s.ctxs := rfl
@[simp] theorem State.onTeam_stale (s : State) (t : Nat) (f : Team → Team) : (s.onTeam t f).stale = s.stale := rfl
@[simp] theorem State.onTeam_copies (s : State) (t : Nat) (f : Team → Team) : (s.onTeam t f).copies = s.copies := rfl
@[simp] theorem State.onTeam_commands (s : State) (t : Nat) (f : Team → Team) : (s.onTeam t f).commands = s.commands := rfl
@[simp] theorem State.onTeam_issues (s : State) (t : Nat) (f : Team → Team) : (s.onTeam t f).issues = s.issues := rfl
@[simp] theorem State.onTeam_soft (s : State) (t : Nat) (f : Team → Team) : (s.onTeam t f).soft = s.soft := rfl
@[simp] theorem State.onTeam_puts (s : State) (t : Nat) (f : Team → Team) : (s.onTeam t f).puts = s.puts := rfl
@[simp] theorem State.onTeam_inbound (s : State) (t : Nat) (f : Team → Team) : (s.onTeam t f).inbound = s.inbound := rfl
@[simp] theorem State.onTeam_alloc (s : State) (t : Nat) (f : Team → Team) : (s.onTeam t f).alloc = s.alloc := rfl
@[simp] theorem State.onTeam_frames (s : State) (t : Nat) (f : Team → Team) : (s.onTeam t f).frames = s.frames := rfl
@[simp] theorem State.onTeam_pinned (s : State) (t : Nat) (f : Team → Team) : (s.onTeam t f).pinned = s.pinned := rfl
@[simp] theorem State.onTeam_held (s : State) (t : Nat) (f : Team → Team) : (s.onTeam t f).held = s.held := rfl
@[simp] theorem State.onTeam_hostDenied (s : State) (t : Nat) (f : Team → Team) : (s.onTeam t f).hostDenied = s.hostDenied := rfl
@[simp] theorem State.onTeam_marks (s : State) (t : Nat) (f : Team → Team) : (s.onTeam t f).marks = s.marks := rfl
@[simp] theorem State.onTeam_corrected (s : State) (t : Nat) (f : Team → Team) : (s.onTeam t f).corrected = s.corrected := rfl
@[simp] theorem State.onTeam_embRows (s : State) (t : Nat) (f : Team → Team) : (s.onTeam t f).embRows = s.embRows := rfl
@[simp] theorem State.onTeam_beacon (s : State) (t : Nat) (f : Team → Team) : (s.onTeam t f).beacon = s.beacon := rfl
@[simp] theorem State.onTeam_bwmon (s : State) (t : Nat) (f : Team → Team) : (s.onTeam t f).bwmon = s.bwmon := rfl
@[simp] theorem State.onTeam_bwWindow (s : State) (t : Nat) (f : Team → Team) : (s.onTeam t f).bwWindow = s.bwWindow := rfl
@[simp] theorem State.onTeam_cores (s : State) (t : Nat) (f : Team → Team) : (s.onTeam t f).cores = s.cores := rfl
@[simp] theorem State.onTeam_stackSet (s : State) (t : Nat) (f : Team → Team) : (s.onTeam t f).stackSet = s.stackSet := rfl
@[simp] theorem State.onTeam_ports (s : State) (t : Nat) (f : Team → Team) : (s.onTeam t f).ports = s.ports := rfl
@[simp] theorem State.onTeam_portUp (s : State) (t : Nat) (f : Team → Team) : (s.onTeam t f).portUp = s.portUp := rfl
@[simp] theorem State.onTeam_served (s : State) (t : Nat) (f : Team → Team) : (s.onTeam t f).served = s.served := rfl
@[simp] theorem State.onTeam_mailbox (s : State) (t : Nat) (f : Team → Team) : (s.onTeam t f).mailbox = s.mailbox := rfl
@[simp] theorem State.onTeam_nonce (s : State) (t : Nat) (f : Team → Team) : (s.onTeam t f).nonce = s.nonce := rfl
@[simp] theorem State.onTeam_peers (s : State) (t : Nat) (f : Team → Team) : (s.onTeam t f).peers = s.peers := rfl
@[simp] theorem State.onTeam_security (s : State) (t : Nat) (f : Team → Team) : (s.onTeam t f).security = s.security := rfl
@[simp] theorem State.onTeam_invasive (s : State) (t : Nat) (f : Team → Team) : (s.onTeam t f).invasive = s.invasive := rfl
@[simp] theorem State.onTeam_power (s : State) (t : Nat) (f : Team → Team) : (s.onTeam t f).power = s.power := rfl
@[simp] theorem State.onTeam_boot (s : State) (t : Nat) (f : Team → Team) : (s.onTeam t f).boot = s.boot := rfl
@[simp] theorem State.onTeam_firmware (s : State) (t : Nat) (f : Team → Team) : (s.onTeam t f).firmware = s.firmware := rfl
@[simp] theorem State.onTeam_msix (s : State) (t : Nat) (f : Team → Team) : (s.onTeam t f).msix = s.msix := rfl

@[simp] theorem State.onTeam_teams (s : State) (t : Nat) (f : Team → Team) : (s.onTeam t f).teams = tabModify s.teams t f := rfl

/-! ### State.onGroup -/

@[simp] theorem State.onGroup_agenda (s : State) (g : Nat) (f : Group → Group) : (s.onGroup g f).agenda = s.agenda := rfl
@[simp] theorem State.onGroup_picks (s : State) (g : Nat) (f : Group → Group) : (s.onGroup g f).picks = s.picks := rfl
@[simp] theorem State.onGroup_freeCtr (s : State) (g : Nat) (f : Group → Group) : (s.onGroup g f).freeCtr = s.freeCtr := rfl
@[simp] theorem State.onGroup_cur (s : State) (g : Nat) (f : Group → Group) : (s.onGroup g f).cur = s.cur := rfl
@[simp] theorem State.onGroup_round (s : State) (g : Nat) (f : Group → Group) : (s.onGroup g f).round = s.round := rfl
@[simp] theorem State.onGroup_nextId (s : State) (g : Nat) (f : Group → Group) : (s.onGroup g f).nextId = s.nextId := rfl
@[simp] theorem State.onGroup_formed (s : State) (g : Nat) (f : Group → Group) : (s.onGroup g f).formed = s.formed := rfl
@[simp] theorem State.onGroup_under (s : State) (g : Nat) (f : Group → Group) : (s.onGroup g f).under = s.under := rfl
@[simp] theorem State.onGroup_mem (s : State) (g : Nat) (f : Group → Group) : (s.onGroup g f).mem = s.mem := rfl
@[simp] theorem State.onGroup_hist (s : State) (g : Nat) (f : Group → Group) : (s.onGroup g f).hist = s.hist := rfl
@[simp] theorem State.onGroup_writes (s : State) (g : Nat) (f : Group → Group) : (s.onGroup g f).writes = s.writes := rfl
@[simp] theorem State.onGroup_nextWrite (s : State) (g : Nat) (f : Group → Group) : (s.onGroup g f).nextWrite = s.nextWrite := rfl
@[simp] theorem State.onGroup_entries (s : State) (g : Nat) (f : Group → Group) : (s.onGroup g f).entries = s.entries := rfl
@[simp] theorem State.onGroup_bindings (s : State) (g : Nat) (f : Group → Group) : (s.onGroup g f).bindings = s.bindings := rfl
@[simp] theorem State.onGroup_sc (s : State) (g : Nat) (f : Group → Group) : (s.onGroup g f).sc = s.sc := rfl
@[simp] theorem State.onGroup_hostView (s : State) (g : Nat) (f : Group → Group) : (s.onGroup g f).hostView = s.hostView := rfl
@[simp] theorem State.onGroup_pend (s : State) (g : Nat) (f : Group → Group) : (s.onGroup g f).pend = s.pend := rfl
@[simp] theorem State.onGroup_prods (s : State) (g : Nat) (f : Group → Group) : (s.onGroup g f).prods = s.prods := rfl
@[simp] theorem State.onGroup_flash (s : State) (g : Nat) (f : Group → Group) : (s.onGroup g f).flash = s.flash := rfl
@[simp] theorem State.onGroup_teams (s : State) (g : Nat) (f : Group → Group) : (s.onGroup g f).teams = s.teams := rfl
@[simp] theorem State.onGroup_launches (s : State) (g : Nat) (f : Group → Group) : (s.onGroup g f).launches = s.launches := rfl
@[simp] theorem State.onGroup_ctxs (s : State) (g : Nat) (f : Group → Group) : (s.onGroup g f).ctxs = s.ctxs := rfl
@[simp] theorem State.onGroup_stale (s : State) (g : Nat) (f : Group → Group) : (s.onGroup g f).stale = s.stale := rfl
@[simp] theorem State.onGroup_copies (s : State) (g : Nat) (f : Group → Group) : (s.onGroup g f).copies = s.copies := rfl
@[simp] theorem State.onGroup_commands (s : State) (g : Nat) (f : Group → Group) : (s.onGroup g f).commands = s.commands := rfl
@[simp] theorem State.onGroup_issues (s : State) (g : Nat) (f : Group → Group) : (s.onGroup g f).issues = s.issues := rfl
@[simp] theorem State.onGroup_soft (s : State) (g : Nat) (f : Group → Group) : (s.onGroup g f).soft = s.soft := rfl
@[simp] theorem State.onGroup_puts (s : State) (g : Nat) (f : Group → Group) : (s.onGroup g f).puts = s.puts := rfl
@[simp] theorem State.onGroup_inbound (s : State) (g : Nat) (f : Group → Group) : (s.onGroup g f).inbound = s.inbound := rfl
@[simp] theorem State.onGroup_alloc (s : State) (g : Nat) (f : Group → Group) : (s.onGroup g f).alloc = s.alloc := rfl
@[simp] theorem State.onGroup_frames (s : State) (g : Nat) (f : Group → Group) : (s.onGroup g f).frames = s.frames := rfl
@[simp] theorem State.onGroup_pinned (s : State) (g : Nat) (f : Group → Group) : (s.onGroup g f).pinned = s.pinned := rfl
@[simp] theorem State.onGroup_held (s : State) (g : Nat) (f : Group → Group) : (s.onGroup g f).held = s.held := rfl
@[simp] theorem State.onGroup_hostDenied (s : State) (g : Nat) (f : Group → Group) : (s.onGroup g f).hostDenied = s.hostDenied := rfl
@[simp] theorem State.onGroup_marks (s : State) (g : Nat) (f : Group → Group) : (s.onGroup g f).marks = s.marks := rfl
@[simp] theorem State.onGroup_corrected (s : State) (g : Nat) (f : Group → Group) : (s.onGroup g f).corrected = s.corrected := rfl
@[simp] theorem State.onGroup_embRows (s : State) (g : Nat) (f : Group → Group) : (s.onGroup g f).embRows = s.embRows := rfl
@[simp] theorem State.onGroup_beacon (s : State) (g : Nat) (f : Group → Group) : (s.onGroup g f).beacon = s.beacon := rfl
@[simp] theorem State.onGroup_bwmon (s : State) (g : Nat) (f : Group → Group) : (s.onGroup g f).bwmon = s.bwmon := rfl
@[simp] theorem State.onGroup_bwWindow (s : State) (g : Nat) (f : Group → Group) : (s.onGroup g f).bwWindow = s.bwWindow := rfl
@[simp] theorem State.onGroup_cores (s : State) (g : Nat) (f : Group → Group) : (s.onGroup g f).cores = s.cores := rfl
@[simp] theorem State.onGroup_stackSet (s : State) (g : Nat) (f : Group → Group) : (s.onGroup g f).stackSet = s.stackSet := rfl
@[simp] theorem State.onGroup_ports (s : State) (g : Nat) (f : Group → Group) : (s.onGroup g f).ports = s.ports := rfl
@[simp] theorem State.onGroup_portUp (s : State) (g : Nat) (f : Group → Group) : (s.onGroup g f).portUp = s.portUp := rfl
@[simp] theorem State.onGroup_served (s : State) (g : Nat) (f : Group → Group) : (s.onGroup g f).served = s.served := rfl
@[simp] theorem State.onGroup_mailbox (s : State) (g : Nat) (f : Group → Group) : (s.onGroup g f).mailbox = s.mailbox := rfl
@[simp] theorem State.onGroup_nonce (s : State) (g : Nat) (f : Group → Group) : (s.onGroup g f).nonce = s.nonce := rfl
@[simp] theorem State.onGroup_peers (s : State) (g : Nat) (f : Group → Group) : (s.onGroup g f).peers = s.peers := rfl
@[simp] theorem State.onGroup_security (s : State) (g : Nat) (f : Group → Group) : (s.onGroup g f).security = s.security := rfl
@[simp] theorem State.onGroup_invasive (s : State) (g : Nat) (f : Group → Group) : (s.onGroup g f).invasive = s.invasive := rfl
@[simp] theorem State.onGroup_power (s : State) (g : Nat) (f : Group → Group) : (s.onGroup g f).power = s.power := rfl
@[simp] theorem State.onGroup_boot (s : State) (g : Nat) (f : Group → Group) : (s.onGroup g f).boot = s.boot := rfl
@[simp] theorem State.onGroup_firmware (s : State) (g : Nat) (f : Group → Group) : (s.onGroup g f).firmware = s.firmware := rfl
@[simp] theorem State.onGroup_msix (s : State) (g : Nat) (f : Group → Group) : (s.onGroup g f).msix = s.msix := rfl

@[simp] theorem State.onGroup_groups (s : State) (g : Nat) (f : Group → Group) : (s.onGroup g f).groups = tabModify s.groups g f := rfl

/-! ### State.onLaunch -/

@[simp] theorem State.onLaunch_agenda (s : State) (l : Nat) (f : Launch → Launch) : (s.onLaunch l f).agenda = s.agenda := rfl
@[simp] theorem State.onLaunch_picks (s : State) (l : Nat) (f : Launch → Launch) : (s.onLaunch l f).picks = s.picks := rfl
@[simp] theorem State.onLaunch_freeCtr (s : State) (l : Nat) (f : Launch → Launch) : (s.onLaunch l f).freeCtr = s.freeCtr := rfl
@[simp] theorem State.onLaunch_cur (s : State) (l : Nat) (f : Launch → Launch) : (s.onLaunch l f).cur = s.cur := rfl
@[simp] theorem State.onLaunch_round (s : State) (l : Nat) (f : Launch → Launch) : (s.onLaunch l f).round = s.round := rfl
@[simp] theorem State.onLaunch_nextId (s : State) (l : Nat) (f : Launch → Launch) : (s.onLaunch l f).nextId = s.nextId := rfl
@[simp] theorem State.onLaunch_formed (s : State) (l : Nat) (f : Launch → Launch) : (s.onLaunch l f).formed = s.formed := rfl
@[simp] theorem State.onLaunch_under (s : State) (l : Nat) (f : Launch → Launch) : (s.onLaunch l f).under = s.under := rfl
@[simp] theorem State.onLaunch_mem (s : State) (l : Nat) (f : Launch → Launch) : (s.onLaunch l f).mem = s.mem := rfl
@[simp] theorem State.onLaunch_hist (s : State) (l : Nat) (f : Launch → Launch) : (s.onLaunch l f).hist = s.hist := rfl
@[simp] theorem State.onLaunch_writes (s : State) (l : Nat) (f : Launch → Launch) : (s.onLaunch l f).writes = s.writes := rfl
@[simp] theorem State.onLaunch_nextWrite (s : State) (l : Nat) (f : Launch → Launch) : (s.onLaunch l f).nextWrite = s.nextWrite := rfl
@[simp] theorem State.onLaunch_entries (s : State) (l : Nat) (f : Launch → Launch) : (s.onLaunch l f).entries = s.entries := rfl
@[simp] theorem State.onLaunch_bindings (s : State) (l : Nat) (f : Launch → Launch) : (s.onLaunch l f).bindings = s.bindings := rfl
@[simp] theorem State.onLaunch_sc (s : State) (l : Nat) (f : Launch → Launch) : (s.onLaunch l f).sc = s.sc := rfl
@[simp] theorem State.onLaunch_hostView (s : State) (l : Nat) (f : Launch → Launch) : (s.onLaunch l f).hostView = s.hostView := rfl
@[simp] theorem State.onLaunch_pend (s : State) (l : Nat) (f : Launch → Launch) : (s.onLaunch l f).pend = s.pend := rfl
@[simp] theorem State.onLaunch_prods (s : State) (l : Nat) (f : Launch → Launch) : (s.onLaunch l f).prods = s.prods := rfl
@[simp] theorem State.onLaunch_flash (s : State) (l : Nat) (f : Launch → Launch) : (s.onLaunch l f).flash = s.flash := rfl
@[simp] theorem State.onLaunch_teams (s : State) (l : Nat) (f : Launch → Launch) : (s.onLaunch l f).teams = s.teams := rfl
@[simp] theorem State.onLaunch_groups (s : State) (l : Nat) (f : Launch → Launch) : (s.onLaunch l f).groups = s.groups := rfl
@[simp] theorem State.onLaunch_ctxs (s : State) (l : Nat) (f : Launch → Launch) : (s.onLaunch l f).ctxs = s.ctxs := rfl
@[simp] theorem State.onLaunch_stale (s : State) (l : Nat) (f : Launch → Launch) : (s.onLaunch l f).stale = s.stale := rfl
@[simp] theorem State.onLaunch_copies (s : State) (l : Nat) (f : Launch → Launch) : (s.onLaunch l f).copies = s.copies := rfl
@[simp] theorem State.onLaunch_commands (s : State) (l : Nat) (f : Launch → Launch) : (s.onLaunch l f).commands = s.commands := rfl
@[simp] theorem State.onLaunch_issues (s : State) (l : Nat) (f : Launch → Launch) : (s.onLaunch l f).issues = s.issues := rfl
@[simp] theorem State.onLaunch_soft (s : State) (l : Nat) (f : Launch → Launch) : (s.onLaunch l f).soft = s.soft := rfl
@[simp] theorem State.onLaunch_puts (s : State) (l : Nat) (f : Launch → Launch) : (s.onLaunch l f).puts = s.puts := rfl
@[simp] theorem State.onLaunch_inbound (s : State) (l : Nat) (f : Launch → Launch) : (s.onLaunch l f).inbound = s.inbound := rfl
@[simp] theorem State.onLaunch_alloc (s : State) (l : Nat) (f : Launch → Launch) : (s.onLaunch l f).alloc = s.alloc := rfl
@[simp] theorem State.onLaunch_frames (s : State) (l : Nat) (f : Launch → Launch) : (s.onLaunch l f).frames = s.frames := rfl
@[simp] theorem State.onLaunch_pinned (s : State) (l : Nat) (f : Launch → Launch) : (s.onLaunch l f).pinned = s.pinned := rfl
@[simp] theorem State.onLaunch_held (s : State) (l : Nat) (f : Launch → Launch) : (s.onLaunch l f).held = s.held := rfl
@[simp] theorem State.onLaunch_hostDenied (s : State) (l : Nat) (f : Launch → Launch) : (s.onLaunch l f).hostDenied = s.hostDenied := rfl
@[simp] theorem State.onLaunch_marks (s : State) (l : Nat) (f : Launch → Launch) : (s.onLaunch l f).marks = s.marks := rfl
@[simp] theorem State.onLaunch_corrected (s : State) (l : Nat) (f : Launch → Launch) : (s.onLaunch l f).corrected = s.corrected := rfl
@[simp] theorem State.onLaunch_embRows (s : State) (l : Nat) (f : Launch → Launch) : (s.onLaunch l f).embRows = s.embRows := rfl
@[simp] theorem State.onLaunch_beacon (s : State) (l : Nat) (f : Launch → Launch) : (s.onLaunch l f).beacon = s.beacon := rfl
@[simp] theorem State.onLaunch_bwmon (s : State) (l : Nat) (f : Launch → Launch) : (s.onLaunch l f).bwmon = s.bwmon := rfl
@[simp] theorem State.onLaunch_bwWindow (s : State) (l : Nat) (f : Launch → Launch) : (s.onLaunch l f).bwWindow = s.bwWindow := rfl
@[simp] theorem State.onLaunch_cores (s : State) (l : Nat) (f : Launch → Launch) : (s.onLaunch l f).cores = s.cores := rfl
@[simp] theorem State.onLaunch_stackSet (s : State) (l : Nat) (f : Launch → Launch) : (s.onLaunch l f).stackSet = s.stackSet := rfl
@[simp] theorem State.onLaunch_ports (s : State) (l : Nat) (f : Launch → Launch) : (s.onLaunch l f).ports = s.ports := rfl
@[simp] theorem State.onLaunch_portUp (s : State) (l : Nat) (f : Launch → Launch) : (s.onLaunch l f).portUp = s.portUp := rfl
@[simp] theorem State.onLaunch_served (s : State) (l : Nat) (f : Launch → Launch) : (s.onLaunch l f).served = s.served := rfl
@[simp] theorem State.onLaunch_mailbox (s : State) (l : Nat) (f : Launch → Launch) : (s.onLaunch l f).mailbox = s.mailbox := rfl
@[simp] theorem State.onLaunch_nonce (s : State) (l : Nat) (f : Launch → Launch) : (s.onLaunch l f).nonce = s.nonce := rfl
@[simp] theorem State.onLaunch_peers (s : State) (l : Nat) (f : Launch → Launch) : (s.onLaunch l f).peers = s.peers := rfl
@[simp] theorem State.onLaunch_security (s : State) (l : Nat) (f : Launch → Launch) : (s.onLaunch l f).security = s.security := rfl
@[simp] theorem State.onLaunch_invasive (s : State) (l : Nat) (f : Launch → Launch) : (s.onLaunch l f).invasive = s.invasive := rfl
@[simp] theorem State.onLaunch_power (s : State) (l : Nat) (f : Launch → Launch) : (s.onLaunch l f).power = s.power := rfl
@[simp] theorem State.onLaunch_boot (s : State) (l : Nat) (f : Launch → Launch) : (s.onLaunch l f).boot = s.boot := rfl
@[simp] theorem State.onLaunch_firmware (s : State) (l : Nat) (f : Launch → Launch) : (s.onLaunch l f).firmware = s.firmware := rfl
@[simp] theorem State.onLaunch_msix (s : State) (l : Nat) (f : Launch → Launch) : (s.onLaunch l f).msix = s.msix := rfl

@[simp] theorem State.onLaunch_launches (s : State) (l : Nat) (f : Launch → Launch) :
    (s.onLaunch l f).launches = tabModify s.launches l f := rfl

/-! ### State.onCtx -/

@[simp] theorem State.onCtx_agenda (s : State) (vf : Nat) (f : Context → Context) : (s.onCtx vf f).agenda = s.agenda := rfl
@[simp] theorem State.onCtx_picks (s : State) (vf : Nat) (f : Context → Context) : (s.onCtx vf f).picks = s.picks := rfl
@[simp] theorem State.onCtx_freeCtr (s : State) (vf : Nat) (f : Context → Context) : (s.onCtx vf f).freeCtr = s.freeCtr := rfl
@[simp] theorem State.onCtx_cur (s : State) (vf : Nat) (f : Context → Context) : (s.onCtx vf f).cur = s.cur := rfl
@[simp] theorem State.onCtx_round (s : State) (vf : Nat) (f : Context → Context) : (s.onCtx vf f).round = s.round := rfl
@[simp] theorem State.onCtx_nextId (s : State) (vf : Nat) (f : Context → Context) : (s.onCtx vf f).nextId = s.nextId := rfl
@[simp] theorem State.onCtx_formed (s : State) (vf : Nat) (f : Context → Context) : (s.onCtx vf f).formed = s.formed := rfl
@[simp] theorem State.onCtx_under (s : State) (vf : Nat) (f : Context → Context) : (s.onCtx vf f).under = s.under := rfl
@[simp] theorem State.onCtx_mem (s : State) (vf : Nat) (f : Context → Context) : (s.onCtx vf f).mem = s.mem := rfl
@[simp] theorem State.onCtx_hist (s : State) (vf : Nat) (f : Context → Context) : (s.onCtx vf f).hist = s.hist := rfl
@[simp] theorem State.onCtx_writes (s : State) (vf : Nat) (f : Context → Context) : (s.onCtx vf f).writes = s.writes := rfl
@[simp] theorem State.onCtx_nextWrite (s : State) (vf : Nat) (f : Context → Context) : (s.onCtx vf f).nextWrite = s.nextWrite := rfl
@[simp] theorem State.onCtx_entries (s : State) (vf : Nat) (f : Context → Context) : (s.onCtx vf f).entries = s.entries := rfl
@[simp] theorem State.onCtx_bindings (s : State) (vf : Nat) (f : Context → Context) : (s.onCtx vf f).bindings = s.bindings := rfl
@[simp] theorem State.onCtx_sc (s : State) (vf : Nat) (f : Context → Context) : (s.onCtx vf f).sc = s.sc := rfl
@[simp] theorem State.onCtx_hostView (s : State) (vf : Nat) (f : Context → Context) : (s.onCtx vf f).hostView = s.hostView := rfl
@[simp] theorem State.onCtx_pend (s : State) (vf : Nat) (f : Context → Context) : (s.onCtx vf f).pend = s.pend := rfl
@[simp] theorem State.onCtx_prods (s : State) (vf : Nat) (f : Context → Context) : (s.onCtx vf f).prods = s.prods := rfl
@[simp] theorem State.onCtx_flash (s : State) (vf : Nat) (f : Context → Context) : (s.onCtx vf f).flash = s.flash := rfl
@[simp] theorem State.onCtx_teams (s : State) (vf : Nat) (f : Context → Context) : (s.onCtx vf f).teams = s.teams := rfl
@[simp] theorem State.onCtx_groups (s : State) (vf : Nat) (f : Context → Context) : (s.onCtx vf f).groups = s.groups := rfl
@[simp] theorem State.onCtx_launches (s : State) (vf : Nat) (f : Context → Context) : (s.onCtx vf f).launches = s.launches := rfl
@[simp] theorem State.onCtx_stale (s : State) (vf : Nat) (f : Context → Context) : (s.onCtx vf f).stale = s.stale := rfl
@[simp] theorem State.onCtx_copies (s : State) (vf : Nat) (f : Context → Context) : (s.onCtx vf f).copies = s.copies := rfl
@[simp] theorem State.onCtx_commands (s : State) (vf : Nat) (f : Context → Context) : (s.onCtx vf f).commands = s.commands := rfl
@[simp] theorem State.onCtx_issues (s : State) (vf : Nat) (f : Context → Context) : (s.onCtx vf f).issues = s.issues := rfl
@[simp] theorem State.onCtx_soft (s : State) (vf : Nat) (f : Context → Context) : (s.onCtx vf f).soft = s.soft := rfl
@[simp] theorem State.onCtx_puts (s : State) (vf : Nat) (f : Context → Context) : (s.onCtx vf f).puts = s.puts := rfl
@[simp] theorem State.onCtx_inbound (s : State) (vf : Nat) (f : Context → Context) : (s.onCtx vf f).inbound = s.inbound := rfl
@[simp] theorem State.onCtx_alloc (s : State) (vf : Nat) (f : Context → Context) : (s.onCtx vf f).alloc = s.alloc := rfl
@[simp] theorem State.onCtx_frames (s : State) (vf : Nat) (f : Context → Context) : (s.onCtx vf f).frames = s.frames := rfl
@[simp] theorem State.onCtx_pinned (s : State) (vf : Nat) (f : Context → Context) : (s.onCtx vf f).pinned = s.pinned := rfl
@[simp] theorem State.onCtx_held (s : State) (vf : Nat) (f : Context → Context) : (s.onCtx vf f).held = s.held := rfl
@[simp] theorem State.onCtx_hostDenied (s : State) (vf : Nat) (f : Context → Context) : (s.onCtx vf f).hostDenied = s.hostDenied := rfl
@[simp] theorem State.onCtx_marks (s : State) (vf : Nat) (f : Context → Context) : (s.onCtx vf f).marks = s.marks := rfl
@[simp] theorem State.onCtx_corrected (s : State) (vf : Nat) (f : Context → Context) : (s.onCtx vf f).corrected = s.corrected := rfl
@[simp] theorem State.onCtx_embRows (s : State) (vf : Nat) (f : Context → Context) : (s.onCtx vf f).embRows = s.embRows := rfl
@[simp] theorem State.onCtx_beacon (s : State) (vf : Nat) (f : Context → Context) : (s.onCtx vf f).beacon = s.beacon := rfl
@[simp] theorem State.onCtx_bwmon (s : State) (vf : Nat) (f : Context → Context) : (s.onCtx vf f).bwmon = s.bwmon := rfl
@[simp] theorem State.onCtx_bwWindow (s : State) (vf : Nat) (f : Context → Context) : (s.onCtx vf f).bwWindow = s.bwWindow := rfl
@[simp] theorem State.onCtx_cores (s : State) (vf : Nat) (f : Context → Context) : (s.onCtx vf f).cores = s.cores := rfl
@[simp] theorem State.onCtx_stackSet (s : State) (vf : Nat) (f : Context → Context) : (s.onCtx vf f).stackSet = s.stackSet := rfl
@[simp] theorem State.onCtx_ports (s : State) (vf : Nat) (f : Context → Context) : (s.onCtx vf f).ports = s.ports := rfl
@[simp] theorem State.onCtx_portUp (s : State) (vf : Nat) (f : Context → Context) : (s.onCtx vf f).portUp = s.portUp := rfl
@[simp] theorem State.onCtx_served (s : State) (vf : Nat) (f : Context → Context) : (s.onCtx vf f).served = s.served := rfl
@[simp] theorem State.onCtx_mailbox (s : State) (vf : Nat) (f : Context → Context) : (s.onCtx vf f).mailbox = s.mailbox := rfl
@[simp] theorem State.onCtx_nonce (s : State) (vf : Nat) (f : Context → Context) : (s.onCtx vf f).nonce = s.nonce := rfl
@[simp] theorem State.onCtx_peers (s : State) (vf : Nat) (f : Context → Context) : (s.onCtx vf f).peers = s.peers := rfl
@[simp] theorem State.onCtx_security (s : State) (vf : Nat) (f : Context → Context) : (s.onCtx vf f).security = s.security := rfl
@[simp] theorem State.onCtx_invasive (s : State) (vf : Nat) (f : Context → Context) : (s.onCtx vf f).invasive = s.invasive := rfl
@[simp] theorem State.onCtx_power (s : State) (vf : Nat) (f : Context → Context) : (s.onCtx vf f).power = s.power := rfl
@[simp] theorem State.onCtx_boot (s : State) (vf : Nat) (f : Context → Context) : (s.onCtx vf f).boot = s.boot := rfl
@[simp] theorem State.onCtx_firmware (s : State) (vf : Nat) (f : Context → Context) : (s.onCtx vf f).firmware = s.firmware := rfl
@[simp] theorem State.onCtx_msix (s : State) (vf : Nat) (f : Context → Context) : (s.onCtx vf f).msix = s.msix := rfl

@[simp] theorem State.onCtx_ctxs (s : State) (vf : Nat) (f : Context → Context) :
    (s.onCtx vf f).ctxs = tabSet s.ctxs vf (f (s.ctx vf)) := rfl

/-! ### Team.vSet -/

@[simp] theorem Team.vSet_launch (tm : Team) (r l : Nat) (w : Word32) : (tm.vSet r l w).launch = tm.launch := rfl
@[simp] theorem Team.vSet_group (tm : Team) (r l : Nat) (w : Word32) : (tm.vSet r l w).group = tm.group := rfl
@[simp] theorem Team.vSet_idx (tm : Team) (r l : Nat) (w : Word32) : (tm.vSet r l w).idx = tm.idx := rfl
@[simp] theorem Team.vSet_lanes (tm : Team) (r l : Nat) (w : Word32) : (tm.vSet r l w).lanes = tm.lanes := rfl
@[simp] theorem Team.vSet_vcount (tm : Team) (r l : Nat) (w : Word32) : (tm.vSet r l w).vcount = tm.vcount := rfl
@[simp] theorem Team.vSet_vEmpty (tm : Team) (r l : Nat) (w : Word32) : (tm.vSet r l w).vEmpty = tm.vEmpty := rfl
@[simp] theorem Team.vSet_s (tm : Team) (r l : Nat) (w : Word32) : (tm.vSet r l w).s = tm.s := rfl
@[simp] theorem Team.vSet_sEmpty (tm : Team) (r l : Nat) (w : Word32) : (tm.vSet r l w).sEmpty = tm.sEmpty := rfl
@[simp] theorem Team.vSet_m (tm : Team) (r l : Nat) (w : Word32) : (tm.vSet r l w).m = tm.m := rfl
@[simp] theorem Team.vSet_pc (tm : Team) (r l : Nat) (w : Word32) : (tm.vSet r l w).pc = tm.pc := rfl
@[simp] theorem Team.vSet_entered (tm : Team) (r l : Nat) (w : Word32) : (tm.vSet r l w).entered = tm.entered := rfl
@[simp] theorem Team.vSet_checked (tm : Team) (r l : Nat) (w : Word32) : (tm.vSet r l w).checked = tm.checked := rfl
@[simp] theorem Team.vSet_status (tm : Team) (r l : Nat) (w : Word32) : (tm.vSet r l w).status = tm.status := rfl
@[simp] theorem Team.vSet_rm (tm : Team) (r l : Nat) (w : Word32) : (tm.vSet r l w).rm = tm.rm := rfl
@[simp] theorem Team.vSet_skipnf (tm : Team) (r l : Nat) (w : Word32) : (tm.vSet r l w).skipnf = tm.skipnf := rfl
@[simp] theorem Team.vSet_trapcause (tm : Team) (r l : Nat) (w : Word32) : (tm.vSet r l w).trapcause = tm.trapcause := rfl
@[simp] theorem Team.vSet_trappc (tm : Team) (r l : Nat) (w : Word32) : (tm.vSet r l w).trappc = tm.trappc := rfl
@[simp] theorem Team.vSet_masked (tm : Team) (r l : Nat) (w : Word32) : (tm.vSet r l w).masked = tm.masked := rfl
@[simp] theorem Team.vSet_pickthr (tm : Team) (r l : Nat) (w : Word32) : (tm.vSet r l w).pickthr = tm.pickthr := rfl
@[simp] theorem Team.vSet_einjSite (tm : Team) (r l : Nat) (w : Word32) : (tm.vSet r l w).einjSite = tm.einjSite := rfl
@[simp] theorem Team.vSet_einjAddr (tm : Team) (r l : Nat) (w : Word32) : (tm.vSet r l w).einjAddr = tm.einjAddr := rfl
@[simp] theorem Team.vSet_wid (tm : Team) (r l : Nat) (w : Word32) : (tm.vSet r l w).wid = tm.wid := rfl
@[simp] theorem Team.vSet_packed (tm : Team) (r l : Nat) (w : Word32) : (tm.vSet r l w).packed = tm.packed := rfl
@[simp] theorem Team.vSet_e (tm : Team) (r l : Nat) (w : Word32) : (tm.vSet r l w).e = tm.e := rfl
@[simp] theorem Team.vSet_x (tm : Team) (r l : Nat) (w : Word32) : (tm.vSet r l w).x = tm.x := rfl
@[simp] theorem Team.vSet_stack (tm : Team) (r l : Nat) (w : Word32) : (tm.vSet r l w).stack = tm.stack := rfl
@[simp] theorem Team.vSet_block (tm : Team) (r l : Nat) (w : Word32) : (tm.vSet r l w).block = tm.block := rfl
@[simp] theorem Team.vSet_regpc (tm : Team) (r l : Nat) (w : Word32) : (tm.vSet r l w).regpc = tm.regpc := rfl
@[simp] theorem Team.vSet_rvalid (tm : Team) (r l : Nat) (w : Word32) : (tm.vSet r l w).rvalid = tm.rvalid := rfl
@[simp] theorem Team.vSet_regcnt (tm : Team) (r l : Nat) (w : Word32) : (tm.vSet r l w).regcnt = tm.regcnt := rfl
@[simp] theorem Team.vSet_closed (tm : Team) (r l : Nat) (w : Word32) : (tm.vSet r l w).closed = tm.closed := rfl
@[simp] theorem Team.vSet_targets (tm : Team) (r l : Nat) (w : Word32) : (tm.vSet r l w).targets = tm.targets := rfl
@[simp] theorem Team.vSet_gate (tm : Team) (r l : Nat) (w : Word32) : (tm.vSet r l w).gate = tm.gate := rfl
@[simp] theorem Team.vSet_copies (tm : Team) (r l : Nat) (w : Word32) : (tm.vSet r l w).copies = tm.copies := rfl
@[simp] theorem Team.vSet_seq (tm : Team) (r l : Nat) (w : Word32) : (tm.vSet r l w).seq = tm.seq := rfl
@[simp] theorem Team.vSet_recorded (tm : Team) (r l : Nat) (w : Word32) : (tm.vSet r l w).recorded = tm.recorded := rfl
@[simp] theorem Team.vSet_rep (tm : Team) (r l : Nat) (w : Word32) : (tm.vSet r l w).rep = tm.rep := rfl
@[simp] theorem Team.vSet_stall (tm : Team) (r l : Nat) (w : Word32) : (tm.vSet r l w).stall = tm.stall := rfl
@[simp] theorem Team.vSet_phase (tm : Team) (r l : Nat) (w : Word32) : (tm.vSet r l w).phase = tm.phase := rfl
@[simp] theorem Team.vSet_passed (tm : Team) (r l : Nat) (w : Word32) : (tm.vSet r l w).passed = tm.passed := rfl
@[simp] theorem Team.vSet_preheld (tm : Team) (r l : Nat) (w : Word32) : (tm.vSet r l w).preheld = tm.preheld := rfl
@[simp] theorem Team.vSet_forced (tm : Team) (r l : Nat) (w : Word32) : (tm.vSet r l w).forced = tm.forced := rfl
@[simp] theorem Team.vSet_parkedOut (tm : Team) (r l : Nat) (w : Word32) : (tm.vSet r l w).parkedOut = tm.parkedOut := rfl
@[simp] theorem Team.vSet_image (tm : Team) (r l : Nat) (w : Word32) : (tm.vSet r l w).image = tm.image := rfl
@[simp] theorem Team.vSet_ctl (tm : Team) (r l : Nat) (w : Word32) : (tm.vSet r l w).ctl = tm.ctl := rfl
@[simp] theorem Team.vSet_halted (tm : Team) (r l : Nat) (w : Word32) : (tm.vSet r l w).halted = tm.halted := rfl
@[simp] theorem Team.vSet_steps (tm : Team) (r l : Nat) (w : Word32) : (tm.vSet r l w).steps = tm.steps := rfl
@[simp] theorem Team.vSet_pv (tm : Team) (r l : Nat) (w : Word32) : (tm.vSet r l w).pv = tm.pv := rfl
@[simp] theorem Team.vSet_owed (tm : Team) (r l : Nat) (w : Word32) : (tm.vSet r l w).owed = tm.owed := rfl
@[simp] theorem Team.vSet_past (tm : Team) (r l : Nat) (w : Word32) : (tm.vSet r l w).past = tm.past := rfl
@[simp] theorem Team.vSet_clock (tm : Team) (r l : Nat) (w : Word32) : (tm.vSet r l w).clock = tm.clock := rfl

/-! ### Team.sSet -/

@[simp] theorem Team.sSet_launch (tm : Team) (r : Nat) (w : Word64) : (tm.sSet r w).launch = tm.launch := rfl
@[simp] theorem Team.sSet_group (tm : Team) (r : Nat) (w : Word64) : (tm.sSet r w).group = tm.group := rfl
@[simp] theorem Team.sSet_idx (tm : Team) (r : Nat) (w : Word64) : (tm.sSet r w).idx = tm.idx := rfl
@[simp] theorem Team.sSet_lanes (tm : Team) (r : Nat) (w : Word64) : (tm.sSet r w).lanes = tm.lanes := rfl
@[simp] theorem Team.sSet_vcount (tm : Team) (r : Nat) (w : Word64) : (tm.sSet r w).vcount = tm.vcount := rfl
@[simp] theorem Team.sSet_v (tm : Team) (r : Nat) (w : Word64) : (tm.sSet r w).v = tm.v := rfl
@[simp] theorem Team.sSet_vEmpty (tm : Team) (r : Nat) (w : Word64) : (tm.sSet r w).vEmpty = tm.vEmpty := rfl
@[simp] theorem Team.sSet_sEmpty (tm : Team) (r : Nat) (w : Word64) : (tm.sSet r w).sEmpty = tm.sEmpty := rfl
@[simp] theorem Team.sSet_m (tm : Team) (r : Nat) (w : Word64) : (tm.sSet r w).m = tm.m := rfl
@[simp] theorem Team.sSet_pc (tm : Team) (r : Nat) (w : Word64) : (tm.sSet r w).pc = tm.pc := rfl
@[simp] theorem Team.sSet_entered (tm : Team) (r : Nat) (w : Word64) : (tm.sSet r w).entered = tm.entered := rfl
@[simp] theorem Team.sSet_checked (tm : Team) (r : Nat) (w : Word64) : (tm.sSet r w).checked = tm.checked := rfl
@[simp] theorem Team.sSet_status (tm : Team) (r : Nat) (w : Word64) : (tm.sSet r w).status = tm.status := rfl
@[simp] theorem Team.sSet_rm (tm : Team) (r : Nat) (w : Word64) : (tm.sSet r w).rm = tm.rm := rfl
@[simp] theorem Team.sSet_skipnf (tm : Team) (r : Nat) (w : Word64) : (tm.sSet r w).skipnf = tm.skipnf := rfl
@[simp] theorem Team.sSet_trapcause (tm : Team) (r : Nat) (w : Word64) : (tm.sSet r w).trapcause = tm.trapcause := rfl
@[simp] theorem Team.sSet_trappc (tm : Team) (r : Nat) (w : Word64) : (tm.sSet r w).trappc = tm.trappc := rfl
@[simp] theorem Team.sSet_masked (tm : Team) (r : Nat) (w : Word64) : (tm.sSet r w).masked = tm.masked := rfl
@[simp] theorem Team.sSet_pickthr (tm : Team) (r : Nat) (w : Word64) : (tm.sSet r w).pickthr = tm.pickthr := rfl
@[simp] theorem Team.sSet_einjSite (tm : Team) (r : Nat) (w : Word64) : (tm.sSet r w).einjSite = tm.einjSite := rfl
@[simp] theorem Team.sSet_einjAddr (tm : Team) (r : Nat) (w : Word64) : (tm.sSet r w).einjAddr = tm.einjAddr := rfl
@[simp] theorem Team.sSet_wid (tm : Team) (r : Nat) (w : Word64) : (tm.sSet r w).wid = tm.wid := rfl
@[simp] theorem Team.sSet_packed (tm : Team) (r : Nat) (w : Word64) : (tm.sSet r w).packed = tm.packed := rfl
@[simp] theorem Team.sSet_e (tm : Team) (r : Nat) (w : Word64) : (tm.sSet r w).e = tm.e := rfl
@[simp] theorem Team.sSet_x (tm : Team) (r : Nat) (w : Word64) : (tm.sSet r w).x = tm.x := rfl
@[simp] theorem Team.sSet_stack (tm : Team) (r : Nat) (w : Word64) : (tm.sSet r w).stack = tm.stack := rfl
@[simp] theorem Team.sSet_block (tm : Team) (r : Nat) (w : Word64) : (tm.sSet r w).block = tm.block := rfl
@[simp] theorem Team.sSet_regpc (tm : Team) (r : Nat) (w : Word64) : (tm.sSet r w).regpc = tm.regpc := rfl
@[simp] theorem Team.sSet_rvalid (tm : Team) (r : Nat) (w : Word64) : (tm.sSet r w).rvalid = tm.rvalid := rfl
@[simp] theorem Team.sSet_regcnt (tm : Team) (r : Nat) (w : Word64) : (tm.sSet r w).regcnt = tm.regcnt := rfl
@[simp] theorem Team.sSet_closed (tm : Team) (r : Nat) (w : Word64) : (tm.sSet r w).closed = tm.closed := rfl
@[simp] theorem Team.sSet_targets (tm : Team) (r : Nat) (w : Word64) : (tm.sSet r w).targets = tm.targets := rfl
@[simp] theorem Team.sSet_gate (tm : Team) (r : Nat) (w : Word64) : (tm.sSet r w).gate = tm.gate := rfl
@[simp] theorem Team.sSet_copies (tm : Team) (r : Nat) (w : Word64) : (tm.sSet r w).copies = tm.copies := rfl
@[simp] theorem Team.sSet_seq (tm : Team) (r : Nat) (w : Word64) : (tm.sSet r w).seq = tm.seq := rfl
@[simp] theorem Team.sSet_recorded (tm : Team) (r : Nat) (w : Word64) : (tm.sSet r w).recorded = tm.recorded := rfl
@[simp] theorem Team.sSet_rep (tm : Team) (r : Nat) (w : Word64) : (tm.sSet r w).rep = tm.rep := rfl
@[simp] theorem Team.sSet_stall (tm : Team) (r : Nat) (w : Word64) : (tm.sSet r w).stall = tm.stall := rfl
@[simp] theorem Team.sSet_phase (tm : Team) (r : Nat) (w : Word64) : (tm.sSet r w).phase = tm.phase := rfl
@[simp] theorem Team.sSet_passed (tm : Team) (r : Nat) (w : Word64) : (tm.sSet r w).passed = tm.passed := rfl
@[simp] theorem Team.sSet_preheld (tm : Team) (r : Nat) (w : Word64) : (tm.sSet r w).preheld = tm.preheld := rfl
@[simp] theorem Team.sSet_forced (tm : Team) (r : Nat) (w : Word64) : (tm.sSet r w).forced = tm.forced := rfl
@[simp] theorem Team.sSet_parkedOut (tm : Team) (r : Nat) (w : Word64) : (tm.sSet r w).parkedOut = tm.parkedOut := rfl
@[simp] theorem Team.sSet_image (tm : Team) (r : Nat) (w : Word64) : (tm.sSet r w).image = tm.image := rfl
@[simp] theorem Team.sSet_ctl (tm : Team) (r : Nat) (w : Word64) : (tm.sSet r w).ctl = tm.ctl := rfl
@[simp] theorem Team.sSet_halted (tm : Team) (r : Nat) (w : Word64) : (tm.sSet r w).halted = tm.halted := rfl
@[simp] theorem Team.sSet_steps (tm : Team) (r : Nat) (w : Word64) : (tm.sSet r w).steps = tm.steps := rfl
@[simp] theorem Team.sSet_pv (tm : Team) (r : Nat) (w : Word64) : (tm.sSet r w).pv = tm.pv := rfl
@[simp] theorem Team.sSet_owed (tm : Team) (r : Nat) (w : Word64) : (tm.sSet r w).owed = tm.owed := rfl
@[simp] theorem Team.sSet_past (tm : Team) (r : Nat) (w : Word64) : (tm.sSet r w).past = tm.past := rfl
@[simp] theorem Team.sSet_clock (tm : Team) (r : Nat) (w : Word64) : (tm.sSet r w).clock = tm.clock := rfl

/-! ### Team.raise -/

@[simp] theorem Team.raise_launch (tm : Team) (f : BitVec 8) : (tm.raise f).launch = tm.launch := rfl
@[simp] theorem Team.raise_group (tm : Team) (f : BitVec 8) : (tm.raise f).group = tm.group := rfl
@[simp] theorem Team.raise_idx (tm : Team) (f : BitVec 8) : (tm.raise f).idx = tm.idx := rfl
@[simp] theorem Team.raise_lanes (tm : Team) (f : BitVec 8) : (tm.raise f).lanes = tm.lanes := rfl
@[simp] theorem Team.raise_vcount (tm : Team) (f : BitVec 8) : (tm.raise f).vcount = tm.vcount := rfl
@[simp] theorem Team.raise_v (tm : Team) (f : BitVec 8) : (tm.raise f).v = tm.v := rfl
@[simp] theorem Team.raise_vEmpty (tm : Team) (f : BitVec 8) : (tm.raise f).vEmpty = tm.vEmpty := rfl
@[simp] theorem Team.raise_s (tm : Team) (f : BitVec 8) : (tm.raise f).s = tm.s := rfl
@[simp] theorem Team.raise_sEmpty (tm : Team) (f : BitVec 8) : (tm.raise f).sEmpty = tm.sEmpty := rfl
@[simp] theorem Team.raise_m (tm : Team) (f : BitVec 8) : (tm.raise f).m = tm.m := rfl
@[simp] theorem Team.raise_pc (tm : Team) (f : BitVec 8) : (tm.raise f).pc = tm.pc := rfl
@[simp] theorem Team.raise_entered (tm : Team) (f : BitVec 8) : (tm.raise f).entered = tm.entered := rfl
@[simp] theorem Team.raise_checked (tm : Team) (f : BitVec 8) : (tm.raise f).checked = tm.checked := rfl
@[simp] theorem Team.raise_rm (tm : Team) (f : BitVec 8) : (tm.raise f).rm = tm.rm := rfl
@[simp] theorem Team.raise_skipnf (tm : Team) (f : BitVec 8) : (tm.raise f).skipnf = tm.skipnf := rfl
@[simp] theorem Team.raise_trapcause (tm : Team) (f : BitVec 8) : (tm.raise f).trapcause = tm.trapcause := rfl
@[simp] theorem Team.raise_trappc (tm : Team) (f : BitVec 8) : (tm.raise f).trappc = tm.trappc := rfl
@[simp] theorem Team.raise_masked (tm : Team) (f : BitVec 8) : (tm.raise f).masked = tm.masked := rfl
@[simp] theorem Team.raise_pickthr (tm : Team) (f : BitVec 8) : (tm.raise f).pickthr = tm.pickthr := rfl
@[simp] theorem Team.raise_einjSite (tm : Team) (f : BitVec 8) : (tm.raise f).einjSite = tm.einjSite := rfl
@[simp] theorem Team.raise_einjAddr (tm : Team) (f : BitVec 8) : (tm.raise f).einjAddr = tm.einjAddr := rfl
@[simp] theorem Team.raise_wid (tm : Team) (f : BitVec 8) : (tm.raise f).wid = tm.wid := rfl
@[simp] theorem Team.raise_packed (tm : Team) (f : BitVec 8) : (tm.raise f).packed = tm.packed := rfl
@[simp] theorem Team.raise_e (tm : Team) (f : BitVec 8) : (tm.raise f).e = tm.e := rfl
@[simp] theorem Team.raise_x (tm : Team) (f : BitVec 8) : (tm.raise f).x = tm.x := rfl
@[simp] theorem Team.raise_stack (tm : Team) (f : BitVec 8) : (tm.raise f).stack = tm.stack := rfl
@[simp] theorem Team.raise_block (tm : Team) (f : BitVec 8) : (tm.raise f).block = tm.block := rfl
@[simp] theorem Team.raise_regpc (tm : Team) (f : BitVec 8) : (tm.raise f).regpc = tm.regpc := rfl
@[simp] theorem Team.raise_rvalid (tm : Team) (f : BitVec 8) : (tm.raise f).rvalid = tm.rvalid := rfl
@[simp] theorem Team.raise_regcnt (tm : Team) (f : BitVec 8) : (tm.raise f).regcnt = tm.regcnt := rfl
@[simp] theorem Team.raise_closed (tm : Team) (f : BitVec 8) : (tm.raise f).closed = tm.closed := rfl
@[simp] theorem Team.raise_targets (tm : Team) (f : BitVec 8) : (tm.raise f).targets = tm.targets := rfl
@[simp] theorem Team.raise_gate (tm : Team) (f : BitVec 8) : (tm.raise f).gate = tm.gate := rfl
@[simp] theorem Team.raise_copies (tm : Team) (f : BitVec 8) : (tm.raise f).copies = tm.copies := rfl
@[simp] theorem Team.raise_seq (tm : Team) (f : BitVec 8) : (tm.raise f).seq = tm.seq := rfl
@[simp] theorem Team.raise_recorded (tm : Team) (f : BitVec 8) : (tm.raise f).recorded = tm.recorded := rfl
@[simp] theorem Team.raise_rep (tm : Team) (f : BitVec 8) : (tm.raise f).rep = tm.rep := rfl
@[simp] theorem Team.raise_stall (tm : Team) (f : BitVec 8) : (tm.raise f).stall = tm.stall := rfl
@[simp] theorem Team.raise_phase (tm : Team) (f : BitVec 8) : (tm.raise f).phase = tm.phase := rfl
@[simp] theorem Team.raise_passed (tm : Team) (f : BitVec 8) : (tm.raise f).passed = tm.passed := rfl
@[simp] theorem Team.raise_preheld (tm : Team) (f : BitVec 8) : (tm.raise f).preheld = tm.preheld := rfl
@[simp] theorem Team.raise_forced (tm : Team) (f : BitVec 8) : (tm.raise f).forced = tm.forced := rfl
@[simp] theorem Team.raise_parkedOut (tm : Team) (f : BitVec 8) : (tm.raise f).parkedOut = tm.parkedOut := rfl
@[simp] theorem Team.raise_image (tm : Team) (f : BitVec 8) : (tm.raise f).image = tm.image := rfl
@[simp] theorem Team.raise_ctl (tm : Team) (f : BitVec 8) : (tm.raise f).ctl = tm.ctl := rfl
@[simp] theorem Team.raise_halted (tm : Team) (f : BitVec 8) : (tm.raise f).halted = tm.halted := rfl
@[simp] theorem Team.raise_steps (tm : Team) (f : BitVec 8) : (tm.raise f).steps = tm.steps := rfl
@[simp] theorem Team.raise_pv (tm : Team) (f : BitVec 8) : (tm.raise f).pv = tm.pv := rfl
@[simp] theorem Team.raise_owed (tm : Team) (f : BitVec 8) : (tm.raise f).owed = tm.owed := rfl
@[simp] theorem Team.raise_past (tm : Team) (f : BitVec 8) : (tm.raise f).past = tm.past := rfl
@[simp] theorem Team.raise_clock (tm : Team) (f : BitVec 8) : (tm.raise f).clock = tm.clock := rfl

@[simp] theorem Team.raise_status (tm : Team) (f : BitVec 8) : (tm.raise f).status = tm.status ||| f := rfl

/-! ### Team.goto -/

@[simp] theorem Team.goto_launch (tm : Team) (pc : Word64) (checked anew : Bool) : (tm.goto pc checked anew).launch = tm.launch := rfl
@[simp] theorem Team.goto_group (tm : Team) (pc : Word64) (checked anew : Bool) : (tm.goto pc checked anew).group = tm.group := rfl
@[simp] theorem Team.goto_idx (tm : Team) (pc : Word64) (checked anew : Bool) : (tm.goto pc checked anew).idx = tm.idx := rfl
@[simp] theorem Team.goto_lanes (tm : Team) (pc : Word64) (checked anew : Bool) : (tm.goto pc checked anew).lanes = tm.lanes := rfl
@[simp] theorem Team.goto_vcount (tm : Team) (pc : Word64) (checked anew : Bool) : (tm.goto pc checked anew).vcount = tm.vcount := rfl
@[simp] theorem Team.goto_v (tm : Team) (pc : Word64) (checked anew : Bool) : (tm.goto pc checked anew).v = tm.v := rfl
@[simp] theorem Team.goto_vEmpty (tm : Team) (pc : Word64) (checked anew : Bool) : (tm.goto pc checked anew).vEmpty = tm.vEmpty := rfl
@[simp] theorem Team.goto_s (tm : Team) (pc : Word64) (checked anew : Bool) : (tm.goto pc checked anew).s = tm.s := rfl
@[simp] theorem Team.goto_sEmpty (tm : Team) (pc : Word64) (checked anew : Bool) : (tm.goto pc checked anew).sEmpty = tm.sEmpty := rfl
@[simp] theorem Team.goto_m (tm : Team) (pc : Word64) (checked anew : Bool) : (tm.goto pc checked anew).m = tm.m := rfl
@[simp] theorem Team.goto_status (tm : Team) (pc : Word64) (checked anew : Bool) : (tm.goto pc checked anew).status = tm.status := rfl
@[simp] theorem Team.goto_rm (tm : Team) (pc : Word64) (checked anew : Bool) : (tm.goto pc checked anew).rm = tm.rm := rfl
@[simp] theorem Team.goto_skipnf (tm : Team) (pc : Word64) (checked anew : Bool) : (tm.goto pc checked anew).skipnf = tm.skipnf := rfl
@[simp] theorem Team.goto_trapcause (tm : Team) (pc : Word64) (checked anew : Bool) : (tm.goto pc checked anew).trapcause = tm.trapcause := rfl
@[simp] theorem Team.goto_trappc (tm : Team) (pc : Word64) (checked anew : Bool) : (tm.goto pc checked anew).trappc = tm.trappc := rfl
@[simp] theorem Team.goto_masked (tm : Team) (pc : Word64) (checked anew : Bool) : (tm.goto pc checked anew).masked = tm.masked := rfl
@[simp] theorem Team.goto_pickthr (tm : Team) (pc : Word64) (checked anew : Bool) : (tm.goto pc checked anew).pickthr = tm.pickthr := rfl
@[simp] theorem Team.goto_einjSite (tm : Team) (pc : Word64) (checked anew : Bool) : (tm.goto pc checked anew).einjSite = tm.einjSite := rfl
@[simp] theorem Team.goto_einjAddr (tm : Team) (pc : Word64) (checked anew : Bool) : (tm.goto pc checked anew).einjAddr = tm.einjAddr := rfl
@[simp] theorem Team.goto_wid (tm : Team) (pc : Word64) (checked anew : Bool) : (tm.goto pc checked anew).wid = tm.wid := rfl
@[simp] theorem Team.goto_packed (tm : Team) (pc : Word64) (checked anew : Bool) : (tm.goto pc checked anew).packed = tm.packed := rfl
@[simp] theorem Team.goto_e (tm : Team) (pc : Word64) (checked anew : Bool) : (tm.goto pc checked anew).e = tm.e := rfl
@[simp] theorem Team.goto_x (tm : Team) (pc : Word64) (checked anew : Bool) : (tm.goto pc checked anew).x = tm.x := rfl
@[simp] theorem Team.goto_stack (tm : Team) (pc : Word64) (checked anew : Bool) : (tm.goto pc checked anew).stack = tm.stack := rfl
@[simp] theorem Team.goto_block (tm : Team) (pc : Word64) (checked anew : Bool) : (tm.goto pc checked anew).block = tm.block := rfl
@[simp] theorem Team.goto_regpc (tm : Team) (pc : Word64) (checked anew : Bool) : (tm.goto pc checked anew).regpc = tm.regpc := rfl
@[simp] theorem Team.goto_rvalid (tm : Team) (pc : Word64) (checked anew : Bool) : (tm.goto pc checked anew).rvalid = tm.rvalid := rfl
@[simp] theorem Team.goto_regcnt (tm : Team) (pc : Word64) (checked anew : Bool) : (tm.goto pc checked anew).regcnt = tm.regcnt := rfl
@[simp] theorem Team.goto_closed (tm : Team) (pc : Word64) (checked anew : Bool) : (tm.goto pc checked anew).closed = tm.closed := rfl
@[simp] theorem Team.goto_targets (tm : Team) (pc : Word64) (checked anew : Bool) : (tm.goto pc checked anew).targets = tm.targets := rfl
@[simp] theorem Team.goto_gate (tm : Team) (pc : Word64) (checked anew : Bool) : (tm.goto pc checked anew).gate = tm.gate := rfl
@[simp] theorem Team.goto_copies (tm : Team) (pc : Word64) (checked anew : Bool) : (tm.goto pc checked anew).copies = tm.copies := rfl
@[simp] theorem Team.goto_seq (tm : Team) (pc : Word64) (checked anew : Bool) : (tm.goto pc checked anew).seq = tm.seq := rfl
@[simp] theorem Team.goto_phase (tm : Team) (pc : Word64) (checked anew : Bool) : (tm.goto pc checked anew).phase = tm.phase := rfl
@[simp] theorem Team.goto_passed (tm : Team) (pc : Word64) (checked anew : Bool) : (tm.goto pc checked anew).passed = tm.passed := rfl
@[simp] theorem Team.goto_preheld (tm : Team) (pc : Word64) (checked anew : Bool) : (tm.goto pc checked anew).preheld = tm.preheld := rfl
@[simp] theorem Team.goto_forced (tm : Team) (pc : Word64) (checked anew : Bool) : (tm.goto pc checked anew).forced = tm.forced := rfl
@[simp] theorem Team.goto_parkedOut (tm : Team) (pc : Word64) (checked anew : Bool) : (tm.goto pc checked anew).parkedOut = tm.parkedOut := rfl
@[simp] theorem Team.goto_image (tm : Team) (pc : Word64) (checked anew : Bool) : (tm.goto pc checked anew).image = tm.image := rfl
@[simp] theorem Team.goto_ctl (tm : Team) (pc : Word64) (checked anew : Bool) : (tm.goto pc checked anew).ctl = tm.ctl := rfl
@[simp] theorem Team.goto_halted (tm : Team) (pc : Word64) (checked anew : Bool) : (tm.goto pc checked anew).halted = tm.halted := rfl
@[simp] theorem Team.goto_steps (tm : Team) (pc : Word64) (checked anew : Bool) : (tm.goto pc checked anew).steps = tm.steps := rfl
@[simp] theorem Team.goto_pv (tm : Team) (pc : Word64) (checked anew : Bool) : (tm.goto pc checked anew).pv = tm.pv := rfl
@[simp] theorem Team.goto_owed (tm : Team) (pc : Word64) (checked anew : Bool) : (tm.goto pc checked anew).owed = tm.owed := rfl
@[simp] theorem Team.goto_past (tm : Team) (pc : Word64) (checked anew : Bool) : (tm.goto pc checked anew).past = tm.past := rfl
@[simp] theorem Team.goto_clock (tm : Team) (pc : Word64) (checked anew : Bool) : (tm.goto pc checked anew).clock = tm.clock := rfl

@[simp] theorem Team.goto_pc (tm : Team) (pc : Word64) (checked anew : Bool) : (tm.goto pc checked anew).pc = pc := rfl
@[simp] theorem Team.goto_checked (tm : Team) (pc : Word64) (checked anew : Bool) : (tm.goto pc checked anew).checked = checked := rfl
@[simp] theorem Team.goto_recorded (tm : Team) (pc : Word64) (checked anew : Bool) : (tm.goto pc checked anew).recorded = false := rfl
@[simp] theorem Team.goto_stall (tm : Team) (pc : Word64) (checked anew : Bool) : (tm.goto pc checked anew).stall = .none := rfl
@[simp] theorem Team.goto_rep (tm : Team) (pc : Word64) (checked anew : Bool) : (tm.goto pc checked anew).rep = none := rfl

/-! ### Team.setMasked -/

@[simp] theorem Team.setMasked_launch (tm : Team) (b : Bool) : (tm.setMasked b).launch = tm.launch := rfl
@[simp] theorem Team.setMasked_group (tm : Team) (b : Bool) : (tm.setMasked b).group = tm.group := rfl
@[simp] theorem Team.setMasked_idx (tm : Team) (b : Bool) : (tm.setMasked b).idx = tm.idx := rfl
@[simp] theorem Team.setMasked_lanes (tm : Team) (b : Bool) : (tm.setMasked b).lanes = tm.lanes := rfl
@[simp] theorem Team.setMasked_vcount (tm : Team) (b : Bool) : (tm.setMasked b).vcount = tm.vcount := rfl
@[simp] theorem Team.setMasked_v (tm : Team) (b : Bool) : (tm.setMasked b).v = tm.v := rfl
@[simp] theorem Team.setMasked_vEmpty (tm : Team) (b : Bool) : (tm.setMasked b).vEmpty = tm.vEmpty := rfl
@[simp] theorem Team.setMasked_s (tm : Team) (b : Bool) : (tm.setMasked b).s = tm.s := rfl
@[simp] theorem Team.setMasked_sEmpty (tm : Team) (b : Bool) : (tm.setMasked b).sEmpty = tm.sEmpty := rfl
@[simp] theorem Team.setMasked_m (tm : Team) (b : Bool) : (tm.setMasked b).m = tm.m := rfl
@[simp] theorem Team.setMasked_pc (tm : Team) (b : Bool) : (tm.setMasked b).pc = tm.pc := rfl
@[simp] theorem Team.setMasked_entered (tm : Team) (b : Bool) : (tm.setMasked b).entered = tm.entered := rfl
@[simp] theorem Team.setMasked_checked (tm : Team) (b : Bool) : (tm.setMasked b).checked = tm.checked := rfl
@[simp] theorem Team.setMasked_status (tm : Team) (b : Bool) : (tm.setMasked b).status = tm.status := rfl
@[simp] theorem Team.setMasked_rm (tm : Team) (b : Bool) : (tm.setMasked b).rm = tm.rm := rfl
@[simp] theorem Team.setMasked_skipnf (tm : Team) (b : Bool) : (tm.setMasked b).skipnf = tm.skipnf := rfl
@[simp] theorem Team.setMasked_trapcause (tm : Team) (b : Bool) : (tm.setMasked b).trapcause = tm.trapcause := rfl
@[simp] theorem Team.setMasked_trappc (tm : Team) (b : Bool) : (tm.setMasked b).trappc = tm.trappc := rfl
@[simp] theorem Team.setMasked_pickthr (tm : Team) (b : Bool) : (tm.setMasked b).pickthr = tm.pickthr := rfl
@[simp] theorem Team.setMasked_einjSite (tm : Team) (b : Bool) : (tm.setMasked b).einjSite = tm.einjSite := rfl
@[simp] theorem Team.setMasked_einjAddr (tm : Team) (b : Bool) : (tm.setMasked b).einjAddr = tm.einjAddr := rfl
@[simp] theorem Team.setMasked_wid (tm : Team) (b : Bool) : (tm.setMasked b).wid = tm.wid := rfl
@[simp] theorem Team.setMasked_packed (tm : Team) (b : Bool) : (tm.setMasked b).packed = tm.packed := rfl
@[simp] theorem Team.setMasked_e (tm : Team) (b : Bool) : (tm.setMasked b).e = tm.e := rfl
@[simp] theorem Team.setMasked_x (tm : Team) (b : Bool) : (tm.setMasked b).x = tm.x := rfl
@[simp] theorem Team.setMasked_stack (tm : Team) (b : Bool) : (tm.setMasked b).stack = tm.stack := rfl
@[simp] theorem Team.setMasked_block (tm : Team) (b : Bool) : (tm.setMasked b).block = tm.block := rfl
@[simp] theorem Team.setMasked_regpc (tm : Team) (b : Bool) : (tm.setMasked b).regpc = tm.regpc := rfl
@[simp] theorem Team.setMasked_rvalid (tm : Team) (b : Bool) : (tm.setMasked b).rvalid = tm.rvalid := rfl
@[simp] theorem Team.setMasked_regcnt (tm : Team) (b : Bool) : (tm.setMasked b).regcnt = tm.regcnt := rfl
@[simp] theorem Team.setMasked_closed (tm : Team) (b : Bool) : (tm.setMasked b).closed = tm.closed := rfl
@[simp] theorem Team.setMasked_targets (tm : Team) (b : Bool) : (tm.setMasked b).targets = tm.targets := rfl
@[simp] theorem Team.setMasked_gate (tm : Team) (b : Bool) : (tm.setMasked b).gate = tm.gate := rfl
@[simp] theorem Team.setMasked_copies (tm : Team) (b : Bool) : (tm.setMasked b).copies = tm.copies := rfl
@[simp] theorem Team.setMasked_seq (tm : Team) (b : Bool) : (tm.setMasked b).seq = tm.seq := rfl
@[simp] theorem Team.setMasked_recorded (tm : Team) (b : Bool) : (tm.setMasked b).recorded = tm.recorded := rfl
@[simp] theorem Team.setMasked_rep (tm : Team) (b : Bool) : (tm.setMasked b).rep = tm.rep := rfl
@[simp] theorem Team.setMasked_stall (tm : Team) (b : Bool) : (tm.setMasked b).stall = tm.stall := rfl
@[simp] theorem Team.setMasked_phase (tm : Team) (b : Bool) : (tm.setMasked b).phase = tm.phase := rfl
@[simp] theorem Team.setMasked_passed (tm : Team) (b : Bool) : (tm.setMasked b).passed = tm.passed := rfl
@[simp] theorem Team.setMasked_parkedOut (tm : Team) (b : Bool) : (tm.setMasked b).parkedOut = tm.parkedOut := rfl
@[simp] theorem Team.setMasked_image (tm : Team) (b : Bool) : (tm.setMasked b).image = tm.image := rfl
@[simp] theorem Team.setMasked_halted (tm : Team) (b : Bool) : (tm.setMasked b).halted = tm.halted := rfl
@[simp] theorem Team.setMasked_steps (tm : Team) (b : Bool) : (tm.setMasked b).steps = tm.steps := rfl
@[simp] theorem Team.setMasked_pv (tm : Team) (b : Bool) : (tm.setMasked b).pv = tm.pv := rfl
@[simp] theorem Team.setMasked_owed (tm : Team) (b : Bool) : (tm.setMasked b).owed = tm.owed := rfl
@[simp] theorem Team.setMasked_past (tm : Team) (b : Bool) : (tm.setMasked b).past = tm.past := rfl
@[simp] theorem Team.setMasked_clock (tm : Team) (b : Bool) : (tm.setMasked b).clock = tm.clock := rfl

@[simp] theorem Team.setMasked_masked (tm : Team) (b : Bool) : (tm.setMasked b).masked = b := rfl

/-! ### Reading registers back -/

theorem Team.vGet_vSet (tm : Team) (r l r' l' : Nat) (w : Word32) :
    (tm.vSet r l w).vGet r' l' = if r' = r ∧ l' = l then w else tm.vGet r' l' := by
  simp only [Team.vGet, Team.vSet, nth_putAt]
  by_cases hr : r' = r
  · subst hr
    simp [nth_putAt]
  · simp [hr]

theorem Team.sGet_sSet (tm : Team) (r r' : Nat) (w : Word64) :
    (tm.sSet r w).sGet r' = if r' = r then w else tm.sGet r' := by simp [Team.sGet, Team.sSet, nth_putAt]

@[simp] theorem Team.sGet_vSet (tm : Team) (r l r' : Nat) (w : Word32) : (tm.vSet r l w).sGet r' = tm.sGet r' := rfl

@[simp] theorem Team.vGet_sSet (tm : Team) (r r' l' : Nat) (w : Word64) : (tm.sSet r w).vGet r' l' = tm.vGet r' l' := rfl

@[simp] theorem Team.vGet_raise (tm : Team) (f : BitVec 8) (r l : Nat) : (tm.raise f).vGet r l = tm.vGet r l := rfl

@[simp] theorem Team.sGet_raise (tm : Team) (f : BitVec 8) (r : Nat) : (tm.raise f).sGet r = tm.sGet r := rfl

@[simp] theorem Team.vGet_goto (tm : Team) (pc : Word64) (c a : Bool) (r l : Nat) :
    (tm.goto pc c a).vGet r l = tm.vGet r l := rfl

@[simp] theorem Team.sGet_goto (tm : Team) (pc : Word64) (c a : Bool) (r : Nat) : (tm.goto pc c a).sGet r = tm.sGet r := rfl

/-! ### Team.advance -/

/-- Past a completed instruction the team differs only in its PC and in what the line checks, the wait and REP hold. -/
theorem Team.advance_same (tm : Team) (e c r : Bool) (p : Word64) :
    { tm.advance with pc := p, entered := e, checked := c, recorded := r, stall := .none, rep := none } =
      { tm with pc := p, entered := e, checked := c, recorded := r, stall := .none, rep := none } := by
  unfold Team.advance
  split
  · split <;> rfl
  · rfl

@[simp] theorem Team.advance_launch (tm : Team) : tm.advance.launch = tm.launch := by
  unfold Team.advance
  split
  · split <;> rfl
  · rfl
@[simp] theorem Team.advance_group (tm : Team) : tm.advance.group = tm.group := by
  unfold Team.advance
  split
  · split <;> rfl
  · rfl
@[simp] theorem Team.advance_idx (tm : Team) : tm.advance.idx = tm.idx := by
  unfold Team.advance
  split
  · split <;> rfl
  · rfl
@[simp] theorem Team.advance_lanes (tm : Team) : tm.advance.lanes = tm.lanes := by
  unfold Team.advance
  split
  · split <;> rfl
  · rfl
@[simp] theorem Team.advance_vcount (tm : Team) : tm.advance.vcount = tm.vcount := by
  unfold Team.advance
  split
  · split <;> rfl
  · rfl
@[simp] theorem Team.advance_v (tm : Team) : tm.advance.v = tm.v := by
  unfold Team.advance
  split
  · split <;> rfl
  · rfl
@[simp] theorem Team.advance_vEmpty (tm : Team) : tm.advance.vEmpty = tm.vEmpty := by
  unfold Team.advance
  split
  · split <;> rfl
  · rfl
@[simp] theorem Team.advance_s (tm : Team) : tm.advance.s = tm.s := by
  unfold Team.advance
  split
  · split <;> rfl
  · rfl
@[simp] theorem Team.advance_sEmpty (tm : Team) : tm.advance.sEmpty = tm.sEmpty := by
  unfold Team.advance
  split
  · split <;> rfl
  · rfl
@[simp] theorem Team.advance_m (tm : Team) : tm.advance.m = tm.m := by
  unfold Team.advance
  split
  · split <;> rfl
  · rfl
@[simp] theorem Team.advance_status (tm : Team) : tm.advance.status = tm.status := by
  unfold Team.advance
  split
  · split <;> rfl
  · rfl
@[simp] theorem Team.advance_rm (tm : Team) : tm.advance.rm = tm.rm := by
  unfold Team.advance
  split
  · split <;> rfl
  · rfl
@[simp] theorem Team.advance_skipnf (tm : Team) : tm.advance.skipnf = tm.skipnf := by
  unfold Team.advance
  split
  · split <;> rfl
  · rfl
@[simp] theorem Team.advance_trapcause (tm : Team) : tm.advance.trapcause = tm.trapcause := by
  unfold Team.advance
  split
  · split <;> rfl
  · rfl
@[simp] theorem Team.advance_trappc (tm : Team) : tm.advance.trappc = tm.trappc := by
  unfold Team.advance
  split
  · split <;> rfl
  · rfl
@[simp] theorem Team.advance_masked (tm : Team) : tm.advance.masked = tm.masked := by
  unfold Team.advance
  split
  · split <;> rfl
  · rfl
@[simp] theorem Team.advance_pickthr (tm : Team) : tm.advance.pickthr = tm.pickthr := by
  unfold Team.advance
  split
  · split <;> rfl
  · rfl
@[simp] theorem Team.advance_einjSite (tm : Team) : tm.advance.einjSite = tm.einjSite := by
  unfold Team.advance
  split
  · split <;> rfl
  · rfl
@[simp] theorem Team.advance_einjAddr (tm : Team) : tm.advance.einjAddr = tm.einjAddr := by
  unfold Team.advance
  split
  · split <;> rfl
  · rfl
@[simp] theorem Team.advance_wid (tm : Team) : tm.advance.wid = tm.wid := by
  unfold Team.advance
  split
  · split <;> rfl
  · rfl
@[simp] theorem Team.advance_packed (tm : Team) : tm.advance.packed = tm.packed := by
  unfold Team.advance
  split
  · split <;> rfl
  · rfl
@[simp] theorem Team.advance_e (tm : Team) : tm.advance.e = tm.e := by
  unfold Team.advance
  split
  · split <;> rfl
  · rfl
@[simp] theorem Team.advance_x (tm : Team) : tm.advance.x = tm.x := by
  unfold Team.advance
  split
  · split <;> rfl
  · rfl
@[simp] theorem Team.advance_stack (tm : Team) : tm.advance.stack = tm.stack := by
  unfold Team.advance
  split
  · split <;> rfl
  · rfl
@[simp] theorem Team.advance_block (tm : Team) : tm.advance.block = tm.block := by
  unfold Team.advance
  split
  · split <;> rfl
  · rfl
@[simp] theorem Team.advance_regpc (tm : Team) : tm.advance.regpc = tm.regpc := by
  unfold Team.advance
  split
  · split <;> rfl
  · rfl
@[simp] theorem Team.advance_rvalid (tm : Team) : tm.advance.rvalid = tm.rvalid := by
  unfold Team.advance
  split
  · split <;> rfl
  · rfl
@[simp] theorem Team.advance_regcnt (tm : Team) : tm.advance.regcnt = tm.regcnt := by
  unfold Team.advance
  split
  · split <;> rfl
  · rfl
@[simp] theorem Team.advance_closed (tm : Team) : tm.advance.closed = tm.closed := by
  unfold Team.advance
  split
  · split <;> rfl
  · rfl
@[simp] theorem Team.advance_targets (tm : Team) : tm.advance.targets = tm.targets := by
  unfold Team.advance
  split
  · split <;> rfl
  · rfl
@[simp] theorem Team.advance_gate (tm : Team) : tm.advance.gate = tm.gate := by
  unfold Team.advance
  split
  · split <;> rfl
  · rfl
@[simp] theorem Team.advance_copies (tm : Team) : tm.advance.copies = tm.copies := by
  unfold Team.advance
  split
  · split <;> rfl
  · rfl
@[simp] theorem Team.advance_seq (tm : Team) : tm.advance.seq = tm.seq := by
  unfold Team.advance
  split
  · split <;> rfl
  · rfl
@[simp] theorem Team.advance_phase (tm : Team) : tm.advance.phase = tm.phase := by
  unfold Team.advance
  split
  · split <;> rfl
  · rfl
@[simp] theorem Team.advance_passed (tm : Team) : tm.advance.passed = tm.passed := by
  unfold Team.advance
  split
  · split <;> rfl
  · rfl
@[simp] theorem Team.advance_preheld (tm : Team) : tm.advance.preheld = tm.preheld := by
  unfold Team.advance
  split
  · split <;> rfl
  · rfl
@[simp] theorem Team.advance_forced (tm : Team) : tm.advance.forced = tm.forced := by
  unfold Team.advance
  split
  · split <;> rfl
  · rfl
@[simp] theorem Team.advance_parkedOut (tm : Team) : tm.advance.parkedOut = tm.parkedOut := by
  unfold Team.advance
  split
  · split <;> rfl
  · rfl
@[simp] theorem Team.advance_image (tm : Team) : tm.advance.image = tm.image := by
  unfold Team.advance
  split
  · split <;> rfl
  · rfl
@[simp] theorem Team.advance_ctl (tm : Team) : tm.advance.ctl = tm.ctl := by
  unfold Team.advance
  split
  · split <;> rfl
  · rfl
@[simp] theorem Team.advance_halted (tm : Team) : tm.advance.halted = tm.halted := by
  unfold Team.advance
  split
  · split <;> rfl
  · rfl
@[simp] theorem Team.advance_steps (tm : Team) : tm.advance.steps = tm.steps := by
  unfold Team.advance
  split
  · split <;> rfl
  · rfl
@[simp] theorem Team.advance_pv (tm : Team) : tm.advance.pv = tm.pv := by
  unfold Team.advance
  split
  · split <;> rfl
  · rfl
@[simp] theorem Team.advance_owed (tm : Team) : tm.advance.owed = tm.owed := by
  unfold Team.advance
  split
  · split <;> rfl
  · rfl
@[simp] theorem Team.advance_past (tm : Team) : tm.advance.past = tm.past := by
  unfold Team.advance
  split
  · split <;> rfl
  · rfl
@[simp] theorem Team.advance_clock (tm : Team) : tm.advance.clock = tm.clock := by
  unfold Team.advance
  split
  · split <;> rfl
  · rfl

@[simp] theorem Team.vGet_advance (tm : Team) (r l : Nat) : tm.advance.vGet r l = tm.vGet r l := by simp [Team.vGet]

@[simp] theorem Team.sGet_advance (tm : Team) (r : Nat) : tm.advance.sGet r = tm.sGet r := by simp [Team.sGet]

theorem Team.advance_pc (tm : Team) (h : tm.rep = none) : tm.advance.pc = nextPc tm.pc := by simp [Team.advance, h]

end Sys2Proof.Machine
end

