-- ==== Sys2Proof/Laws/Memory.lean ====
section
/-! SUPPORT. What a write of memory does and what it leaves alone: the operations through which every store, atomic, engine and command
writes; each keeps the canonical form. -/

namespace Sys2Proof.Machine

theorem Memory.wf_reset : Memory.wf State.reset.mem = true := rfl

/-! ### Writing bytes with their history (R223) -/

theorem State.appendBytes_mem (s : State) (w a : Nat) (bs : List Byte) : (s.appendBytes w a bs).mem = memSets s.mem a bs := by
  induction bs generalizing s a with
  | nil => rfl
  | cons b bs ih =>
    rw [State.appendBytes]
    simp only [ih]
    rfl

theorem State.appendBytes_rest (s : State) (w a : Nat) (bs : List Byte) (m : List Host.Cell) (h : Tab (List WriteRef)) :
    { s.appendBytes w a bs with mem := m, hist := h } = { s with mem := m, hist := h } := by
  induction bs generalizing s a with
  | nil => rfl
  | cons b bs ih =>
    rw [State.appendBytes]
    simp only [ih]

@[simp] theorem State.appendBytes_teams (s : State) (w a : Nat) (bs : List Byte) : (s.appendBytes w a bs).teams = s.teams := by
  simpa using congrArg State.teams (s.appendBytes_rest w a bs [] [])

/-! ### The view of a party (R220) -/

@[simp] theorem State.setPv_mem (s : State) (p : Party) (v : PView) : (s.setPv p v).mem = s.mem := by
  cases p <;> simp only [State.setPv]

@[simp] theorem State.takeLatest_mem (s : State) (p : Party) (acq : Option Inst) (a n : Nat) :
    (s.takeLatest p acq a n).mem = s.mem := State.setPv_mem ..

@[simp] theorem State.writeMem_mem (s : State) (p : Party) (rel : Option Inst) (extra : List Msg) (a : Nat) (bs : List Byte) :
    (s.writeMem p rel extra a bs).mem = memSets s.mem a bs := by
  simp [State.writeMem, State.appendBytes_mem]

/-- A write of bytes keeps the canonical form. -/
theorem State.writeMem_wf {s : State} (h : Memory.wf s.mem = true) (p : Party) (rel : Option Inst) (extra : List Msg) (a : Nat)
    (bs : List Byte) : Memory.wf (s.writeMem p rel extra a bs).mem = true := by
  rw [State.writeMem_mem]
  exact Memory.wf_memSets a bs h

/-- What each byte reads as after a write of bytes. -/
theorem State.writeMem_memGet {s : State} (h : Memory.wf s.mem = true) (p : Party) (rel : Option Inst) (extra : List Msg) (a : Nat)
    (bs : List Byte) (c : Nat) : memGet (s.writeMem p rel extra a bs).mem c =
      if a ≤ c ∧ c < a + bs.length then bs.getD (c - a) 0 else memGet s.mem c := by
  rw [State.writeMem_mem, memGet_memSets h]

@[simp] theorem State.writeMask_mem (s : State) (p : Party) (rel : Option Inst) (a : Nat) (data mask : List Byte) :
    (s.writeMask p rel a data mask).mem = memSets s.mem a ((List.range data.length).map fun i =>
      maskByte (nth 0 (memGets s.mem a data.length) i) (nth 0 data i) (nth 0xFF mask i)) := by
  simp [State.writeMask]

theorem State.writeMask_wf {s : State} (h : Memory.wf s.mem = true) (p : Party) (rel : Option Inst) (a : Nat) (data mask : List Byte) :
    Memory.wf (s.writeMask p rel a data mask).mem = true := State.writeMem_wf h ..

/-- An atomic gives the bytes as they were, and leaves f of them. -/
theorem State.updateMem_mem (s : State) (p : Party) (acq rel : Option Inst) (extra : List Msg) (a n : Nat)
    (f : List Byte → List Byte) :
    (s.updateMem p acq rel extra a n f).1 = memGets s.mem a n ∧
      (s.updateMem p acq rel extra a n f).2.mem = memSets s.mem a (f (memGets s.mem a n)) := by
  simp [State.updateMem]

theorem State.updateMem_wf {s : State} (h : Memory.wf s.mem = true) (p : Party) (acq rel : Option Inst) (extra : List Msg) (a n : Nat)
    (f : List Byte → List Byte) : Memory.wf (s.updateMem p acq rel extra a n f).2.mem = true := by
  rw [(s.updateMem_mem p acq rel extra a n f).2]
  exact Memory.wf_memSets a _ h

/-- Whatever is filtered out of memory, the rest keeps the canonical form (R388). -/
theorem Memory.wf_filter {m : List Host.Cell} (p : Host.Cell → Bool) (h : Memory.wf m = true) : Memory.wf (m.filter p) = true := by
  simp only [Memory.wf, Bool.and_eq_true] at h ⊢
  refine ⟨?_, List.all_eq_true.mpr fun c hc => List.all_eq_true.mp h.2 c (List.mem_filter.mp hc).1⟩
  have key : ∀ (l : List Host.Cell) (n : Nat), tabSortedFrom n l = true → tabSortedFrom n (l.filter p) = true := by
    intro l
    induction l with
    | nil => intro n _; rfl
    | cons c l ih =>
      intro n hn
      obtain ⟨k, b⟩ := c
      simp only [tabSortedFrom, Bool.and_eq_true, decide_eq_true_eq] at hn
      simp only [List.filter_cons]
      split
      · simp only [tabSortedFrom, Bool.and_eq_true, decide_eq_true_eq]
        exact ⟨hn.1, ih _ hn.2⟩
      · exact tabSortedFrom_mono (ih _ hn.2) (Nat.le_succ_of_le hn.1)
  exact key m 0 h.1

theorem State.erase_wf {s : State} (h : Memory.wf s.mem = true) : Memory.wf s.erase.mem = true := Memory.wf_filter _ h

/-- The word that is placed for a test stands in memory of canonical form. -/
theorem State.placeWord_wf {s : State} (h : Memory.wf s.mem = true) (slot : Nat) : Memory.wf (s.placeWord slot).mem = true :=
  Memory.wf_memSets _ _ (Memory.wf_memSets _ _ (Memory.wf_memSets _ _ (Memory.wf_memSets _ _ h)))

end Sys2Proof.Machine
end

