-- ==== Sys2Proof/Laws/Operands.lean ====
section
/-! SUPPORT. What the shared shapes of an instruction do, once for each: trapping at step 4, passing with no active lane, completing, and
writing results to registers and masks. -/

namespace Sys2Proof.Machine

theorem State.current_team {s : State} {t : Nat} {tm : Team} (h : s.current = some (t, tm)) : tabGet? s.teams t = some tm := by
  unfold State.current at h
  cases hc : s.cur with
  | none => simp [hc] at h
  | some u =>
    cases ht : tabGet? s.teams u with
    | none => simp [hc, ht] at h
    | some x =>
      simp [hc, ht] at h
      obtain ⟨rfl, rfl⟩ := h
      exact ht

/-- A meaning that runs for the issuing team answers a next state. -/
theorem State.run_current {s : State} {t : Nat} {tm : Team} (h : s.current = some (t, tm)) (f : Nat → Team → Result) :
    s.run f = match f t tm with
      | .ok s1 => .next s1
      | .error (l, e) => .next (s.settle t l e) := by
  cases hf : f t tm <;> simp only [State.run, h, hf]

theorem State.run_ok {s s1 : State} {t : Nat} {tm : Team} {f : Nat → Team → Result} (h : s.current = some (t, tm))
    (hf : f t tm = .ok s1) : s.run f = .next s1 := by rw [State.run_current h, hf]

theorem State.run_error {s : State} {t : Nat} {tm : Team} {f : Nat → Team → Result} {l : LaneSet} {e : Stop}
    (h : s.current = some (t, tm)) (hf : f t tm = .error (l, e)) : s.run f = .next (s.settle t l e) := by
  rw [State.run_current h, hf]

/-- With a team issuing, no meaning of this shape stops the machine. -/
theorem State.run_continues {s : State} {t : Nat} {tm : Team} (h : s.current = some (t, tm)) (f : Nat → Team → Result) :
    ∃ s1, s.run f = .next s1 := by
  rw [State.run_current h]
  split <;> exact ⟨_, rfl⟩

theorem State.settle_trap {s : State} {t : Nat} {tm : Team} (h : s.current = some (t, tm)) (l : LaneSet) (c : Cause) (d a) :
    s.settle t l (.trap c d a) = s.takeTrap t c d a l tm.pc := by simp [State.settle, State.current_team h]

/-! ### State.instruct -/

/-- Step 4 fails: Illegal-Operand, whatever the lanes (R20). -/
theorem State.instruct_illegal {s : State} {t : Nat} {tm : Team} {p : Pred} {us : List Use}
    {more : Team → Bool} {body : Ready → Result} (h : s.current = some (t, tm))
    (hu : (us.all (Use.ok (s.counts tm)) && more tm) = false) :
    s.instruct p us more body = .next (s.takeTrap t .illegalOperand 0 0 0 tm.pc) := by
  unfold State.instruct
  rw [State.run_error h (l := 0) (e := .trap .illegalOperand 0 0)]
  · rw [State.settle_trap h]
  · simp [hu, ensure, trapPlain, stop, bind, Except.bind]

/-- With no active lane only the PC advances, when the instruction is begun so (R20). -/
theorem State.instruct_idle {s : State} {t : Nat} {tm : Team} {p : Pred} {us : List Use}
    {more : Team → Bool} {body : Ready → Result} (h : Issues s t tm us) (hm : more tm = true)
    (hp : s.predMark tm p = none) (hl : activeLanes tm p = []) (hb : tm.stall.begun = false) :
    s.instruct p us more body = .next (s.setTeam t tm.advance) := by
  unfold State.instruct
  apply State.run_ok h.issuing
  have hu : us.all (Use.ok (s.counts tm)) = true := by simpa using h.fields
  have hl' : lanesOf tm.lanes (tm.active p) = [] := hl
  simp [hu, hm, hl', hp, hb, unmarked, ensure, bind, Except.bind]

theorem State.sources_reads {s : State} {t : Nat} {tm : Team} {p : Pred} {us : List Use} (h : Reads s t tm p us) :
    s.sources tm us (actsOnce us) (activeLanes tm p) = .ok () := by
  have hs := h.sources
  have hr := h.unmarked
  unfold readRefs at hs hr
  unfold State.sources
  have h1 : (us.filter (·.read)).find? (fun u => u.fe && (u.refs (u.lanesRead (actsOnce us) tm.lanes (activeLanes tm p))).any tm.isEmpty) = none := by
    rw [List.find?_eq_none]
    intro u hu
    simp only [Bool.and_eq_true, List.any_eq_true, not_and, not_exists]
    intro _ q hq
    simp [hs q (List.mem_flatMap.2 ⟨u, hu, hq⟩)]
  have h2 : ((us.filter (·.read)).flatMap fun u => u.refs (u.lanesRead (actsOnce us) tm.lanes (activeLanes tm p))).filter tm.isEmpty = [] := by
    rw [List.filter_eq_nil_iff]
    intro q hq
    simp [hs q hq]
  simp only [h1, h2, hr, ne_eq, not_true_eq_false, if_false, unmarked]

/-- Steps 4 to 6 pass: the outcome is that of the body. -/
theorem State.instruct_reads {s : State} {t : Nat} {tm : Team} {p : Pred} {us : List Use}
    {more : Team → Bool} {body : Ready → Result} (h : Reads s t tm p us) (hm : more tm = true) :
    s.instruct p us more body = match body ⟨t, tm, tm.active p, activeLanes tm p⟩ with
      | .ok s1 => .next s1
      | .error (l, e) => .next (s.settle t l e) := by
  have hu : us.all (Use.ok (s.counts tm)) = true := by simpa using h.fields
  have hs : s.sources tm us (actsOnce us)
      (lanesOf tm.lanes (tm.active p)) = .ok () := State.sources_reads h
  have hl : (decide (lanesOf tm.lanes (tm.active p) = []) && !tm.stall.begun) = false := by
    rw [decide_eq_false (show lanesOf tm.lanes (tm.active p) ≠ [] from h.active), Bool.false_and]
  unfold State.instruct
  rw [State.run_current h.issuing]
  simp only [hu, hm, hl, hs, h.predicate, unmarked, ensure, Bool.and_self, if_true, Bool.false_eq_true, if_false, bind, Except.bind]
  rfl

theorem State.instruct_body {s s1 : State} {t : Nat} {tm : Team} {p : Pred} {us : List Use}
    {more : Team → Bool} {body : Ready → Result} (h : Reads s t tm p us) (hm : more tm = true)
    (hb : body ⟨t, tm, tm.active p, activeLanes tm p⟩ = .ok s1) : s.instruct p us more body = .next s1 := by
  rw [State.instruct_reads h hm, hb]

/-! ### State.alu -/

theorem destsReady_full {tm : Team} {refs : List RegRef} (h : ∀ q ∈ refs, tm.isEmpty q = false) : destsReady tm refs = .ok () := by
  have : refs.filter tm.isEmpty = [] := by
    rw [List.filter_eq_nil_iff]
    intro q hq
    simp [h q hq]
  simp [destsReady, this]

/-- An instruction that changes its team alone completes with the team that its meaning gives. -/
theorem State.alu_able {s : State} {t : Nat} {tm tm1 : Team} {p : Pred} {us : List Use} {more : Team → Bool}
    {f : Ready → Except (LaneSet × Stop) Team} (h : Able s t tm p us) (hm : more tm = true)
    (hf : f ⟨t, tm, tm.active p, activeLanes tm p⟩ = .ok tm1) : s.alu p us more f = .next (completed s t tm p us tm1) := by
  unfold State.alu
  apply State.instruct_body h.toReads hm
  simp [hf, State.writeBack, destsReady_full h.dests, completed, bind, Except.bind]

/-! ### Writing results -/

theorem Team.vGet_put (tm : Team) (ty : Ty) (d : Opd) (l : Nat) (w : Nat) (r l' : Nat) :
    (tm.put ty d l w).vGet r l' =
      if d.cls = .v ∧ l' = l then
        if ty.is64 then
          if r = d.num.toNat then BitVec.ofNat 32 w
          else if r = d.num.toNat + 1 then BitVec.ofNat 32 (w / 2 ^ 32)
          else tm.vGet r l'
        else if r = d.num.toNat then placeV ty w else tm.vGet r l'
      else tm.vGet r l' := by
  unfold Team.put
  cases hc : d.cls <;> simp
  by_cases h64 : ty.is64
  · simp only [h64, if_true, Team.vGet_vSet]
    by_cases hl : l' = l
    · subst hl
      by_cases h0 : r = d.num.toNat
      · subst h0
        simp
      · simp [h0]
    · simp [hl]
  · simp only [h64, Bool.false_eq_true, if_false, Team.vGet_vSet]
    by_cases hl : l' = l
    · simp [hl]
    · simp [hl]

theorem Team.sGet_put (tm : Team) (ty : Ty) (d : Opd) (l : Nat) (w : Nat) (r : Nat) :
    (tm.put ty d l w).sGet r = if d.cls = .s ∧ r = d.num.toNat then placeS ty w else tm.sGet r := by
  unfold Team.put
  cases hc : d.cls <;> simp
  · split <;> simp
  · simp [Team.sGet_sSet]

theorem Team.put_rest (tm : Team) (ty : Ty) (d : Opd) (l : Nat) (w : Nat) (v s st) :
    { tm.put ty d l w with v := v, s := s, status := st } = { tm with v := v, s := s, status := st } := by
  unfold Team.put
  cases d.cls
  · dsimp only
    split <;> rfl
  · rfl
  · rfl
  · rfl

@[simp] theorem Team.put_status (tm : Team) (ty : Ty) (d : Opd) (l : Nat) (w : Nat) : (tm.put ty d l w).status = tm.status := by
  unfold Team.put
  cases d.cls <;> simp
  split <;> simp

/-- The team after a result and its flags for each of some lanes, the lane results being those of one team. -/
def Team.puts (tm : Team) (ty : Ty) (d : Opd) (f : Nat → Nat × Flags) (lanes : List Nat) : Team :=
  lanes.foldl (fun tm l => (tm.put ty d l (f l).1).raise (f l).2) tm

theorem Team.puts_rest (tm : Team) (ty : Ty) (d : Opd) (f : Nat → Nat × Flags) (lanes : List Nat) (v s st) :
    { tm.puts ty d f lanes with v := v, s := s, status := st } = { tm with v := v, s := s, status := st } := by
  induction lanes generalizing tm with
  | nil => rfl
  | cons l ls ih =>
    rw [Team.puts, List.foldl_cons]
    refine (ih _).trans ?_
    rw [← Team.put_rest tm ty d l (f l).1]
    rfl

theorem Team.puts_status (tm : Team) (ty : Ty) (d : Opd) (f : Nat → Nat × Flags) (lanes : List Nat) :
    (tm.puts ty d f lanes).status = joinFlags tm.status lanes fun l => (f l).2 := by
  induction lanes generalizing tm with
  | nil => rfl
  | cons l ls ih =>
    rw [Team.puts, List.foldl_cons]
    refine (ih _).trans ?_
    simp [joinFlags]

theorem Team.vGet_puts (tm : Team) (ty : Ty) (d : Opd) (f : Nat → Nat × Flags) (lanes : List Nat) (h : lanes.Nodup) (r l : Nat) :
    (tm.puts ty d f lanes).vGet r l = vAfter tm ty d lanes (fun l => (f l).1) r l := by
  induction lanes generalizing tm with
  | nil => simp [vAfter, Team.puts]
  | cons k ls ih =>
    rw [List.nodup_cons] at h
    rw [Team.puts, List.foldl_cons]
    refine (ih _ h.2).trans ?_
    unfold vAfter
    simp only [Team.vGet_raise, Team.vGet_put]
    by_cases hc : d.cls = .v
    · by_cases hl : l = k
      · subst hl
        simp [hc, h.1]
      · simp [hc, hl]
    · simp [hc]

theorem Team.sGet_puts (tm : Team) (ty : Ty) (d : Opd) (f : Nat → Nat × Flags) (lanes : List Nat) (h : d.cls = .s → lanes.length ≤ 1)
    (r : Nat) : (tm.puts ty d f lanes).sGet r = sAfter tm ty d lanes (fun l => (f l).1) r := by
  match lanes with
  | [] => simp [sAfter, Team.puts]
  | [k] => simp [sAfter, Team.puts, Team.sGet_put]
  | k :: k2 :: ls =>
    have hc : d.cls ≠ .s := fun hc => by simpa using h hc
    have : ∀ (ls : List Nat) (tm : Team), (tm.puts ty d f ls).sGet r = tm.sGet r := by
      intro ls
      induction ls with
      | nil => intro tm; rfl
      | cons a as ih =>
        intro tm
        rw [Team.puts, List.foldl_cons]
        exact (ih _).trans (by simp [Team.sGet_put, hc])
    simp [this, sAfter, hc]

theorem resultLanes_nodup (tm : Team) (p : Pred) (d : Opd) : (resultLanes tm p d).Nodup := by
  unfold resultLanes
  split
  · exact (lanesOf_nodup _ _).sublist (List.take_sublist _ _)
  · exact lanesOf_nodup _ _

/-- An instruction with one destination, v or s, completes with the results of its lanes in it, and with their flags. -/
theorem State.lanewise_able {s : State} {t : Nat} {tm : Team} {p : Pred} {ty : Ty} {d : Opd} {us : List Use}
    {f : Team → Nat → Nat × Flags} (h : Able s t tm p us) :
    ∃ tm1, s.lanewise p ty d us f = .next (completed s t tm p us tm1) ∧
      Wrote tm tm1 ty d (resultLanes tm p d) (fun l => (f tm l).1) ∧
      tm1.status = joinFlags tm.status (resultLanes tm p d) fun l => (f tm l).2 := by
  refine ⟨tm.puts ty d (f tm) (resultLanes tm p d), ?_, ⟨fun r l => ?_, fun r => ?_, ?_⟩, ?_⟩
  · unfold State.lanewise
    apply State.alu_able h rfl
    simp only [Except.ok.injEq]
    unfold Ready.results resultLanes Team.puts
    by_cases hd : d.cls = .s <;> simp [hd]
  · exact Team.vGet_puts _ _ _ _ _ (resultLanes_nodup _ _ _) r l
  · apply Team.sGet_puts
    intro hd
    rw [resultLanes, if_pos hd]
    exact List.length_take_le ..
  · exact Team.puts_rest ..
  · exact Team.puts_status ..

/-! ### Writing masks -/

theorem getLsbD_laneBit (i l : Nat) : (laneBit i).getLsbD l = (decide (l = i) && decide (l < 1024)) := by
  unfold laneBit
  rw [BitVec.getLsbD_ofNat, Nat.testBit_two_pow, Bool.and_comm]
  simp [eq_comm]

theorem getLsbD_firstLanes (n l : Nat) : (firstLanes n).getLsbD l = (decide (l < n) && decide (l < 1024)) := by
  unfold firstLanes
  rw [BitVec.getLsbD_ofNat, Nat.testBit_two_pow_sub_one, Bool.and_comm]

theorem getLsbD_laneSet (s : LaneSet) (i l : Nat) (b : Bool) (hl : l < 1024) :
    (laneSet s i b).getLsbD l = if l = i then b else s.getLsbD l := by
  unfold laneSet
  cases b
  · rw [if_neg (by simp), BitVec.getLsbD_and, BitVec.getLsbD_not, getLsbD_laneBit]
    by_cases h : l = i <;> simp [h, hl]
  · rw [if_pos rfl, BitVec.getLsbD_or, getLsbD_laneBit]
    by_cases h : l = i
    · subst h
      simp [hl]
    · simp [h]

theorem getLsbD_laneSets (g : Nat → Bool) (lanes : List Nat) (s : LaneSet) (l : Nat) (hl : l < 1024) :
    (lanes.foldl (fun ls k => laneSet ls k (g k)) s).getLsbD l = if l ∈ lanes then g l else s.getLsbD l := by
  induction lanes generalizing s with
  | nil => simp
  | cons k ks ih =>
    rw [List.foldl_cons, ih, getLsbD_laneSet _ _ _ _ hl]
    by_cases h1 : l ∈ ks
    · simp [h1]
    · by_cases h2 : l = k
      · simp [h2]
      · simp [h1, h2]

theorem Team.raises_rest (f : Nat → Flags) (lanes : List Nat) (tm : Team) (m st) :
    { lanes.foldl (fun tm l => tm.raise (f l)) tm with m := m, status := st } = { tm with m := m, status := st } := by
  induction lanes generalizing tm with
  | nil => rfl
  | cons l ls ih => exact ih _

theorem Team.raises_m (f : Nat → Flags) (lanes : List Nat) (tm : Team) :
    (lanes.foldl (fun tm l => tm.raise (f l)) tm).m = tm.m := by
  induction lanes generalizing tm with
  | nil => rfl
  | cons l ls ih => exact ih _

theorem Team.raises_lanes (f : Nat → Flags) (lanes : List Nat) (tm : Team) :
    (lanes.foldl (fun tm l => tm.raise (f l)) tm).lanes = tm.lanes := by
  induction lanes generalizing tm with
  | nil => rfl
  | cons l ls ih => exact ih _

theorem Team.raises_status (f : Nat → Flags) (lanes : List Nat) (tm : Team) :
    (lanes.foldl (fun tm l => tm.raise (f l)) tm).status = joinFlags tm.status lanes f := by
  induction lanes generalizing tm with
  | nil => rfl
  | cons l ls ih => exact ih _

theorem Team.mask_congr {tm tm1 : Team} (h : tm1.m = tm.m) (hl : tm1.lanes = tm.lanes) (k : Nat) : tm1.mask k = tm.mask k := by
  simp [Team.mask, Team.all, h, hl]

@[simp] theorem Team.setMask_status (tm : Team) (k : Nat) (l : LaneSet) : (tm.setMask k l).status = tm.status := by
  unfold Team.setMask
  split <;> rfl

@[simp] theorem Team.setMask_lanes (tm : Team) (k : Nat) (l : LaneSet) : (tm.setMask k l).lanes = tm.lanes := by
  unfold Team.setMask
  split <;> rfl

theorem Team.setMask_rest (tm : Team) (k : Nat) (l : LaneSet) (m st) :
    { tm.setMask k l with m := m, status := st } = { tm with m := m, status := st } := by
  unfold Team.setMask
  split <;> rfl

theorem Team.mask_setMask_self (tm : Team) (k : Nat) (l : LaneSet) (hk : k ≠ 0) : (tm.setMask k l).mask k = l &&& tm.all := by
  simp [Team.mask, Team.setMask, hk]

theorem Team.mask_setMask_ne (tm : Team) {j k : Nat} (l : LaneSet) (h : j ≠ k) : (tm.setMask k l).mask j = tm.mask j := by
  unfold Team.setMask
  split
  · rfl
  · unfold Team.mask
    split
    · rfl
    · exact nth_putAt_ne _ _ _ h

/-- An instruction that writes one bit of an m register for each active lane completes with the bits of its lanes in it. -/
theorem State.maskwise_able {s : State} {t : Nat} {tm : Team} {p : Pred} {d : Opd} {us : List Use}
    {f : Team → Nat → Bool × Flags} (h : Able s t tm p us) (hd : d.num ≠ 0) :
    ∃ tm1, s.maskwise p d us f = .next (completed s t tm p us tm1) ∧
      WroteMask tm tm1 d (activeLanes tm p) (fun l => (f tm l).1) ∧
      tm1.status = joinFlags tm.status (activeLanes tm p) fun l => (f tm l).2 := by
  have hk : d.num.toNat ≠ 0 := fun h0 => hd (BitVec.eq_of_toNat_eq (by simpa using h0))
  refine ⟨_, State.alu_able h rfl rfl, ⟨fun l hl => ?_, fun k hk' => ?_, ?_⟩, ?_⟩
  · rw [Team.mask_congr (Team.raises_m ..) (Team.raises_lanes ..), Team.mask_setMask_self _ _ _ hk]
    by_cases hb : l < 1024
    · rw [BitVec.getLsbD_and, getLsbD_laneSets _ _ _ _ hb]
      simp [Team.all, getLsbD_firstLanes, hl, hb]
    · have h1 : ∀ x : LaneSet, x.getLsbD l = false := fun x => BitVec.getLsbD_of_ge x l (by omega)
      have h2 : l ∉ activeLanes tm p := by simp [activeLanes, h1]
      simp [h1, h2]
  · rw [Team.mask_congr (Team.raises_m ..) (Team.raises_lanes ..), Team.mask_setMask_ne _ _ hk']
  · exact (Team.raises_rest ..).trans (Team.setMask_rest ..)
  · rw [Team.raises_status, Team.setMask_status]

end Sys2Proof.Machine
end

