-- ==== Sys2Proof/Laws/PerInstr.lean ====
section
/-! SUPPORT. One lemma for each instruction: those of a program have a word, the events of the device have none (R70 to R89). -/

namespace Sys2Proof.Laws.HasWord

/-- The rows of the opcode table that happen by themselves, and that no program names. -/
def isEvent : Instr → Bool
  | .errorInjection .. => true
  | .producerCompletion .. => true
  | .accessPerform .. => true
  | .reductionEntry .. => true
  | .reductionMerge .. => true
  | .blendEntry .. => true
  | .teamRetirement .. => true
  | .packerTake .. => true
  | .fillingTeamTimeout .. => true
  | .copyCompletion .. => true
  | .moorConversionDone .. => true
  | .matrixStep .. => true
  | .shareDelivery .. => true
  | .mloopgStatus .. => true
  | .commandEntry .. => true
  | .foldMove .. => true
  | .embBag .. => true
  | .updElement .. => true
  | .completionWord .. => true
  | .aliasAdd .. => true
  | .aliasMinMax .. => true
  | .aliasBitwise .. => true
  | .rowFill .. => true
  | .rowCopy .. => true
  | .planeMultiplyAccumulate .. => true
  | .planeAdd .. => true
  | .microprogramBurst .. => true
  | .remapSwap .. => true
  | .swapHoldEnd .. => true
  | .registerWindowWrite .. => true
  | .emptyingWindowWrite .. => true
  | .replayWalk .. => true
  | .replayThreshold .. => true
  | .beaconTick .. => true
  | .diePhaseEnd .. => true
  | .packagePhaseEnd => true
  | .eclwLimitExpiry .. => true
  | .queueWrite .. => true
  | .entryTake .. => true
  | .distribution .. => true
  | .bind .. => true
  | .evict .. => true
  | .preEmption .. => true
  | .heldPreEmptionForce .. => true
  | .launchCompletion .. => true
  | .invalidation .. => true
  | .invalidationDone .. => true
  | .qprioWrite .. => true
  | .frrefWrite .. => true
  | .registerPageWrite .. => true
  | .setdom => true
  | .setmask => true
  | .rowset => true
  | .pin => true
  | .patset => true
  | .nsgrant => true
  | .ckpt .. => true
  | .restore .. => true
  | .power => true
  | .nonce => true
  | .dbgauth => true
  | .dbgend => true
  | .attest => true
  | .chain => true
  | .peer => true
  | .fusepr => true
  | .unknownCommand => true
  | .mailboxCompletion => true
  | .bringUp .. => true
  | .fabricDoorbell .. => true
  | .put .. => true
  | .putAcknowledge .. => true
  | .flashExtent .. => true
  | .softError .. => true
  | .frheadWrite .. => true
  | .portStateChange .. => true
  | .incomingPut .. => true
  | .invasiveDebugCommand .. => true
  | _ => false

/-- An instruction of a program has a word, an event has none. -/
def Statement (i : Instr) : Prop := (encode i).isSome = !isEvent i

theorem nop : Statement .nop := rfl
theorem add : ∀ p t w, Statement (.add p t w) := fun p t w => by cases w <;> rfl
theorem sub : ∀ p t w, Statement (.sub p t w) := fun p t w => by cases w <;> rfl
theorem addc : ∀ p t w, Statement (.addc p t w) := fun _ _ _ => rfl
theorem subb : ∀ p t w, Statement (.subb p t w) := fun _ _ _ => rfl
theorem mul : ∀ p t w, Statement (.mul p t w) := fun p t w => by cases w <;> rfl
theorem mulh : ∀ p t w, Statement (.mulh p t w) := fun p t w => by cases w <;> rfl
theorem mad : ∀ p t w, Statement (.mad p t w) := fun _ _ _ => rfl
theorem div : ∀ p t w, Statement (.div p t w) := fun p t w => by cases w <;> rfl
theorem rem : ∀ p t w, Statement (.rem p t w) := fun p t w => by cases w <;> rfl
theorem neg : ∀ p t w, Statement (.neg p t w) := fun _ _ _ => rfl
theorem abs : ∀ p t w, Statement (.abs p t w) := fun _ _ _ => rfl
theorem min : ∀ p t w, Statement (.min p t w) := fun p t w => by cases w <;> rfl
theorem max : ∀ p t w, Statement (.max p t w) := fun p t w => by cases w <;> rfl
theorem and : ∀ p t w, Statement (.and p t w) := fun p t w => by cases w <;> rfl
theorem or : ∀ p t w, Statement (.or p t w) := fun p t w => by cases w <;> rfl
theorem xor : ∀ p t w, Statement (.xor p t w) := fun p t w => by cases w <;> rfl
theorem andn : ∀ p t w, Statement (.andn p t w) := fun p t w => by cases w <;> rfl
theorem shl : ∀ p t w, Statement (.shl p t w) := fun p t w => by cases w <;> rfl
theorem shr : ∀ p t w, Statement (.shr p t w) := fun p t w => by cases w <;> rfl
theorem sra : ∀ p t w, Statement (.sra p t w) := fun p t w => by cases w <;> rfl
theorem rot : ∀ p t w, Statement (.rot p t w) := fun p t w => by cases w <;> rfl
theorem clz : ∀ p t w, Statement (.clz p t w) := fun _ _ _ => rfl
theorem popc : ∀ p t w, Statement (.popc p t w) := fun _ _ _ => rfl
theorem brev : ∀ p t w, Statement (.brev p t w) := fun _ _ _ => rfl
theorem bfx : ∀ p t w, Statement (.bfx p t w) := fun p t w => by cases w <;> rfl
theorem bfi : ∀ p t w, Statement (.bfi p t w) := fun _ _ _ => rfl
theorem ffcs : ∀ p t w, Statement (.ffcs p t w) := fun _ _ _ => rfl
theorem plset : ∀ p t w, Statement (.plset p t w) := fun _ _ _ => rfl
theorem sel : ∀ p t w, Statement (.sel p t w) := fun _ _ _ => rfl
theorem cmp : ∀ p t cc w, Statement (.cmp p t cc w) := fun p t cc w => by cases w <;> rfl
theorem mov : ∀ p t w, Statement (.mov p t w) := fun p t w => by cases w <;> rfl
theorem movi : ∀ p t w, Statement (.movi p t w) := fun _ _ _ => rfl
theorem lea : ∀ p t w, Statement (.lea p t w) := fun p t w => by cases w <;> rfl
theorem movmTor : ∀ p w, Statement (.movmTor p w) := fun _ _ => rfl
theorem movmTom : ∀ p w, Statement (.movmTom p w) := fun _ _ => rfl
theorem padd : ∀ p t w, Statement (.padd p t w) := fun _ _ _ => rfl
theorem psub : ∀ p t w, Statement (.psub p t w) := fun _ _ _ => rfl
theorem pmul : ∀ p t w, Statement (.pmul p t w) := fun _ _ _ => rfl
theorem pmac : ∀ p t w, Statement (.pmac p t w) := fun _ _ _ => rfl
theorem pmin : ∀ p t w, Statement (.pmin p t w) := fun _ _ _ => rfl
theorem pmax : ∀ p t w, Statement (.pmax p t w) := fun _ _ _ => rfl
theorem pcmp : ∀ p t cc w, Statement (.pcmp p t cc w) := fun _ _ _ _ => rfl
theorem pshr : ∀ p t w, Statement (.pshr p t w) := fun p t w => by cases w <;> rfl
theorem pnar : ∀ p t w, Statement (.pnar p t w) := fun _ _ _ => rfl
theorem pwid : ∀ p t w, Statement (.pwid p t w) := fun _ _ _ => rfl
theorem fadd : ∀ p t w, Statement (.fadd p t w) := fun p t w => by cases w <;> rfl
theorem fsub : ∀ p t w, Statement (.fsub p t w) := fun p t w => by cases w <;> rfl
theorem fmul : ∀ p t w, Statement (.fmul p t w) := fun p t w => by cases w <;> rfl
theorem fma : ∀ p t w, Statement (.fma p t w) := fun _ _ _ => rfl
theorem fdiv : ∀ p t w, Statement (.fdiv p t w) := fun p t w => by cases w <;> rfl
theorem fsqrt : ∀ p t w, Statement (.fsqrt p t w) := fun _ _ _ => rfl
theorem frsq : ∀ p t w, Statement (.frsq p t w) := fun _ _ _ => rfl
theorem fmin : ∀ p t w, Statement (.fmin p t w) := fun p t w => by cases w <;> rfl
theorem fmax : ∀ p t w, Statement (.fmax p t w) := fun p t w => by cases w <;> rfl
theorem fcmp : ∀ p t cc sig w, Statement (.fcmp p t cc sig w) := fun p t cc sig w => by cases w <;> rfl
theorem fclass : ∀ p t w, Statement (.fclass p t w) := fun _ _ _ => rfl
theorem frnd : ∀ p t w, Statement (.frnd p t w) := fun _ _ _ => rfl
theorem fscale : ∀ p t w, Statement (.fscale p t w) := fun p t w => by cases w <;> rfl
theorem fexp2 : ∀ p t w, Statement (.fexp2 p t w) := fun _ _ _ => rfl
theorem flog2 : ∀ p t w, Statement (.flog2 p t w) := fun _ _ _ => rfl
theorem fupd : ∀ p adam w, Statement (.fupd p adam w) := fun _ _ _ => rfl
theorem cvt : ∀ p t src w, Statement (.cvt p t src w) := fun _ _ _ _ => rfl
theorem cvts : ∀ p t src w, Statement (.cvts p t src w) := fun _ _ _ _ => rfl
theorem cvtb : ∀ p t src w, Statement (.cvtb p t src w) := fun _ _ _ _ => rfl
theorem bra : ∀ p target, Statement (.bra p target) := fun _ _ => rfl
theorem brc : ∀ p q target a, Statement (.brc p q target a) := fun _ _ _ _ => rfl
theorem brd : ∀ target a rcv, Statement (.brd target a rcv) := fun _ _ _ => rfl
theorem join : Statement .join := rfl
theorem jmp : ∀ p a, Statement (.jmp p a) := fun _ _ => rfl
theorem call : ∀ p target a, Statement (.call p target a) := fun _ _ _ => rfl
theorem ret : ∀ p a, Statement (.ret p a) := fun _ _ => rfl
theorem loop : ∀ p target a, Statement (.loop p target a) := fun _ _ _ => rfl
theorem exit : ∀ p, Statement (.exit p) := fun _ => rfl
theorem pick : ∀ p target, Statement (.pick p target) := fun _ _ => rfl
theorem slide : ∀ p down t w, Statement (.slide p down t w) := fun _ _ _ _ => rfl
theorem shfl : ∀ p byXor t w, Statement (.shfl p byXor t w) := fun _ _ _ _ => rfl
theorem bcast : ∀ p t w, Statement (.bcast p t w) := fun _ _ _ => rfl
theorem redl : ∀ p op t w, Statement (.redl p op t w) := fun _ _ _ _ => rfl
theorem scanl : ∀ p op excl t w, Statement (.scanl p op excl t w) := fun _ _ _ _ _ => rfl
theorem vote : ∀ p op w, Statement (.vote p op w) := fun _ _ _ => rfl
theorem elect : ∀ p w, Statement (.elect p w) := fun _ _ => rfl
theorem widf : ∀ p t w, Statement (.widf p t w) := fun _ _ _ => rfl
theorem msk : ∀ p op w, Statement (.msk p op w) := fun _ _ _ => rfl
theorem spawn : ∀ p w, Statement (.spawn p w) := fun _ _ => rfl
theorem bari : ∀ p w, Statement (.bari p w) := fun _ _ => rfl
theorem bara : ∀ p w, Statement (.bara p w) := fun _ _ => rfl
theorem barw : ∀ p w, Statement (.barw p w) := fun _ _ => rfl
theorem bars : ∀ p w, Statement (.bars p w) := fun _ _ => rfl
theorem ld : ∀ p t w, Statement (.ld p t w) := fun _ _ _ => rfl
theorem st : ∀ p t w, Statement (.st p t w) := fun _ _ _ => rfl
theorem ldg : ∀ p t w, Statement (.ldg p t w) := fun _ _ _ => rfl
theorem stg : ∀ p t w, Statement (.stg p t w) := fun _ _ _ => rfl
theorem ldt : ∀ p t w, Statement (.ldt p t w) := fun _ _ _ => rfl
theorem stt : ∀ p t w, Statement (.stt p t w) := fun _ _ _ => rfl
theorem pref : ∀ p t w, Statement (.pref p t w) := fun _ _ _ => rfl
theorem atom : ∀ p op t w, Statement (.atom p op t w) := fun _ _ _ _ => rfl
theorem red : ∀ p op t w, Statement (.red p op t w) := fun _ _ _ _ => rfl
theorem bfaIns : ∀ p w, Statement (.bfaIns p w) := fun _ _ => rfl
theorem bfaFfcs : ∀ p w, Statement (.bfaFfcs p w) := fun _ _ => rfl
theorem bfaPlset : ∀ p w, Statement (.bfaPlset p w) := fun _ _ => rfl
theorem fence : ∀ p w, Statement (.fence p w) := fun _ _ => rfl
theorem fencesc : ∀ p w, Statement (.fencesc p w) := fun _ _ => rfl
theorem sld : ∀ p w, Statement (.sld p w) := fun _ _ => rfl
theorem sst : ∀ p w, Statement (.sst p w) := fun _ _ => rfl
theorem sepoch : ∀ p w, Statement (.sepoch p w) := fun _ _ => rfl
theorem sepochBind : ∀ p w, Statement (.sepochBind p w) := fun _ _ => rfl
theorem sepochUnbind : ∀ p w, Statement (.sepochUnbind p w) := fun _ _ => rfl
theorem harden : ∀ p w, Statement (.harden p w) := fun _ _ => rfl
theorem slda : ∀ p w, Statement (.slda p w) := fun _ _ => rfl
theorem ssta : ∀ p w, Statement (.ssta p w) := fun _ _ => rfl
theorem hatt : ∀ p w, Statement (.hatt p w) := fun _ _ => rfl
theorem hdet : ∀ p w, Statement (.hdet p w) := fun _ _ => rfl
theorem hset : ∀ p w, Statement (.hset p w) := fun _ _ => rfl
theorem hget : ∀ p w, Statement (.hget p w) := fun _ _ => rfl
theorem moor : ∀ p t w, Statement (.moor p t w) := fun _ _ _ => rfl
theorem unmoor : ∀ p w, Statement (.unmoor p w) := fun _ _ => rfl
theorem mloop : ∀ p sr unf t w, Statement (.mloop p sr unf t w) := fun _ _ _ _ _ => rfl
theorem mloopg : ∀ p sr unf t w, Statement (.mloopg p sr unf t w) := fun _ _ _ _ _ => rfl
theorem oprdy : ∀ p w, Statement (.oprdy p w) := fun _ _ => rfl
theorem mfence : ∀ p w, Statement (.mfence p w) := fun _ _ => rfl
theorem mwait : ∀ p w, Statement (.mwait p w) := fun _ _ => rfl
theorem accz : ∀ p w, Statement (.accz p w) := fun _ _ => rfl
theorem accrd : ∀ p t w, Statement (.accrd p t w) := fun _ _ _ => rfl
theorem accwr : ∀ p t w, Statement (.accwr p t w) := fun _ _ _ => rfl
theorem cpyPlain : ∀ p w, Statement (.cpyPlain p w) := fun _ _ => rfl
theorem cpyTile : ∀ p w, Statement (.cpyTile p w) := fun _ _ => rfl
theorem cpyTr : ∀ p w, Statement (.cpyTr p w) := fun _ _ => rfl
theorem cpyMcast : ∀ p w, Statement (.cpyMcast p w) := fun _ _ => rfl
theorem cpyFlash : ∀ p w, Statement (.cpyFlash p w) := fun _ _ => rfl
theorem cpys : ∀ p w, Statement (.cpys p w) := fun _ _ => rfl
theorem cpyr : ∀ p t w, Statement (.cpyr p t w) := fun _ _ _ => rfl
theorem drain : ∀ p path, Statement (.drain p path) := fun _ _ => rfl
theorem fold : ∀ p w, Statement (.fold p w) := fun _ _ => rfl
theorem emb : ∀ p mean w, Statement (.emb p mean w) := fun _ _ _ => rfl
theorem upd : ∀ p adam w, Statement (.upd p adam w) := fun _ _ _ => rfl
theorem trap : ∀ p w, Statement (.trap p w) := fun _ _ => rfl
theorem eret : ∀ w, Statement (.eret w) := fun _ => rfl
theorem srd : ∀ p t w, Statement (.srd p t w) := fun _ _ _ => rfl
theorem swr : ∀ p t w, Statement (.swr p t w) := fun _ _ _ => rfl
theorem tmaskMask : ∀ w, Statement (.tmaskMask w) := fun _ => rfl
theorem tmaskUnmask : ∀ w, Statement (.tmaskUnmask w) := fun _ => rfl
theorem bkpt : ∀ p w, Statement (.bkpt p w) := fun _ _ => rfl
theorem eclw : ∀ p pkg w, Statement (.eclw p pkg w) := fun _ _ _ => rfl
theorem launch : ∀ p w, Statement (.launch p w) := fun _ _ => rfl
theorem yield : ∀ p w, Statement (.yield p w) := fun _ _ => rfl
theorem rep : ∀ w, Statement (.rep w) := fun _ => rfl
theorem errorInjection : ∀ site addr, Statement (.errorInjection site addr) := fun _ _ => rfl
theorem producerCompletion : ∀ prod, Statement (.producerCompletion prod) := fun _ => rfl
theorem accessPerform : ∀ acc, Statement (.accessPerform acc) := fun _ => rfl
theorem reductionEntry : ∀ acc, Statement (.reductionEntry acc) := fun _ => rfl
theorem reductionMerge : ∀ acc other, Statement (.reductionMerge acc other) := fun _ _ => rfl
theorem blendEntry : ∀ acc, Statement (.blendEntry acc) := fun _ => rfl
theorem teamRetirement : ∀ team, Statement (.teamRetirement team) := fun _ => rfl
theorem packerTake : ∀ launch queue, Statement (.packerTake launch queue) := fun _ _ => rfl
theorem fillingTeamTimeout : ∀ launch queue, Statement (.fillingTeamTimeout launch queue) := fun _ _ => rfl
theorem copyCompletion : ∀ copy, Statement (.copyCompletion copy) := fun _ => rfl
theorem moorConversionDone : ∀ team, Statement (.moorConversionDone team) := fun _ => rfl
theorem matrixStep : ∀ group, Statement (.matrixStep group) := fun _ => rfl
theorem shareDelivery : ∀ issue member, Statement (.shareDelivery issue member) := fun _ _ => rfl
theorem mloopgStatus : ∀ issue, Statement (.mloopgStatus issue) := fun _ => rfl
theorem commandEntry : ∀ cmd, Statement (.commandEntry cmd) := fun _ => rfl
theorem foldMove : ∀ cmd, Statement (.foldMove cmd) := fun _ => rfl
theorem embBag : ∀ cmd lane, Statement (.embBag cmd lane) := fun _ _ => rfl
theorem updElement : ∀ cmd elem, Statement (.updElement cmd elem) := fun _ _ => rfl
theorem completionWord : ∀ cmd, Statement (.completionWord cmd) := fun _ => rfl
theorem aliasAdd : ∀ acc, Statement (.aliasAdd acc) := fun _ => rfl
theorem aliasMinMax : ∀ acc, Statement (.aliasMinMax acc) := fun _ => rfl
theorem aliasBitwise : ∀ acc, Statement (.aliasBitwise acc) := fun _ => rfl
theorem rowFill : ∀ acc, Statement (.rowFill acc) := fun _ => rfl
theorem rowCopy : ∀ acc, Statement (.rowCopy acc) := fun _ => rfl
theorem planeMultiplyAccumulate : ∀ acc, Statement (.planeMultiplyAccumulate acc) := fun _ => rfl
theorem planeAdd : ∀ acc, Statement (.planeAdd acc) := fun _ => rfl
theorem microprogramBurst : ∀ acc, Statement (.microprogramBurst acc) := fun _ => rfl
theorem remapSwap : ∀ hot cool, Statement (.remapSwap hot cool) := fun _ _ => rfl
theorem swapHoldEnd : ∀ stack, Statement (.swapHoldEnd stack) := fun _ => rfl
theorem registerWindowWrite : ∀ acc, Statement (.registerWindowWrite acc) := fun _ => rfl
theorem emptyingWindowWrite : ∀ acc, Statement (.emptyingWindowWrite acc) := fun _ => rfl
theorem replayWalk : ∀ team, Statement (.replayWalk team) := fun _ => rfl
theorem replayThreshold : ∀ who, Statement (.replayThreshold who) := fun _ => rfl
theorem beaconTick : ∀ busy, Statement (.beaconTick busy) := fun _ => rfl
theorem diePhaseEnd : ∀ die, Statement (.diePhaseEnd die) := fun _ => rfl
theorem packagePhaseEnd : Statement .packagePhaseEnd := rfl
theorem eclwLimitExpiry : ∀ team, Statement (.eclwLimitExpiry team) := fun _ => rfl
theorem queueWrite : ∀ vf q tail, Statement (.queueWrite vf q tail) := fun _ _ _ => rfl
theorem entryTake : ∀ vf q, Statement (.entryTake vf q) := fun _ _ => rfl
theorem distribution : ∀ launch, Statement (.distribution launch) := fun _ => rfl
theorem bind : ∀ unit places, Statement (.bind unit places) := fun _ _ => rfl
theorem evict : ∀ unit, Statement (.evict unit) := fun _ => rfl
theorem preEmption : ∀ unit, Statement (.preEmption unit) := fun _ => rfl
theorem heldPreEmptionForce : ∀ team, Statement (.heldPreEmptionForce team) := fun _ => rfl
theorem launchCompletion : ∀ launch, Statement (.launchCompletion launch) := fun _ => rfl
theorem invalidation : ∀ vf value, Statement (.invalidation vf value) := fun _ _ => rfl
theorem invalidationDone : ∀ vf, Statement (.invalidationDone vf) := fun _ => rfl
theorem qprioWrite : ∀ vf q prio, Statement (.qprioWrite vf q prio) := fun _ _ _ => rfl
theorem frrefWrite : ∀ vf value, Statement (.frrefWrite vf value) := fun _ _ => rfl
theorem registerPageWrite : ∀ page off size value, Statement (.registerPageWrite page off size value) := fun _ _ _ _ => rfl
theorem setdom : Statement .setdom := rfl
theorem setmask : Statement .setmask := rfl
theorem rowset : Statement .rowset := rfl
theorem pin : Statement .pin := rfl
theorem patset : Statement .patset := rfl
theorem nsgrant : Statement .nsgrant := rfl
theorem ckpt : ∀ err, Statement (.ckpt err) := fun _ => rfl
theorem restore : ∀ err, Statement (.restore err) := fun _ => rfl
theorem power : Statement .power := rfl
theorem nonce : Statement .nonce := rfl
theorem dbgauth : Statement .dbgauth := rfl
theorem dbgend : Statement .dbgend := rfl
theorem attest : Statement .attest := rfl
theorem chain : Statement .chain := rfl
theorem peer : Statement .peer := rfl
theorem fusepr : Statement .fusepr := rfl
theorem unknownCommand : Statement .unknownCommand := rfl
theorem mailboxCompletion : Statement .mailboxCompletion := rfl
theorem bringUp : ∀ r, Statement (.bringUp r) := fun _ => rfl
theorem fabricDoorbell : ∀ vf, Statement (.fabricDoorbell vf) := fun _ => rfl
theorem put : ∀ vf, Statement (.put vf) := fun _ => rfl
theorem putAcknowledge : ∀ put res, Statement (.putAcknowledge put res) := fun _ _ => rfl
theorem flashExtent : ∀ copy extent err, Statement (.flashExtent copy extent err) := fun _ _ _ => rfl
theorem softError : ∀ addr uncorrectable, Statement (.softError addr uncorrectable) := fun _ _ => rfl
theorem frheadWrite : ∀ vf value, Statement (.frheadWrite vf value) := fun _ _ => rfl
theorem portStateChange : ∀ port up, Statement (.portStateChange port up) := fun _ _ => rfl
theorem incomingPut : ∀ vf dst data signal, Statement (.incomingPut vf dst data signal) := fun _ _ _ _ => rfl
theorem invasiveDebugCommand : ∀ team ask, Statement (.invasiveDebugCommand team ask) := fun _ _ => rfl

end Sys2Proof.Laws.HasWord
end

