-- ==== Sys2Proof/Tests/Slice0.lean ====
section
/-! SUPPORT. Tests: words that each check of an instruction word refuses, words of the spec that decode, single steps on a small state,
and for every statement a state and operands that meet its hypotheses. -/

namespace Sys2Proof.Tests

open Machine Spec

set_option Elab.async false

/-! ### Words that the checks refuse -/

def v (n : BitVec 8) : Opd := ⟨.v, n⟩
def sr (n : BitVec 8) : Opd := ⟨.s, n⟩
def mr (n : BitVec 8) : Opd := ⟨.m, n⟩
def zr (n : BitVec 8) : Opd := ⟨.x, n⟩

/-- m0, the predicate of an instruction that every lane executes. -/
def P : Pred := ⟨false, 0⟩

/-- A word of format R with plain modifiers. -/
def rw (d a b c : Opd) : RWord := ⟨d, a, b, c, ⟨0, 0⟩, ⟨0, 0⟩, ⟨0, 0⟩, false, false, false, false, .dyn, 0⟩

def iw (d a : Opd) (imm : BitVec 32) : IWord := ⟨d, a, imm, ⟨0, 0⟩, false, false, .dyn⟩

def xw (d a b c : Opd) (h : BitVec 12) (be : Bool) (bn : BitVec 4) (cimm : BitVec 16) : XWord := ⟨d, a, b, c, h, be, bn, cimm⟩

def mw (d a b : Opd) (off : BitVec 20) (space : Space) : MWord := ⟨d, a, b, off, .relaxed, .team, false, false, false, space⟩

/-- R71: the negation of m0 is no predicate. -/
theorem test_refuse_predicate : wellFormed (.join) = true ∧ wellFormed (.bra ⟨true, 0⟩ 1) = false := by decide

/-- R101: an integer instruction takes no floating type; R85: ADDC is for N32 and N64 alone. -/
theorem test_refuse_type : wellFormed (.add P .f32 (.r (rw (v 1) (v 2) (v 3) (v 0)))) = false ∧
    wellFormed (.addc P .i32 (rw (v 1) (v 2) (v 3) (mr 1))) = false ∧
    wellFormed (.fadd P .n32 (.r (rw (v 1) (v 2) (v 3) (v 0)))) = false ∧
    wellFormed (.padd P .f16 (rw (v 1) (v 2) (v 3) (v 0))) = false ∧
    wellFormed (.pmac P .i8 (rw (v 1) (v 2) (v 3) (v 4))) = false ∧
    wellFormed (.ld P .tap6 (mw (v 1) (sr 2) (mr 0) 0 .global)) = false ∧
    wellFormed (.shfl P false .i8 (rw (v 1) (v 2) (v 3) (v 0))) = false := by decide

/-- R82, R85: a field that the instruction does not use is zero. -/
theorem test_refuse_unused_field : wellFormed (.neg P .i32 (rw (v 1) (v 2) (v 3) (v 0))) = false ∧
    wellFormed (.clz P .i32 { rw (v 1) (v 2) (v 0) (v 0) with sat := true }) = false ∧
    wellFormed (.add P .i32 (.r { rw (v 1) (v 2) (v 3) (v 0) with rm := .rz })) = false ∧
    wellFormed (.eret { rw (v 0) (v 0) (v 0) (v 0) with simm := 1 }) = false ∧
    wellFormed (.mfence P (xw (sr 1) (v 0) (v 0) (v 0) 0 false 0 1)) = false ∧
    wellFormed (.pref P .n32 (mw (v 1) (sr 2) (mr 0) 0 .global)) = false := by decide

/-- R104, R112, R159, R161, R120, R163: immediates outside their range. -/
theorem test_refuse_immediate : wellFormed (.bfx P .n32 (.i (iw (v 1) (v 2) 0x10000))) = false ∧
    wellFormed (.lea P .n64 (.r { rw (v 2) (v 4) (v 6) (v 0) with simm := 8 })) = false ∧
    wellFormed (.pshr P .i16 (.i (iw (v 1) (v 2) 32))) = false ∧
    wellFormed (.pwid P .i8 { rw (v 1) (v 2) (v 0) (v 0) with simm := 2 }) = false ∧
    wellFormed (.fupd P false { rw (v 1) (v 2) (v 3) (v 4) with simm := 2 }) = false ∧
    wellFormed (.slide P false .n32 { rw (v 1) (v 2) (sr 3) (v 0) with simm := 1024 }) = false ∧
    wellFormed (.movi P .n32 ⟨false, 1, 0x100000000⟩) = false ∧
    wellFormed (.widf P .n32 { rw (v 1) (v 0) (v 0) (v 0) with simm := 6 }) = false := by decide

/-- R246, R247, R251: orderings and spaces that an instruction does not take. -/
theorem test_refuse_ordering : wellFormed (.ld P .n32 { mw (v 1) (sr 2) (mr 0) 0 .global with ord := .release }) = false ∧
    wellFormed (.st P .n32 { mw (v 1) (sr 2) (mr 0) 0 .global with ord := .acquire }) = false ∧
    wellFormed (.fence P (mw (v 0) (v 0) (v 0) 0 .global)) = false ∧
    wellFormed (.fencesc P { mw (v 0) (v 0) (v 0) 0 .global with scope := .system }) = false ∧
    wellFormed (.atom P (.red .and) .f32 (mw (v 1) (sr 2) (mr 0) 0 .global)) = false := by decide

/-- R243, R261, R305, R313, R316, R321: words of format X. -/
theorem test_refuse_engine : wellFormed (.sepochBind P (xw (v 0) (v 0) (v 0) (v 0) 1 false 0 1)) = false ∧
    wellFormed (.moor P .f32 (xw (v 0) (sr 2) (v 0) (v 0) 0 false 0 0)) = false ∧
    wellFormed (.moor P .f32 (xw (v 0) (sr 2) (v 0) (v 0) 0 false 0 0x21)) = false ∧
    wellFormed (.accz P (xw (zr 0) (v 0) (v 0) (v 0) 0 false 0 0x30)) = false ∧
    wellFormed (.cpyTile P (xw (v 0) (sr 4) (v 0) (v 0) 1 false 0 0)) = false ∧
    wellFormed (.fold P (xw (sr 2) (sr 4) (sr 6) (v 0) 1 false 0 9)) = false ∧
    wellFormed (.launch P (xw (sr 2) (sr 4) (v 0) (v 0) 0 false 0 1)) = false := by decide

/-! ### Words of the spec -/

/-- The words that the spec writes out (R70 to R89 and the worked listings), by family. -/
theorem test_words : (decode 0x1000020701C0780004800000).toOption =
      some (.xor P .n32 (.r { rw (v 14) (v 14) (v 15) (v 0) with mb := ⟨1, 1⟩ })) ∧
    (decode 0x0104020380E0000000800000).toOption = some (.add P .n32 (.i (iw (v 7) (v 7) 4))) ∧
    (decode 0x1B0002028080000000000000).toOption = some (.ffcs P .n32 (rw (v 5) (v 4) (v 0) (v 0))) ∧
    (decode 0x430010048040181200000000).toOption = some (.pmac P .i16 (rw (v 9) (v 2) (v 3) (v 9))) ∧
    (decode 0x5F00080A02A0B02E00000008).toOption = some (.fupd P false { rw (v 20) (v 21) (v 22) (v 23) with simm := 8 }) := by decide

theorem test_words_control : (decode 0x808800000000160000000000).toOption = some (.bra ⟨true, 1⟩ 22) ∧
    (decode 0xF00000192400000000000000).toOption = some (.rep ⟨3, 1, 1, 1, 0⟩) ∧ (decode 0).toOption = some .nop := by decide

theorem test_words_memory : (decode 0xA00002022010000000000000).toOption = some (.ld P .n32 (mw (v 4) (sr 0) (mr 0) 0 .global)) ∧
    (decode 0xA1000207201000000A500000).toOption =
      some (.st P .n32 { mw (v 14) (sr 0) (mr 0) 20 .global with ord := .release, scope := .package }) := by decide

/-- R85: an opcode that the table leaves out, a reserved type, a bit above the fields, and m0 negated are refused. -/
theorem test_words_refused : (decode 0xFF0000000000000000000000).isOk = false ∧ (decode 1).isOk = false ∧
    (decode 0x808000000000160000000000).isOk = false ∧ (decode 0x1B0002028080000000000001).isOk = false := by decide

/-! ### Single steps

Expected values are worked out by hand from the rules that the comments name. -/

/-- The team that State.placeWord makes, with every register zero. -/
def tm0 : Team := { Team.fresh 0 (placedLaunch 0x20000) 0 32 32 0x20000 0 with group := 1 }

/-- One resident team, about to execute. -/
def base : State := { State.reset.placeWord 0 with agenda := [], cur := some 2 }

/-- The same with a changed team, and with its page writable instead of executable. -/
def at_ (f : Team → Team) : State := base.setTeam 2 (f tm0)

def data (f : Team → Team) : State := { at_ f with mem := memSets base.mem (placedRoot + 0x2000) (toBytesLE 8 5) }

def after (i : Instr) (s : State) : State :=
  match exec i s with
  | .next s1 => s1
  | _ => s

def team (s : State) : Team := (tabGet? s.teams 2).getD tm0

def run1 (i : Instr) (f : Team → Team) : Team := team (after i (at_ f))

/-- Lane 0 of v2, v4 and v6; m2 holds lane 0 alone. -/
def abc (a b c : Word32) (tm : Team) : Team := (((tm.vSet 2 0 a).vSet 4 0 b).vSet 6 0 c).setMask 2 1

/-- The predicate m2. -/
def Q : Pred := ⟨false, 2⟩

/-- D = v8, from v2, v4 and v6. -/
def W : RWord := rw (v 8) (v 2) (v 4) (v 0)
def W1 : RWord := rw (v 8) (v 2) (v 0) (v 0)
def W3 : RWord := rw (v 8) (v 2) (v 4) (v 6)
def W0 : RWord := rw (v 0) (v 0) (v 0) (v 0)

/-- Lane 0 of v8 and %status after an instruction. -/
def got (i : Instr) (a b c : Word32) : Word32 × BitVec 8 :=
  let tm := run1 i (abc a b c)
  (tm.vGet 8 0, tm.status)

/-- R101: wrapping and saturation at the ends of the type. -/
theorem test_add : got (.add P .i32 (.r W)) 0x7FFFFFFF 1 0 = (0x80000000, 0) ∧
    got (.add P .i32 (.r { W with sat := true })) 0x7FFFFFFF 1 0 = (0x7FFFFFFF, 0x20) := by decide +kernel
theorem test_sub : got (.sub P .n32 (.r { W with sat := true })) 0 1 0 = (0, 0x20) ∧
    got (.sub P .n32 (.r W)) 0 1 0 = (0xFFFFFFFF, 0) := by decide +kernel
theorem test_mul : got (.mul P .i32 (.r W)) 0xFFFFFFFF 5 0 = (0xFFFFFFFB, 0) ∧
    got (.mulh P .n32 (.r W)) 0xFFFFFFFF 0xFFFFFFFF 0 = (0xFFFFFFFE, 0) ∧
    got (.mulh P .i32 (.r W)) 0xFFFFFFFF 0xFFFFFFFF 0 = (0, 0) := by decide +kernel
theorem test_mad : got (.mad P .i8 { W3 with sat := true }) 100 2 1 = (127, 0x20) := by decide +kernel
theorem test_carry : got (.addc P .n32 (rw (v 8) (v 2) (v 4) (mr 1))) 0xFFFFFFFF 1 0 = (0, 0) ∧
    (run1 (.addc P .n32 (rw (v 8) (v 2) (v 4) (mr 1))) (abc 0xFFFFFFFF 1 0)).mask 1 = 1 ∧
    (run1 (.subb P .n32 (rw (v 8) (v 2) (v 4) (mr 1))) (abc 0 1 0)).mask 1 = 1 := by decide +kernel
theorem test_negate : got (.neg P .i32 W1) 0x80000000 0 0 = (0x80000000, 0) ∧
    got (.abs P .i32 { W1 with sat := true }) 0x80000000 0 0 = (0x7FFFFFFF, 0x20) := by decide +kernel
theorem test_min_max : got (.min P .i32 (.r W)) 0xFFFFFFFF 1 0 = (0xFFFFFFFF, 0) ∧
    got (.max P .n32 (.r W)) 0xFFFFFFFF 1 0 = (0xFFFFFFFF, 0) := by decide +kernel
/-- R102: the quotient toward zero, the remainder's sign, and the zero divisor. -/
theorem test_div : got (.div P .i32 (.r W)) 0xFFFFFFF9 2 0 = (0xFFFFFFFD, 0) ∧
    got (.rem P .i32 (.r W)) 0xFFFFFFF9 2 0 = (0xFFFFFFFF, 0) ∧
    got (.div P .n32 (.r W)) 7 0 0 = (0xFFFFFFFF, 0) ∧ got (.rem P .n32 (.r W)) 7 0 0 = (7, 0) := by decide +kernel
/-- R103: shifts by the width and beyond, the rotation. -/
theorem test_shift : got (.shl P .n32 (.r W)) 1 32 0 = (0, 0) ∧ got (.shr P .n32 (.r W)) 0x80000000 31 0 = (1, 0) ∧
    got (.sra P .i32 (.r W)) 0x80000000 40 0 = (0xFFFFFFFF, 0) ∧
    got (.rot P .n32 (.r W)) 0x80000001 1 0 = (3, 0) := by decide +kernel
theorem test_bitwise : got (.and P .n32 (.r W)) 12 10 0 = (8, 0) ∧ got (.or P .n32 (.r W)) 12 10 0 = (14, 0) ∧
    got (.xor P .n32 (.r W)) 12 10 0 = (6, 0) ∧ got (.andn P .n32 (.r W)) 12 10 0 = (4, 0) := by decide +kernel
theorem test_bits : got (.clz P .n32 W1) 1 0 0 = (31, 0) ∧ got (.popc P .n32 W1) 0xF0F 0 0 = (8, 0) ∧
    got (.brev P .n32 W1) 1 0 0 = (0x80000000, 0) ∧ got (.bfi P .n32 W3) 0xFFFFFFFF 0 0xFF = (0xFFFFFF00, 0) ∧
    got (.bfx P .n32 (.r W)) 0xABCD 0x804 0 = (0xBC, 0) ∧ got (.bfx P .i32 (.r W)) 0xABCD 0x404 0 = (0xFFFFFFFC, 0) := by
  decide +kernel
/-- R106, R107: the lowest clear bits. -/
theorem test_allocate : got (.ffcs P .n32 W1) 7 0 0 = (3, 0) ∧
    (run1 (.ffcs P .n32 W1) (abc 7 0 0)).vGet 2 0 = 15 ∧ got (.ffcs P .n32 W1) 0xFFFFFFFF 0 0 = (0xFFFFFFFF, 0) ∧
    got (.plset P .n32 W) 5 2 0 = (10, 0) ∧ (run1 (.plset P .n32 W) (abc 5 2 0)).vGet 2 0 = 15 := by decide +kernel
theorem test_moves : got (.sel P .n32 (rw (v 8) (v 2) (v 4) (mr 0))) 1 2 0 = (1, 0) ∧
    got (.sel P .n32 (rw (v 8) (v 2) (v 4) (mr 1))) 1 2 0 = (2, 0) ∧ got (.mov P .n32 (.r W1)) 9 0 0 = (9, 0) ∧
    got (.movi P .n32 ⟨false, 8, 77⟩) 0 0 0 = (77, 0) ∧
    got (.lea P .n32 (.r { W with simm := 3 })) 1 2 0 = (17, 0) := by decide +kernel
theorem test_compare : (run1 (.cmp P .i32 .lt (.r (rw (mr 1) (v 2) (v 4) (v 0)))) (abc 0xFFFFFFFF 1 0)).mask 1 = 1 ∧
    (run1 (.cmp P .n32 .lt (.r (rw (mr 1) (v 2) (v 4) (v 0)))) (abc 0xFFFFFFFF 1 0)).mask 1 = 0 ∧
    (run1 (.movmTom P (rw (mr 1) (v 2) (v 0) (v 0))) (abc 5 0 0)).mask 1 = 1 ∧
    (run1 (.movmTor P (rw (sr 1) (mr 0) (v 0) (v 0))) id).sGet 1 = 0xFFFFFFFF := by decide +kernel
/-- R156 to R161. -/
theorem test_packed : got (.padd P .i16 { W with sat := true }) 0x7FFF0001 0x00010001 0 = (0x7FFF0002, 0x20) ∧
    got (.psub P .n8 W) 0x00000000 0x00000001 0 = (0xFF, 0) ∧ got (.pmul P .n16 W) 0x00030002 0x00050004 0 = (0x000F0008, 0) ∧
    got (.pmin P .i8 W) 0x7F 0x80 0 = (0x80, 0) ∧ got (.pmax P .i8 W) 0x7F 0x80 0 = (0x7F, 0) ∧
    got (.pcmp P .n16 .eq W) 0x00010002 0x00010003 0 = (0xFFFF0000, 0) ∧
    got (.pmac P .i16 W3) 0x00030002 0x00050004 1 = (24, 0) := by decide +kernel
theorem test_round_narrow : got (.pshr P .i16 (.r W)) 5 1 0 = (2, 0) ∧ got (.pshr P .i16 (.r { W with rm := .rna })) 5 1 0 = (3, 0) ∧
    got (.pnar P .i8 W) 0x00800001 0x00020003 0 = (0x02037F01, 0x20) ∧
    got (.pwid P .i8 { W1 with simm := 1 }) 0x80010000 0 0 = (0xFF800001, 0) := by decide +kernel
/-- R114 to R118: 1.0 is 0x3F800000. -/
theorem test_float : got (.fadd Q .f32 (.r W)) 0x3F800000 0x3F800000 0 = (0x40000000, 0) ∧
    got (.fsub Q .f32 (.r W)) 0x3F800000 0x40000000 0 = (0xBF800000, 0) ∧
    got (.fmul Q .f32 (.r W)) 0x40000000 0x40400000 0 = (0x40C00000, 0) ∧
    got (.fdiv Q .f32 (.r W)) 0x3F800000 0 0 = (0x7F800000, 0x02) ∧
    got (.fma Q .f32 W3) 0x40000000 0x40400000 0x3F800000 = (0x40E00000, 0) := by decide +kernel
theorem test_float_functions : got (.fsqrt Q .f32 W1) 0x40800000 0 0 = (0x40000000, 0) ∧
    got (.frsq Q .f32 W1) 0x40800000 0 0 = (0x3F000000, 0) ∧ got (.fexp2 Q .f32 W1) 0x40400000 0 0 = (0x41000000, 0) ∧
    got (.flog2 Q .f32 W1) 0x41000000 0 0 = (0x40400000, 0) ∧ got (.fscale Q .f32 (.r W)) 0x3F800000 3 0 = (0x41000000, 0) := by
  decide +kernel
theorem test_float_choice : got (.fmin Q .f32 (.r W)) 0x80000000 0 0 = (0x80000000, 0) ∧
    got (.fmax Q .f32 (.r W)) 0x7FC00000 0x3F800000 0 = (0x3F800000, 0) ∧ got (.fclass Q .f32 W1) 0x80000000 0 0 = (8, 0) ∧
    got (.frnd Q .f32 W1) 0x40200000 0 0 = (0x40000000, 0) ∧
    (run1 (.fcmp Q .f32 .lt true (.r (rw (mr 1) (v 2) (v 4) (v 0)))) (abc 0x7FC00000 0 0)).status = 1 := by decide +kernel
/-- R57 to R63, R121 to R123: 1.5 rounds to even 2; a NaN becomes 0 with INVALID. -/
theorem test_convert : got (.cvt Q .i32 .f32 W1) 0x3FC00000 0 0 = (2, 0x10) ∧ got (.cvt Q .i32 .f32 W1) 0x7FC00000 0 0 = (0, 1) ∧
    got (.cvt Q .f32 .i32 W1) 0xFFFFFFFF 0 0 = (0xBF800000, 0) := by decide +kernel
/-- R120: the worked step of the spec, both columns. -/
def updParamsOf (tm : Team) : Team :=
  (((tm.sSet 8 0x3E0000003F600000).sSet 9 0x3D8000003F700000).sSet 10 0x000000003E800000).sSet 11 0x000000003D000000
def updTeam (g : Word32) : Team :=
  run1 (.fupd Q false { rw (v 8) (v 2) (v 4) (v 6) with simm := 8 }) fun tm => updParamsOf ((abc 0 0 g tm).vSet 8 0 0x3F800000)
theorem test_upd : (updTeam 0x40000000).vGet 8 0 = 0x3F580000 ∧ (updTeam 0x40000000).vGet 2 0 = 0x3E800000 ∧
    (updTeam 0x40000000).vGet 4 0 = 0x3E800000 ∧ (updTeam 0x40000000).status = 0 := by decide +kernel
theorem test_upd_zero_gradient : (updTeam 0).vGet 8 0 = 0x7FC00000 ∧ (updTeam 0).vGet 2 0 = 0 ∧
    (updTeam 0).status = 0x81 := by decide +kernel

/-- R15, R77, R125: from slot 0 of line 0x20000, 5 slots on is the next line; CALL writes the next slot's PC. -/
theorem test_transfer : (run1 (.bra P 5) id).pc = 0x20040 ∧ (run1 (.bra P 4) id).pc = 0x20004 ∧
    (run1 (.call P 5 (sr 7)) id).pc = 0x20040 ∧ (run1 (.call P 5 (sr 7)) id).sGet 7 = 0x20001 ∧
    (run1 (.jmp P (sr 3)) fun tm => tm.sSet 3 0x20044).pc = 0x20044 ∧
    (run1 (.ret P (sr 3)) fun tm => tm.sSet 3 0x20044).checked = true := by decide +kernel
/-- R125: LOOP counts down, BRC asks the active lanes. -/
theorem test_conditional : (run1 (.loop P 5 (sr 3)) fun tm => tm.sSet 3 2).pc = 0x20040 ∧
    (run1 (.loop P 5 (sr 3)) fun tm => tm.sSet 3 1).pc = 0x20001 ∧
    (run1 (.brc P .any 5 (mr 1)) fun tm => tm.setMask 1 8).pc = 0x20040 ∧
    (run1 (.brc P .all 5 (mr 1)) fun tm => tm.setMask 1 8).pc = 0x20001 ∧
    (run1 (.pick P 5) fun tm => { tm with pickthr := 0 }).pc = 0x20040 := by decide +kernel
/-- R126, R127: lanes split, come together, and leave. -/
theorem test_divergence : (run1 (.brd 5 (mr 1) 10) fun tm => tm.setMask 1 3).e = 3 ∧
    (run1 (.brd 5 (mr 1) 10) fun tm => tm.setMask 1 3).stack =
      [⟨true, 0x20001, 0xFFFFFFFC⟩, ⟨false, 0x20080, 0xFFFFFFFF⟩] ∧
    (run1 .join fun tm => { tm with e := 3, stack := [⟨true, 0x20001, 0xFFFFFFFC⟩] }).e = 0xFFFFFFFC ∧
    (run1 (.exit P) id).phase = .ended ∧ (run1 (.exit ⟨false, 1⟩) fun tm => tm.setMask 1 1).phase = .running := by decide +kernel

/-- A team whose context has a trap vector. -/
def trapping (f : Team → Team) : State := (at_ f).onCtx 0 fun c => { c with trapvec := 0x20000 }

/-- R25, R129, R28: entry by TRAP, and ERET. -/
theorem test_trap : (team (after (.trap P (iw (v 0) (v 0) 0x2A)) (trapping id))).trapcause = 0x2A0E ∧
    (team (after (.trap P (iw (v 0) (v 0) 0x2A)) (trapping id))).trappc = 0x20001 ∧
    (team (after (.trap P (iw (v 0) (v 0) 0x2A)) (trapping id))).masked = true ∧
    (team (after (.bkpt P { rw (v 0) (v 0) (v 0) (v 0) with simm := 3 }) (trapping id))).trapcause = 0x30D := by decide +kernel
theorem test_return : (run1 (.eret (rw (v 0) (v 0) (v 0) (v 0))) fun tm => { tm with masked := true, trappc := 0x20044 }).pc = 0x20044 ∧
    (team (after (.eret (rw (v 0) (v 0) (v 0) (v 0))) (trapping id))).trapcause = 1 ∧
    (run1 (.tmaskMask (rw (v 0) (v 0) (v 0) (v 0))) id).masked = true ∧
    (run1 (.tmaskUnmask (rw (v 0) (v 0) (v 0) (v 0))) fun tm => { tm with masked := true }).masked = false := by decide +kernel
/-- R26: a trap without a handler ends the launch. -/
theorem test_terminate : ((tabGet? (after (.trap P (iw (v 0) (v 0) 1)) base).launches 0).map (·.terminated)) = some true ∧
    (team (after (.trap P (iw (v 0) (v 0) 1)) base)).phase = .retired := by decide +kernel
/-- R9, R10, R130. -/
theorem test_special : (run1 (.srd P .n64 (rw (sr 4) (mr 9) (v 0) (v 0))) id).sGet 4 = 0xC0 ∧
    (run1 (.srd P .n64 (rw (sr 4) (mr 2) (v 0) (v 0))) id).sGet 4 = 1 ∧
    (run1 (.swr P .n64 (rw (mr 9) (sr 4) (v 0) (v 0))) fun tm => tm.sSet 4 0x1000).pickthr = 256 ∧
    (run1 (.swr P .n64 (rw (mr 1) (sr 4) (v 0) (v 0))) fun tm => tm.sSet 4 0x1FF).status = 0xFF ∧
    (team (after (.swr P .n64 (rw (mr 3) (sr 4) (v 0) (v 0))) (trapping id))).trapcause = 2 := by decide +kernel
/-- R163 to R170. -/
theorem test_lanes : (run1 (.slide P false .n32 { rw (v 8) (v 2) (sr 3) (v 0) with simm := 1 }) (abc 7 0 0)).vGet 8 1 = 7 ∧
    (run1 (.slide P false .n32 { rw (v 8) (v 2) (sr 3) (v 0) with simm := 1 }) fun tm => tm.sSet 3 9).vGet 8 0 = 9 ∧
    (run1 (.shfl P false .n32 (rw (v 8) (v 2) (v 4) (v 0))) (abc 7 0 0)).vGet 8 5 = 7 ∧
    (run1 (.bcast P .n32 (rw (v 8) (v 2) (sr 3) (v 0))) (abc 7 0 0)).vGet 8 31 = 7 ∧
    (run1 (.redl P .add .n32 (rw (sr 8) (v 2) (v 0) (v 0))) fun tm => (abc 7 0 0 tm).vSet 2 3 5).sGet 8 = 12 ∧
    (run1 (.scanl P .add true .n32 (rw (v 8) (v 2) (v 0) (v 0))) (abc 7 0 0)).vGet 8 1 = 7 := by decide +kernel
theorem test_masks : (run1 (.vote P (.quant .any) (rw (sr 8) (v 2) (v 0) (v 0))) (abc 7 0 0)).sGet 8 = 1 ∧
    (run1 (.vote P (.quant .all) (rw (sr 8) (v 2) (v 0) (v 0))) (abc 7 0 0)).sGet 8 = 0 ∧
    (run1 (.vote P .ballot (rw (mr 1) (v 2) (v 0) (v 0))) (abc 7 0 0)).mask 1 = 1 ∧
    (run1 (.elect Q (rw (mr 1) (v 0) (v 0) (v 0))) (abc 7 0 0)).mask 1 = 1 ∧
    (run1 (.msk P .andn (rw (mr 3) (mr 0) (mr 2) (v 0))) (abc 7 0 0)).mask 3 = 0xFFFFFFFE ∧
    (run1 (.widf P .n32 { rw (v 8) (v 0) (v 0) (v 0) with simm := 8 }) id).vGet 8 0 = 32 := by decide +kernel
/-- R177: BARS of the only expected arrival completes at once: generation 1, EXPECT 1. -/
theorem test_barrier : (run1 (.bars P (rw (sr 4) (zr 0) (v 0) (v 0))) id).pc = 0x20001 ∧
    (run1 (.bars P (rw (sr 4) (zr 0) (v 0) (v 0))) id).sGet 4 = 0x100000001 := by decide +kernel
/-- R242: a load empties its destination until its access performs; R128: a store of N32 to the scratchpad. -/
theorem test_load : (run1 (.ld P .n32 (mw (v 8) (sr 3) (mr 0) 0 .spad)) id).isEmpty (.v 8 0) = true ∧
    (after (.ld Q .n32 (mw (v 8) (sr 3) (mr 0) 0 .spad)) (at_ (abc 0 0 0))).pend.length = 1 ∧
    (after (.st Q .n32 (mw (v 2) (sr 3) (mr 0) 0 .spad)) (at_ (abc 5 0 0))).pend.length = 1 := by decide +kernel
def stored : State := after (.st Q .n32 (mw (v 2) (sr 3) (mr 0) 8 .spad)) (at_ (abc 0x12345678 0 0))
theorem test_store_performs : memGets (after (.accessPerform stored.nextId.pred) stored).mem (spadByte 1 8) 4 =
    [0x78, 0x56, 0x34, 0x12] := by decide +kernel

/-! ### Every hypothesis can be met

For each statement, a state and operands that meet its hypotheses together, clause by clause. -/

def readsB (s : State) (tm : Team) (p : Pred) (us : List Use) : Bool :=
  decide (s.current = some (2, tm)) && us.all (·.ok (s.counts tm)) && decide (activeLanes tm p ≠ []) &&
    (readRefs tm p us).all (fun q => !tm.isEmpty q) && decide (s.regMark tm (readRefs tm p us) = none) &&
    decide (s.predMark tm p = none)

def ableB (s : State) (tm : Team) (p : Pred) (us : List Use) : Bool :=
  readsB s tm p us && (writeRefs us (activeLanes tm p)).all fun q => !tm.isEmpty q

theorem reads_of {s : State} {tm : Team} {p : Pred} {us : List Use} (h : readsB s tm p us = true) : Reads s 2 tm p us := by
  simp only [readsB, Bool.and_eq_true, decide_eq_true_eq, List.all_eq_true, Bool.not_eq_true'] at h
  exact ⟨⟨h.1.1.1.1.1, h.1.1.1.1.2⟩, h.1.1.1.2, h.1.1.2, h.1.2, h.2⟩

theorem able_of {s : State} {tm : Team} {p : Pred} {us : List Use} (h : ableB s tm p us = true) : Able s 2 tm p us := by
  simp only [ableB, Bool.and_eq_true, List.all_eq_true, Bool.not_eq_true'] at h
  exact ⟨reads_of h.1, h.2⟩

theorem reads_all {s : State} {tm : Team} {p : Pred} {l : List (List Use)} (h : l.all (readsB s tm p) = true) :
    ∀ us ∈ l, Reads s 2 tm p us := fun us hu => reads_of (List.all_eq_true.mp h us hu)

theorem able_all {s : State} {tm : Team} {p : Pred} {l : List (List Use)} (h : l.all (ableB s tm p) = true) :
    ∀ us ∈ l, Able s 2 tm p us := fun us hu => able_of (List.all_eq_true.mp h us hu)

theorem ok_of {ε α : Type} {x : Except ε α} {a : α} (h : x.toOption = some a) : x = .ok a := by
  cases x with
  | ok b => exact congrArg Except.ok (Option.some.inj h)
  | error e => cases h

theorem exists_ok {ε α : Type} {x : Except ε α} (h : x.toOption.isSome = true) : ∃ a, x = .ok a := by
  cases x with
  | ok b => exact ⟨b, rfl⟩
  | error e => cases h

theorem exists_error {ε α : Type} {x : Except ε α} (h : x.toOption.isSome = false) : ∃ e, x = .error e := by
  cases x with
  | ok b => cases h
  | error e => exact ⟨e, rfl⟩

def I4 : IWord := iw (v 8) (v 2) 4
def M1 (w : RWord) : RWord := { w with d := mr 1 }
def M0 (w : RWord) : RWord := { w with d := mr 0 }

theorem base_current : base.current = some (2, tm0) := by decide +kernel

theorem witness_IntegerArithmetic :
    (∀ us ∈ [usesRI .i32 (.r W), usesRI .n64 (.i I4), usesDABC .i8 W3, usesDA .n16 W1], Able base 2 tm0 P us) ∧
    (∀ us ∈ [usesCarry .n32 (rw (v 8) (v 2) (v 4) (mr 1)), usesCarry .n64 (rw (v 8) (v 2) (v 4) (mr 15))], Able base 2 tm0 P us) ∧
    base.current = some (2, tm0) ∧ (rw (v 8) (v 2) (v 4) (mr 0)).c = ⟨.m, 0⟩ :=
  ⟨able_all (by decide +kernel), able_all (by decide +kernel), base_current, rfl⟩

theorem witness_Division : ∀ us ∈ [usesRI .i32 (.r W), usesRI .n64 (.i I4)], Able base 2 tm0 P us := able_all (by decide +kernel)

theorem witness_BitwiseAndShifts : ∀ us ∈ [usesRI .n32 (.r W), usesRI .i8 (.i I4)], Able base 2 tm0 P us :=
  able_all (by decide +kernel)

theorem witness_BitFields : ∀ us ∈ [usesDA .n32 W1, usesDABC .n64 W3, usesRI .i32 (.r W), usesRI .n32 (.i I4)], Able base 2 tm0 P us :=
  able_all (by decide +kernel)

theorem witness_BitAllocation :
    (W1.d ≠ W1.a ∧ ∀ us ∈ [usesFfcs .n32 W1, usesFfcs .n64 W1, usesPlset .n32 W, usesPlset .n64 W], Able base 2 tm0 P us) ∧
    base.current = some (2, tm0) ∧ (rw (v 8) (v 8) (v 4) (v 0)).d = (rw (v 8) (v 8) (v 4) (v 0)).a :=
  ⟨⟨by decide, able_all (by decide +kernel)⟩, base_current, rfl⟩

theorem witness_Moves :
    (∀ us ∈ [usesSel .f64 (rw (v 8) (v 2) (v 4) (mr 1)), usesMov .tap8 (.r W1), usesMov .f64 (.i (iw (v 8) (v 0) 4)),
      [dUse .n64 (lDest ⟨false, 8, 7⟩)], [dUse .n32 (lDest ⟨true, 63, 7⟩)], usesRI .n64 (.r W), usesRI .n32 (.i I4)],
      Able base 2 tm0 P us) ∧
    (∀ us ∈ [usesMovmTor (rw (v 8) (mr 15) (v 0) (v 0)), usesMovmTor (rw (sr 63) (mr 1) (v 0) (v 0)),
      usesMovmTom (rw (mr 15) (v 8) (v 0) (v 0)), usesMovmTom (rw (mr 1) (sr 0) (v 0) (v 0))], Able base 2 tm0 P us) ∧
    wordIndexOk tm0 (v 8) 0 = true ∧ wordIndexOk tm0 (sr 63) 0 = true ∧ wordIndexOk tm0 (sr 63) 1 = false ∧ tm0.rep = none :=
  ⟨able_all (by decide +kernel), able_all (by decide +kernel), by decide +kernel⟩

theorem witness_IntegerComparison :
    (∀ us ∈ [usesCmp .i32 (.r (M1 W)), usesCmp .n64 (.i { I4 with d := mr 15 })], Able base 2 tm0 P us) ∧
    base.current = some (2, tm0) ∧ (riD (.r W)).cls ≠ .m ∧ (riD (.r (M0 W))).num = 0 :=
  ⟨able_all (by decide +kernel), base_current, by decide, rfl⟩

theorem witness_PackedElements :
    ∀ us ∈ [usesPacked .i16 W, usesPacked .n8 { W with mb := ⟨2, 3⟩ }, usesPmac .i16 W3, usesPmac .n16 W3], Able base 2 tm0 P us :=
  able_all (by decide +kernel)

theorem witness_PackedRounding : ∀ us ∈ [usesPshr (.r W), usesPshr (.i { I4 with imm := 31 }), usesPnar .i16 W, usesPnar .n8 W,
    usesPwid .i8 { W1 with simm := 1 }], Able base 2 tm0 P us := able_all (by decide +kernel)

theorem witness_FloatArithmetic : ∀ us ∈ [usesRI .f32 (.r W), usesRI .f64 (.i I4), usesFscale .f16 (.r W), usesFscale .bf16 (.i I4),
    usesDABC .f64 W3, usesDA .f32 W1], Able base 2 tm0 P us := able_all (by decide +kernel)

theorem witness_FloatLimits : (binary .f32 ∧ binary .e4m3 ∧ binary .e5m2 ∧ (0x7F7FFFFF : Nat) < 2 ^ Ty.bits .f32 ∧
      ((tyFmt .f32).decode 0x7F7FFFFF).isFinite = true ∧ ((tyFmt .f64).decode 1).isFinite = true ∧
      ((tyFmt .e4m3).decode 0x7E).isFinite = true ∧ ((tyFmt .e5m2).decode 0x7B).isFinite = true) ∧
    (magnitude (ratOf (.fin true 448 1)) ≤ topValue .e4m3 ∧ magnitude (ratOf (.fin false 1 3)) ≤ topValue .e4m3) ∧
    (topValue .e4m3 < magnitude (ratOf (.fin true 449 1)) ∧ staysAtTop .e4m3 .rz true (ratOf (.fin true 449 1)) ∧
      ¬staysAtTop .e4m3 .rz true (ratOf (.fin true 480 1))) ∧
    ∃ n d, (tyFmt .e4m3).decode 0x38 = .fin false n d ∧ 0 < n :=
  ⟨⟨.inl rfl, .inr (.inl rfl), .inr (.inr rfl), by decide +kernel⟩, by decide +kernel,
    ⟨by decide +kernel, ⟨by decide +kernel, trivial⟩, fun h => absurd h.1 (by decide +kernel)⟩, _, _, rfl, by decide⟩

theorem witness_FloatSelections : (∀ us ∈ [usesRI .f32 (.r W), usesRI .f64 (.i I4), usesCmp .f32 (.r (M1 W)), usesCmp .f64 (.i { I4 with d := mr 15 }),
    usesFclass .f64 W1, usesDA .f16 W1], Able base 2 tm0 P us) ∧
    ((tyFmt .f32).decode 0x7FC00000).isNan = true ∧ (tyFmt .f32).decode 0x7F800001 = .nan .signalling ∧
    ((tyFmt .f32).decode 0x80000000).isNan = false ∧ ((tyFmt .f32).decode 0x80000000).isZero = true :=
  ⟨able_all (by decide +kernel), by decide +kernel⟩

theorem witness_OptimiserStep : (Able base 2 tm0 P (usesFupd { W3 with simm := 60 }) ∧ distinct [W3.d, W3.a, W3.b, W3.c] = true) ∧
    base.current = some (2, tm0) ∧ distinct [W.d, W.a, W.b, W.d] = false :=
  ⟨⟨able_of (by decide +kernel), by decide⟩, base_current, by decide⟩

theorem witness_Conversions : (∀ us ∈ [usesCvt .tap6 .f64 W1, usesCvt .f32 .i8 W1, usesCvts .e4m3 .f32 W, usesCvtb .f64 W1],
    Able base 2 tm0 P us) ∧ (Ty.isInt .n64 = true ∧ ((tyFmt .f32).decode (0x7FC00000 % 2 ^ Ty.bits .f32)).isNan = true) ∧
    (∀ x ∈ [ratOf (.fin true 1 1), ratOf (.fin false 3 7)],
      ratOf (tapDecode 6 1) ≤ magnitude x ∧ magnitude x ≤ ratOf (tapDecode 6 31)) ∧
    (magnitude (ratOf (.fin true 1 (2 ^ 80))) < ratOf (tapDecode 8 1) ∧ ratOf (tapDecode 8 127) < magnitude (ratOf (.fin true (2 ^ 80) 1))) ∧
    ((fmtScale.decode (0x7F % 256)).isFinite && !(fmtScale.decode (0x7F % 256)).negative && !(fmtScale.decode (0x7F % 256)).isZero) = true ∧
    (((1 : Nat) : Rat) / ((448 : Nat) : Rat) ≤ ratOf (fmtScale.decode 0xFE) ∧
      ratOf (fmtScale.decode 0xFE) < ((2 ^ 200 : Nat) : Rat) / ((127 : Nat) : Rat)) ∧
    (∃ n d, tyValue .e4m3 0xB8 = .fin true n d) ∧
    (binary .e5m2 ∧ (tyValue .e4m3 0x7F).isNan = true ∧ tyValue .e5m2 0x7D = .nan .signalling ∧ tyValue .e5m2 0xFC = .inf true ∧
      tyValue .f16 0x7C00 = .inf false ∧ (tyValue .bf16 0x8000).isZero = true ∧ (tyValue .e4m3 0x80).negative = true) ∧
    ∃ c e, fmtScale.decode (0x01 % 256) = .fin false c e ∧ 0 < c ∧ 0 < e :=
  ⟨able_all (by decide +kernel), by decide +kernel, by decide +kernel, by decide +kernel, by decide +kernel, by decide +kernel, ⟨_, _, rfl⟩,
    ⟨.inr (.inr rfl), by decide +kernel⟩, _, _, rfl, by decide, by decide⟩

theorem witness_PcArithmetic : badPc 0x20003 = false ∧ badPc 0x20004 = false ∧ targetPc 0x20004 (-5) = .ok 0x1FFC4 ∧
    targetPc 0x20000 (2 ^ 32 - 1) = .ok 0xCCCCECCC0 ∧ badPc (BitVec.ofNat 64 (2 ^ 56 - 60)) = false ∧
    (5 * (((0x20000 : Word64).toNat / 64 : Nat) : Int) + ((0x20000 : Word64).toNat % 8 : Nat) - 10240 = 0 ∧
      5 * (((BitVec.ofNat 64 (2 ^ 56 - 60)).toNat / 64 : Nat) : Int) + ((BitVec.ofNat 64 (2 ^ 56 - 60)).toNat % 8 : Nat) = 5 * 2 ^ 50 - 1) :=
  ⟨by decide +kernel, by decide +kernel, ok_of (by decide +kernel), ok_of (by decide +kernel), by decide +kernel, by decide +kernel⟩

/-- The predicate m1, false in every lane of the placed team, and the word of an addition under it. -/
def none1 : Pred := ⟨false, 1⟩
def idleAdd : Instr := .add none1 .i32 (.r W)
def idleWord : Slot := (encode idleAdd).getD 0

theorem witness_IdleInstructions : (decode idleWord = .ok idleAdd ∧ (∀ w, idleAdd ≠ .rep w) ∧ idleWord.getLsbD 87 = false ∧
      idleWord.extractLsb' 83 4 = 1 ∧ activeLanes tm0 none1 = [] ∧ base.predMark tm0 none1 = none ∧ base.current = some (2, tm0) ∧
      tm0.stall.begun = false) ∧
    ((follower idleAdd).elim false fun f => decide (f.p = none1) && f.us.all (·.ok (base.counts tm0)) && f.more tm0) = true ∧
    (∀ us ∈ [[unused .a ⟨0, 0⟩ false], usesNone W, usesNoneM (mw (v 0) (v 0) (v 0) 0 .global),
      usesAtom .n32 (mw (v 8) (sr 3) (v 4) 0 .global) true, usesCopy (xw (v 0) (sr 4) (v 0) (v 0) 0 true 0 0)], Issues base 2 tm0 us) ∧
    barOk base (xw (v 0) (sr 4) (v 0) (v 0) 0 true 0 0) tm0 = true :=
  ⟨⟨ok_of (by decide +kernel), by simp [idleAdd], by decide +kernel, by decide +kernel, by decide +kernel, by decide +kernel, base_current, rfl⟩,
    by decide +kernel, fun us hu => (reads_all (p := P) (by decide +kernel) us hu).toIssues, by decide +kernel⟩

/-- The placed team with s3 set. -/
def s3 (x : Word64) : Team := tm0.sSet 3 x
def with3 (x : Word64) : State := at_ fun tm => tm.sSet 3 x

theorem witness_Transfers : (Reads base 2 tm0 P [] ∧ targetPc tm0.pc (5 : BitVec 33).toInt = .ok 0x20040 ∧
      ∃ pc, targetPc tm0.pc (0x100000000 : BitVec 33).toInt = .error pc) ∧
    (Reads (with3 0x20044) 2 (s3 0x20044) P [sUse .a (sr 3)] ∧ badPc (s3 0x20044 |>.sGet 3) = false) ∧
    (Reads (with3 5) 2 (s3 5) P [sUse .a (sr 3)] ∧ badPc (s3 5 |>.sGet 3) = true) ∧
    Able base 2 tm0 P [{ letter := .a, opd := sr 63, want := wantS, write := true }] ∧
    Reads base 2 tm0 P [mUse .a (mr 1) .plain false] ∧
    (Able (with3 2) 2 (s3 2) P [{ sUse .a (sr 3) with write := true }] ∧ Able (with3 1) 2 (s3 1) P [{ sUse .a (sr 3) with write := true }] ∧
      (s3 2).sGet 3 = 2 ∧ (s3 1).sGet 3 = 1 ∧ tm0.sGet 3 = 0) ∧
    Quant.holds .none (activeLanes tm0 P) (tm0.mask (1 : BitVec 8).toNat) = true ∧
    tabGet base.bwmon (base.teamDie tm0) 0 < tm0.pickthr.toNat ∧
    ({ tm0 with pickthr := 0 } : Team).pickthr.toNat ≤ tabGet base.bwmon (base.teamDie tm0) 0 :=
  ⟨⟨reads_of (by decide +kernel), ok_of (by decide +kernel), exists_error (by decide +kernel)⟩,
    ⟨reads_of (by decide +kernel), by decide +kernel⟩, ⟨reads_of (by decide +kernel), by decide +kernel⟩,
    able_of (by decide +kernel), reads_of (by decide +kernel), ⟨able_of (by decide +kernel), able_of (by decide +kernel), by decide +kernel⟩,
    by decide +kernel, by decide +kernel, by decide +kernel⟩

/-- A team inside a divergent region, at its reconvergence point. -/
def inside : Team := { tm0 with e := 3, stack := [⟨true, 0x20001, 0xFFFFFFFC⟩, ⟨false, 0x20000, 0xFFFFFFFF⟩] }

theorem witness_Divergence : (Reads base 2 tm0 P [mUse .a (mr 1) .plain false] ∧ tm0.stack.length + 2 ≤ stackDepth tm0.lanes ∧
      targetPc tm0.pc (10 : BitVec 33).toInt = .ok 0x20080) ∧
    (tm0.active P &&& tm0.mask 1 = 0 ∧ tm0.active P &&& tm0.mask 0 ≠ 0 ∧ tm0.active P &&& ~~~ tm0.mask 0 = 0 ∧
      (tm0.setMask 1 3).active P &&& ~~~ (tm0.setMask 1 3).mask 1 ≠ 0) ∧
    (Reads (base.setTeam 2 inside) 2 inside P [] ∧ (0xFFFFFFFC : LaneSet) &&& ~~~ inside.x ≠ 0) ∧
    (Reads base 2 tm0 P [] ∧ tm0.stack = []) ∧
    (tm0.e &&& ~~~ (tm0.x ||| tm0.active P) = 0 ∧ inside.e &&& ~~~ (inside.x ||| inside.active P) = 0 ∧
      tm0.e &&& ~~~ (tm0.x ||| (tm0.setMask 1 1).active ⟨false, 1⟩) ≠ 0) :=
  ⟨⟨reads_of (by decide +kernel), by decide +kernel, ok_of (by decide +kernel)⟩, by decide +kernel,
    ⟨reads_of (by decide +kernel), by decide +kernel⟩, ⟨reads_of (by decide +kernel), rfl⟩, by decide +kernel⟩

theorem witness_TrapEntry : (tabGet? (trapping id).teams 2 = some tm0 ∧ tm0.masked = false ∧
      badVector ((trapping id).ctx ((trapping id).vfOf tm0)).trapvec = false) ∧
    (tabGet? base.teams 2 = some tm0 ∧ (tabGet? base.launches tm0.launch).isSome = true ∧
      badVector (base.ctx (base.vfOf tm0)).trapvec = true) := by decide +kernel

/-- In a handler. -/
def handling : Team := { tm0 with masked := true, trappc := 0x20044 }

theorem witness_TrapReturn : (Reads (base.setTeam 2 handling) 2 handling ⟨false, 0⟩ (usesNone W0) ∧ handling.masked = true ∧ badPc handling.trappc = false) ∧
    (Reads base 2 tm0 ⟨false, 0⟩ (usesNone W0) ∧ tm0.masked = false ∧ Reads base 2 tm0 P [unused .a ⟨0, 0⟩ false]) ∧
    ((base.ctx (base.vfOf tm0)).claimed && base.invasiveOk (base.vfOf tm0)) = false ∧
    (let s := base.onCtx 0 fun c => { c with claimed := true }
     Reads s 2 tm0 P (usesNone W0) ∧ ((s.ctx (s.vfOf tm0)).claimed && s.invasiveOk (s.vfOf tm0)) = true) :=
  ⟨⟨reads_of (by decide +kernel), by decide +kernel⟩, ⟨reads_of (by decide +kernel), rfl, reads_of (by decide +kernel)⟩,
    by decide +kernel, reads_of (by decide +kernel), by decide +kernel⟩

theorem witness_SpecialRegisters :
    (∀ us ∈ [usesSrd .n32 (rw (v 8) (mr 0) (v 0) (v 0)), usesSrd .n64 (rw (sr 8) (mr 11) (v 0) (v 0))], Able base 2 tm0 P us) ∧
    (∀ us ∈ [usesSwr .n64 (rw (mr 2) (sr 3) (v 0) (v 0)), usesSwr .n32 (rw (mr 10) (v 3) (v 0) (v 0))], Reads base 2 tm0 P us) ∧
    (Reads (with3 5) 2 (s3 5) P (usesSwr .n64 (rw (mr 2) (sr 3) (v 0) (v 0))) ∧
      (BitVec.ofNat 64 ((s3 5).bitsOf .n64 (sr 3) ⟨0, 0⟩ ((activeLanes (s3 5) P).headD 0))).toNat % 8 = 5) ∧
    (let s := { base with security := .pr }
     Reads s 2 tm0 P (usesSwr .n64 (rw (mr 10) (sr 3) (v 0) (v 0))) ∧ s.debugOk (s.vfOf tm0) = false) ∧
    base.current = some (2, tm0) ∧ 11 < (mr 12).num.toNat ∧ (mr 8).num.toNat ∈ [0, 3, 7, 8] :=
  ⟨able_all (by decide +kernel), reads_all (by decide +kernel), ⟨reads_of (by decide +kernel), by decide +kernel⟩,
    ⟨reads_of (by decide +kernel), by decide +kernel⟩, base_current, by decide, by decide⟩

/-- What every lane of a list has an answer for, some function gives. -/
theorem exists_each {ε α : Type} (d : α) {L : List Nat} {f : Nat → Except ε α}
    (h : L.all (fun l => (f l).toOption.isSome) = true) : ∃ g : Nat → α, ∀ l ∈ L, f l = .ok (g l) := by
  refine ⟨fun l => ((f l).toOption).getD d, fun l hl => ?_⟩
  obtain ⟨a, ha⟩ := exists_ok (List.all_eq_true.mp h l hl)
  simp [ha, Except.toOption]

theorem witness_ErrorInjection :
    (Reads (with3 0x8000000000000000) 2 (s3 0x8000000000000000) P (usesSwr .n64 (rw (mr 10) (sr 3) (v 0) (v 0))) ∧
      base.debugOk (base.vfOf tm0) = true ∧ ((s3 0x8000000000000000).sGet 3).getLsbD 63 = true ∧ tm0.sGet 3 = 0 ∧
      (∃ x, (with3 0x8000000000000000).injectTarget (s3 0x8000000000000000) 0 0 = .ok x) ∧
      (with3 0x8000000000000000).markWaits (spadByte 1 0) = false) ∧
    (∃ x, base.injectTarget tm0 1 0x1FFF = .ok x) ∧ (∃ x, (data id).injectTarget tm0 3 0x20008 = .ok x) :=
  ⟨⟨reads_of (by decide +kernel), by decide +kernel, by decide +kernel, by decide +kernel, exists_ok (by decide +kernel), by decide +kernel⟩,
    exists_ok (by decide +kernel), exists_ok (by decide +kernel)⟩

theorem witness_LaneMoves :
    (∀ us ∈ [usesSlide .n32 (rw (v 1) (v 2) (sr 3) (v 0)), usesSlide .tap6 (rw (v 1) (v 2) (sr 3) (v 0)), usesShfl .f64 (rw (v 8) (v 2) (v 4) (v 0)),
      usesShfl .n32 (rw (v 8) (v 2) (sr 4) (v 0)), usesBcast .n32 (rw (sr 8) (v 2) (sr 4) (v 0)),
      usesBcast .n64 (rw (v 8) (v 2) (mr 0) (v 0))], Able base 2 tm0 P us) ∧
    (31 : BitVec 11).toNat < tm0.lanes ∧ tm0.lanes ≤ (32 : BitVec 11).toNat ∧ base.current = some (2, tm0) :=
  ⟨able_all (by decide +kernel), by decide +kernel, by decide +kernel, base_current⟩

theorem witness_Reductions : ∀ us ∈ [usesRedl .i32 W1 (dUse .i32 W1.d), usesRedl .f64 W1 (scanDest .f64 W1),
    usesRedl .f32 (rw (sr 8) (v 2) (v 0) (v 0)) (dUse .f32 (sr 8)), usesRedl .bf16 W1 (scanDest .bf16 W1),
    usesRedl .n8 (rw (sr 8) (v 2) (v 0) (v 0)) (dUse .n8 (sr 8)), usesRedl .n32 W1 (scanDest .n32 W1)], Able base 2 tm0 P us :=
  able_all (by decide +kernel)

theorem witness_LaneVotes :
    (∀ us ∈ [usesVote (.quant .any) (rw (sr 8) (v 2) (v 0) (v 0)), usesVote (.quant .none) (rw (mr 1) (mr 2) (v 0) (v 0)),
      usesVote .ballot (rw (mr 1) (v 2) (v 0) (v 0)), usesVote .ballot (rw (sr 8) (mr 0) (v 0) (v 0)), usesElect (rw (mr 1) (v 0) (v 0) (v 0)),
      usesElect (rw (sr 1) (v 0) (v 0) (v 0)), usesMsk .andn (rw (mr 1) (mr 2) (mr 3) (v 0)), usesMsk .not (rw (mr 15) (mr 0) (v 0) (v 0)),
      usesWidf .n32 W1, usesWidf .n64 (rw (sr 8) (v 0) (v 0) (v 0))], Able base 2 tm0 P us) ∧
    tm0.lanes ≤ 1024 ∧ 0 < tm0.words ∧ (base.launchOf tm0).isSome = true ∧ tm0.packed = none ∧
    (let tp := { tm0 with packed := some (List.replicate 32 5) }
     Able (base.setTeam 2 tp) 2 tp P (usesWidf .n32 W1) ∧ ((base.setTeam 2 tp).launchOf tp).isSome = true) :=
  ⟨able_all (by decide +kernel), by decide +kernel, by decide +kernel, by decide +kernel, rfl, able_of (by decide +kernel), by decide +kernel⟩

/-- Spawn queue 1 of the placed launch is enabled. -/
def spawning (f : Team → Team) : State := (at_ f).onLaunch 0 fun la => { la with spawn := [(1, ⟨5, 8, 0, 0, 0, 7, [], []⟩)] }
def spawnW : XWord := xw (v 0) (sr 3) (v 4) (v 0) 0 false 0 0x21
def spawnB : XWord := xw (v 0) (sr 0) (v 4) (v 0) 0 false 0 0x21

theorem witness_SpawnedItems :
    (let s := spawning fun tm => tm.sSet 3 0x20044
     Reads s 2 (s3 0x20044) P (usesSpawn spawnW) ∧ (s.spawnQueue (s3 0x20044) (spawnW.imm 3 0)).isSome = true ∧
       badPc ((s3 0x20044).sGet spawnW.a.num.toNat) = false ∧ s.drained 2 = true ∧ 0 + (activeLanes (s3 0x20044) P).length ≤ 4096) ∧
    (let s := spawning fun tm => tm.sSet 3 5
     Reads s 2 (s3 5) P (usesSpawn spawnW) ∧ (s.spawnQueue (s3 5) (spawnW.imm 3 0)).isSome = true ∧
       badPc ((s3 5).sGet spawnW.a.num.toNat) = true) :=
  ⟨⟨reads_of (by decide +kernel), by decide +kernel, by decide +kernel, by decide +kernel, by decide +kernel⟩,
    reads_of (by decide +kernel), by decide +kernel, by decide +kernel⟩

/-- Words of the barrier instructions, at b0. -/
def barW : RWord := rw (sr 8) (zr 0) (v 0) (v 0)
def bariW (n : BitVec 11) : RWord := { rw (v 0) (zr 0) (mr 0) (v 0) with simm := n }
def gr0 : Group := (tabGet? base.groups 1).getD (Group.fresh 0 0 0 false 0 0 0 1)
def barred (st : Stall) : Team := { tm0 with stall := st }

theorem witness_Barriers :
    (tabGet? base.groups 1 = some gr0 ∧ tm0.group = 1 ∧ base.bindings = [] ∧ (gr0.barrier 0).arrived + 1 = (gr0.barrier 0).expect) ∧
    (Reads base 2 tm0 P (usesBari (bariW 1)) ∧ (1 : BitVec 11).toNat < 65536 ∧ (gr0.barrier 0).arrived = 0 ∧
      Reads (with3 65536) 2 (s3 65536) P (usesBari (rw (v 0) (zr 0) (sr 3) (v 0)))) ∧
    (Reads base 2 tm0 P (usesBar barW [unused .d]) ∧ base.drained 2 = true ∧ base.held = [] ∧ base.arrivalHeld 1 0 = false) ∧
    (Able base 2 tm0 P (usesBar barW [statusUse barW]) ∧ tm0.stall = .none ∧
      (let arrived := (base.setTeam 2 { tm0 with targets := putAt none tm0.targets 0 (some 1) }).arrive 1 0 [] false
       (tabGet? arrived.teams 2).isSome = true ∧ ((tabGet? arrived.groups 1).map fun g => reached (g.barrier 0).gen 1) = some true) ∧
      reached (gr0.barrier 0).gen 1 = false) ∧
    Able (base.setTeam 2 (barred (.barrier 0 (some 5)))) 2 (barred (.barrier 0 (some 5))) P (usesBar barW [statusUse barW]) := by
  refine ⟨by decide +kernel, ⟨reads_of ?_, by decide +kernel, by decide +kernel, reads_of ?_⟩, ⟨reads_of ?_, by decide +kernel, rfl, by decide +kernel⟩,
    ⟨able_of ?_, rfl, by decide +kernel, by decide +kernel⟩, able_of ?_⟩
  all_goals decide +kernel

/-! ### Repeats, memory, barriers: hypotheses -/

theorem exists_check {ε α : Type} {x : Except ε α} {p : α → Bool} (h : x.toOption.elim false p = true) :
    ∃ a, x = .ok a ∧ p a = true := by
  cases x with
  | ok b => exact ⟨b, rfl, h⟩
  | error e => cases h

theorem exists_each_some {ε α : Type} (d : α) {L : List Nat} {g : Nat → Option Word64} {f : Word64 → Except ε α}
    (h : L.all (fun l => (g l).elim true fun va => (f va).toOption.isSome) = true) :
    ∃ k : Nat → α, ∀ l ∈ L, ∀ va, g l = some va → f va = .ok (k l) := by
  refine ⟨fun l => (g l).elim d fun va => ((f va).toOption).getD d, fun l hl va hv => ?_⟩
  have h1 := List.all_eq_true.mp h l hl
  simp only [hv, Option.elim_some] at h1
  obtain ⟨a, ha⟩ := exists_ok h1
  simp [hv, ha, Except.toOption]

/-- A REP over the XOR that follows it. -/
def repW : RepWord := ⟨1, 1, 0, 0, 0⟩
def xorI : Instr := .xor P .n32 (.r (rw (v 8) (v 2) (v 6) (v 0)))
def repState : State := { base with mem := memSets base.mem 0x20010 (toBytesLE 12 ((encode xorI).getD 0).toNat) }

theorem fetched_of {x : Except Stop (Nat × Slot)} {i : Instr} {k : Nat}
    (h : (x.toOption.bind fun y => if y.1.testBit k then none else (decode y.2).toOption) = some i) :
    ∃ lw slot, x = .ok (lw, slot) ∧ decode slot = .ok i ∧ lw.testBit k = false := by
  cases x with
  | error e => cases h
  | ok y =>
    obtain ⟨lw, slot⟩ := y
    change (if lw.testBit k then none else (decode slot).toOption) = some i at h
    by_cases hb : lw.testBit k = true
    · simp [hb] at h
    · simp only [hb, Bool.false_eq_true, if_false] at h
      exact ⟨lw, slot, rfl, ok_of h, by simpa using hb⟩

/-- A team in its REP, about to make iteration i; steps of unused fields, and numbers that run past the end; a slot of ones. -/
def repeating (i : Nat) : Team := { tm0.vSet 2 0 1 with rep := some (i, repW, xorI) }
def inRep : State := base.setTeam 2 (repeating 1)
def stepA : RepWord := ⟨3, 1, 1, 0, 0⟩
def overRep : RepWord := ⟨3, -1, 0, 0, 0⟩
def stepC : RepWord := ⟨1, 0, 0, 0, 1⟩
def badState : State := { base with mem := memSets base.mem 0x20010 (toBytesLE 12 (2 ^ 96 - 1)) }

theorem witness_Repeats :
    (∃ lw slot, repState.fetchSlot (repState.vfOf tm0) (nextPc tm0.pc) false = .ok (lw, slot) ∧ decode slot = .ok xorI ∧
      lw.testBit 11 = false) ∧ (nextPc tm0.pc).toNat / 64 = tm0.pc.toNat / 64 ∧ (nextPc tm0.pc).toNat % 8 = 1 ∧
    repState.current = some (2, tm0) ∧ tm0.rep = none ∧
    ((follower xorI).elim false fun f => stepsOk f repW && numbersOk f repW) = true ∧
    (∀ f ∈ iterations xorI repW, (∀ u ∈ f.us, u.ok (repState.counts tm0) = true) ∧ f.more tm0 = true) ∧
    noOverlap (iterations xorI repW) = true ∧
    (∃ lw slot, base.fetchSlot (base.vfOf tm0) (nextPc tm0.pc) false = .ok (lw, slot) ∧ decode slot = .ok .nop ∧ lw.testBit 11 = false) ∧
    follower .nop = none ∧ 0 < repW.cnt.toNat ∧
    (((repState.fetchSlot 0 (nextPc tm0.pc) false).toOption.elim false fun y => !(decode y.2).isOk) ||
      ((badState.fetchSlot 0 (nextPc tm0.pc) false).toOption.elim false fun y => !(decode y.2).isOk)) = true ∧
    ((follower xorI).elim false fun f => stepsOk f stepA && stepsOk f overRep &&
      !(numbersOk f overRep && noOverlap (iterations xorI overRep)) && !stepsOk f stepC) = true ∧
    (let s : State := { inRep with agenda := [.issue 2] }
     tabGet? s.teams 2 = some (repeating 1) ∧ (repeating 1).phase = .running ∧ (repeating 1).rep = some (1, repW, xorI) ∧
       State.mayIssue { s with agenda := [] } 2 (repeating 1) = true) :=
  ⟨fetched_of (by decide +kernel), by decide +kernel, by decide +kernel, by decide +kernel, rfl, by decide +kernel, by decide +kernel,
    by decide +kernel, fetched_of (by decide +kernel), rfl, by decide, by decide +kernel, by decide +kernel, by decide +kernel⟩

/-- R91: iteration 1 of a REP over XOR v8, v2, v6 that moves D alone by 1 writes v9. -/
theorem test_iteration : (match step { inRep with agenda := [.issue 2] } with
    | .next s1 => decide ((team s1).vGet 9 0 = 1) && decide ((team s1).pc = 0x20002) && (team s1).rep.isNone
    | _ => false) = true := by decide +kernel

/-- A data page, and launch queue 0 enabled with its ring on it. -/
def launching (x : Word64) : State :=
  (data fun tm => tm.sSet 3 x).onCtx 0 fun c => { c with queues := [(0, { qbase := 0x20000, qen := true })] }

def usesDev (d a : Opd) (want : Want) : List Use :=
  [{ letter := .a, opd := a, want := want, read := true }, { letter := .d, opd := d, want := wantS, write := true }]

theorem witness_DeviceRequests :
    (Able base 2 tm0 P (usesDev (sr 8) (mr 0) wantSN) ∧ tm0.stall = .none ∧
      Able (base.setTeam 2 (barred (.eclw true false (some 9)))) 2 (barred (.eclw true false (some 9))) P (usesDev (sr 8) (sr 3) wantSN)) ∧
    (Able (launching 0x100) 2 (s3 0x100) P (usesDev (sr 8) (sr 3) wantS) ∧ ((launching 0x100).queue 0 0).qen = true ∧
      (launching 0x100).drained 2 = true ∧ Memory.wf (launching 0x100).mem = true ∧
      (launching 0x100).vfOf (s3 0x100) = 0 ∧ ((launching 0x100).launchOf (s3 0x100)).elim 0 (·.headerQueue) = 0 ∧
      (launching 0x100).swapping 0x20000 16 = false ∧
      (((launching 0x100).storeTarget 0 1 .global (((launching 0x100).queue 0 0).slotVa 0) 16 .n64 0).toOption) = some (.byte 0x20000)) ∧
    (Able (with3 0x100) 2 (s3 0x100) P (usesDev (sr 8) (sr 3) wantS) ∧ ((with3 0x100).queue 0 0).qen = false) ∧
    Reads base 2 tm0 P (usesNone W0) := by
  refine ⟨⟨able_of ?_, rfl, able_of ?_⟩, ⟨able_of ?_, ?_, ?_, ?_, ?_, ?_, ?_, ?_⟩, ⟨able_of ?_, ?_⟩, reads_of ?_⟩
  all_goals decide +kernel

/-- Addresses from s3, indexes from v4. -/
def mem3 (x : Word64) : State := data fun tm => tm.sSet 3 x
def LW : MWord := mw (v 8) (sr 3) (v 4) 0 .global
def LS : MWord := mw (sr 8) (sr 3) (mr 0) 0 .global

theorem witness_Loads :
    (Able (mem3 0x20100) 2 (s3 0x20100) P (usesAB LW wantIndex .active ++ [{ dUse .n32 LW.d with fe := LW.fed }]) ∧
      ∃ tg : Nat → Target, ∀ l ∈ resultLanes (s3 0x20100) P LW.d,
        (mem3 0x20100).loadTarget 0 1 .global ((s3 0x20100).effective LW l) 4 .n32 = .ok (tg l)) ∧
    (Able (mem3 0x20101) 2 (s3 0x20101) P (usesAB LS wantIndex .active ++ [{ dUse .n32 LS.d with fe := LS.fed }]) ∧
      resultLanes (s3 0x20101) P LS.d = [] ++ 0 :: [] ∧
      ∃ e, (mem3 0x20101).loadTarget 0 1 .global ((s3 0x20101).effective LS 0) 4 .n32 = .error e) ∧
    (let tm := (s3 0x20100).vSet 4 1 0xFFFFFFFF
     let s := data fun _ => tm
     Able s 2 tm P (usesAB LW wantV .eachActive ++ [{ dUse .n32 LW.d with fe := LW.fed }]) ∧ tm.indexed .n32 LW 1 = none ∧
      ∃ tg : Nat → Target, ∀ l ∈ activeLanes tm P, ∀ va, tm.indexed .n32 LW l = some va → s.loadTarget 0 1 .global va 4 .n32 = .ok (tg l)) :=
  ⟨⟨able_of (by decide +kernel), exists_each (.byte 0) (by decide +kernel)⟩,
    ⟨able_of (by decide +kernel), by decide +kernel, exists_error (by decide +kernel)⟩,
    ⟨able_of (by decide +kernel), by decide +kernel, exists_each_some (.byte 0) (by decide +kernel)⟩⟩

theorem witness_Stores :
    (Reads (mem3 0x20100) 2 (s3 0x20100) P (usesAB LW wantIndex .active ++ [dSrc .n64 LW.d LW.fed]) ∧
      ∃ tg : Nat → Target, ∀ l ∈ activeLanes (s3 0x20100) P,
        (mem3 0x20100).storeTarget 0 1 .global ((s3 0x20100).effective LW l) 8 .n64 ((s3 0x20100).storeData .n64 LW.d l) = .ok (tg l)) ∧
    (let tm := (s3 0x20100).vSet 4 1 0xFFFFFFFF
     let s := data fun _ => tm
     Reads s 2 tm P (usesAB LW wantV .eachActive ++ [dSrc .n8 LW.d LW.fed]) ∧ tm.indexed .n8 LW 1 = none ∧
      ∃ tg : Nat → Target, ∀ l ∈ activeLanes tm P, ∀ va, tm.indexed .n8 LW l = some va →
        (s.storeTarget 0 1 .global va 1 .n8 (tm.storeData .n8 LW.d l)) = .ok (tg l)) :=
  ⟨⟨reads_of (by decide +kernel), exists_each (.byte 0) (by decide +kernel)⟩, reads_of (by decide +kernel), by decide +kernel,
    ⟨fun l => .byte (0x20100 + if l = 1 then 0 else 0), by
      have h : (activeLanes ((s3 0x20100).vSet 4 1 0xFFFFFFFF) P).all (fun l =>
          (((s3 0x20100).vSet 4 1 0xFFFFFFFF).indexed .n8 LW l).elim true fun va =>
            decide (((data fun _ => (s3 0x20100).vSet 4 1 0xFFFFFFFF).storeTarget 0 1 .global va 1 .n8
              (((s3 0x20100).vSet 4 1 0xFFFFFFFF).storeData .n8 LW.d l)).toOption = some (.byte (0x20100 + if l = 1 then 0 else 0)))) = true := by
        decide +kernel
      intro l hl va hv
      have h1 := List.all_eq_true.mp h l hl
      simp only [hv, Option.elim_some, decide_eq_true_eq] at h1
      exact ok_of h1⟩⟩

theorem witness_Atomics :
    (∀ us ∈ [usesAtom .n32 LW false, usesAtom .n64 LW true, usesAtom .n64 LW false, usesAtom .n32 LS true], Able (mem3 0x20100) 2 (s3 0x20100) P us) ∧
    (∃ tg : Nat → Target, ∀ l ∈ activeLanes (s3 0x20100) P,
      (mem3 0x20100).atomTarget 0 1 .global ((s3 0x20100).effective LW l) 8 false = .ok (tg l)) ∧
    Reads (mem3 0x20100) 2 (s3 0x20100) P (usesAB LW wantIndex .active ++ [dSrc .i32 LW.d LW.fed]) ∧
    (∃ tg : Nat → Target, ∀ l ∈ activeLanes (s3 0x20100) P,
      (mem3 0x20100).atomTarget 0 1 .global ((s3 0x20100).effective LW l) 4 true = .ok (tg l)) :=
  ⟨able_all (by decide +kernel), exists_each (.byte 0) (by decide +kernel), reads_of (by decide +kernel), exists_each (.byte 0) (by decide +kernel)⟩

/-- An access of the placed team to the word at 0x20100, and the state in which it is pending for producer 8. -/
def acc (k : AccKind) (p : Option (Nat × Nat)) : Access :=
  (data id).teamAccess ⟨2, tm0, tm0.active P, activeLanes tm0 P⟩ .global 0 0x20100 (.byte 0x20100) 8 k .relaxed .team p
def prod (f : Form) (parts : List (Option (List Byte))) : Producer := { team := 2, dests := [.v 8 0], form := f, parts := parts }
def waiting (k : AccKind) (q : Producer) : State :=
  { data id with pend := [(9, acc k (some (8, 0)))], prods := [(8, q)], nextId := 10 }
def value8 : Producer := prod (.value (.v 8 0) .n32 0) [none]
def Q8 (k : AccKind) : State := waiting k value8

def F0 : MWord := mw (v 0) (v 0) (v 0) 0 .global

theorem witness_Fences :
    (Reads base 2 tm0 P (usesNoneM F0) ∧ base.drained 2 = true ∧ base.pend = [] ∧ base.commands = []) ∧
    (Reads (Q8 .read) 2 tm0 P (usesNoneM F0) ∧ (Q8 .read).drained 2 = false) ∧
    Reads (base.setTeam 2 (barred (.fence .die true))) 2 (barred (.fence .die true)) P (usesNoneM F0) ∧
    (base.current = some (2, tm0) ∧
      (∀ u ∈ usesAB LW wantIndex .active ++ [{ unused .d with opd := LW.d, fe := LW.fed }], u.ok (base.counts tm0) = true) ∧
      ∀ u ∈ usesAB LW wantIndex .active, u.fe = false → ∀ q ∈ u.refs (activeLanes tm0 P), tm0.isEmpty q = false) := by
  refine ⟨⟨reads_of ?_, ?_, rfl, rfl⟩, ⟨reads_of ?_, ?_⟩, reads_of ?_, ?_, ?_, ?_⟩
  all_goals decide +kernel

theorem mayGo_of {s : State} {id : Nat} {a : Access}
    (h : (decide (tabGet? s.pend id = some a) && s.canPerform id a && s.onCore a && !s.swapHeld a) = true) : MayGo s id a := by
  simp only [Bool.and_eq_true, decide_eq_true_eq, Bool.not_eq_true'] at h
  exact ⟨h.1.1.1, h.1.1.2, h.1.2, h.2⟩

/-- A second lane of the same load that reads half of its bytes, and the state in which both are pending. -/
def mateOf (k : AccKind) : Access := { acc k none with lane := 1, loc := byteLoc 0x20104 }
def pair (k : AccKind) : State := { Q8 k with pend := [(9, acc k (some (8, 0))), (11, mateOf k)], nextId := 12 }

theorem witness_AccessesPerform :
    (∀ k ∈ [AccKind.read, .write (toBytesLE 8 7) (toBytesLE 8 0xFF), .atom (.red .add) .n64 5 0, .atom .cas .n64 5 0, .bfaFfcs, .bfaIns 5 6,
      .bfaPlset 3], MayGo (Q8 k) 9 (acc k (some (8, 0)))) ∧
    Memory.wf (Q8 .read).mem = true ∧ (lightByteAddr 0 ≤ 0x20100 → 2 ^ 48 ≤ 0x20100) ∧ (Q8 .read).isImage 0x20100 = false ∧
    (Q8 .read).picks = [] ∧ tabGet? (Q8 .read).prods 8 = some value8 ∧
    (∀ x ∈ [0, 2 ^ 32 - 1], x < 2 ^ Ty.bits .i32) ∧ (Ty.isInt .i32 = true ∧ Ty.isFlt .f32 = true) ∧ (2 ^ 64 - 1 : Nat) < 2 ^ 64 ∧ (5 : Nat) ≠ 2 ^ 64 - 1 ∧
    (Q8 .read).readMates 9 (acc .read (some (8, 0))) = [(9, acc .read (some (8, 0)))] ∧
    (pair .read).readMates 9 (acc .read (some (8, 0))) = [(9, acc .read (some (8, 0))), (11, mateOf .read)] ∧
    ((pair .read).readMates 9 (acc .read (some (8, 0)))).all (fun m =>
      (pair .read).mayPerform (((pair .read).readMates 9 (acc .read (some (8, 0)))).map (·.1)) m.2 &&
        !(pair .read).isImage m.2.addr && decide (m.2.addr < lightByteAddr 0) && (m.2.prod.isNone || m.1 == 9)) = true ∧
    (let a : Access := { acc (.write [7] [0x3F]) none with size := 1 }
     let b : Access := { acc (.write [9] [0xC0]) none with size := 1, loc := byteLoc 0x30000, va := 0x20101 }
     let s : State := { data id with pend := [(9, a), (11, b)], nextId := 12 }
     MayGo s 9 a ∧ s.otherByte 9 a = some (11, b, [9], [0xC0]) ∧ b.addr ≠ a.addr ∧ s.mayPerform [9, 11] b = true) := by
  refine ⟨fun k hk => ?_, ?_, ?_, ?_, rfl, ?_, ?_, ?_, ?_, ?_, ?_, ?_, ?_, mayGo_of ?_, ?_, ?_, ?_⟩
  · exact mayGo_of (List.all_eq_true.mp (show List.all [AccKind.read, .write (toBytesLE 8 7) (toBytesLE 8 0xFF), .atom (.red .add) .n64 5 0,
      .atom .cas .n64 5 0, .bfaFfcs, .bfaIns 5 6, .bfaPlset 3]
      (fun k => decide (tabGet? (Q8 k).pend 9 = some (acc k (some (8, 0)))) && (Q8 k).canPerform 9 (acc k (some (8, 0))) &&
        (Q8 k).onCore (acc k (some (8, 0))) && !(Q8 k).swapHeld (acc k (some (8, 0)))) = true by decide +kernel) k hk)
  all_goals decide +kernel

theorem witness_ProducersComplete :
    (∀ q ∈ [prod (.value (.v 8 0) .n32 5) [], prod (.elem (.v 255 0) .n16 (.ty .n16) 0 false false) [some [1, 2]],
        prod (.elem (.s 8) .n64 (.ty .n64) 0 false false) [some [1, 2]]],
      tabGet? (waiting .read q).prods 8 = some q ∧ tabGet? (waiting .read q).teams q.team = some tm0 ∧ q.parts.all Option.isSome = true) ∧
    Ty.is64 .n16 = false ∧ Ty.n16 ≠ Ty.tap6 := by decide +kernel

/-- A soft store's blend of weight 1 at element 0, byte address 0x20100. -/
def oneBlend : Blend := ⟨2, 0, 0, 0, 0, 0, 0, 5, [(0, 0, 0x3F800000, 0x20100)], 0x20000⟩
def imaged : Team := { tm0 with image := 0x30000 }
def windowed (k : AccKind) : State := { (data fun _ => imaged) with pend := [(9, { acc k none with loc := byteLoc 0x31000, size := 4 })], nextId := 10 }
def unrow (k : AccKind) : State := { Q8 k with alloc := [] }
def two : State := { Q8 (.red .add .n64 5) with
  pend := [(9, acc (.red .add .n64 5) none), (10, { acc (.red .add .n64 6) none with party := .team 7 })]
  nextId := 11 }

theorem witness_SliceQueues :
    (MayGo (Q8 (.red .add .n64 5)) 9 (acc (.red .add .n64 5) (some (8, 0))) ∧
      (Q8 (.red .add .n64 5)).redFault (acc (.red .add .n64 5) (some (8, 0))) = none ∧
      (acc (.red .add .n64 5) (some (8, 0))).merged = [] ∧
      MayGo (unrow (.red .add .n64 5)) 9 (acc (.red .add .n64 5) (some (8, 0))) ∧
      (unrow (.red .add .n64 5)).redFault (acc (.red .add .n64 5) (some (8, 0))) = some .access) ∧
    (MayGo two 9 (acc (.red .add .n64 5) none) ∧ tabGet? two.pend 10 = some { acc (.red .add .n64 6) none with party := .team 7 } ∧
      two.mayPerform [9, 10] { acc (.red .add .n64 6) none with party := .team 7 } = true ∧
      two.redFault (acc (.red .add .n64 5) none) = none ∧
      two.redFault { acc (.red .add .n64 6) none with party := .team 7 } = none) ∧
    (MayGo (Q8 (.blend [oneBlend] false)) 9 (acc (.blend [oneBlend] false) (some (8, 0))) ∧
      (Q8 (.blend [oneBlend] false)).blendFault 0 [oneBlend] = none) ∧
    (MayGo (windowed (.windowWrite [1, 2, 3, 4])) 9 { acc (.windowWrite [1, 2, 3, 4]) none with loc := byteLoc 0x31000, size := 4 } ∧
      (windowed .windowEmpty).imageOwner 0x31000 = some (2, imaged) ∧ tabGet? (windowed .windowEmpty).teams 2 = some imaged ∧
      imaged.lanes ≤ 1024 ∧
      (windowed (.windowWrite [1, 2, 3, 4])).imageIgnores 0x31000 = false ∧
      AccKind.writes (.windowWrite [1, 2, 3, 4]) = true ∧
      MayGo (windowed .windowEmpty) 9 { acc .windowEmpty none with loc := byteLoc 0x31000, size := 4 }) ∧
    tm0.imagePart 0x1000 = .v 0 0 := by
  refine ⟨⟨mayGo_of ?_, ?_, rfl, mayGo_of ?_, ?_⟩, ⟨mayGo_of ?_, ?_, ?_, ?_, ?_⟩, ⟨mayGo_of ?_, ?_⟩,
    ⟨mayGo_of ?_, ?_, ?_, ?_, ?_, rfl, mayGo_of ?_⟩, ?_⟩
  all_goals decide +kernel

/-- A handle table at 0x20800 whose entry 0 is given. -/
def tabled (n : Nat) (f : Team → Team) : State :=
  let s := (data f).onLaunch 0 fun la => { la with htb := 0x20800 }
  { s with mem := memSets s.mem 0x20800 (toBytesLE 64 n) }

/-- A dense two-dimensional handle of 16 by 8 elements of FMT n at 0x20400, 16 elements apart; ro as given. -/
def dense (fmt : Nat) (ro : Bool) : Nat :=
  1 + fmt * 2 ^ 8 + 2 * 2 ^ 16 + (if ro then 2 ^ 24 else 0) + 16 * 2 ^ 32 + 8 * 2 ^ 64 + 16 * 2 ^ 192 + 0x20400 * 2 ^ 320

def TW : XWord := xw (v 8) (v 2) (v 0) (v 0) 0 false 0 0
def outside (tm : Team) : Team := tm.vSet 2 1 99

def tileCheck (s s0 : State) (h : Handle) (a : Nat) (ty : Ty) (store : Bool) : Bool :=
  let tm := outside tm0
  decide ((tabGet? s0.teams 2).isSome = true) && h.type != 3 && decide (TW.a.num.toNat + h.rank ≤ tm.vcount) && ldtPair ty h.elem h store &&
  (List.range h.rank).all (fun d => (activeLanes tm P).all fun l => !tm.isEmpty (.v (2 + d) l)) &&
  decide (s.regMark tm ((List.range h.rank).flatMap fun d => (activeLanes tm P).map fun l => .v (2 + d) l) = none) &&
  ((s0.underEntry (.team 2) a).layerList (.team 2) (s.vfOf tm) 0 h 0).toOption.isSome &&
  !h.inside (tm.coords TW.a h.rank 1) && h.inside (tm.coords TW.a h.rank 0) &&
  (activeLanes tm P).all fun l => !h.inside (tm.coords TW.a h.rank l) ||
    if store then (((h.pieces h.elem (tm.coords TW.a h.rank l)).1).mapM (fun q =>
      (s0.storeTarget (s.vfOf tm) 0 .global q.1 q.2.1 (if h.elem == .ty ty then ty else .n8) (tm.storeData ty TW.d l)).map
        fun tg => (q.1, tg, q.2.1))).toOption.isSome
    else (s0.ldtLane (s.vfOf tm) ty h h.elem (tm.coords TW.a h.rank l)).toOption.isSome

theorem witness_TileElements :
    (Able (tabled (dense 11 false) outside) 2 (outside tm0) P (usesTile .n8 TW false) ∧
      ∃ x, (tabled (dense 11 false) outside).teamHandle (ready 2 (outside tm0) P) 0 = .ok x ∧
        tileCheck (tabled (dense 11 false) outside) x.2.2 x.1 x.2.1 .n8 false = true) ∧
    (Reads (tabled (dense 11 false) outside) 2 (outside tm0) P (usesTile .n8 TW true) ∧
      ∃ x, (tabled (dense 11 false) outside).teamHandle (ready 2 (outside tm0) P) 0 = .ok x ∧
        tileCheck (tabled (dense 11 false) outside) x.2.2 x.1 x.2.1 .n8 true = true) ∧
    (∃ x, (tabled (dense 11 true) outside).teamHandle (ready 2 (outside tm0) P) 0 = .ok x ∧ x.1.ro = true) :=
  ⟨⟨able_of (by decide +kernel), exists_check (by decide +kernel)⟩, ⟨reads_of (by decide +kernel), exists_check (by decide +kernel)⟩,
    by obtain ⟨x, h1, h2⟩ := exists_check (x := (tabled (dense 11 true) outside).teamHandle (ready 2 (outside tm0) P) 0) (p := fun x => x.1.ro)
        (by decide +kernel); exact ⟨x, h1, h2⟩⟩

/-- A handle of F32, three layers, and their storage: element (1, 0) is 2 in the base, 3 in the first layer, 1 in the second, and 2 × 4 in
the low-rank one. -/
def lh : Handle := Handle.ofBytes (toBytesLE 64 (dense 4 false))
def layer0 : Layer := ⟨0, 0, 0x40000000, 0x20500, 0, 1, true⟩
def layer1 : Layer := ⟨1, 0, 0x3F800000, 0x20540, 1, 0, true⟩
def layer2 : Layer := ⟨2, 1, 0x3F800000, 0x20600, 0, 0, true⟩
def coords1 : List Byte := toBytesLE 4 1 ++ toBytesLE 4 0 ++ toBytesLE 4 0x40400000 ++ toBytesLE 4 0
def layeredS : State :=
  let s := data id
  { s with mem := [(0x20440, toBytesLE 4 0x40000000), (0x20500, coords1), (0x20542, [1]), (0x20580, toBytesLE 4 0x3F800000),
    (0x20604, toBytesLE 4 0x40000000), (0x20620, toBytesLE 4 0x40800000)].foldl (fun m x => memSets m x.1 x.2) s.mem }

/-- R213: 2 + 2 × 3 + 1 × 1 + 1 × (2 × 4) = 17. -/
theorem test_layered : ((layeredS.layeredElem .watch none 0 lh [layer0, layer1, layer2] 1 0).toOption.map (·.1)) = some 0x41880000 := by
  decide +kernel

theorem witness_LayeredSum :
    ((coordEntry coords1 0).1 = 1 ∧ (coordEntry coords1 0).2.1 = 0 ∧ (coordEntry coords1 0).1 ≠ 2 ∧ coordsRise coords1 1) ∧
    (layer0.kind = 0 ∧ ∃ x, layeredS.readLineVa .watch none 0 layer0.addr 16 = .ok x ∧ true = true) ∧
    (layer1.kind = 1 ∧ ∃ x, layeredS.readLineVa .watch none 0 layer1.addr 3 = .ok x ∧
      ((nth 0 x.1 2).getLsbD 0 && !(nth 0 x.1 1).getLsbD 7 &&
        (x.2.readLineVa .watch none 0 (layer1.addr + 64 + 0) 4).toOption.isSome) = true) ∧
    (layer2.kind = 2 ∧ ∃ x, layeredS.readLineVa .watch none 0 (layer2.addr + 4) 4 = .ok x ∧
      (x.2.readLineVa .watch none 0 (layer2.addr + 32) 4).toOption.isSome = true) ∧
    (∃ x, layeredS.layerValue .watch 0 lh layer2 1 0 = .ok x ∧ true = true) ∧
    ∃ x, layeredS.readLineVa .watch none 0 (lh.base + BitVec.ofNat 64 (4 * (0 + 1 * lh.step 1))) 4 = .ok x ∧
      (x.2.layerSum .watch 0 lh 1 0 ((tyFmt .f32).decode (ofBytesLE x.1)) [layer0, layer1, layer2]).toOption.isSome = true := by
  refine ⟨⟨?_, ?_, ?_, fun k hk => absurd hk (by omega)⟩, ⟨rfl, exists_check ?_⟩, ⟨rfl, exists_check ?_⟩, ⟨rfl, exists_check ?_⟩,
    exists_check ?_, exists_check ?_⟩
  all_goals decide +kernel

/-! ### Soft regions, handles, the engines: hypotheses -/

/-- Entries 0 and 1 of the table. -/
def tabled2 (n m : Nat) (f : Team → Team) : State :=
  let s := tabled n f
  { s with mem := memSets s.mem 0x20840 (toBytesLE 64 m) }

/-- A soft region of 8 slots of 4 elements at 0x20400, its journal at 0x21000; and a dense F32 tensor over it. -/
def softEntry : Nat :=
  3 + 4 * 2 ^ 8 + 2 * 2 ^ 16 + 4 * 2 ^ 32 + 8 * 2 ^ 64 + 4 * 2 ^ 192 + 0x20400 * 2 ^ 320 + 0x21000 * 2 ^ 384 + 4 * 2 ^ 464

def soft (f : Team → Team) : State := tabled2 softEntry (dense 4 false) f

/-- The pointer registers are v2 and v4; SLDA's gradients come from v6 and its results go to v8, with GRD. -/
def SW : XWord := xw (v 8) (v 2) (v 4) (v 6) 0 false 0 0
def SG : XWord := { SW with cimm := 0x8000 }
def weighted (tm : Team) : Team := tm.vSet 4 0 0x3F800000

def softCheck (s s0 : State) (h : Handle) : Bool :=
  let tm := weighted tm0
  (tabGet? s0.teams 2).isSome && (activeLanes tm P).all fun l => (tm.slotsOk SW h l).toOption.isSome &&
    (s0.softReads (s.vfOf tm) h 0 (tm.pointer SW l)).toOption.isSome && (s0.blendEntries (s.vfOf tm) h 0 (tm.pointer SW l)).toOption.isSome &&
    (s0.gradHandle (ready 2 tm P) 0 h).toOption.elim false fun x =>
      (tabGet? x.2.teams 2).isSome && (x.2.softReads (s.vfOf tm) h 0 (tm.pointer SW l)).toOption.isSome &&
        (x.2.sldaReds (s.vfOf tm) tm SW x.1 l).toOption.isSome

theorem witness_SoftRegions :
    (∃ x, (soft weighted).softHandle (ready 2 (weighted tm0) P) SW = .ok x ∧ softCheck (soft weighted) x.2.2 x.1 = true) ∧
    Able (soft weighted) 2 (weighted tm0) P (usesPointer SW ++ [{ letter := .d, opd := SW.d, want := wantV, write := true }]) ∧
    Reads (soft weighted) 2 (weighted tm0) P
      (usesPointer SW ++ [{ letter := .d, opd := SW.d, want := wantV, read := true, who := .eachActive }]) ∧
    (Able (soft weighted) 2 (weighted tm0) P (usesSlda SG) ∧ sldaDistinct SG = true ∧ softGrad SG = true ∧ softGrad SW = false ∧
      SG.handle ≠ 0xFFF) ∧
    (∀ e ∈ [SoftEntry.mk 0 1 0x80000000, ⟨1, 2, 0x7FC00000⟩], e.weightless = true ∨ (f32 e.weight).isNan = true) ∧
    (∀ q ∈ [prod (.soft (.v 8 0) [0x3F800000]) [some [0, 0, 0, 0x40]], prod (.grad (.v 8 0) 0x40000000) [some [0, 0, 0x80, 0x3F]]],
      tabGet? (waiting .read q).prods 8 = some q ∧ tabGet? (waiting .read q).teams q.team = some tm0) ∧
    SoftEntry.weightless ⟨0, 1, 0x3F800000⟩ = false ∧ (num32 0x3F800000).isNan = false :=
  ⟨exists_check (by decide +kernel), able_of (by decide +kernel), reads_of (by decide +kernel),
    ⟨able_of (by decide +kernel), by decide, by decide, by decide, by decide⟩, by decide +kernel, by decide +kernel, by decide +kernel,
    by decide +kernel⟩

/-- R253: weights 1 and 2 over elements 3 and 0.5 sum to 4. -/
theorem test_soft_sum : (let q := prod (.soft (.v 8 0) [0x3F800000, 0x40000000]) [some [0, 0, 0x40, 0x40], some [0, 0, 0, 0x3F]]
    (team (after (.producerCompletion 8) (waiting .read q))).vGet 8 0) = 0x40800000 := by decide +kernel

/-- The region's handle; its journal when it holds no record, with room for one more or none; a close at work, and an SSTA. -/
def softH : Handle := Handle.ofBytes (toBytesLE 64 softEntry)
def journal0 (head : Nat) : Journal := { (soft id).journal 0 softH Soft.empty with head := head }
def closing (j : Journal) : Closing := ⟨soft id, j, none, (2, 0), []⟩
def blend1 : Blend := ⟨2, 0, 0, 0, 0, 0, 0, 5, [(0, 0, 0x3F800000, 0x20400)], 0x20000⟩
def walking : Adjoint := ⟨soft id, none, [], 0, none⟩
def softRecord : List Byte := recordBytes 0 1 0 0 0 0 0 0 0x3F800000 0x40000000 0x40000000

/-- An SSTA that may perform, over a journal that holds so many records, with OVF as given. -/
def adjointAcc (epoch : Word32) : Access := { acc (.adjoint 0 epoch false none) (some (8, 0)) with loc := bindLoc 0x20800, size := 0 }
def adjointing (epoch : Word32) (ovf : Nat) : State :=
  { soft id with
    mem := memSets (memSets (soft id).mem 0x21000 (toBytesLE 24 (1 + ovf * 2 ^ 96))) 0x21040 softRecord
    pend := [(9, adjointAcc epoch)], prods := [(8, prod (.value (.s 8) .n64 0) [none])], nextId := 10 }

def adjointCheck (epoch : Word32) (ovf : Nat) (p : Journal → State → Bool) : Bool :=
  let s := adjointing epoch ovf
  decide (tabGet? s.pend 9 = some (adjointAcc epoch)) && s.canPerform 9 (adjointAcc epoch) && s.onCore (adjointAcc epoch) &&
    !s.swapHeld (adjointAcc epoch) && decide (s.regionAt ((adjointAcc epoch).loc / 3) = some softH) &&
    (s.useHandle (.team 2) 0 0 1).toOption.elim false fun x => p (x.2.2.journal 0 softH Soft.empty) x.2.2

/-- The close of a region whose journal is at an address, with one blend queued: what its journal and its header meet. -/
def closeCheck (ptr : Word64) (p : State → Journal → Closing → Bool) : Bool :=
  let s := { soft id with soft := [(0x20800, ⟨[blend1], [], 0, none⟩)] }
  let h := { softH with ptr := ptr }
  let j := s.journal 0 h (tabGet s.soft 0x20800 Soft.empty)
  p s j ((⟨s, j, none, (2, 0), []⟩ : Closing).entry (.team 2) 0 blend1 (0, 0, 0x3F800000, 0x20400))

/-- Where the slot is written, the place of the next record can be reached, or not. -/
def slotStored (j : Journal) : Except Nat Nat :=
  let c := closing j
  ((c.s.writeMem (.team 2) none [] 0x20400 (toBytesLE 4 (blendValue (BitVec.ofNat 32 (ofBytesLE (memGets c.s.mem 0x20400 4))) 0x3F800000 5).toNat)).countFor
    c.s.nextWrite none).journalAddr 0 (c.j.base + BitVec.ofNat 64 (64 * (1 + c.j.head))) 64 true

/-- Every step of a record's walk. -/
def recordCheck : Bool :=
  let gva : Word64 := 0x20400 + 16
  (walking.read [] 0 gva 4).toOption.elim false fun x => (x.2.write 0 (0x21040 + 0x28) (toBytesLE 12 1)).toOption.elim false fun x2 =>
    (x2.write 0 gva (toBytesLE 4 0)).toOption.elim false fun x3 => (x3.write 0 (softH.slotVa 1 0) (toBytesLE 4 0)).toOption.isSome

/-- Nothing holds the region's slots, nor the SSTA. -/
abbrev soft0Held : Prop := walking.s.swapping 0x20400 4 = false ∧ (adjointing 0 1).adjointHeld (adjointAcc 0) none = false ∧
  (adjointing 0 1).regionHeld 0 softH = false

theorem witness_SoftEpochs :
    (∃ x, (soft id).teamHandle (ready 2 tm0 P) 0 = .ok x ∧ ((tabGet? x.2.2.teams 2).isSome && x.1.type == 3 &&
      (x.2.2.gradHandle (ready 2 tm0 P) 0 x.1).toOption.elim false fun y => (tabGet? y.2.teams 2).isSome) = true) ∧
    Reads (soft id) 2 tm0 P [unused .d] ∧ Able (soft id) 2 tm0 P [{ letter := .d, opd := sr 8, want := wantS, write := true }] ∧
    Reads (soft id) 2 tm0 P [] ∧ barOk (soft id) (xw (v 0) (v 0) (v 0) (v 0) 0 true 0 0) tm0 = true ∧
    Able (soft id) 2 tm0 P (usesInOut (xw (sr 8) (sr 3) (v 0) (v 0) 0 true 0 0)) ∧
    (Memory.wf (soft id).mem = true ∧ (soft id).markAt 0x20400 4 = none ∧ (journal0 0).known = true ∧ (journal0 0).head < (journal0 0).cap ∧
      (∃ r, slotStored (journal0 0) = .ok r) ∧ (∃ e, slotStored { journal0 0 with base := 0x7FFF0000 } = .error e) ∧
      (journal0 0).cap ≤ (journal0 255).head ∧ { journal0 0 with known := false }.known = false) ∧
    (closeCheck 0x21000 (fun s _ c => decide ((s.journalAddr 0 0x21000 64 false).toOption = some 0x21000) && (s.markAt 0x21000 20).isNone &&
        decide ((c.s.journalAddr 0 c.j.base 64 true).toOption = some 0x21000) && c.j.known && Memory.wf c.s.mem) = true ∧
      closeCheck 0x7FFF0000 (fun _ j c => !j.known && !c.j.known && (c.s.journalAddr 0 c.j.base 64 true).toOption.isNone) = true) ∧
    ((num32 0x3F800000).isFinite = true ∧ (num32 0x7F800000).isFinite = false) ∧
    (walking.s.picks = [] ∧ walking.s.translate 0 0x20400 4 .engine false false = .ok (.byte 0x20400) ∧
      walking.s.translate 0 0x20400 4 .engine true = .ok (.byte 0x20400) ∧ walking.s.partMark 0x20400 4 = none) ∧
    recordCheck = true ∧ soft0Held ∧ (field softRecord 0 32 = 0 ∧ BitVec.ofNat 32 (field softRecord 0 32) ≠ (1 : Word32)) ∧
    (walking.journal 0 0x21040).toOption.isSome = true ∧
    adjointCheck 0 1 (fun j s1 => j.ovf && decide (j.ovfep.toNat ≤ 0) && decide ((s1.journalAddr 0 softH.ptr 64 false).toOption = some 0x21000) &&
      (s1.markAt 0x21000 20).isNone) = true ∧
    adjointCheck 1 0 (fun j s1 => !j.ovf && ((⟨s1, s1.partyDie (.team 2), s1.raiseLatest (s1.raiseLatest [] 0x21000 8) 0x2100C 8, 0, none⟩ : Adjoint).records
      (s1.pv (.team 2)).floor 0 softH softH false 1 (min j.head j.cap)).fail.isNone) = true ∧
    ({ adjointing 0 0 with mem := memSets (adjointing 0 0).mem 0x20800 (toBytesLE 64 0) }).regionAt ((adjointAcc 0).loc / 3) = none ∧
    (({ adjointing 0 0 with mem := memSets (adjointing 0 0).mem 0x20840 (toBytesLE 64 255) }).useHandle (.team 2) 0 0 1).toOption = none :=
  ⟨exists_check (by decide +kernel), reads_of (by decide +kernel), able_of (by decide +kernel), reads_of (by decide +kernel),
    by decide +kernel, able_of (by decide +kernel),
    ⟨by decide +kernel, by decide +kernel, by decide +kernel, by decide +kernel, exists_ok (by decide +kernel), exists_error (by decide +kernel),
      by decide +kernel, rfl⟩, by decide +kernel, by decide +kernel, ⟨rfl, ok_of (by decide +kernel), ok_of (by decide +kernel), by decide +kernel⟩, by decide +kernel, by decide +kernel, by decide +kernel,
    by decide +kernel, by decide +kernel, by decide +kernel, by decide +kernel, by decide +kernel⟩

/-- R255: a blend of weight 1 with x = 2 over p = 1 writes 2; R261: its adjoints for g = 1 are 1, 1 and 0. -/
theorem test_blend : blendValue 0x3F800000 0x3F800000 0x40000000 = 0x40000000 ∧
    adjoints 0x3F800000 0x40000000 0x3F800000 0x3F800000 = (0x3F800000, 0x3F800000, 0) := by decide +kernel

/-- A layered handle with n layers, its list at 0x20A00; the descriptor of an empty layer at 0x20C00. -/
def layered (n : Nat) : Nat :=
  4 + 4 * 2 ^ 8 + 2 * 2 ^ 16 + 16 * 2 ^ 32 + 8 * 2 ^ 64 + 16 * 2 ^ 192 + 0x20400 * 2 ^ 320 + n * 2 ^ 376 + 0x20A00 * 2 ^ 384

def HW : XWord := xw (sr 8) (sr 3) (v 0) (v 0) 0 false 0 0
def fed3 (n m : Nat) (x : Word64) : State := tabled2 n m fun tm => tm.sSet 3 x

/-- HSET finds at s3 contents that pass the check. -/
def setCheck (s : State) (x : Word64) (ok : List Byte → State → Bool) : Bool :=
  (s.changing (ready 2 (s3 x) P) 0 false).toOption.elim false fun a =>
    decide (a = 0x20800) && (s.readNow (ready 2 (s3 x) P) x 64).toOption.elim false fun r => ok r.1 r.2

/-- HATT finds at s3 a layer's descriptor, and the list has n layers. -/
def attachCheck (s : State) (n : Nat) : Bool :=
  let r := ready 2 (s3 0x20C00) P
  (s.changing r 0 true).toOption.elim false fun a => (s.readNow r 0x20C00 32).toOption.elim false fun d =>
    let h := Handle.ofBytes (s.entryNow a)
    h.type == 4 && h.ok && (Layer.ofBytes d.1).ok && h.lcount == n && (h.lcount == 8 ||
      (match d.2.storeTarget 0 1 .global (h.ptr + BitVec.ofNat 64 (32 * h.lcount)) 32 .n64 0 with
        | .ok (.byte b) => !s.swapping b 32
        | _ => false))

theorem witness_HandleInstructions :
    (let s := tabled (dense 4 false) id
     Able s 2 tm0 P (usesHget HW) ∧ HW.d.num.toNat % 8 = 0 ∧ ((s.launchOf tm0).map (·.htb)) = some 0x20800 ∧
      (s.loadTarget 0 1 .global 0x20800 64 .n64).toOption = some (.byte 0x20800)) ∧
    (let us : List Use := [{ letter := .a, opd := sr 3, want := wantSN, read := true }]
     Reads (fed3 softEntry (dense 4 false) 0x20840) 2 (s3 0x20840) P us ∧
      setCheck (fed3 (dense 4 false) (dense 4 false) 0x20840) 0x20840 (fun new s1 => publishable new && (Handle.ofBytes (s1.entryNow 0x20800)).type != 3 &&
          !s1.regionHeld 0 (Handle.ofBytes (s1.entryNow 0x20800))) = true ∧
      setCheck (fed3 (dense 4 false) 9 0x20840) 0x20840 (fun new _ => !publishable new) = true ∧
      setCheck (fed3 softEntry (dense 4 false) 0x20840) 0x20840 (fun new s1 => publishable new && (Handle.ofBytes (s1.entryNow 0x20800)).ok &&
        (Handle.ofBytes (s1.entryNow 0x20800)).type == 3) = true) ∧
    (let s := tabled (dense 4 false) id
     Reads s 2 tm0 P [{ letter := .a, opd := mr 0, want := wantSN, read := true }] ∧
      ((s.changing (ready 2 tm0 P) 0 true).toOption = some 0x20800) ∧ publishable (memGets s.mem 0x20800 64) = true ∧
      (Handle.ofBytes (s.entryNow 0x20800)).type = 1) ∧
    (Able (fed3 (layered 0) 0 0x20C00) 2 (s3 0x20C00) P [{ letter := .a, opd := sr 3, want := wantS, read := true },
        { letter := .d, opd := sr 8, want := wantS, write := true }] ∧
      attachCheck (fed3 (layered 0) 0 0x20C00) 0 = true ∧ attachCheck (fed3 (layered 8) 0 0x20C00) 8 = true ∧
      attachCheck (fed3 (layered 7) 0 0x20C00) 7 = true) ∧
    (let r := ready 2 tm0 P
     Able (tabled (layered 1) id) 2 tm0 P [{ letter := .d, opd := sr 8, want := wantS, write := true }] ∧
      ((tabled (layered 1) id).changing r 0 true).toOption = some 0x20800 ∧ ((tabled (layered 0) id).changing r 0 true).toOption = some 0x20800 ∧
      (Handle.ofBytes ((tabled (layered 1) id).entryNow 0x20800)).lcount = 1 ∧
      (Handle.ofBytes ((tabled (layered 1) id).entryNow 0x20800)).ok = true) ∧
    Memory.wf (tabled (layered 1) id).mem = true := by
  refine ⟨⟨able_of ?_, ?_, ?_, ?_⟩, ⟨reads_of ?_, ?_, ?_, ?_⟩, ⟨reads_of ?_, ?_, ?_, ?_⟩, ⟨able_of ?_, ?_, ?_, ?_⟩,
    ⟨able_of ?_, ?_, ?_, ?_, ?_⟩, ?_⟩
  all_goals decide +kernel

/-- A changed group. -/
def grouped (g : Group → Group) (f : Team → Team) : State := (at_ f).onGroup 1 g
def wide (ms : List Moor) (g : Group) : Group := { g with spad := 0x40000, moors := ms }

/-- A word of MOOR for one unscaled macro at 0, and the region it names, marked or converted. -/
def MOORW : XWord := xw (v 0) (sr 3) (v 0) (v 0) 0 false 0 1
def region (conv : Bool) : Moor := ⟨0, 1, .i32, false, 0, 0, conv, [], [], [], []⟩

theorem witness_Mooring :
    (Reads (grouped (wide []) id) 2 tm0 P (usesA MOORW) ∧ tm0.stall = .none ∧
      ((tabGet? (grouped (wide []) id).groups 1).elim false fun g => g.mayMoor (Moor.asked .i32 MOORW 0 0) &&
        decide (moored ((grouped (wide []) id).coreMates g) + (Moor.asked .i32 MOORW 0 0).len ≤ 524288)) = true ∧
      gr0.mayMoor (Moor.asked .i32 MOORW 0 0) = false) ∧
    Reads (base.setTeam 2 (barred (.moor 0 true none))) 2 (barred (.moor 0 true none)) P (usesMoor MOORW (.moor 0 true none)) ∧
    (((tabGet? (grouped (wide [region false]) id).groups 1).elim false fun g =>
        decide (g.moors.find? (fun m => m.rb == 0 && !m.converting) = some (region false)) && g.queue.isEmpty && g.shares.isEmpty) = true ∧
      gr0.moors = []) ∧
    (let s := (grouped (wide [region true]) id).setTeam 2 (barred (.moor 0 false none))
     tabGet? s.teams 2 = some (barred (.moor 0 false none)) ∧ s.pend = [] ∧ s.copies = [] ∧ s.marks = [] ∧ s.picks = [] ∧ s.hasAcquire 2 = false ∧
       s.ownBefore 2 tm0.seq (spadByte 1 0) 64 = false ∧
      ((tabGet? s.groups 1).elim false fun g => g.place.isSome && !g.readsRegion (region true) &&
        decide (g.moors.find? (fun m => m.rb == 0 && m.converting) = some (region true))) = true) := by
  refine ⟨⟨reads_of ?_, rfl, ?_, ?_⟩, reads_of ?_, ⟨?_, ?_⟩, ?_⟩
  all_goals decide +kernel

/-- One step of MLOOP over the region, its activations 16 bytes apart; MLOOPG's member mask is s7. -/
def LOOPW : XWord := xw (sr 7) (sr 3) (sr 4) (sr 5) 0 false 0 0
def looper (tm : Team) : Team := tm.sSet 5 16
def toGang (m : Word64) (tm : Team) : Team := (looper tm).sSet 7 m

def loopCheck (ms : List Moor) (f : Team → Team) : Bool :=
  let s := grouped (wide ms) f
  let lp := (f tm0).loopParams .plusTimes false .i32 LOOPW
  (tabGet? s.groups 1).elim false fun g => lp.ok 0 4 && (g.loopRegion lp).isSome && g.queueRoom && g.shareRoom &&
    (s.readDescriptor (ready 2 (f tm0) P) lp g).toOption.isSome

theorem witness_MatrixInstructions :
    (let g4 (g : Group) : Group := { wide [region false] g with nacc := 4 }
     Reads (grouped g4 looper) 2 (looper tm0) P (usesLoop LOOPW false) ∧ loopCheck [region false] looper = true ∧
      (tm0.loopParams .plusTimes false .i32 LOOPW).ok 0 4 = false ∧
      Reads (grouped g4 (toGang 1)) 2 (toGang 1 tm0) P (usesLoop LOOPW true) ∧ loopCheck [region false] (toGang 1) = true ∧
      maskMembers 1 = [0] ∧ gr0.gidx = 0 ∧ LOOPW.bn.toNat < (grouped g4 looper).barCount tm0 ∧
      Reads (grouped g4 (toGang 0)) 2 (toGang 0 tm0) P (usesLoop LOOPW true) ∧
      2 ^ 32 ≤ ((toGang 0x100000000 tm0).sGet 7).toNat) ∧
    (Reads base 2 tm0 P [] ∧ Able base 2 tm0 P [unused .d] ∧ Able base 2 tm0 P [{ letter := .d, opd := sr 8, want := wantS, write := true }]) ∧
    (let w := xw (v 0) (sr 3) (v 0) (v 0) 0 false 0 0
     Reads (with3 5) 2 (s3 5) P (usesMwait w .none) ∧ 0 < (((s3 5).sGet 3).setWidth 32 - gr0.batch).toInt ∧
      Reads base 2 tm0 P (usesMwait { w with a := mr 0 } .none) ∧
      Reads (base.setTeam 2 (barred (.mwait 0))) 2 (barred (.mwait 0)) P (usesMwait w (.mwait 0)) ∧
      (let g : Group := { gr0 with batches := [(0, { unfinished := 1, closed := true, pv := {}, faults := [] })] }
       ∃ b ∈ g.batchesTo 0, b.2.unfinished ≠ 0) ∧ earliestFault (gr0.batchesTo gr0.batch) = none ∧
      (let g : Group := { gr0 with batch := 1, batches := [(1, { unfinished := 0, closed := true, pv := {}, faults := [⟨0, 6, 2, 0x20000⟩] })] }
       (∀ b ∈ g.batchesTo g.batch, b.2.unfinished = 0) ∧ (earliestFault (g.batchesTo g.batch)).isSome = true) ∧
      tm0.masked = false ∧ badVector ((trapping id).ctx 0).trapvec = false) ∧
    MayGo (Q8 (.ready 0)) 9 (acc (.ready 0) (some (8, 0))) ∧ (Q8 (.ready 0)).arrivalHeld 1 0 = false ∧ tabGet? (Q8 (.ready 0)).groups 1 = some gr0 := by
  refine ⟨⟨reads_of ?_, ?_, ?_, reads_of ?_, ?_, ?_, ?_, ?_, reads_of ?_, ?_⟩, ⟨reads_of ?_, able_of ?_, able_of ?_⟩,
    ⟨reads_of ?_, ?_, reads_of ?_, reads_of ?_, ?_, ?_, ?_, rfl, ?_⟩, mayGo_of ?_, ?_, ?_⟩
  all_goals decide +kernel

theorem witness_Accumulators :
    (Reads base 2 tm0 P (usesAccz (xw (zr 0) (v 0) (v 0) (v 0) 0 false 0 0)) ∧ 0 + (0 + 1) ≤ gr0.nacc ∧ gr0.queueRoom = true) ∧
    (Able base 2 tm0 P (usesAccrd .f64 (xw (v 8) (zr 0) (mr 0) (v 0) 0 false 0 0)) ∧ base.marks = []) ∧
    Reads base 2 tm0 P (usesAccwr .n32 (xw (zr 0) (v 2) (sr 3) (v 0) 0 false 0 0)) ∧
    MayGo (Q8 (.accRead .f32 0 true)) 9 (acc (.accRead .f32 0 true) (some (8, 0))) := by
  refine ⟨⟨reads_of ?_, ?_, ?_⟩, ⟨able_of ?_, rfl⟩, reads_of ?_, mayGo_of ?_⟩
  all_goals decide +kernel

/-- One entry at the head of the queue. -/
def entryOf (k : QueueWork) : QueueEntry := ⟨2, 0, 0, none, k, 0, none, 0x20000⟩
def loop0 : LoopParams := (looper tm0).loopParams .plusTimes false .i32 LOOPW
def queued (k : QueueWork) : State :=
  grouped (fun g => { wide [region false] g with nacc := 4, queue := [entryOf k] }) id

def queuedCheck (k : QueueWork) (f : Group → Bool) : Bool :=
  (tabGet? (queued k).groups 1).elim false fun gr => gr.place.isSome && gr.gateOpen none && decide (gr.queue = [entryOf k]) && f gr

/-- An issue of MLOOPG by the placed team to the members sent, with these unsettled. -/
def issueTo (sent unsettled : List Nat) : Issue := ⟨2, 1, loop0, 0, none, sent, unsettled, [], 0, 0, 8, 0, 0x20000, []⟩
def issuing (sent : List Nat) : State :=
  { grouped (fun g => { wide [region false] g with nacc := 4 }) id with
    issues := [(9, issueTo sent sent)], nextId := 10
    prods := [(8, { team := 2, dests := [.s 8], form := .value (.s 8) .n64 0, parts := [none] })] }

/-- A second group of the core, whose queue can take a step too. -/
def twoQueues : State :=
  let s := queued (.fill 0 1 2)
  { s with groups := s.groups ++ ((tabGet? s.groups 1).map fun g => (7, g)).toList }

/-- A loop whose activations are marked, at the head of the queue. -/
def markedLoop : State :=
  let s := queued (.loop loop0 0)
  { s with marks := (List.range 32).map fun i => (spadByte 1 0 / 8 + i, 1) }

def loopStep (s : State) : Bool := (tabGet? s.groups 1).elim false fun gr => (gr.loopRegion loop0).elim false fun x =>
  (((s.passQueue 1 gr).passGate 1 gr (.batch 1 0) (entryOf (.loop loop0 0))).tileStep (.batch 1 0) 1 loop0 x.1 x.2 0).toOption.isSome

/-- A product that leaves a sum exact or not, that is infinite, and a sum beyond the format; a row with nothing marked. -/
theorem witness_AccumulatorSteps :
    (let sum (x : FNum) : FNum := (FNum.add .rn (num32 0x3F800000) x).1
     ((FNum.fin false 1 1).mul (.fin false 1 1)).1 = .fin false 1 1 ∧ ratOf (sum (.fin false 1 1)) = ratOf (num32 (near32 (sum (.fin false 1 1)))) ∧
      ((FNum.fin false 1 1).mul (.fin false 1 (2 ^ 30))).1 = .fin false 1 (2 ^ 30) ∧
      ratOf (sum (.fin false 1 (2 ^ 30))) ≠ ratOf (num32 (near32 (sum (.fin false 1 (2 ^ 30))))) ∧
      (num32 (near32 (sum (.fin false 1 (2 ^ 30))))).isFinite = true ∧ (num32 0x3F800000).isFinite = true ∧
      (num32 0x7F800000).isFinite = false ∧ ((FNum.inf false).mul (.fin false 1 1)).1.isFinite = false ∧
      (num32 (near32 (sum (.fin false (2 ^ 200) 1)))).isFinite = false) ∧
    (base.marks = [] ∧ base.picks = [] ∧ Memory.wf base.mem = true ∧ loop0.semiring = .plusTimes ∧ (region false).flags = []) ∧
    blockScaled .i8 false = false ∧ Ty.i8 ≠ .i32 := by
  refine ⟨?_, ?_, ?_, ?_⟩
  all_goals decide +kernel

theorem witness_MatrixEvents :
    (queuedCheck (.fill 0 1 2) (fun _ => (queued (.fill 0 1 2)).entryMayWrite 1 (entryOf (.fill 0 1 2))) = true ∧
      queuedCheck (.put [(16, toBytesLE 8 7)]) (fun _ => (queued (.put [(16, toBytesLE 8 7)])).entryMayWrite 1 (entryOf (.put [(16, toBytesLE 8 7)]))) = true ∧
      queuedCheck (.loop loop0 0) (fun gr => (gr.loopRegion loop0).elim false fun x => !x.1.converting &&
        decide (loop0.steps ≤ 0 + 1)) = true ∧ loopStep (queued (.loop loop0 0)) = true ∧ loopStep markedLoop = false ∧ Memory.wf (queued (.fill 0 1 2)).mem = true) ∧
    (tabGet? (issuing [0, 5]).issues 9 = some (issueTo [0, 5] [0, 5]) ∧ ((issuing [0, 5]).member 1 5) = none ∧
      (((issuing [0, 5]).member 1 0).elim false fun x => decide (x.1 = 1) &&
        ((((issuing [0, 5]).setPv (.share 9 0) (((issuing [0, 5]).pv (.share 9 0)).joinO (x.2.gateView none))).shareSent 9 0 (issueTo [0, 5] [0, 5])
          (some 1)).shareChecks (.share 9 0) 1 x.2 loop0).toOption.isSome) = true) ∧
    (tabGet? (issuing []).issues 9 = some (issueTo [] []) ∧ (tabGet? (issuing []).prods 8).isSome = true ∧
      tabGet? (issuing []).teams 2 = some tm0) ∧
    ((tabGet? (queued (.fill 0 1 2)).groups 1).elim false fun gr =>
      (queued (.fill 0 1 2)).headAble 1 gr && !(queued (.fill 0 1 2)).queueWaits 1 gr) = true ∧
    (let s : State := { twoQueues with groups := twoQueues.groups.map fun g => if g.1 = 7 then (7, { g.2 with passed := [1] }) else g }
     ((tabGet? s.groups 1).elim false fun gr => s.queueWaits 1 gr && (tabGet? s.groups 7).elim false fun hr =>
       s.headAble 7 hr && decide (hr.core = gr.core)) = true) := by decide +kernel

/-! ### Copies, commands, the base dies: hypotheses -/

/-- A slice of the placed team, given by its four words. -/
def cut (w0 w1 w2 w3 : Word64) : Slice := ⟨2, 0, w0, w1, w2, w3, [], [], [], 0, []⟩
def copyOf (m : CopyMode) (ph : CopyPhase) (xs : List Slice) : Copy where
  group := 1
  launch := 0
  vf := 0
  ordinal := 0
  mode := m
  handle := 0
  bar := none
  cimm := 0
  phase := ph
  slices := xs
  differ := false
  order := 0
  core := 0
  paths := [.glob]
  pv := {}
  fault := none
  reported := false
  told := false
  entry := []
  extent := (0, 0)
  checked := false
  turns := []
  blocked := none
  pc := 0x20000

def withCopy (c : Copy) (f : Team → Team) : State := { data f with copies := [(5, c)], nextId := 10 }

/-- A plain copy of one row of 64 bytes. -/
def oneRow : Slice := cut 0x20100 0x20200 64 0
def plainCopy (ph : CopyPhase) : Copy := copyOf .plain ph [oneRow]

def COPYW : XWord := xw (v 0) (sr 4) (v 0) (v 0) 0 false 0 0

/-- A flash extent, and a tag that matches it. -/
def chip : Flash := ⟨true, [], 1, []⟩
@[irreducible] def extentDigest : Nat :=
  (sha3 ((List.range (2 ^ 21)).map fun j => memGet chip.bytes (4096 * ((0 : Word64).toNat % 2 ^ 48 + 512 * 0) + j))).toNat
def flashCopy (tag : Nat) : Copy := copyOf .flash .running [{ cut 0 0x20000 (2 ^ 32) 0x21000 with tags := [tag] }]

theorem witness_CollectiveCopies :
    (Reads base 2 tm0 P (usesCopy COPYW) ∧ COPYW.a.num.toNat % 4 = 0 ∧ barOk base COPYW tm0 = true ∧
      base.copyOf 1 tm0.copies = none ∧ base.collecting 1 < 16 ∧ base.copying 0 < 64 ∧
      (let s := withCopy (copyOf .plain .collecting []) id
       Reads s 2 tm0 P (usesCopy COPYW) ∧ s.copyOf 1 tm0.copies = some (5, copyOf .plain .collecting []) ∧ 5 < s.nextId ∧ s.copying 0 < 64) ∧
      base.current = some (2, tm0) ∧ (xw (v 0) (sr 5) (v 0) (v 0) 0 false 0 0).a.num.toNat % 4 ≠ 0) ∧
    (Reads base 2 tm0 P [] ∧ tm0.stall = .none ∧ base.drained? (ready 2 tm0 P) .glob = [] ∧ base.drainFault 1 [] = none ∧
      (let s := (withCopy { plainCopy .complete with fault := some (8, 0) } id).onCtx 0 fun c => { c with trapvec := 0x20000 }
       Reads s 2 tm0 P [] ∧ s.drained? (ready 2 tm0 P) .glob = [5] ∧ (s.drainFault 1 [5]).map (·.1) = some 5 ∧
        badVector (s.ctx 0).trapvec = false)) ∧
    ((let s := withCopy (plainCopy .collecting) id
      ((tabGet? s.groups 1).elim false fun g => decide (g.core = some 0) && s.allSupplied g [0]) = true ∧ s.copying 0 < 64) ∧
      (∃ x, (withCopy (plainCopy .starting) id).readCopy 5 (plainCopy .starting) = .ok x) ∧
      (match (withCopy { plainCopy .starting with differ := true } id).readCopy 5 { plainCopy .starting with differ := true } with
        | .error (.fault ..) => true
        | _ => false) = true ∧
      ((withCopy (plainCopy .running) id).copyPend 5 = [] ∧ (withCopy (plainCopy .running) id).copyArrivalHeld (plainCopy .running) = false ∧ (plainCopy .running).turns = [])) ∧
    ∀ tag, tag = extentDigest →
      (flashCopy tag).slices[0]? = some { cut 0 0x20000 (2 ^ 32) 0x21000 with tags := [tag] } ∧ 0 < hi32 (2 ^ 32) ∧
      extentDigest = nth 0 [tag] 0 := by
  refine ⟨⟨reads_of ?_, ?_, ?_, ?_, ?_, ?_, ⟨reads_of ?_, ?_, ?_, ?_⟩, base_current, ?_⟩,
    ⟨reads_of ?_, rfl, ?_, ?_, ⟨reads_of ?_, ?_, ?_, ?_⟩⟩, ⟨?_, exists_ok ?_, ?_, ?_⟩, fun _ h => ⟨rfl, by decide, h.symm⟩⟩
  all_goals decide +kernel

/-- A command of the placed team, its completion word at 0x20100. -/
def cmdOf (k : CommandKind) (todo : List (Nat × Nat)) (final entered : Bool) : Command where
  kind := k
  team := 2
  seq := 0
  launch := 0
  vf := 0
  cwAt := 0x20100
  cwEmpties := false
  tag := 7
  die := some 0
  since := 0
  entered := entered
  todo := todo
  final := final
  flags := 0
  fault := none
  holds := if final && entered then some 0x20800 else none
  blocked := none
  pv := {}
  pc := 0x20000

def withCmd (n : Nat) (c : Command) : State := { tabled n id with commands := [(5, c)], nextId := 10 }

/-- A layered entry with an empty layer at 0x20A00, two columns and rows. -/
def small (n : Nat) : Nat :=
  4 + 4 * 2 ^ 8 + 2 * 2 ^ 16 + 2 * 2 ^ 32 + 2 * 2 ^ 64 + 2 * 2 ^ 192 + 0x20400 * 2 ^ 320 + n * 2 ^ 376 + 0x20A00 * 2 ^ 384
def folded (todo : List (Nat × Nat)) (entered : Bool) : Command :=
  cmdOf (.fold 0 1 0x20500 0x20B00 (if entered then toBytesLE 64 (small 1) else [])) todo true entered

/-- A table of two rows of two elements; a bag of one index, at 0x20000, and one of too many. -/
def rows2 : Nat := 1 + 4 * 2 ^ 8 + 2 * 2 ^ 16 + 2 * 2 ^ 32 + 2 * 2 ^ 64 + 2 * 2 ^ 192 + 0x20400 * 2 ^ 320
def pooled (n : Word32) : Command := cmdOf (.emb true (toBytesLE 64 rows2) [Bag.start (Handle.ofBytes (toBytesLE 64 rows2)) 0 0x20600 0x20700 n]) [(0, 1)] false true
def stepped (entered : Bool) : Command :=
  cmdOf (.upd true false 0x20200 0x20300 0x20400 0x20500 4 [0, 0, 0, 0]) (if entered then [(0, 4)] else []) false entered
/-- A bag whose index and row are read, all but its last line; and one that has its output begun. -/
def readBag (done : Bool) : Bag :=
  { Bag.start (Handle.ofBytes (toBytesLE 64 rows2)) 0 0x20600 0x20700 1 with
    idx := if done then [(0, 1)] else [], rows := if done then [(0, 0x3F800000), (1, 0x40000000)] else [] }
def finished : Command := cmdOf (.upd true false 0 0 0 0 4 []) [] false true

/-- s8 names the completion word, s3 what a command reads. -/
def cmdTeam (x : Word64) (tm : Team) : Team := (tm.sSet 8 0x20100).sSet 3 x
def FOLDW : XWord := xw (sr 8) (sr 3) (sr 5) (v 0) 0 false 0 1
def EMBW : XWord := xw (sr 8) (v 2) (v 4) (v 6) 0 false 0 0

/-- The block of UPD at 0x20C00: four arrays, parameters, completion word, 4 elements. -/
def updBlock : Nat :=
  0x20200 + 0x20300 * 2 ^ 64 + 0x20400 * 2 ^ 128 + 0x20500 * 2 ^ 192 + 4 * 2 ^ 256 + 0x20D00 * 2 ^ 320 + 0x20100 * 2 ^ 384
def updating : State := let s := data (cmdTeam 0x20C00); { s with mem := memSets s.mem 0x20C00 (toBytesLE 64 updBlock) }

def updCheck (s : State) : Bool :=
  let r := ready 2 (cmdTeam 0x20C00 tm0) P
  (s.readOrdered r 0x20C00 64).toOption.elim false fun d => decide (field d.1 256 32 = 4) && decide (field d.1 288 32 = 0) &&
    decide (field d.1 480 32 = 0) && decide (field d.1 320 64 = 0x20D00) &&
    (d.2.completionPlace r (BitVec.ofNat 64 (field d.1 384 64))).toOption.isSome && (d.2.readOrdered r 0x20D00 32).toOption.isSome

/-- A finished command whose completion word goes to s0 of an image, with a producer on that register or none. -/
def imageCmd (held : Bool) : State :=
  { (data fun _ => imaged) with
    commands := [(5, { finished with cwAt := 0x30000, cwEmpties := true })]
    alloc := [(0x30000 / 65536, 0x101)]
    prods := if held then [(8, { team := 2, dests := [.s 0], form := .value (.s 0) .n64 0, parts := [none] })] else [] }

theorem witness_Commands :
    (let s := tabled rows2 (cmdTeam 0)
     let tm := cmdTeam 0 tm0
     (s.completionPlace (ready 2 tm P) (tm.sGet 8)).toOption = some (0x20100, false) ∧
      Reads s 2 tm P [{ letter := .a, opd := sr 3, want := wantS, read := true }, { letter := .b, opd := sr 5, want := wantS, read := true }, cwUse FOLDW] ∧
      Reads s 2 tm P (usesEmb EMBW) ∧
      (∃ x, s.teamHandle (ready 2 tm P) 0 = .ok x ∧ embTable x.1 = true) ∧
      ∀ l ∈ activeLanes tm P, (tm.pairGet 2 l).toNat % 4 = 0 ∧ (tm.pairGet 4 l).toNat % 4 = 0) ∧
    (Reads updating 2 (cmdTeam 0x20C00 tm0) P (usesUpd FOLDW) ∧ updCheck updating = true) ∧
    (tabGet? (withCmd rows2 (stepped false)).commands 5 = some (stepped false) ∧ (withCmd rows2 (stepped false)).earlierWrite (stepped false) = false ∧
      Memory.wf (withCmd rows2 (stepped false)).mem = true) ∧
    ((∃ x, (withCmd (small 1) (folded [] false)).foldStart 5 (folded [] false) 0 1 0x20500 0x20B00 = .ok x) ∧
      ((withCmd (small 1) (folded [] false)).foldEntry (folded [] false)).elim false (withCmd (small 1) (folded [] false)).foldHolds = false) ∧
    ((withCmd (small 1) (folded [(1, 4)] true)).pickUnit [(1, 4)]).1 = some 1 ∧
    (∃ x, ((withCmd (small 1) (folded [(1, 4)] true)).pickUnit [(1, 4)]).2.foldElement 5 (folded [(1, 4)] true) 0 1 0x20500
      (Handle.ofBytes (toBytesLE 64 (small 1))) 1 = .ok x) ∧
    ((withCmd (small 1) (folded [] true)).pickUnit []).1 = none ∧
    (∃ x, (withCmd (small 1) (folded [] true)).foldFinal 5 (folded [] true) 1 0x20500 0x20B00 (toBytesLE 64 (small 1)) = .ok x) ∧
    (hasUnit (pooled 65).todo 0 = true ∧ 64 < (65 : Word32).toNat ∧ (readBag true).begun = false ∧ (pooled 65).fault = none ∧
      ((pooled 1).inQueues = false ∧ { pooled 1 with fault := some 8 }.fault.isSome = true) ∧
      ([0, 1, 2].all fun u => ((withCmd rows2 (pooled 1)).bagUnit 5 (pooled 1) true (Handle.ofBytes (toBytesLE 64 rows2)) (readBag true) u).elim
        false fun x => x.2.2.isNone) = true ∧
      (withCmd rows2 (pooled 1)).bagUnit 5 (pooled 1) true (Handle.ofBytes (toBytesLE 64 rows2)) (readBag false) 1 = none ∧
      ((withCmd rows2 (pooled 1)).pickUnit (readBag true).todo).1 = some 0) ∧
    (hasUnit (stepped true).todo 3 = true ∧
      ∃ x, (withCmd rows2 (stepped true)).updElement 5 (stepped true) true false [0x20200, 0x20300, 0x20400, 0x20500] [0, 0, 0, 0] 3 = .ok x) ∧
    (finished.entered = true ∧ finished.todo = [] ∧ finished.final = false ∧ finished.cwEmpties = false ∧ finished.inQueues = true ∧
      tabGet? (withCmd rows2 finished).commands 5 = some finished ∧ Plain (withCmd rows2 finished) 0x20100) ∧
    ((imageCmd true).inImage 0x30000 = true ∧ (imageCmd true).imageHeld none 0x30000 8 = true ∧
      (imageCmd false).imageHeld none 0x30000 8 = false) := by
  refine ⟨⟨?_, reads_of ?_, reads_of ?_, exists_check ?_, ?_⟩, ⟨reads_of ?_, ?_⟩, ?_, ⟨exists_ok ?_, ?_⟩, ?_, exists_ok ?_, ?_, exists_ok ?_,
    ?_, ⟨?_, exists_ok ?_⟩, ⟨?_, ?_, ?_, ?_, ?_, ?_, by decide, fun _ => ?_⟩, ?_⟩
  all_goals decide +kernel

/-- The states that the elements of a line go through, the first given and each got from the last. -/
def chain (f : State → Nat → State) (s : State) : Nat → State
  | 0 => s
  | n + 1 => f (chain f s n) n

/-- R300: 1 + 2 is 3, and the mean of the two 1.5; row 5 of a table of two is the default row. -/
theorem test_pool : poolValue false [0x3F800000, 0x40000000] = 0x40400000 ∧ poolValue true [0x3F800000, 0x40000000] = 0x3FC00000 ∧
    embRow (Handle.ofBytes (toBytesLE 64 rows2)) 5 = 2 := by decide +kernel

theorem witness_CommandValues :
    (let s := withCmd (small 1) (folded [(1, 4)] true)
     let h := Handle.ofBytes (toBytesLE 64 (small 1))
     ((s.underEntry (.command 5) 0x20800).layerList (.command 5) 0 0 h 1).toOption.elim false fun x => (x.2.layeredElem (.command 5) none 0 h x.1 0 1).toOption.elim false fun y =>
       (y.2.commandDest (folded [(1, 4)] true) (0x20500 + BitVec.ofNat 64 (4 * h.index [1, 0])) 4).toOption.isSome) = true ∧
    (folded [(1, 4)] true).holds = some 0x20800 ∧
    (let s := withCmd rows2 (pooled 1)
     let h := Handle.ofBytes (toBytesLE 64 rows2)
     let va (n : Nat) : Word64 := h.base + BitVec.ofNat 64 (4 * h.index [0, 1]) + BitVec.ofNat 64 (4 * n)
     let read (s : State) (n : Nat) := s.commandRead 5 (pooled 1) 0 (va n) 4
     (readBag true).idx = [(0, 1)] ∧ lineOf (va 0).toNat 4 (h.extent 0) 0 = [0, 1] ∧ lineOf 0x20700 4 (h.extent 0) 0 = [0, 1] ∧
      (read s 0).toOption.elim false (fun x =>
        let m := tabSet x.2.2.embRows (x.2.1 / 2 ^ 36) (tabGet x.2.2.embRows (x.2.1 / 2 ^ 36) 0 + 1)
        (read { x.2.2 with embRows := m } 1).toOption.isSome) = true ∧
      ([0, 1].all fun n => ((readBag true).column h n).isSome &&
        ((chain (fun s n => s.commandWrite 5 (0x20700 + 4 * n) (toBytesLE 4 (poolValue true (((readBag true).column h n).getD [])).toNat)) s n).commandDest
          (pooled 1) (0x20700 + BitVec.ofNat 64 (4 * n)) 4).toOption == some (0x20700 + 4 * n)) = true ∧ Memory.wf s.mem = true) ∧
    (let s := withCmd rows2 (stepped true)
     let c := stepped true
     let va (n : Nat) : Word64 := nth 0 [0x20200, 0x20300, 0x20400, 0x20500] n + BitVec.ofNat 64 (4 * 3)
     let read (s : State) (n : Nat) := s.commandRead 5 c 0 (va n) 4
     ([0, 1, 2].all fun n => (s.commandDest c (va n) 4).toOption.isSome) = true ∧
      ((read s 0).toOption.elim false fun x => (read x.2.2 1).toOption.elim false fun x => (read x.2.2 2).toOption.elim false fun x =>
        (read x.2.2 3).toOption.isSome) = true) := by
  refine ⟨?_, rfl, ⟨?_, ?_, ?_, ?_, ?_, ?_⟩, ?_, ?_⟩
  all_goals decide +kernel

/-- An alias operation of a code that is pending, of eight bytes at 0x20400 or a row there. -/
def aliasAcc (code : Nat) (x : Word64) : Access := { acc (.windowOp code .n64 x) none with loc := byteLoc 0x20400 }
def aliasing (code : Nat) (x : Word64) : State := { data id with pend := [(9, aliasAcc code x)], nextId := 10 }
def aliasB (code : Nat) (x : Word64) : Bool :=
  decide (tabGet? (aliasing code x).pend 9 = some (aliasAcc code x)) && (aliasing code x).aliasMay 9 (aliasAcc code x)

/-- Two regions of one domain, in different channels. -/
def twoRegions : State := { data id with alloc := (List.range 64).map fun i => (i, 1) }

theorem witness_BaseDieOperations :
    ([1, 2, 3, 4, 5, 6].all fun c => aliasB c 5) = true ∧ (aliasing 1 5).rowFault 0 0x20400 8 true true = none ∧
    ({ aliasing 1 5 with stackSet := 0 } : State).rowFault 0 0x20400 8 true true = some .access ∧
    (aliasB 7 5 = true ∧ (aliasing 7 5).rowFault 0 0x20400 1024 false true = none) ∧
    (aliasB 8 0x20800 = true ∧ (aliasing 8 0x20800).rowFault 0 0x20800 1024 true false = none) ∧
    (let pw := PlaneWord.ofWord 0x90
     aliasB 9 0x90 = true ∧ aliasB 10 0x90 = true ∧ pw.n = 8 ∧ (aliasing 9 0x90).runFault 0 pw.a 8 false = none ∧
      (aliasing 9 0x90).runFault 0 pw.b 8 false = none ∧ (aliasing 9 0x90).runFault 0 0x20400 8 true = none) ∧
    Memory.wf (aliasing 1 5).mem = true ∧ (aliasing 1 5).picks = [] ∧ twoRegions.mayRemap 0 1 = true ∧ base.mayRemap 0 0 = false := by
  refine ⟨?_, ?_, ?_, ?_, ?_, ?_, ?_, ?_, ?_, ?_⟩
  all_goals decide +kernel

/-! ### Work, scheduling, the host link: hypotheses -/

def ended : Team := { tm0 with phase := .ended }
def finishing (g : Group → Group) : State := ((at_ fun _ => ended).setTeam 3 tm0).onGroup 1 g
def la0 : Launch := placedLaunch 0x20000
def launched (f : Launch → Launch) : State := (data id).onLaunch 0 f

/-- A spawn queue of teams of 32 lanes with these items and filling teams. -/
def spawnQ (items : List Item) (fs : List (Word64 × List Item)) : SpawnQueue := ⟨5, 8, 0, 0, 0, 7, items, fs⟩
def item (pc : Word64) : Item := ⟨pc, [1], 3, []⟩

/-- The image of `imageCmd` at 0x40000000 by the register window (leaf code 0xF9). -/
def windowMapped (held : Bool) : State :=
  let s := imageCmd held
  { s with alloc := tabSet base.alloc 3 0x101, mem := memSets s.mem (placedRoot + 0x2008) (toBytesLE 8 0xF90000000005) }

theorem witness_WorkEvents :
    (let s := finishing id
     tabGet? s.teams 2 = some ended ∧ ended.phase = .ended ∧ s.teamBusy 2 = false ∧
      ((tabGet? s.groups 1).elim false fun g => decide (g.teams = [2]) && s.groupIdle 1 g) = true ∧
      ((tabGet? (finishing fun g => { g with queue := [entryOf (.fill 0 1 0)] }).groups 1).elim true fun g => s.groupIdle 1 g) = false ∧
      (tabGet? (finishing fun g => { g with teams := [2, 3] }).teams 3).map (·.phase) = some .running) ∧
    (let x := spawnQ [item 0x20000] []
     let s := launched fun la => { la with spawn := [(1, x)] }
     ((tabGet? s.launches 0).bind fun la => tabGet? la.spawn 1) = some x ∧ 1 < 2 ^ x.logn ∧
      [item 0x20000].length + 1 < 2 ^ x.logn ∧ 2 ^ x.logn ≤ (List.replicate 31 (item 0x20000)).length + 1 ∧
      (spawnQ [item 0x20000] ((List.range 8).map fun i => (BitVec.ofNat 64 (0x30000 + i), [item 0x30000]))).filling.length = 8 ∧
      ∀ e ∈ (List.range 8).map (fun i => ((BitVec.ofNat 64 (0x30000 + i) : Word64), [item 0x30000])),
        e.1 ≠ (item 0x20000).pc ∧ e.2.length < 2 ^ x.logn) ∧
    (let s := launched fun la => { la with life := .admitted }
     (tabGet? s.launches 0).map (fun la => (la.life, la.edges, la.serialOn, la.units, la.gpg, la.tpg)) = some (.admitted, [], none, 1, 1, 1) ∧
      ((tabGet? (launched fun la => { la with life := .admitted, edges := [7] }).launches 0).map (·.edges)) = some [7]) ∧
    (let s := launched fun la => { la with life := .retired, cwadr := 0x20100 }
     (tabGet? s.launches 0).map (·.life) = some .retired ∧ s.outstanding 0 = false ∧ Memory.wf s.mem = true ∧
      (s.translate 0 0x20100 8 .store true).toOption = some (.byte 0x20100) ∧
      ({ s with pend := [(9, acc .read none)] } : State).outstanding 0 = true ∧ s.wordHeld 0 0x20100 = false ∧
      (windowMapped true).wordHeld 0 0x40030000 = true) := by
  refine ⟨?_, ?_, ?_, ?_⟩
  all_goals decide +kernel

/-- A header at 0x20900 for one group of one team, with the version given, its completion word at 0x20100; and queue 0 that holds one
entry. -/
def header (version : Nat) : Nat :=
  0x20000 + 0x20100 * 2 ^ 0xC0 + 5 * 2 ^ 0x140 + 7 * 2 ^ 0x148 + 2 ^ 0x150 + 2 ^ 0x158 + 5 * 2 ^ 0x160 + version * 2 ^ 0x240
def ringing (base : BitVec 56) (entry version : Nat) : State :=
  let s := (data id).onCtx 0 fun c => { c with queues := [(0, { qbase := base, qen := true, qtail := 1 })] }
  { s with mem := memSets (memSets s.mem 0x20000 (toBytesLE 16 entry)) 0x20900 (toBytesLE 128 (header version)) }
def ringEnd (s : State) : Option EntryEnd :=
  match s.readRing 0 0 (s.queue 0 0) none with
  | .ok _ => none
  | .error e => some e

theorem readRing_error {s : State} {e : EntryEnd} (h : ringEnd s = some e) : s.readRing 0 0 (s.queue 0 0) none = .error e := by
  unfold ringEnd at h
  split at h
  · cases h
  · exact (Option.some.inj h) ▸ by assumption

/-- Group 1 waits to be bound; and with it group 4 of a second launch, of a higher priority or of a team that is bound. -/
def unbound : State := (grouped (fun g => { g with place := none }) id).onLaunch 0 fun la => { la with life := .distributed }
def rival (f : Launch → Launch) (g : Group → Group) : State :=
  { unbound with
    launches := unbound.launches ++ [(3, f { la0 with life := .distributed, base := 1 })]
    groups := unbound.groups ++ [(4, g { Group.fresh 3 0 0 false 4096 1 1 1 with teams := [5] })]
    teams := unbound.teams ++ [(5, { tm0 with group := 4, launch := 3 })] }
def leaving (f : Team → Team) : State := grouped (fun g => { g with leave := some .yield }) f
def parkedAt (va : Word64) : Team := { tm0 with phase := .parked va 0 3 }
def bare (s : State) : State := s.onCtx 0 fun c => { c with pgroot := 0 }

theorem witness_Scheduling :
    ((63 : Nat) < 64 ∧ base.power ≠ .s3 ∧ (ringing 0x20000 0x20900 1).nextQueue = some (0, 0, 0)) ∧
    ((∃ x, (ringing 0x20000 0x20900 1).readRing 0 0 ((ringing 0x20000 0x20900 1).queue 0 0) none = .ok x) ∧
      (ringing 0x20000 0x20901 1).readRing 0 0 ((ringing 0x20000 0x20901 1).queue 0 0) none = .error (.drop 0x0A) ∧
      (ringing 0x20000 0x20900 2).readRing 0 0 ((ringing 0x20000 0x20900 2).queue 0 0) none = .error (.refuse 0x20100 1) ∧
      (ringing 0x80000000 0x20900 1).readRing 0 0 ((ringing 0x80000000 0x20900 1).queue 0 0) none = .error (.wait 0x80000000) ∧
      (ringing 0x80000000 0x20900 1).nextQueue = some (0, 0, 0) ∧ (ringing 0x20000 0x20900 2).wordHeld 0 0x20100 = false ∧
      ((ringing 0x20000 0x20900 2).translate 0 0x20100 8 .store true).toOption = some (.byte 0x20100)) ∧
    (unbound.power = .p0 ∧ unbound.unitWaits 1 = true ∧ unbound.bindingHeld 0 = false ∧
      (∀ u ∈ unbound.waiting, unbound.before u 1 = true → unbound.canPlace u = false ∧ unbound.couldUse u [⟨0, 7, 0xFF, 0⟩] = false) ∧
      (unbound.bindUnit 1 [⟨0, 7, 0xFF, 0⟩]).isSome = true ∧ (unbound.bindGroup 1 ⟨0, 7, 0xFF, 0⟩).isSome = true ∧
      (rival id id).waiting = [1, 4] ∧ (rival id id).before 4 1 = true ∧ (rival id id).canPlace 4 = true ∧
      (let s := unbound.setTeam 2 { parkedAt 0x80000000 with parkedOut := true }
       (s.unitLive 1).map (·.1) = [1] ∧ (s.unitLive 1).all (fun h => h.2.teams == [2]) = true ∧
        s.walk (s.vfOf (parkedAt 0x80000000)) (0x80000000 % 2 ^ 56) = .invalid)) ∧
    (let s : State := { rival id id with
       groups := tabModify (rival id fun g => { g with spad := 0x100000 }).groups 1 fun g => { g with place := some ⟨0, 0, 0⟩ } }
     4 ∈ s.waiting ∧ s.unitPrio 1 < s.unitPrio 4 ∧ s.withLeft.canPlace 4 = false ∧
      (s.groups.all fun h => h.2.retired || h.2.place.isNone || h.2.leave.isSome || decide (s.unitPrio 1 ≤ s.unitPrio h.1)) = true) ∧
    ((leaving id).unitLive 1 ≠ [] ∧ ((leaving id).unitLive 1).all (fun h => h.2.place.isSome && h.2.leave.isSome) = true ∧
      (leaving id).pathsDrained ((leaving id).unitLive 1) = true ∧ (leaving id).held? [1] = false ∧
      (leaving fun tm => { tm with masked := true }).held? [1] = true ∧ ({ tm0 with preheld := true } : Team).preheld = true ∧ tm0.preheld = false) := by
  refine ⟨?_, ⟨exists_ok ?_, readRing_error ?_, readRing_error ?_, readRing_error ?_, ?_, ?_, ?_⟩, ?_, ?_, ?_⟩
  all_goals decide +kernel

/-- One queue holds an entry, and waits for it or not. -/
theorem witness_QueueChoice :
    let s := ringing 0x20000 0x20900 1
    let w := s.onCtx 0 fun c => { c with queues := [(0, { qbase := 0x20000, qen := true, qtail := 1, blocked := some 0x20000 })] }
    (tabSortedFrom 0 s.ctxs = true ∧ (∀ c ∈ s.ctxs, tabSortedFrom 0 c.2.queues = true) ∧ (s.queue 0 0).qen = true ∧
      (s.queue 0 0).qhead ≠ (s.queue 0 0).qtail ∧ (s.queue 0 0).blocked = none ∧ (s.queue 0 1).qen = false) ∧
    tabSortedFrom 0 w.ctxs = true ∧ (∀ c ∈ w.ctxs, tabSortedFrom 0 c.2.queues = true) ∧ (w.queue 0 0).qen = true ∧
      (w.queue 0 0).qhead ≠ (w.queue 0 0).qtail ∧ (w.queue 0 0).blocked ≠ none := by decide +kernel

/-- An entry at 0x20000, a header at 0x20900, an auxiliary block at 0x20A00, a descriptor of spawn queue 3 at 0x20C18; all pages but the one
at 0x20000 refuse an access, and none is mapped from 0x80000000 on but the read-only one at 0x40000000. -/
def entering (entry hd aux desc : Nat) : State :=
  let s := data id
  let m := [(0x20000, toBytesLE 16 entry), (0x20900, toBytesLE 128 hd), (0x20A00, toBytesLE 64 aux), (0x20C18, toBytesLE 8 desc),
    (placedRoot + 0x2008, toBytesLE 8 1)].foldl (fun m x => memSets m x.1 x.2) s.mem
  { s with mem := m }

def readEnd (s : State) (va : Word64) (n : Nat) : Option ReadEnd := match s.watchRead 0 [] va n with
  | .error e => some e
  | .ok _ => none

def placeEnd (s : State) (va : Word64) : Option Stop := match s.translate 0 va 8 .store true with
  | .error e => some e
  | .ok _ => none

theorem witness_EntryReasons_slot :
    let s := entering 0x20900 (header 1) 0 0
    (readEnd s 0x30000 16 = some .failed ∧ readEnd s 0x80000000 16 = some (.wait 0x80000000) ∧ readEnd s 0x20000 16 = none) ∧
    ([0x20900, 2 ^ 56, 2 ^ 65, 0x20901].map fun e => (field (toBytesLE 16 e) 56 8, field (toBytesLE 16 e) 65 63, field (toBytesLE 16 e) 0 7)) =
      [(0, 0, 0), (1, 0, 0), (0, 1, 0), (0, 0, 1)] ∧
    (readEnd s 0x30000 128 = some .failed ∧ readEnd s 0x80000000 128 = some (.wait 0x80000000) ∧ readEnd s 0x20900 128 = none) ∧
    (placeEnd s 0x80000000 = some (.park 0x80000000 AccessKind.store.code) ∧ (placeEnd s 0x30000).isSome = true ∧
      (placeEnd s 0x40020100).isSome = true ∧ (s.translate 0 0x20100 8 .store true).toOption = some (.byte 0x20100)) := by
  decide +kernel

/-- Headers that break the rule of one reason and of none below it, and one that breaks none. -/
def breaking (n : Nat) : List Byte :=
  toBytesLE 128 (nth 0 [header 1, header 2, header 1 + 5, header 1 - 2 ^ 0x158, header 1 + 6 * 2 ^ 0x160, header 1 + 0x100001 * 2 ^ 0x1E0,
    header 1 + 2 ^ 0x206, header 1 + 2 ^ 0x280] n)

theorem witness_EntryReasons_reasons :
    let s := entering 0x20900 (header 1) 0 0
    (∀ n, 1 ≤ n → n < 8 → headerBreaks s (breaking n) n) ∧ (∀ m, ∀ n < 8, m < n → ¬headerBreaks s (breaking n) m) ∧
      ∀ n, ¬headerBreaks s (breaking 0) n := by
  refine ⟨fun n h1 h8 => ?_, fun m => ?_, fun n => ?_⟩
  · match n with
    | 0 => omega
    | 1 | 2 | 3 | 4 | 5 | 6 | 7 => simp only [Spec.headerBreaks]; decide +kernel
    | n + 8 => omega
  · match m with
    | 0 | 1 | 2 | 3 | 5 | 6 | 7 => simp only [Spec.headerBreaks]; decide +kernel
    | 4 =>
      intro n h8 h4
      match n with
      | 0 | 1 | 2 | 3 | 4 => omega
      | 5 | 6 | 7 => simp only [Spec.headerBreaks]; decide +kernel
      | n + 8 => omega
    | m + 8 => omega
  · match n with
    | 0 | 1 | 2 | 3 | 4 | 5 | 6 | 7 => simp only [Spec.headerBreaks]; decide +kernel
    | n + 8 => exact fun h => h

/-- An auxiliary block that is sound, with its spawn-queue block at 0x20C00; a descriptor of teams of 32 lanes, and one of 16. -/
def auxBlock : Nat := 0x20000 + 0x20500 * 2 ^ 64 + 4 * 2 ^ 128 + 0x20C00 * 2 ^ 192

theorem witness_EntryReasons_block :
    let s := entering 0x20900 (header 1) auxBlock 0x75
    let get (off n : Nat) : Nat := field (toBytesLE 64 auxBlock) (8 * off) n
    (field (breaking 0) (8 * 0x40 + 18) 16 = 0 ∧ field (breaking 0) 0x800 64 = 0 ∧
      field (toBytesLE 128 (header 1 + 2 ^ 0x215)) (8 * 0x40 + 18) 16 = 2 ^ 3 ∧ (0x20A00 : Word64).toNat % 64 = 0 ∧ (0x20A20 : Word64).toNat % 64 ≠ 0) ∧
    (readEnd s 0x30000 64 = some .failed ∧ readEnd s 0x80000000 64 = some (.wait 0x80000000) ∧
      (s.watchRead 0 [] 0x20A00 64).toOption.map (·.1) = some (toBytesLE 64 auxBlock)) ∧
    (get 0 64 % 8 = 0 ∧ get 8 64 % 64 = 0 ∧ get 0x10 32 ≠ 0 ∧ get 0x14 32 = 0 ∧ get 0x20 256 = 0 ∧ get 0x18 64 = 0x20C00) ∧
    field (toBytesLE 64 0) 0x80 32 = 0 ∧ (s.watchRead 0 [] 0x20C18 8).toOption.map (fun x => ofBytesLE x.1) = some 0x75 ∧
    ¬descriptorBreaks 0x75 ∧ descriptorBreaks 0x74 := by
  refine ⟨?_, ?_, ?_, ?_, ?_, ?_, ?_⟩
  all_goals first | decide +kernel | (unfold Spec.descriptorBreaks; decide +kernel)

/-- A full ring and an empty one; a team that left parked, with a region and without, is bound again. -/
theorem witness_ParkedTeams :
    (let full := base.onCtx 0 fun c => { c with frtail := 256 }
     (full.ctx 0).frtail - (full.ctx 0).frhead = 256 ∧ (base.ctx 0).frtail - (base.ctx 0).frhead ≠ 256 ∧ (base.ctx 0).reports = [] ∧
      Memory.wf base.mem = true ∧ base.hostAnswers 0 0 16 = true ∧ tabGet? base.teams 2 = some tm0) ∧
    (parkedAt 0x20000).phase = .parked 0x20000 0 3 ∧
    ([true, false].all fun b =>
      let tm := { parkedAt 0x20000 with parkedOut := true, rvalid := b }
      let s := (unbound.setTeam 2 tm).onGroup 1 fun g => { g with started := true }
      (s.bindGroup 1 ⟨0, 7, 0xFF, 0⟩).isSome && decide (tabGet? s.teams 2 = some tm) &&
        (tabGet? s.groups 1).elim false fun g => g.started && decide (g.teams = [2])) = true ∧
    ((unbound.setTeam 2 tm0).bindGroup 1 ⟨0, 7, 0xFF, 0⟩).isSome = true ∧ tm0.parkedOut = false := by
  refine ⟨?_, ?_, ?_, ?_, ?_⟩
  all_goals decide +kernel

theorem witness_WaitingEvents :
    (let s := at_ fun _ => parkedAt 0x20000
     tabGet? s.teams 2 = some (parkedAt 0x20000) ∧ ((tabGet? s.groups 1).elim false fun g => g.place.isSome) = true ∧
      s.walk 0 0x20000 ≠ .invalid ∧ (parkedAt 0x20000).parkedOut = false ∧ (bare s).walk 0 0x20000 = .invalid) ∧
    ((bare (withCopy { plainCopy .running with blocked := some 0x20100 } id)).walk 0 0x20100 = .invalid ∧
      (bare (withCmd 0 { finished with blocked := some 0x20100 })).walk 0 0x20100 = .invalid ∧
      ((base.onCtx 0 fun c => { c with queues := [(0, { blocked := some 0x20000 })] }).queue 0 0).blocked = some 0x20000) ∧
    (let s := at_ fun _ => barred (.fence .die false)
     s.fencers = [(2, .die)] ∧ tabGet? s.teams 2 = some (barred (.fence .die false))) ∧
    (let s := at_ fun _ => barred (.eclw false true none)
     s.boundDie (barred (.eclw false true none)) = some 0 ∧ s.dieIdle 0 = true ∧ s.packageIdle = true ∧ base.dieIdle 0 = false ∧
      base.packageIdle = false) := by
  refine ⟨?_, ?_, ?_, ?_⟩
  all_goals decide +kernel

theorem witness_RegisterPages :
    ((base.onCtx 0 fun c => { c with invPending := [5] }).ctx 0).invPending = [5] ∧
    (parkedAt 0x20000).phase = .parked 0x20000 0 3 ∧ inPage 0x20000 0x20000 = true ∧ inPage 0x40000000 0x20000 = false ∧
    (base.ctx 0).reports = [] ∧ (12 : Nat) % 8 ≠ 0 ∧ base.boot = .up ∧ base.power ≠ .s3 ∧
    State.reset.boot = .reset ∧ Boot.recovery ≠ .up ∧
    (let after (c : Context) : Context := { c with invPending := [], invDone := c.invDone + 1, invals := [⟨0, 0, base.nextWrite⟩] }
     let s := at_ fun _ => parkedAt 0x20000
     tabGet? s.teams 2 = some (parkedAt 0x20000) ∧ s.vfOf (parkedAt 0x20000) = 0 ∧ (parkedAt 0x20000).parkedOut = false ∧
      ((tabGet? s.groups 1).elim false fun g => g.place.isSome) = true ∧ (s.onCtx 0 after).walk 0 0x20000 ≠ .invalid ∧
      (bare (s.onCtx 0 after)).walk 0 0x20000 = .invalid ∧ s.vfOf (parkedAt 0x20000) ≠ 1) ∧
    ((launching 0).queue 0 0).qen = true ∧ (base.queue 0 0).qen = false ∧ base.mailbox.busy = false := by decide +kernel

/-- The mailbox runs a command with these arguments. -/
def mailing (opc : BitVec 16) (args : List Word64) (s : State) : State :=
  { s with mailbox := { s.mailbox with busy := true, opc := opc, taken := args ++ List.replicate (16 - args.length) 0 } }

def runsB (s : State) (opc : Nat) (masks : List Nat) : Bool :=
  s.mailbox.busy && s.mailbox.result.isNone && s.mailbox.opc.toNat == opc && s.argsClean masks

/-- Nothing is bound; namespace 0 may be written by context 0. -/
def quiet (bytes : List Host.Cell) : State :=
  { grouped (fun g => { g with place := none }) id with flash := [(0, ⟨true, bytes, 1, []⟩)], teams := [], mem := [] }

/-- The magic of a container, major version 1. -/
def magic : List Host.Cell := memSets [] 0 [0x46, 0x45, 0x52, 0x4D, 0x41, 0x53, 0x41, 0x00, 1]

/-- A debug certificate at host address 0 that asks for invasive debugging. -/
def certified : State :=
  { base with security := .pr, launches := [], mem := memSets base.mem (hostByte 0) (toBytesLE 16 (2 * 2 ^ 64)) }

def all64 : Nat := 2 ^ 64 - 1

/-- A container with one section of pages, page 2 alone, and this many extents; the tags of two are 0 and 1. -/
def container (extents : Nat) : List Host.Cell :=
  memSets (memSets magic 9 (toBytesLE 55 (2 ^ 24 + 0x80 * 2 ^ 56 + 0x100 * 2 ^ 120 + extents * 2 ^ 184))) 0x80
    (toBytesLE 24 (3 + 0x200 * 2 ^ 64 + 65544 * 2 ^ 128) ++ List.replicate 136 0 ++ [1] ++ List.replicate 223 0 ++ [2])

def owns (s : State) (p : Nat) : Bool := (tabGet? s.alloc p).elim false fun e => s.chosen (e.toNat % 256)

theorem memGet_beyond (n : Nat) : ∀ m : List Host.Cell, (∀ c ∈ m, c.1 < n) → ∀ a, n ≤ a → memGet m a = 0
  | [], _, _, _ => rfl
  | c :: m, hm, a, ha => by
    have hc := hm c (.head m)
    show (if c.1 = a then some c.2 else if a < c.1 then none else tabGet? m a).getD 0 = 0
    rw [if_neg (by omega), if_neg (by omega)]
    exact memGet_beyond n m (fun x hx => hm x (.tail c hx)) a ha

theorem memGets_beyond (n : Nat) (m : List Host.Cell) (hm : ∀ c ∈ m, c.1 < n) (k : Nat) : ∀ a b, n ≤ a → n ≤ b →
    memGets m a k = memGets m b k := by
  induction k with
  | zero => exact fun _ _ _ _ => rfl
  | succ k ih =>
    intro a b ha hb
    show memGet m a :: memGets m (a + 1) k = memGet m b :: memGets m (b + 1) k
    rw [memGet_beyond n m hm a ha, memGet_beyond n m hm b hb, ih (a + 1) (b + 1) (by omega) (by omega)]

theorem witness_Restore :
    (let f (n : Nat) (off k : Nat) : Nat := ofBytesLE (memGets (container n) off k)
     ∀ n ∈ [0, 2], memGets (container n) 0 8 = [0x46, 0x45, 0x52, 0x4D, 0x41, 0x53, 0x41, 0x00] ∧ f n 8 2 = 1 ∧ f n 0x0C 4 = 1 ∧ f n 0x10 8 = 0x80 ∧
      f n 0x80 2 = 3 ∧ f n 0x88 8 = 0x200 ∧ f n 0x90 8 = 65544 ∧ f n 0x18 8 = 0x100 ∧ f n 0x20 4 = n ∧ f n 0x200 8 = 2) ∧
    (let s := mailing 8 [0, 0, 0] (quiet (container 2))
     (s.checkpointSpace false).toOption.isSome = true ∧ s.packageIdle = true ∧ owns s 2 = true ∧ s.isImage 0x20000 = false ∧ s.arg 2 = 0 ∧
      tabSortedFrom 0 s.alloc = true ∧ Memory.wf s.mem = true ∧ owns s 3 = false) ∧
    ∃ e < 2, (sha3 (memGets (container 2) (2 ^ 21 * (1 + e)) (2 ^ 21))).toNat ≠ ofBytesLE (memGets (container 2) (0x100 + 32 * e) 32) := by
  refine ⟨by decide +kernel, by decide +kernel, ?_⟩
  have he : memGets (container 2) (2 ^ 21 * (1 + 0)) (2 ^ 21) = memGets (container 2) (2 ^ 21 * (1 + 1)) (2 ^ 21)  :=
    memGets_beyond 2048 (container 2) (by decide +kernel) _ _ _ (by omega) (by omega)
  have h0 : ofBytesLE (memGets (container 2) (0x100 + 32 * 0) 32) = 0 := by decide +kernel
  have h1 : ofBytesLE (memGets (container 2) (0x100 + 32 * 1) 32) = 1 := by decide +kernel
  by_cases h : (sha3 (memGets (container 2) (2 ^ 21 * (1 + 0)) (2 ^ 21))).toNat = 0
  · exact ⟨1, by omega, by rw [h1, ← he, h]; omega⟩
  · exact ⟨0, by omega, by rw [h0]; exact h⟩

theorem witness_MailboxCommands :
    ([([0], false), ([0x100], true), ([0x101], false)].all fun x =>
      let s := mailing 1 x.1 base
      runsB s 1 [0xFF3F] && s.contextLive (s.arg 0 % 64) == (x.2 || s.arg 0 % 64 == 0)) = true ∧
    (let s := mailing 2 [1, 0] base
     runsB s 2 [0x3F, all64] = true ∧ (s.hostRead 0 64).toOption.map (·.1) = some (toBytesLE 32 0 ++ toBytesLE 32 0)) ∧
    (let s := mailing 3 [0x30000, 0x10000, 1] base
     runsB s 3 [all64, all64, 0x1FF] = true ∧ s.pagesExist 3 1 = true ∧ s.rangeGuardOk 3 1 1 = true ∧
      (mailing 3 [0x30000, 0x10000, 2] base).rangeGuardOk 3 1 2 = false) ∧
    (let s := mailing 4 [0x200000, 1] base
     runsB s 4 [all64, 1] = true ∧ s.stackHas 0x200000 = true ∧ s.held = []) ∧
    (runsB (mailing 5 [0xFF3F, 0] base) 5 [0xFF3F, all64] = true ∧ ((mailing 5 [0xFF3F, 0] base).hostRead 0 32).toOption.isSome = true) ∧
    (runsB (mailing 6 [0, 1] base) 6 [0xFFFF, all64] = true ∧ tabGet? base.flash 0 = none ∧ (tabGet? (quiet []).flash 0).isSome = true) ∧
    ([7, 8].all fun o => let s := mailing o [0, 0, 0] (quiet magic)
      (s.checkpointSpace false).toOption.isSome && s.packageIdle && s.held.isEmpty && !s.ckptMarked && s.concerned == [1] &&
        (tabGet? s.groups 1).elim false fun g => g.place.isNone) = true ∧
    (memGets magic 0 12 = [0x46, 0x45, 0x52, 0x4D, 0x41, 0x53, 0x41, 0x00, 1, 0, 0, 0] ∧ memGets magic 12 36 = List.replicate 36 0 ∧
      memGets [] 0 8 ≠ [0x46, 0x45, 0x52, 0x4D, 0x41, 0x53, 0x41, 0x00]) ∧
    ([0, 1, 2, 3, 4].all fun a => runsB (mailing 9 [a] (quiet [])) 9 [7]) = true ∧
    ((quiet []).groups.all fun g => g.2.place.isNone) = true ∧ ([0, 1, 2, 3].all fun d => (mailing 9 [3] (quiet [])).dieIdle d) = true ∧
    (runsB (mailing 10 [0] base) 10 [all64] = true ∧
      ((mailing 10 [0] base).hostPut 0 (toBytesLE 32 (Config.freshNonce base.freeCtr).toNat)).toOption.isSome = true) ∧
    (runsB (mailing 11 [0] certified) 11 [all64] = true ∧ certified.security = .pr ∧ base.security ≠ .pr ∧ certified.nonce = [] ∧
      certified.launches = []) ∧
    (runsB (mailing 12 [] { base with security := .pd }) 12 [] = true ∧ runsB (mailing 12 [] base) 12 [] = true) ∧
    (runsB (mailing 13 [0, 0, 0] base) 13 [0x3F, all64, all64] = true ∧ ((mailing 13 [] base).hostRead 0 32).toOption.isSome = true) ∧
    (runsB (mailing 14 [0, 0] base) 14 [all64, all64] = true ∧ runsB (mailing 15 [5, 1, 9] base) 15 [0xFFF, 0xFFFFFF, 0xFFFFFFFFFFFF] = true ∧
      runsB (mailing 16 [0x50524F44] base) 16 [all64] = true ∧ runsB (mailing 16 [0] base) 16 [all64] = true ∧
      runsB (mailing 0 [] base) 0 [] = true ∧ runsB (mailing 0x11 [] base) 0x11 [] = true ∧ base.security = .od ∧ certified.security ≠ .od) ∧
    ((({ base with mailbox := { base.mailbox with busy := true, result := some (5, 0) } } : State).mailbox.result).isSome = true) ∧
    (State.reset.boot = .reset ∧ base.boot = .up ∧ base.security ≠ .pr ∧ certified.security = .pr ∧
      ({ base with power := .s3 } : State).power = .s3) := by
  refine ⟨?_, ?_, ?_, ?_, ?_, ?_, ?_, ?_, ?_, ?_, ?_, ?_, ?_, ?_, ?_, ?_, ?_, ?_⟩
  all_goals decide +kernel

/-- Arguments with a bit that a command does not name; a buffer that ends beyond the address space, that nothing answers, or that is
marked; a namespace that is absent, not granted, of small blocks, or that fails; masks that name domain 255. -/
theorem witness_MailboxRefusals :
    (([1, 2, 3, 4, 5, 6, 7, 8, 9, 10, 11, 13, 14, 15, 16].all fun o => let s := mailing o (List.replicate 16 (2 ^ 63)) base
      s.mailbox.opc == o && !s.argsClean [2 ^ 16 - 1, 2 ^ 64 - 1, 2 ^ 64 - 1]) = true ∧ (mailing 12 [1] base).argsClean [] = false) ∧
    (let s := mailing 2 [0, 2 ^ 44 - 63] base
     runsB s 2 [0x3F, all64] = true ∧ 2 ^ 44 < s.arg 1 + 64) ∧
    (let s := mailing 10 [0x1000] { base with hostDenied := [(64, 0x1000, 16)] }
     runsB s 10 [all64] = true ∧ s.arg 0 + 32 ≤ 2 ^ 44 ∧ s.hostAnswers 64 (s.arg 0) 32 = false) ∧
    (let s := mailing 5 [0, 0x1000] { base with marks := [(hostByte 0x1000 / 8, 1)] }
     runsB s 5 [0xFF3F, all64] = true ∧ s.markAt (hostByte (s.arg 1)) 32 ≠ none) ∧
    (let s (f : List (Nat × Flash)) (p : Power) := mailing 7 [0, 0, 0] { quiet [] with flash := f, power := p }
     let m := [0x7F, 0xFFFF, all64]
     runsB (s [] .p0) 7 m = true ∧ runsB (s [] .s1) 7 m = true ∧ (s [] .s1).power = .s1 ∧ tabGet? (s [] .p0).flash 0 = none ∧
      (⟨true, [], 0, []⟩ : Flash).grants.getLsbD 0 = false ∧ (⟨false, [], 1, []⟩ : Flash).grants.getLsbD 0 = true) ∧
    (let r := 2 ^ 255
     let s := mailing 2 [0, 0] { base with mem := memSets base.mem (hostByte 0) (toBytesLE 32 r) }
     runsB s 2 [0x3F, all64] = true ∧ (s.hostRead 0 64).toOption.map (·.1) = some (toBytesLE 32 r ++ toBytesLE 32 0) ∧ r.testBit 255 = true) ∧
    (runsB (mailing 3 [1, 0, 1] base) 3 [all64, all64, 0x1FF] = true ∧ (mailing 3 [1, 0, 1] base).arg 0 % 65536 ≠ 0) ∧
    (runsB (mailing 4 [1, 1] base) 4 [all64, 1] = true ∧ (mailing 4 [1, 1] base).arg 0 % 2 ^ 21 ≠ 0) ∧
    (2 ^ 44 < (mailing 11 [2 ^ 44] certified).arg 0 + 2468 ∧ 2 ^ 44 < (mailing 13 [0, 0, 2 ^ 44] base).arg 2 + 4096) := by
  refine ⟨?_, ?_, ?_, ?_, ?_, ?_, ?_, ?_, ?_⟩
  all_goals decide +kernel

/-- A report that verifies, one that does not, and one that finds the firmware it found before, whatever that is. -/
theorem witness_BringUp : ∃ r : BringUpReport, r.verified = true ∧ { r with verified := false }.verified = false ∧
    (Config.firmware r.firmware).map sha3 = (Config.firmware base.firmware).map sha3 :=
  ⟨⟨true, base.firmware, 1, 1, 1⟩, rfl, rfl, rfl⟩

theorem hostRead_ok {s : State} {a n : Nat} (h : a + n ≤ 2 ^ 44) (hr : (s.hostAnswers physicalFunction a n && (s.markAt (hostByte a) n).isNone) = true) : ∃ x, s.hostRead a n = .ok x := by
  refine ⟨s.peek (s.hostView.released .system) (hostByte a) n, ?_⟩
  have hd : decide (a + n ≤ 2 ^ 44) = true := decide_eq_true h
  unfold State.hostRead hostBuffer mailNeed
  rw [hd, hr]
  rfl

/-- The certificate is read, and asks for what DBGAUTH knows. -/
theorem witness_DebugCertificate : (∃ x, (mailing 11 [0] certified).hostRead 0 2468 = .ok x) ∧
    field (memGets certified.mem (hostByte 0) 16) 64 64 = 2 :=
  ⟨hostRead_ok (by decide) (by decide +kernel), by decide +kernel⟩

/-- Context 0's descriptor ring at 0x20200, its doorbell at 0x20100, which holds 1; a put of 8 bytes to peer 5, and the pairing. -/
def descr (opc len : Nat) : Nat := opc + 5 * 2 ^ 2 + len * 2 ^ 0x40 + 0x20300 * 2 ^ 0x80
def linked (d : Nat) (paired : Bool) : State :=
  let s := (data id).onCtx 0 fun c => { c with fxbase := 0x20200, fxdoor := 0x20100, fxtail := 1 }
  { s with mem := memSets (memSets s.mem 0x20100 (toBytesLE 8 1)) 0x20200 (toBytesLE 64 d)
           ports := 1, peers := if paired then [(5, 1, 0)] else []
           puts := [(9, ⟨0, toBytesLE 64 d, false, 0x20400, 7, {}⟩)], nextId := 10 }

/-- A put of two bytes to 0x20100, of which some have not landed, with its signal at 0x20108. -/
def incoming (todo : List (Nat × Nat)) : Inbound := ⟨0, 0x20100, [1, 2], todo, some (0x20108, 5), []⟩
def landing : State := { data id with agenda := [.land 7 1], inbound := [(7, incoming [(0, 2)])] }

theorem witness_LinkAndDebug :
    (((linked (descr 1 8) true).translate 0 (((linked (descr 1 8) true).ctx 0).fxdoor.setWidth 64) 8 .engine false).toOption = some (.byte 0x20100) ∧
      ((linked (descr 1 8) true).translate 0 (((linked (descr 1 8) true).ctx 0).descVa 0) 64 .engine false).toOption = some (.byte 0x20200) ∧
      (linked (descr 1 8) true).markAt 0x20200 64 = none ∧ (linked (descr 1 8) true).swapping 0x20200 64 = false ∧
      (linked (descr 1 8) true).swapping 0x20100 8 = false ∧ ((linked (descr 1 8) true).ctx 0).fxhead ≠ ((linked (descr 1 8) true).ctx 0).fxtail ∧
      (base.ctx 0).fxhead = (base.ctx 0).fxtail) ∧
    (((linked (descr 1 8) true).puts.find? fun q => q.2.vf == 0 && !q.2.sent).isSome = true ∧ descriptorOk (toBytesLE 64 (descr 1 8)) = true ∧
      descriptorOk (toBytesLE 64 (descr 3 8)) = false ∧ (linked (descr 1 8) true).paired 5 = true ∧ (linked (descr 1 8) false).paired 5 = false ∧
      field (toBytesLE 64 (descr 1 8)) 2 12 = 5 ∧
      ((linked (descr 1 8) true).readVa (.put 9) none 0 0x20300 8 .engine).toOption.isSome = true ∧
      ((linked (descr 1 8) true).readVa (.put 9) none 0 0x80000000 8 .engine).toOption.isSome = false) ∧
    (((linked (descr 1 8) true).translate 0 0x20400 8 .engine true).toOption = some (.byte 0x20400) ∧
      (linked (descr 1 8) true).isMoored 0x20400 8 = false ∧ (linked (descr 1 8) true).wordHeld 0 0x20400 = false ∧ Memory.wf (linked (descr 1 8) true).mem = true) ∧
    (landing.running = true ∧ tabGet? landing.inbound 7 = some (incoming [(0, 2)]) ∧ hasUnit [(0, 2)] 1 = true ∧ Memory.wf landing.mem = true ∧
      (landing.translate 0 0x20101 1 .engine true).toOption = some (.byte 0x20101) ∧ landing.isMoored 0x20101 1 = false ∧
      landing.partMark 0x20101 1 = none ∧ (landing.translate 0 0x80000001 1 .engine true).toOption = none ∧ landing.walkHeld 0 0x80000001 = false ∧
      (incoming []).todo = [] ∧ { incoming [] with signal := none }.signal = none ∧
      (landing.translate 0 0x20108 8 .engine true).toOption = some (.byte 0x20108) ∧ landing.isMoored 0x20108 8 = false) ∧
    (base.siteOf 0x20100 = some 6 ∧ base.siteOf (2 ^ 41) = none ∧ base.markWaits 0x20100 = false ∧ (Q8 .read).markWaits 0x20100 = true) ∧
    (let marked (a : Nat) : State := { linked (descr 1 8) true with marks := [(a / 8, 1)] }
     (marked 0x20100).markAt 0x20100 8 ≠ none ∧ (linked (descr 1 8) true).markAt 0x20100 8 = none ∧ landing.swapping 0x20101 1 = false ∧
      landing.swapping 0x20108 8 = false ∧
      ((linked (descr 1 8) true).puts.map fun q => ({ q.2 with sent := true } : Put).sent) = [true] ∧ (linked (descr 1 8) true).isMoored 0x20400 8 = false) ∧
    (base.ports.getLsbD 3 = false ∧ (linked (descr 1 8) true).ports.getLsbD 0 = true) ∧
    (tabGet? base.teams 2 = some tm0 ∧ base.invasiveOk 0 = true ∧ ({ base with security := .pr } : State).invasiveOk 0 = false ∧ base.power = .p0 ∧
      ({ tm0 with halted := true } : Team).halted = true) := by
  refine ⟨?_, ?_, ?_, ?_, ?_, ?_, ?_, ?_⟩
  all_goals decide +kernel

/-- SHA3-256 of nothing, as FIPS 202 publishes it (R6). -/
theorem test_sha3 : toBytesLE 32 (sha3 []).toNat = [0xA7, 0xFF, 0xC6, 0xF8, 0xBF, 0x1E, 0xD7, 0x66, 0x51, 0xC1, 0x47, 0x56, 0xA0, 0x61, 0xD6,
    0x62, 0xF5, 0x80, 0xFF, 0x4D, 0xE4, 0x3B, 0x49, 0xFA, 0x82, 0xD8, 0x0A, 0x4B, 0x80, 0xF8, 0x43, 0x4A] := by decide +kernel

/-! ### Encodings, the step -/

theorem witness_EncodeDecode : wellFormed (.add P .i32 (.r W3)) = false ∧ wellFormed (.mad P .i32 W3) = true ∧ (encode (.mad P .i32 W3)).isSome = true ∧
    wellFormed (.rep repW) = true ∧ (encode (.rep repW)).isSome = true := by decide +kernel

theorem witness_DecodeEncode : decode 0x808800000000160000000000 = .ok (.bra ⟨true, 1⟩ 22) := ok_of (by decide +kernel)

/-- The placed team is to issue. -/
def due (slot : Nat) (f : Team → Team) : State :=
  let s := State.reset.placeWord slot
  s.setTeam 2 (f tm0)

/-- A word of REP. -/
def repSlot : Nat := 0xF00000192400000000000000
/-- What the team of `due` fetches at its PC, and behind it. -/
def fetched (slot : Nat) (f : Team → Team) : Except Stop (Nat × Slot) :=
  let s : State := { due slot f with agenda := [], cur := some 2 }
  s.fetchSlot 0 (f tm0).pc (f tm0).entered
def following (slot : Nat) (f : Team → Team) : Except Stop (Nat × Slot) :=
  let s : State := { due slot f with agenda := [], cur := some 2 }
  s.fetchFollower 0 (f tm0).pc

theorem witness_StepRunsDecoded :
    ((due 0 id).agenda = [.issue 2] ∧ tabGet? (due 0 id).teams 2 = some tm0 ∧ tm0.phase = .running ∧ tm0.rep = none ∧ tm0.owed = 0 ∧
      ({ due 0 id with agenda := [] } : State).mayIssue 2 { tm0 with owed := 3 } = true ∧
      ({ due 0 id with agenda := [] } : State).mayIssue 2 tm0 = true ∧ ({ due 0 id with agenda := [] } : State).vfOf tm0 = 0) ∧
    (∃ e, fetched 0 (fun tm => { tm with pc := 0x80000000 }) = .error e) ∧
    (∃ x, fetched 0 (fun tm => { tm with checked := false }) = .ok x ∧ (x.2.extractLsb' 88 8 != 0xF0#8 && (decode x.2).isOk) = true) ∧
    (∃ x, fetched repSlot id = .ok x ∧ (x.2.extractLsb' 88 8 == 0xF0#8 && (decode x.2).isOk) = true) ∧
    (∃ x, following repSlot id = .ok x) ∧ (∃ e, following repSlot (fun tm => { tm with pc := 0x20007 }) = .error e) ∧
    (∃ x, fetched 0 (fun tm => { tm with pc := 0x20001, checked := true }) = .ok x ∧ (!x.1.testBit 1 && x.2 == 0) = true) ∧
    (∃ x, fetched 0 (fun tm => { tm with checked := true }) = .ok x ∧ x.1.testBit 0 = true) ∧
    (∃ x, fetched (2 ^ 96 - 1) id = .ok x ∧ (!(decode x.2).isOk) = true) ∧
    (encode (.beaconTick [0, 0, 0, 0]) = none ∧ base.running = true) ∧
    ({ due 0 (fun tm => { tm with phase := .ended }) with agenda := [] } : State).mayIssue 2 { tm0 with phase := .ended } = false := by
  refine ⟨?_, exists_error ?_, exists_check ?_, exists_check ?_, exists_ok ?_, exists_error ?_, exists_check ?_, exists_check ?_,
    exists_check ?_, ?_, ?_⟩
  all_goals decide +kernel

/-- The steps above start from memory in canonical form. -/
theorem witness_MemoryStaysCanonical : Memory.wf (due 0 id).mem = true ∧
    (match step (due 0 id) with
      | .next s1 => decide ((tabGet? s1.teams 2).map (·.pc) = some 0x20001) && Memory.wf s1.mem
      | _ => false) = true := by decide +kernel

/-! ### Swaps, waits, what a team reads of its image: hypotheses -/

theorem witness_FloatOrder : 0 < 1 ∧ FNum.lt true (.fin true 0 1) (.fin false 0 1) = true ∧ FNum.lt false (.fin true 0 1) (.fin false 0 1) = false ∧
    FNum.lt false (.fin true 3 2) (.fin false 1 3) = true := by decide

/-- Lane 0 of v2 holds 1.0, the other lanes zero; or every lane. -/
theorem witness_BlockMaximum :
    (let val (k : Nat) : FNum := num (abc 0x3F800000 0 0 tm0) .f32 W1.a W1.ma k
     let block := (activeLanes tm0 P).filter fun k => k / 32 == 0 / 32
     0 ∈ block ∧ (val 0).isFinite = true ∧ (val 0).isZero = false ∧
       ∀ k ∈ block, (val k).isFinite = true → magnitude (ratOf (val k)) ≤ magnitude (ratOf (val 0))) ∧
    (∀ k ∈ (activeLanes tm0 P).filter fun k => k / 32 == 0 / 32, (num tm0 .f32 W1.a W1.ma k).isZero = true) := by decide +kernel

theorem witness_IntegerConversions : Ty.isInt .f32 = false ∧ Ty.isInt .tap6 = false ∧ value .i32 0xFFFFFFFF ≠ 0 ∧ value .n8 0 = 0 := by decide

/-- A transfer that is not made, and one whose target is malformed. -/
theorem witness_UntakenTransfers :
    Quant.holds .any (activeLanes tm0 P) (tm0.mask 1) = false ∧ ((s3 1).sGet 3).toNat ≤ 1 ∧ (s3 0).sGet 3 = 0 ∧
    (targetPc tm0.pc (0x100000000 : BitVec 33).toInt).toOption = none ∧ (targetPc tm0.pc (10 : BitVec 33).toInt).toOption.isSome = true := by
  decide +kernel

/-- Stacks whose lanes have all left, and whose second entry has one. -/
def gone (rest : List StackEntry) : Team := { tm0 with x := 1, stack := ⟨false, 0x20000, 1⟩ :: rest }

theorem witness_DivergenceEnds :
    (Reads base 2 tm0 P [mUse .a (mr 1) .plain false] ∧
      (let tm := { tm0 with stack := List.replicate 31 ⟨false, 0x20000, 1⟩ }
       Reads (base.setTeam 2 tm) 2 tm P [mUse .a (mr 1) .plain false] ∧ stackDepth tm.lanes < tm.stack.length + 2)) ∧
    (Reads (base.setTeam 2 (gone [])) 2 (gone []) P [] ∧ (gone []).block = none ∧ (1 : LaneSet) &&& ~~~ (gone []).x = 0 ∧
      Reads (base.setTeam 2 (gone [⟨true, 0x20000, 2⟩])) 2 (gone [⟨true, 0x20000, 2⟩]) P [] ∧ (2 : LaneSet) &&& ~~~ (gone []).x ≠ 0) ∧
    (let tm := { tm0 with block := some [5] }
     Reads (base.setTeam 2 tm) 2 tm P [] ∧ tm.e &&& ~~~ (tm.x ||| tm.active P) = 0 ∧ tm.block ≠ none) ∧
    (let tm := { tm0 with masked := true, trappc := 5 }
     Reads (base.setTeam 2 tm) 2 tm ⟨false, 0⟩ (usesNone W0) ∧ badPc tm.trappc = true) := by
  refine ⟨⟨reads_of ?_, reads_of ?_, ?_⟩, ⟨reads_of ?_, rfl, ?_, reads_of ?_, ?_⟩, ⟨reads_of ?_, ?_, ?_⟩, reads_of ?_, ?_⟩
  all_goals decide +kernel

/-- A swap holds region 1, the bytes from 0x200000 on. -/
def swapped (s : State) : State := { s with alloc := tabSet s.alloc 32 1, held := [(0, (1, 2))] }

/-- A region with its slots at 0x200400, bound to b0 of the placed group. -/
def boundHeld (f : Team → Team) : State :=
  { swapped (tabled (softEntry - 0x20400 * 2 ^ 320 + 0x200400 * 2 ^ 320) f) with bindings := [(0x20800, [some (1, 0)])] }

theorem witness_HeldArrivals :
    (Reads (boundHeld id) 2 tm0 P (usesBar barW [unused .d]) ∧ tm0.stall = .none ∧ (boundHeld id).arrivalHeld tm0.group 0 = true) ∧
    (Reads (Q8 .read) 2 tm0 P (usesBar barW [unused .d]) ∧ (Q8 .read).drained 2 = false) ∧
    (Reads (Q8 .read) 2 tm0 P (usesBar barW [statusUse barW])) := by
  refine ⟨⟨reads_of ?_, rfl, ?_⟩, ⟨reads_of ?_, ?_⟩, reads_of ?_⟩
  all_goals decide +kernel

/-- An access to a byte that the swap holds. -/
def heldAcc (k : AccKind) : Access := { acc k none with loc := byteLoc 0x200100, va := 0x200100 }

theorem witness_HeldAccesses :
    (let s (k : AccKind) : State := { swapped (data id) with pend := [(9, heldAcc k)], nextId := 10 }
     tabGet? (s .read).pend 9 = some (heldAcc .read) ∧ (heldAcc .read).addr < 2 ^ 40 ∧ (heldAcc .read).addr / 2 ^ 21 = 1 ∧
      (s .read).swapHeld (heldAcc .read) = true ∧ (s (.red .add .n64 5)).swapHeld (heldAcc (.red .add .n64 5)) = true ∧
      (s (.red .add .n64 5)).canPerform 9 (heldAcc (.red .add .n64 5)) = true) ∧
    ∀ l ∈ (swapped (data id)).launches, l.2.waiting = [] := by decide +kernel

theorem witness_HeldEntries :
    let s := swapped (entering 0x20900 (header 1) 0 0)
    (readEnd s 0x200000 16 = some .held ∧ readEnd s 0x200000 128 = some .held ∧ readEnd s 0x200000 64 = some .held ∧ readEnd s 0x20000 16 = none) ∧
    (let h : State := { s with held := [(0, (0, 1))] }
     (match h.translate 0 0x20100 8 .store true with
       | .error (.wait _) => true
       | _ => false) = true) ∧
    (swapped (ringing 0x200000 0x20900 1)).nextQueue = some (0, 0, 0) ∧ ringEnd (swapped (ringing 0x200000 0x20900 1)) = some .held := by
  decide +kernel

/-- Two teams of a core in FENCESC, in two groups. -/
def fencing : State :=
  let s := (twoQueues.setTeam 2 (barred (.fence .die false))).setTeam 3 { tm0 with group := 7, stall := .fence .package false }
  { s with groups := s.groups.map fun g => if g.1 = 7 then (7, { g.2 with place := some ⟨0, 1, 0⟩, teams := [3] }) else g }

theorem witness_Fencers : tabSortedFrom 0 fencing.groups = true ∧
    (∀ g ∈ fencing.groups, ∀ h ∈ fencing.groups, g.2.place.map (fun p => (p.core, p.slot)) = h.2.place.map (fun p => (p.core, p.slot)) → g = h) ∧
    fencing.fencers = [(2, .die), (3, .package)] := by decide +kernel

theorem witness_WideProducers :
    (∀ q ∈ [prod (.value (.v 8 0) .n64 (BitVec.ofNat 64 (2 ^ 40 + 3))) [], prod (.elem (.v 8 0) .f64 (.ty .f64) 0 false false) [some (toBytesLE 8 7)]],
      tabGet? (waiting .read q).prods 8 = some q ∧ tabGet? (waiting .read q).teams q.team = some tm0 ∧ q.parts.all Option.isSome = true) ∧
    Ty.is64 .n64 = true ∧ Ty.is64 .f64 = true ∧ (8 : Nat) < 256 ∧ 2 ^ 40 + 3 < 2 ^ 64 := by decide +kernel

/-- Three reductions of the placed team at one word. -/
def three : State := { Q8 (.red .add .n64 5) with
  pend := [(9, acc (.red .add .n64 5) none), (10, { acc (.red .add .n64 6) none with seq := 1 }), (11, { acc (.red .add .n64 7) none with seq := 2 })]
  nextId := 12 }

theorem witness_ThreeReductions : tabSortedFrom 0 three.pend = true ∧
    tabGet? three.pend 10 = some { acc (.red .add .n64 6) none with seq := 1 } ∧
    tabGet? three.pend 11 = some { acc (.red .add .n64 7) none with seq := 2 } ∧
    (three.pend.all fun x => (match x.2.kind with
      | .red .add .n64 _ => true
      | _ => false) && x.2.loc == (acc .read none).loc && x.2.size == 8) = true ∧
    three.pend.all (fun x => three.mayPerform [9, 10, 11] x.2 && (three.redFault x.2).isNone) = true ∧ three.pend.map (·.1) = [9, 10, 11] := by
  decide +kernel

theorem witness_Drains :
    (let s := withCopy (plainCopy .running) id
     Reads s 2 tm0 P [] ∧ s.drained? (ready 2 tm0 P) .glob = [5] ∧ tabGet? s.copies 5 = some (plainCopy .running)) ∧
    (let tm := barred (.drain [5])
     Reads ((withCopy (plainCopy .running) id).setTeam 2 tm) 2 tm P [] ∧ Reads ((withCopy (plainCopy .complete) id).setTeam 2 tm) 2 tm P [] ∧
      ((withCopy (plainCopy .complete) id).setTeam 2 tm).drainFault 1 [5] = none) := by
  refine ⟨⟨reads_of ?_, ?_, ?_⟩, reads_of ?_, reads_of ?_, ?_⟩
  all_goals decide +kernel

/-- The moves of the copy of one row that are to come, of its first byte on. -/
def runAcc : Access := { acc (.copyRun [(0, 64)]) none with party := .copy 5, seq := 0, loc := 0, size := 0 }
def moving : State := { withCopy (plainCopy .running) id with pend := [(9, runAcc)] }

theorem witness_CopyMoves :
    tabGet? moving.pend 9 = some runAcc ∧ tabGet? moving.copies 5 = some (plainCopy .running) ∧ (plainCopy .running).slices[runAcc.seq]? = some oneRow ∧
    ((plainCopy .running).rows oneRow).len = 64 ∧ 9 < moving.nextId ∧ tabSortedFrom 0 moving.pend = true ∧
    (let x := moving.pickUnit [(0, 64)]
     let at_ (u : Nat) : Bool := (x.2.copyDest (plainCopy .running) oneRow (u / 64) (u % 64)).toOption == some (.byte (0x20200 + u)) &&
       (x.2.markAt (0x20200 + u) 1).isNone &&
       (x.2.copyByte 5 (plainCopy .running) (plainCopy .running).ss (oneRow.w0 + BitVec.ofNat 64 (u / 64 * lo32 oneRow.w3 + u % 64))).toOption.elim false
         fun y => !y.2.copyMoored (plainCopy .running) (0x20200 + u) 1 && decide (y.2.nextId = moving.nextId) && decide (y.2.pend = moving.pend)
     x.1.isSome = true ∧ ∀ u ∈ x.1, hasUnit [(0, 64)] u = true ∧ at_ u = true) := by decide +kernel

/-- A FOLD of the first of two layers, all its elements written. -/
theorem witness_FoldedEntry :
    let bs := toBytesLE 64 (small 2)
    let c := { folded [] true with kind := .fold 0 1 0x20500 0x20B00 bs }
    let s := withCmd (small 2) c
    let su := s.underEntry (.command 5) 0x20800
    c.holds = some 0x20800 ∧ bs.length = 64 ∧ (Handle.ofBytes bs).lcount - 1 = 1 ∧ (s.commandDest c 0x20B00 32).toOption = some 0x20B00 ∧
    (su.readVa (.command 5) none c.vf ((Handle.ofBytes bs).ptr + BitVec.ofNat 64 (32 * 1)) 32 .engine).toOption.elim false
      (fun x => !(x.2.commandWrite 5 0x20B00 x.1).swapping 0x20800 64) = true := by decide +kernel

/-- A team with an image, in which a window has written v2 of lane 0: an instruction that reads it, or that waited for it. -/
def windowed2 (st : Stall) : Team := { imaged with stall := st, past := [⟨.v 2 0, 50, 0, 0, []⟩] }

theorem witness_ImageWords :
    let s := base.setTeam 2 (windowed2 .none)
    let i : Instr := .add P .i32 (.r W)
    (s.regUses i).isSome = true ∧ (windowed2 .none).image ≠ 0 ∧ ((s.regUses i).elim false fun f =>
      (s.wordsRead 2 (windowed2 .none) i f (activeLanes tm0 P)).contains (.v 2 0) &&
        decide (((windowed2 .none).wordsWritten i f.us (activeLanes tm0 P)).contains (.v 8 0))) = true ∧
    ((windowed2 .none).wordOrder (.v 2 0)).any (·.own == 0) = true ∧ (windowed2 (.regs [.v 2 0])).stall = .regs [.v 2 0] ∧
    (windowed2 .none).isEmpty (.v 2 0) = false  ∧ (s.regUses (.beaconTick [])).isNone = true ∧
    activeLanes tm0 P ≠ [] ∧ tm0.image = 0 := by decide +kernel

theorem witness_HeldStorage :
    (let s (o : BitVec 16) := swapped (mailing o [0, 0, 0] (quiet magic))
     (s 7).held ≠ [] ∧ (s 8).held ≠ [] ∧ (s 7).mailbox.busy = true ∧ ((s 7).checkpointSpace false).toOption.isSome = true ∧ (s 7).packageIdle = true) ∧
    (let s := mailing 7 [0, 0, 0] { quiet magic with marks := [(0x20000 / 8, 1)] }
     s.ckptMarked = true ∧ (s.checkpointSpace false).toOption.isSome = true ∧ s.packageIdle = true) := by decide +kernel
end Sys2Proof.Tests
end

section
/-! PROOFS. Integer division and comparison (R102, R109): what wrapping and saturating do to a value (R39, R40), how an instruction
that writes a result or a mask bit for each lane meets its statement, and the two settled obligations. -/

namespace Sys2Proof.Proofs

open Machine Spec

/-! ### Wrapping and saturating (R39, R40) -/

theorem two_pow_cast_pos (n : Nat) : (0 : Int) < (2 ^ n : Nat) := Int.natCast_pos.mpr (Nat.two_pow_pos n)

theorem wrapBits_lt (n : Nat) (x : Int) : wrapBits n x < 2 ^ n := by
  have hlt := Int.emod_lt_of_pos x (two_pow_cast_pos n)
  have hpos := Nat.two_pow_pos n
  unfold wrapBits
  omega

theorem wrapBits_cast (n : Nat) (x : Int) : ((wrapBits n x : Nat) : Int) = x % (2 ^ n : Nat) :=
  Int.toNat_of_nonneg (Int.emod_nonneg x (Int.ne_of_gt (two_pow_cast_pos n)))

/-- The wrapped bits have the value of x up to a multiple of 2^n, at either signedness. -/
theorem intOf_wrapBits (signed : Bool) (n : Nat) (x : Int) :
    ∃ k : Int, intOf signed n (wrapBits n x) = x + k * (2 ^ n : Nat) := by
  have hmod : x % (2 ^ n : Nat) = x - x / (2 ^ n : Nat) * (2 ^ n : Nat) := by
    rw [Int.emod_def, Int.mul_comm]
  simp only [intOf, Nat.mod_eq_of_lt (wrapBits_lt n x), wrapBits_cast, hmod]
  split
  · exact ⟨-(x / (2 ^ n : Nat)) - 1, by rw [Int.sub_mul, Int.neg_mul, Int.one_mul]; omega⟩
  · exact ⟨-(x / (2 ^ n : Nat)), by rw [Int.neg_mul]; omega⟩

theorem intOf_range (signed : Bool) {n : Nat} (hn : 0 < n) (w : Nat) :
    intMin signed n ≤ intOf signed n w ∧ intOf signed n w ≤ intMax signed n := by
  obtain ⟨m, rfl⟩ : ∃ m, n = m + 1 := ⟨n - 1, by omega⟩
  have hlt := Nat.mod_lt w (Nat.two_pow_pos (m + 1))
  have hpow : 2 ^ (m + 1) = 2 * 2 ^ m := Nat.pow_succ'
  simp only [intOf, intMin, intMax, Nat.add_sub_cancel]
  generalize w % 2 ^ (m + 1) = u at hlt ⊢
  rw [hpow] at hlt ⊢
  cases signed with
  | false =>
    simp only [Bool.false_and, Bool.false_eq_true, if_false]
    omega
  | true =>
    simp only [Bool.true_and, decide_eq_true_eq, if_true]
    split <;> omega

theorem intMax_eq_intMin_add (signed : Bool) {n : Nat} (hn : 0 < n) : intMax signed n = intMin signed n + ((2 ^ n : Nat) - 1) := by
  obtain ⟨m, rfl⟩ : ∃ m, n = m + 1 := ⟨n - 1, by omega⟩
  have hpow : 2 ^ (m + 1) = 2 * 2 ^ m := Nat.pow_succ'
  cases signed <;> simp only [intMin, intMax, Nat.add_sub_cancel, Bool.false_eq_true, if_false, if_true] <;> omega

theorem intMin_le_intMax (signed : Bool) {n : Nat} (hn : 0 < n) : intMin signed n ≤ intMax signed n :=
  Int.le_trans (intOf_range signed hn 0).1 (intOf_range signed hn 0).2

/-- A multiple of N that is less than N away from zero is zero. -/
theorem eq_zero_of_mul_between {k N : Int} (hN : 0 < N) (hlo : -N < k * N) (hhi : k * N < N) : k = 0 := by
  have h1 : k < 1 := Int.lt_of_mul_lt_mul_right (by rwa [Int.one_mul]) (Int.le_of_lt hN)
  have h2 : -1 < k := Int.lt_of_mul_lt_mul_right (by rwa [Int.neg_mul, Int.one_mul]) (Int.le_of_lt hN)
  omega

/-- A value of the type's range is what its wrapped bits have: no other value of the range is congruent to it. -/
theorem intOf_wrapBits_of_range (signed : Bool) {n : Nat} (hn : 0 < n) {x : Int} (hlo : intMin signed n ≤ x)
    (hhi : x ≤ intMax signed n) : intOf signed n (wrapBits n x) = x := by
  obtain ⟨k, hk⟩ := intOf_wrapBits signed n x
  have hwidth := intMax_eq_intMin_add signed hn
  obtain ⟨hlo', hhi'⟩ := intOf_range signed hn (wrapBits n x)
  have hk0 : k = 0 := eq_zero_of_mul_between (two_pow_cast_pos n) (by omega) (by omega)
  rw [hk, hk0, Int.zero_mul, Int.add_zero]

theorem satInt_of_range {signed : Bool} {n : Nat} {x : Int} (hlo : intMin signed n ≤ x) (hhi : x ≤ intMax signed n) :
    satInt signed n x = x := by rw [satInt, if_neg (Int.not_lt.mpr hlo), if_neg (Int.not_lt.mpr hhi)]

theorem satInt_of_lt {signed : Bool} {n : Nat} {x : Int} (h : x < intMin signed n) : satInt signed n x = intMin signed n :=
  if_pos h

theorem satInt_of_gt {signed : Bool} {n : Nat} (hn : 0 < n) {x : Int} (h : intMax signed n < x) :
    satInt signed n x = intMax signed n := by
  have hle := Int.le_trans (intMin_le_intMax signed hn) (Int.le_of_lt h)
  rw [satInt, if_neg (Int.not_lt.mpr hle), if_pos h]

/-! ### The same at a type -/

theorem bits_pos (t : Ty) : 0 < t.bits := by cases t <;> decide

theorem least_eq_intMin (t : Ty) : least t = intMin t.isSigned t.bits := by
  simp only [least, intMin, Int.natCast_pow, Int.cast_ofNat_Int]

theorem greatest_eq_intMax (t : Ty) : greatest t = intMax t.isSigned t.bits := by
  simp only [greatest, intMax, Int.natCast_pow, Int.cast_ofNat_Int]

theorem fit_false (t : Ty) (x : Int) : fit t false x = (wrapBits t.bits x, 0) := rfl

theorem fit_true (t : Ty) (x : Int) : fit t true x =
    (wrapBits t.bits (satInt t.isSigned t.bits x), flagIf (satInt t.isSigned t.bits x != x) fSat) := rfl

theorem fit_false_wraps (t : Ty) (x : Int) : wraps t x (fit t false x) := by
  obtain ⟨k, hk⟩ := intOf_wrapBits t.isSigned t.bits x
  rw [Int.natCast_pow] at hk
  exact ⟨wrapBits_lt t.bits x, ⟨k, hk⟩, rfl⟩

/-- A value that the clamp leaves at y: the result has the value y, and SAT is set where y is not x. -/
theorem fit_true_of_satInt {t : Ty} {x y : Int} (hsat : satInt t.isSigned t.bits x = y) (hlo : intMin t.isSigned t.bits ≤ y)
    (hhi : y ≤ intMax t.isSigned t.bits) :
    value t (fit t true x).1 = y ∧ (fit t true x).2 = flagIf (y != x) fSat := by
  rw [fit_true, hsat]
  exact ⟨intOf_wrapBits_of_range _ (bits_pos t) hlo hhi, rfl⟩

theorem flagIf_bne_self (x : Int) (f : Flags) : flagIf (x != x) f = 0 := by rw [bne_self_eq_false]; rfl

theorem flagIf_bne_of_ne {x y : Int} (h : y ≠ x) (f : Flags) : flagIf (y != x) f = f := by rw [bne_iff_ne.mpr h]; rfl

theorem fit_true_saturates (t : Ty) (x : Int) : saturates t x (fit t true x) := by
  have hle := intMin_le_intMax t.isSigned (bits_pos t)
  rw [saturates, least_eq_intMin, greatest_eq_intMax]
  refine ⟨wrapBits_lt t.bits _, fun hlo hhi => ?inside, fun hlt => ?below, fun hgt => ?above⟩
  case inside =>
    have h := fit_true_of_satInt (satInt_of_range hlo hhi) hlo hhi
    rwa [flagIf_bne_self] at h
  case below =>
    have h := fit_true_of_satInt (satInt_of_lt hlt) (Int.le_refl _) hle
    rwa [flagIf_bne_of_ne (Int.ne_of_gt hlt)] at h
  case above =>
    have h := fit_true_of_satInt (satInt_of_gt (bits_pos t) hgt) hle (Int.le_refl _)
    rwa [flagIf_bne_of_ne (Int.ne_of_lt hgt)] at h

theorem fit_fitted (t : Ty) (sat : Bool) (x : Int) : fitted t sat x (fit t sat x) := by
  cases sat
  · exact fit_false_wraps t x
  · exact fit_true_saturates t x

/-! ### Meeting the statement of an instruction -/

/-- R8: step 4 admits m1 to m15 as a mask destination. -/
theorem mdUse_ok_iff (c : Counts) (d : Opd) : (mdUse d).ok c = true ↔ d.cls = .m ∧ d.num.toNat ≤ 15 ∧ d.num ≠ 0 := by
  obtain ⟨cls, num⟩ := d
  have hzero : num.toNat = 0 ↔ num = 0 := BitVec.toNat_inj (y := 0)
  cases cls
  case m => by_cases hle : num.toNat ≤ 15 <;> simp [Use.ok, mdUse, wantM, hzero, hle]
  all_goals simp [Use.ok, mdUse, wantM]

/-- An instruction of the lanewise shape computes whatever its lane function is in relation R with. -/
theorem computes_of_lanewise {i : Instr} {p : Pred} {ty : Ty} {d : Opd} {us : List Use} {R : Team → Nat → Nat × BitVec 8 → Prop}
    (f : Team → Nat → Nat × Flags) (hexec : ∀ s, exec i s = s.lanewise p ty d us f) (hR : ∀ tm l, R tm l (f tm l)) :
    Computes i p ty d us R := by
  intro s t tm hable
  obtain ⟨tm1, hnext, hwrote, hstatus⟩ := State.lanewise_able (ty := ty) (d := d) (f := f) hable
  exact ⟨tm1, f tm, (hexec s).trans hnext, hwrote, hstatus, fun l _ => hR tm l⟩

/-- As computes_of_lanewise, for the maskwise shape: a mask destination that step 4 admits is not m0. -/
theorem computesMask_of_maskwise {i : Instr} {p : Pred} {d : Opd} {us : List Use} {R : Team → Nat → Bool × BitVec 8 → Prop}
    (f : Team → Nat → Bool × Flags) (hexec : ∀ s, exec i s = s.maskwise p d us f) (hd : mdUse d ∈ us)
    (hR : ∀ tm l, R tm l (f tm l)) : ComputesMask i p d us R := by
  intro s t tm hable
  have hnum : d.num ≠ 0 := ((mdUse_ok_iff _ d).mp (hable.fields _ hd)).2.2
  obtain ⟨tm1, hnext, hwrote, hstatus⟩ := State.maskwise_able (d := d) (f := f) hable hnum
  exact ⟨tm1, f tm, (hexec s).trans hnext, hwrote, hstatus, fun l _ => hR tm l⟩

/-- A maskwise instruction with a destination that step 4 turns away. -/
theorem illegal_of_maskwise {i : Instr} {p : Pred} {d : Opd} {us : List Use} (f : Team → Nat → Bool × Flags)
    (hexec : ∀ s, exec i s = s.maskwise p d us f) (hd : mdUse d ∈ us) (hbad : d.cls ≠ .m ∨ d.num = 0)
    {s : State} {t : Nat} {tm : Team} (hcur : s.current = some (t, tm)) : Illegal i s t tm := by
  have hno : ¬(mdUse d).ok (s.counts tm) = true := by
    rw [mdUse_ok_iff]
    rintro ⟨hcls, -, hnum⟩
    exact hbad.elim (· hcls) hnum
  rw [Illegal, hexec, State.maskwise, State.alu, State.instruct_illegal hcur]
  rw [Bool.and_true, List.all_eq_false]
  exact ⟨_, hd, hno⟩

/-! ### DIV and REM (R102) -/

theorem exec_div (p : Pred) (t : Ty) (w : RI) (s : State) : exec (.div p t w) s =
    s.lanewise p t (riD w) (usesRI t w) fun tm l => fit t (riSat w) (divRem t (srcA tm t w l) (srcB tm t w l)).1 := rfl

theorem exec_rem (p : Pred) (t : Ty) (w : RI) (s : State) : exec (.rem p t w) s =
    s.lanewise p t (riD w) (usesRI t w) fun tm l => fit t false (divRem t (srcA tm t w l) (srcB tm t w l)).2 := rfl

theorem divRem_fst (t : Ty) (a b : Int) : (divRem t a b).1 =
    if b = 0 then (if t.isSigned = false then 2 ^ t.bits - 1 else if 0 ≤ a then -1 else 1) else Int.tdiv a b := by
  unfold divRem
  by_cases hb : b = 0 <;> simp [hb]

theorem divRem_snd (t : Ty) (a b : Int) : (divRem t a b).2 = if b = 0 then a else a - Int.tdiv a b * b := by
  unfold divRem
  by_cases hb : b = 0 <;> simp [hb]

/-- R85: where SAT is not used, the word has it zero. -/
theorem riSat_of_riFits {t : Ty} {rm : Bool} {w : RI} (h : riFits t false rm w = true) : riSat w = false := by
  cases w with
  | r w =>
    simp only [riFits, RShape.fits, Bool.false_or, Bool.and_eq_true, Bool.not_eq_true'] at h
    obtain ⟨⟨-, hsat⟩, -⟩ := h
    exact hsat
  | i w =>
    simp only [riFits, IWord.fits, Bool.false_or, Bool.and_eq_true, Bool.not_eq_true'] at h
    obtain ⟨⟨⟨-, hsat⟩, -⟩, -⟩ := h
    exact hsat

theorem wellFormed_div (p : Pred) (t : Ty) (w : RI) : wellFormed (.div p t w) = (p.ok && t.isInt && riFits t true false w) := rfl

theorem wellFormed_rem (p : Pred) (t : Ty) (w : RI) : wellFormed (.rem p t w) = (p.ok && t.isInt && riFits t false false w) := rfl

/-- Settles O1: each lane's result is that of divRem, fitted to the type as SAT asks. -/
theorem division : Obligations.Division := by
  intro p ty w
  simp only [wellFormed_div, wellFormed_rem, Bool.and_eq_true]
  refine ⟨?int, fun ⟨_, hfits⟩ => riSat_of_riFits hfits, fun _ => ⟨?div, ?rem⟩⟩
  case int =>
    rintro (⟨⟨-, hint⟩, -⟩ | ⟨⟨-, hint⟩, -⟩)
    · exact hint
    · exact hint
  case div =>
    refine computes_of_lanewise _ (exec_div p ty w) fun tm l => ?_
    rw [← divRem_fst]
    exact fit_fitted ..
  case rem =>
    refine computes_of_lanewise _ (exec_rem p ty w) fun tm l => ?_
    rw [← divRem_snd]
    exact fit_false_wraps ..

/-! ### CMP (R109) -/

theorem exec_cmp (p : Pred) (t : Ty) (cc : Cond) (w : RI) (s : State) : exec (.cmp p t cc w) s =
    s.maskwise p (riD w) (usesCmp t w) fun tm l => (intCompare cc (srcA tm t w l) (srcB tm t w l), 0) := rfl

theorem wellFormed_cmp (p : Pred) (t : Ty) (cc : Cond) (w : RI) :
    wellFormed (.cmp p t cc w) = (p.ok && t.isInt && riFits t false false w) := rfl

theorem mdUse_mem_usesCmp (t : Ty) (w : RI) : mdUse (riD w) ∈ usesCmp t w := by cases w <;> simp [usesCmp, riD]

/-- Settles O3: the lane's bit is intCompare of its sources, and step 4 admits m1 to m15 alone. -/
theorem integerComparison : Obligations.IntegerComparison := by
  intro p ty cc w
  simp only [wellFormed_cmp, Bool.and_eq_true]
  refine ⟨fun ⟨⟨_, hint⟩, _⟩ => hint, fun _ => ⟨?bits, fun s t tm hcur hbad => ?illegal⟩⟩
  case bits =>
    refine computesMask_of_maskwise _ (exec_cmp p ty cc w) (mdUse_mem_usesCmp ty w) fun tm l => ⟨rfl, ?_⟩
    cases cc <;> simp [intCompare]
  case illegal =>
    exact illegal_of_maskwise _ (exec_cmp p ty cc w) (mdUse_mem_usesCmp ty w) hbad hcur

end Sys2Proof.Proofs
end
